-- ==== Sys2Proof/Word.lean ====
section
/-! DEFINITION. The words of the block: 16-bit registers and 8-bit window bytes (20_memory.md R67, R69, R75). -/

namespace Sys2Proof

/-- One 16-bit hardware register as the transport carries it: a number, no byte order (R73 (a)). -/
abbrev Word := BitVec 16

/-- One value byte or one mask byte of a window position (R69). -/
abbrev Byte := BitVec 8

/-- A slot index as the command word and the request descriptor carry it: 8 bits (R91, R115). -/
abbrev Index := BitVec 8

end Sys2Proof
end

