-- ==== Sys2Proof/Config.lean ====
section
/-! DEFINITION. What an implementation fixes: the configuration record `Cfg` of 00_scope.md R8 with its layout table
`RL` (30_encoding.md R100), and the free values, constants with no body that stand where the spec leaves a value open. -/

namespace Sys2Proof

/-- The place of a field inside one 16-bit word: `offset` is the bit number of its least significant bit (R10).
The Field Codec's precondition `offset + width <= 16` (R140) is part of the value, so a field that crosses the top
of its word cannot be written down (R74, R143). -/
structure BitField where
  offset : Nat
  width  : Nat
  fits   : offset + width ≤ 16
deriving DecidableEq, Repr

/-- One row of the layout table: `(page, register, offset, width)` (R100). -/
structure FieldPos where
  page : Nat
  reg  : Nat
  bits : BitField
deriving DecidableEq, Repr

/-- The layout table `RL` (R100): the position of every named field, and the sizes that the page register ranges
follow from (R105): the number of header words, the number of action words, and how many of the 48 window bytes
page 0 carries after its header words. -/
structure Layout where
  nHdr : Nat
  nAct : Nat
  cut  : Nat
  -- page 0, the key fields and the sentinel (R101)
  ftMask : FieldPos
  tkMask : FieldPos
  ft : FieldPos
  tk : FieldPos
  vpri : FieldPos
  vid : FieldPos
  vpriMask : FieldPos
  vidMask : FieldPos
  pvec : FieldPos
  pvecMask : FieldPos
  tag : FieldPos
  -- page 2, the action fields (R103)
  cont : FieldPos
  nextId : FieldPos
  fpriOvr : FieldPos
  fpri : FieldPos
  qpriOvr : FieldPos
  qpri : FieldPos
  dpv : FieldPos
  flowMeter : FieldPos
  streamFilter : FieldPos
  cntEn : FieldPos
  cntId : FieldPos
  queueId : FieldPos
deriving DecidableEq, Repr

/-- The rows of the layout table that lie in the header words, in the order of R101. -/
def Layout.hdrFields (l : Layout) : List FieldPos :=
  [l.ftMask, l.tkMask, l.ft, l.tk, l.vpri, l.vid, l.vpriMask, l.vidMask, l.pvec, l.pvecMask, l.tag]

/-- The rows of the layout table that lie in the action words, in the order of R103. -/
def Layout.actFields (l : Layout) : List FieldPos :=
  [l.cont, l.nextId, l.fpriOvr, l.fpri, l.qpriOvr, l.qpri, l.dpv, l.flowMeter, l.streamFilter, l.cntEn, l.cntId,
   l.queueId]

/-- Bytes of the linear window, both windows of a rule: `L` is 0 to 95 (R13). -/
abbrev linearBytes : Nat := 96

/-- Bits of the linear window, `2 * WINDOW_BYTES * 8` (R13). -/
abbrev windowBits : Nat := 768

/-- The configuration record of R8. -/
structure Cfg where
  minIndex : Nat
  maxIndex : Nat
  /-- `WINDOW_BYTES`, bytes in one match window. -/
  windowBytes : Nat
  /-- `N_PAGES`, pages per slot. -/
  nPages : Nat
  /-- `TB`, the block address of the table's registers (R67). -/
  tb : Nat
  cmdOff : Nat
  extOff : Nat
  dataLo : Nat
  dataHi : Nat
  rl : Layout
  emptyTag : Word
  validTag : Word
  pollLimit : Nat
  nPorts : Nat
  maskOneIsCompare : Bool
deriving DecidableEq, Repr

/-! ## The environment: what other agents decide (10_state.md R20, R42) -/

/-- The transport's own error value (R303). The spec lists none of them: they are numbered, and nothing computes with
the number (DESIGN CHOICE, log entry 30). -/
abbrev TransportError := Nat

/-- How the register transport answers one access (R65, U11): it succeeds; or it fails with an error value of its own
and, if it was a write, the write did not reach the register (`lost`) or did reach it (`landed`). A failed read returns
no value in either case. -/
inductive Answer
  | ok
  | lost (e : TransportError)
  | landed (e : TransportError)
deriving DecidableEq, Repr, Inhabited

/-! ## Free values

Constants with no body: nothing can be proved of them but what holds for every value. -/

/-- `TB`, OPEN (R8, R67, decision D2). -/
opaque Config.tb : Nat

/-- `POLL_LIMIT - 1`: `POLL_LIMIT` is OPEN and at least 1 (R8, R233, decision D10). -/
opaque Config.pollExtra : Nat

/-- `MASK_ONE_IS_COMPARE`, OPEN (R8, R204, decision D21). -/
opaque Config.maskOneIsCompare : Bool

/-- What data register `dataLo + k` holds at reset (R41: unspecified; U14: drawn once). -/
opaque Config.powerUpData : Nat → Word

/-- What register `k` of page `p` of slot `i` holds at reset (R331: unspecified slot by slot; U14). -/
opaque Config.powerUpTable : (i p k : Nat) → Word

/-- What register `k` of page `p` of staging buffer `b` holds at reset (R27: unspecified; U14). -/
opaque Config.powerUpStage : (b p k : Nat) → Word

/-- What `CMD` bits 14:0 hold at reset (R31, R41: unspecified; U14). -/
opaque Config.powerUpCmd : BitVec 15

/-- What `EXT` holds at reset (R32, R41: unspecified; U14). -/
opaque Config.powerUpExt : Word

/-- The values of the window that `place` answers for a field that ends outside the 768 bits, of which the spec says
nothing (R180; DESIGN CHOICE, log entry 20). -/
opaque Config.placeOutsideValue (v m : BitVec windowBits) (L s w pattern mask : Nat) : BitVec windowBits

/-- The masks of that window. -/
opaque Config.placeOutsideMask (v m : BitVec windowBits) (L s w pattern mask : Nat) : BitVec windowBits

/-- What `hw_index` holds at reset (R28: unspecified; U14). -/
opaque Config.powerUpIndex : Index

end Sys2Proof
end

