-- ==== Sys2Proof/Machine/Codec.lean ====
section
/-! DEFINITION. The Field Codec (40_field_codec.md R140 to R144) and the words it builds: the command word
(30_encoding.md R93) and a window register (R96). -/

namespace Sys2Proof

/-- `width` ones at bit 0: `(1 << width) - 1` (R140). -/
def ones (width : Nat) : Word := BitVec.ofNat 16 (2 ^ width - 1)

/-- `setField(word, value, offset, width)` (R140): `value`, masked to `width` bits, goes to bit `offset`; every other
bit of `word` stays. Defined only where the precondition `offset + width <= 16` holds, which `BitField` carries (R143). -/
def setField (word value : Word) (f : BitField) : Word :=
  (word &&& ~~~(ones f.width <<< f.offset)) ||| ((value &&& ones f.width) <<< f.offset)

/-- `getField(word, offset, width)` (R141). -/
def getField (word : Word) (f : BitField) : Word := (word >>> f.offset) &&& ones f.width

/-- A field at a fixed place, its precondition found by evaluation. -/
abbrev bitField (offset width : Nat) (fits : offset + width ≤ 16 := by decide) : BitField := ⟨offset, width, fits⟩

/-- The fields of the command word (R91). -/
abbrev busyBits : BitField := bitField 15 1
@[inherit_doc busyBits] abbrev opBits : BitField := bitField 12 3
@[inherit_doc busyBits] abbrev pageBits : BitField := bitField 10 2
@[inherit_doc busyBits] abbrev indexBits : BitField := bitField 0 8

/-- `SUBBLOCK` of the selector word (R95). -/
abbrev subblockBits : BitField := bitField 0 2

/-- The value byte and the mask byte of a window register (R96). -/
abbrev valueBits : BitField := bitField 0 8
@[inherit_doc valueBits] abbrev maskBits : BitField := bitField 8 8

/-- Opcodes of the command word (R92). -/
abbrev opNop : BitVec 3 := 0
@[inherit_doc opNop] abbrev opFlushAll : BitVec 3 := 1
@[inherit_doc opNop] abbrev opFlushEntry : BitVec 3 := 2
@[inherit_doc opNop] abbrev opLoad : BitVec 3 := 3
@[inherit_doc opNop] abbrev opGetNext : BitVec 3 := 4
@[inherit_doc opNop] abbrev opRead : BitVec 3 := 5

/-- `cmdword(op, page, index)`, built with the Field Codec as R93 writes it. -/
def cmdword (op : BitVec 3) (page : BitVec 2) (index : Index) : Word :=
  setField (setField (setField (setField 0 1 busyBits) (op.setWidth 16) opBits) (page.setWidth 16) pageBits)
    (index.setWidth 16) indexBits

/-- A window register: mask byte in bits 15:8, value byte in bits 7:0 (R96). -/
def winWord (mask value : Byte) : Word :=
  setField (setField 0 (value.setWidth 16) valueBits) (mask.setWidth 16) maskBits

/-- The value byte of a window register (R96). -/
def winValue (r : Word) : Byte := (getField r valueBits).setWidth 8

/-- The mask byte of a window register (R96). -/
def winMask (r : Word) : Byte := (getField r maskBits).setWidth 8

end Sys2Proof
end

