-- ==== Sys2Proof/Machine/Layout.lean ====
section
/-! DEFINITION. What follows from the configuration record: page register ranges, the slot range, and the reference
layout RL0 (20_memory.md R70, R71; 30_encoding.md R100 to R106). -/

namespace Sys2Proof

/-- Two fields do not overlap: they lie in different registers, or their bit ranges are apart (R106). A field of width 0
that lies strictly inside another one counts as overlapping it, although they share no bit: R106 does not say (DESIGN
CHOICE, log entry 32). -/
def FieldPos.apart (f g : FieldPos) : Bool :=
  f.page != g.page || f.reg != g.reg ||
    f.bits.offset + f.bits.width ≤ g.bits.offset || g.bits.offset + g.bits.width ≤ f.bits.offset

/-- No two fields of the list overlap (R106). -/
def noOverlap : List FieldPos → Bool
  | [] => true
  | f :: fs => fs.all f.apart && noOverlap fs

/-- The number of registers in the data bank (R33: 30 under the default offsets). -/
def Cfg.bankSize (c : Cfg) : Nat := c.dataHi + 1 - c.dataLo

/-- How many registers of the bank page `p` uses, from `dataLo` upward: `PAGE_REGS(p)` of R70 (30, 24 and 5 under the
reference layout). There is no page 3. Under another layout the ranges may change (R105), and the spec does not say how:
that each page starts at `dataLo`, that page 0 holds the header words and then the window bytes below one cut, and page 1
the rest of the window, is RL0's arrangement kept for every layout (DESIGN CHOICE, log entry 33). -/
def Cfg.pageLen (c : Cfg) (p : Nat) : Nat :=
  match p with
  | 0 => c.rl.nHdr + c.rl.cut
  | 1 => c.windowBytes - c.rl.cut
  | 2 => c.rl.nAct
  | _ => 0

/-- Page `p` exists: pages are numbered from 0 to `N_PAGES - 1` (R8, R70). -/
def Cfg.hasPage (c : Cfg) (p : BitVec 2) : Bool := p.toNat < c.nPages

/-- The number of slots, `MIN_INDEX..MAX_INDEX` (R34). -/
def Cfg.slots (c : Cfg) : Nat := c.maxIndex + 1 - c.minIndex

/-- `MIN_INDEX <= i <= MAX_INDEX` (R232 (3)). -/
def Cfg.inRange (c : Cfg) (i : Index) : Bool := c.minIndex ≤ i.toNat && i.toNat ≤ c.maxIndex

/-- A header field lies in one of the header words of page 0. -/
def Cfg.hdrPosOk (c : Cfg) (f : FieldPos) : Bool :=
  f.page == 0 && c.dataLo ≤ f.reg && f.reg < c.dataLo + c.rl.nHdr

/-- An action field lies in one of the action words of page 2. -/
def Cfg.actPosOk (c : Cfg) (f : FieldPos) : Bool :=
  f.page == 2 && c.dataLo ≤ f.reg && f.reg < c.dataLo + c.rl.nAct

/-- The register is none of `KEY1`, `KEY2`, `KEY3`, the first three of the bank (R101, R244 (b)). -/
def Cfg.notKeyReg (c : Cfg) (r : Nat) : Bool := c.dataLo + 3 ≤ r

/-- The register offsets of page `p`, ascending: `PAGE_REGS(p)` (R70). -/
def Cfg.pageRegs (c : Cfg) (p : Nat) : List Nat := (List.range (c.pageLen p)).map (c.dataLo + ·)

/-- A row of the layout table (R101, R103); `fits` is found by evaluation. -/
def fieldPos (page reg offset width : Nat) (fits : offset + width ≤ 16 := by decide) : FieldPos :=
  { page := page, reg := reg, bits := { offset := offset, width := width, fits := fits } }

/-- The reference layout RL0 (R101 to R103, R105). R104 counts bit 7 of `hdr[0]` among the reserved bits, while R101's
table and R153's example put `FT` at bits 7:6: the model follows R101 (DEDUCED, log entry 29). -/
def rl0 : Layout where
  nHdr := 6
  nAct := 5
  cut := 24
  ftMask := fieldPos 0 0x02 14 2
  tkMask := fieldPos 0 0x02 13 1
  ft := fieldPos 0 0x02 6 2
  tk := fieldPos 0 0x02 5 1
  vpri := fieldPos 0 0x03 12 3
  vid := fieldPos 0 0x03 0 12
  vpriMask := fieldPos 0 0x04 12 3
  vidMask := fieldPos 0 0x04 0 12
  pvec := fieldPos 0 0x05 0 11
  pvecMask := fieldPos 0 0x06 0 11
  tag := fieldPos 0 0x07 0 8
  cont := fieldPos 2 0x02 15 1
  nextId := fieldPos 2 0x02 0 8
  fpriOvr := fieldPos 2 0x03 15 1
  fpri := fieldPos 2 0x03 12 3
  qpriOvr := fieldPos 2 0x03 11 1
  qpri := fieldPos 2 0x03 8 3
  dpv := fieldPos 2 0x04 0 11
  flowMeter := fieldPos 2 0x05 8 8
  streamFilter := fieldPos 2 0x05 0 8
  cntEn := fieldPos 2 0x06 15 1
  cntId := fieldPos 2 0x06 8 6
  queueId := fieldPos 2 0x06 0 3

/-- The ingress instance (R8): the values the document gives, the register offsets of decision D3, RL0, and the three
OPEN parameters as arguments. -/
def Cfg.ingress (tb pollLimit : Nat) (maskOneIsCompare : Bool) : Cfg where
  minIndex := 0
  maxIndex := 255
  windowBytes := 48
  nPages := 3
  tb := tb
  cmdOff := 0x00
  extOff := 0x01
  dataLo := 0x02
  dataHi := 0x1F
  rl := rl0
  emptyTag := 0x00
  validTag := 0x01
  pollLimit := pollLimit
  nPorts := 11
  maskOneIsCompare := maskOneIsCompare

end Sys2Proof
end

