-- ==== Sys2Proof/Syntax.lean ====
section
/-! DEFINITION. The operands of the operations (10_state.md R26, R30; 41_layout_mapper.md; 42_shape_mappers.md) and the
operations themselves: one constructor of `Instr` per row of opcode_table.json. -/

namespace Sys2Proof

/-! ## Operands -/

/-- `CompiledEntry`, "the binary image of one physical slot" (R26): header words (page 0), window value bytes, window
mask bytes, action words (page 2). How many words there are is the layout's (R105). -/
structure Entry where
  hdr : List Word
  wv  : List Byte
  wm  : List Byte
  act : List Word
deriving DecidableEq, Repr, Inhabited

/-- A (pattern, mask) pair of a protocol field of `w` bits (R30). -/
structure Pair (w : Nat) where
  pat  : BitVec w
  mask : BitVec w
deriving DecidableEq, Repr, Inhabited

/-- The key fields of a rule (R30). Each is the `value` operand of a `setField` (R153), a 16-bit number that the
codec masks to the width of its field. -/
structure KeyFields where
  ftMask : Word
  tkMask : Word
  ft : Word
  tk : Word
  vpri : Word
  vid : Word
  vpriMask : Word
  vidMask : Word
  pvec : Word
  pvecMask : Word
deriving DecidableEq, Repr, Inhabited

/-- The action descriptor of a rule (R30, R103); each field as in `KeyFields` (R156). -/
structure Actions where
  cont : Word
  nextId : Word
  fpriOvr : Word
  fpri : Word
  qpriOvr : Word
  qpri : Word
  dpv : Word
  flowMeter : Word
  streamFilter : Word
  cntEn : Word
  cntId : Word
  queueId : Word
deriving DecidableEq, Repr, Inhabited

/-- The 18-byte MAC/VLAN/EtherType part of a rule (R30, R154). -/
structure MacFields where
  da : Pair 48
  sa : Pair 48
  vtag : Pair 32
  etype : Pair 16
deriving DecidableEq, Repr, Inhabited

/-- The IPv4 header fields (R181). -/
structure IPv4 where
  ver : Pair 4
  ihl : Pair 4
  tos : Pair 8
  totLen : Pair 16
  ident : Pair 16
  flagsFrag : Pair 16
  ttl : Pair 8
  proto : Pair 8
  hcsum : Pair 16
  sip : Pair 32
  dip : Pair 32
deriving DecidableEq, Repr, Inhabited

/-- The IPv6 header fields (R182). -/
structure IPv6 where
  ver : Pair 4
  tc : Pair 8
  flow : Pair 20
  plen : Pair 16
  nxt : Pair 8
  hop : Pair 8
  sip6 : Pair 128
  dip6 : Pair 128
deriving DecidableEq, Repr, Inhabited

/-- The TCP header fields (R183, R184). -/
structure TCP where
  sport : Pair 16
  dport : Pair 16
  seq : Pair 32
  ack : Pair 32
  offFlags : Pair 16
  win : Pair 16
  csum : Pair 16
  urg : Pair 16
deriving DecidableEq, Repr, Inhabited

/-- The UDP header fields (R185, R186). -/
structure UDP where
  sport : Pair 16
  dport : Pair 16
  ulen : Pair 16
  ucsum : Pair 16
deriving DecidableEq, Repr, Inhabited

/-- The layer-3 and layer-4 fields of a rule together with its shape (R7, R110): the shape decides which fields there
are. `unsupported` is a rule that carries one of the tags 0b100 to 0b111; `low` is the tag's two low bits. -/
inductive Headers
  | ipv4Tcp (l3 : IPv4) (l4 : TCP)
  | ipv4Udp (l3 : IPv4) (l4 : UDP)
  | ipv6Tcp (l3 : IPv6) (l4 : TCP)
  | ipv6Udp (l3 : IPv6) (l4 : UDP)
  | unsupported (low : BitVec 2)
deriving DecidableEq, Repr, Inhabited

/-- The shape tag (R110). -/
def Headers.shape : Headers → BitVec 3
  | .ipv4Tcp _ _ => 0b000
  | .ipv4Udp _ _ => 0b001
  | .ipv6Tcp _ _ => 0b010
  | .ipv6Udp _ _ => 0b011
  | .unsupported low => 1#1 ++ low

/-- A `Rule`, "the caller-facing logical entity" (R30). -/
structure Rule where
  key : KeyFields
  mac : MacFields
  headers : Headers
  action : Actions
deriving DecidableEq, Repr, Inhabited

/-- The shape tag of a rule (R30, R110). -/
def Rule.shape (r : Rule) : BitVec 3 := r.headers.shape

/-- The linear window: the value bits and the mask bits of both windows of a rule, each read as one bit string of 768
bits (R13). String position `q` is bit `767 - q` of the vector, so linear byte 0 is the most significant byte. -/
structure Window where
  v : BitVec windowBits
  m : BitVec windowBits
deriving DecidableEq, Repr, Inhabited

/-! ## Operations -/

/-- The rows of opcode_table.json. Fields that a row's words carry are operands of its constructor, also where the
operation ignores them (R116), so that no bit of a word is dropped. -/
inductive Instr
  -- words written to the command register (format CMD, R91, R92)
  | cmdStore (op : BitVec 3) (page rsvd : BitVec 2) (index : Index)
  | nop (page rsvd : BitVec 2) (index : Index)
  | flushAllCmd (page rsvd : BitVec 2) (index : Index)
  | flushEntryCmd (page rsvd : BitVec 2) (index : Index)
  | loadCmd (page rsvd : BitVec 2) (index : Index)
  | getNextCmd (page rsvd : BitVec 2) (index : Index)
  | readCmd (page rsvd : BitVec 2) (index : Index)
  | cmdReserved6 (page rsvd : BitVec 2) (index : Index)
  | cmdReserved7 (page rsvd : BitVec 2) (index : Index)
  -- the word written to the selector register (format EXT, R95)
  | extSelect (rsvd : BitVec 14) (subblock : BitVec 2)
  -- requests (format REQ, R115, R116), with the operands that travel beside the descriptor
  | flushAll (port : BitVec 4) (index : Index)
  | flushEntry (port : BitVec 4) (index : Index)
  | loadEntry (port : BitVec 4) (index : Index) (entry : Option Entry)
  | getNextEntry (port : BitVec 4) (index : Index)
  | readEntry (port : BitVec 4) (index : Index)
  | findEntry (port : BitVec 4) (index : Index)
  | addPort (port : BitVec 4) (index : Index)
  | removePort (port : BitVec 4) (index : Index)
  | advConfig (port : BitVec 4) (index : Index) (index2 : Index) (rule : Option Rule)
  | reqReserved0 (port : BitVec 4) (index : Index)
  | reqReservedA (port : BitVec 4) (index : Index)
  | reqReservedB (port : BitVec 4) (index : Index)
  | reqReservedC (port : BitVec 4) (index : Index)
  | reqReservedD (port : BitVec 4) (index : Index)
  | reqReservedE (port : BitVec 4) (index : Index)
  | reqReservedF (port : BitVec 4) (index : Index)
  -- the Field Codec (R118, R140, R141)
  | setField (word value : Word) (offset width : BitVec 5)
  | getField (word : Word) (offset width : BitVec 5)
  -- the Protocol Shape Mappers (formats SHAPE_L3 and SHAPE_L4, R181 to R186); `udp` is bit 0 of the tag
  | mapIPv4 (udp : BitVec 1) (l3 : IPv4) (w : Window)
  | mapIPv6 (udp : BitVec 1) (l3 : IPv6) (w : Window)
  | mapTCPv4 (l4 : TCP) (w : Window)
  | mapUDPv4 (l4 : UDP) (w : Window)
  | mapTCPv6 (l4 : TCP) (w : Window)
  | mapUDPv6 (l4 : UDP) (w : Window)
  -- functions of a shape tag (format SHAPE, R110, R160, R165, R200)
  | shapeUnsupported (low : BitVec 2)
  | needsSecondSlot (shape : BitVec 2)
  | compile (rule : Rule) (slot2Index : Index)
  | decode (shape : BitVec 2) (first : Entry) (second : Option Entry)
  -- functions with structured operands (R118)
  | mapPrefix (mac : MacFields) (w : Window)
  | place (w : Window) (L s width pattern mask : Nat)
  | encodeKey (key : KeyFields) (e : Entry)
  | encodeActions (a : Actions)
  | pageImage (e : Entry) (page : BitVec 2)
  | entryOfPages (i0 i1 i2 : List Word)
  | link (first second : Entry) (slot2Index : Index) (action : Actions)
  | isSecondSlotUsed (second : Entry)
  | modifyPort (e : Entry) (port : BitVec 4) (add : Bool)
  | cmdword (op : BitVec 3) (page : BitVec 2) (index : Index)
deriving DecidableEq, Repr, Inhabited

end Sys2Proof
end

