-- ==== Sys2Proof/WellFormed.lean ====
section
/-! DEFINITION. Which configurations and which operands mean something: the conditions of 30_encoding.md R106 and
93_implementation_defined.md U15 on a configuration, and the sizes that R26, R70 and R105 give an entry and a page. -/

namespace Sys2Proof

/-! ## Configurations -/

/-- `0 <= MIN_INDEX <= MAX_INDEX <= 255` (R9, U15). -/
def Cfg.rangeOk (c : Cfg) : Bool := c.minIndex ≤ c.maxIndex && c.maxIndex ≤ 255

/-- `POLL_LIMIT` is at least 1 (R8, U15). -/
def Cfg.pollOk (c : Cfg) : Bool := 1 ≤ c.pollLimit

/-- `N_PORTS` is 1 to 16 (open parameters, 93 section 2). -/
def Cfg.portsOk (c : Cfg) : Bool := 1 ≤ c.nPorts && c.nPorts ≤ 16

/-- `EMPTY_TAG` and `VALID_TAG` are distinct 8-bit values (93 section 2), and the TAG field can hold them. -/
def Cfg.tagsOk (c : Cfg) : Bool :=
  c.emptyTag != c.validTag && c.emptyTag.toNat < 256 && c.validTag.toNat < 256 && 8 ≤ c.rl.tag.bits.width

/-- The command register, the selector and the data bank are different registers with 5-bit offsets (R67, R76). -/
def Cfg.offsetsOk (c : Cfg) : Bool :=
  c.dataLo ≤ c.dataHi && c.dataHi ≤ 0x1F && c.cmdOff ≤ 0x1F && c.extOff ≤ 0x1F && c.cmdOff != c.extOff &&
    (c.cmdOff < c.dataLo || c.dataHi < c.cmdOff) && (c.extOff < c.dataLo || c.dataHi < c.extOff)

/-- The window and the pages are those of the instance in scope: 48 bytes and pages 0, 1, 2 (R8; other values are the
egress instance's, R6; log entry 26). -/
def Cfg.shapeOk (c : Cfg) : Bool := c.windowBytes == 48 && c.nPages == 3

/-- Every page fits the data bank, the window is cut inside its bytes, and there are three key registers among the
header words (R70, R101, R105). -/
def Cfg.pagesOk (c : Cfg) : Bool :=
  3 ≤ c.rl.nHdr && c.rl.cut ≤ c.windowBytes &&
    c.pageLen 0 ≤ c.bankSize && c.pageLen 1 ≤ c.bankSize && c.pageLen 2 ≤ c.bankSize

/-- Header fields, `TAG` among them, lie in page 0's header words and action fields in page 2's words (R106). -/
def Cfg.placesOk (c : Cfg) : Bool := c.rl.hdrFields.all c.hdrPosOk && c.rl.actFields.all c.actPosOk

/-- No two fields of one register overlap (R106). -/
def Cfg.overlapOk (c : Cfg) : Bool := noOverlap c.rl.hdrFields && noOverlap c.rl.actFields

/-- `KEY1` to `KEY3` do not contain `TAG` unless `EMPTY_TAG` is 0 (R106). -/
def Cfg.keyRegsOk (c : Cfg) : Bool := c.emptyTag == 0 || c.notKeyReg c.rl.tag.reg

/-- `NEXT_ID` and the re-purposed key field are at least as wide as an index; the port vectors are `N_PORTS` wide
(R106). -/
def Cfg.widthsOk (c : Cfg) : Bool :=
  8 ≤ c.rl.nextId.bits.width && 8 ≤ c.rl.vid.bits.width && c.rl.pvec.bits.width == c.nPorts &&
    c.rl.pvecMask.bits.width == c.nPorts && c.rl.dpv.bits.width == c.nPorts

/-- A well-formed configuration: none of the conditions of U15 is broken. -/
def Cfg.wf (c : Cfg) : Bool :=
  c.rangeOk && c.pollOk && c.portsOk && c.tagsOk && c.offsetsOk && c.shapeOk && c.pagesOk && c.placesOk &&
    c.overlapOk && c.keyRegsOk && c.widthsOk

/-- A configuration the platform accepts. One that breaks a condition of U15 is rejected by having no value of this
type, and no rule checks the configuration again (R8). -/
abbrev Cfg.Checked := { c : Cfg // c.wf = true }

/-! ## Operands -/

/-- An entry has the numbers of words and bytes the layout gives it (R26, R105). -/
def Entry.wf (c : Cfg) (e : Entry) : Bool :=
  e.hdr.length == c.rl.nHdr && e.wv.length == c.windowBytes && e.wm.length == c.windowBytes && e.act.length == c.rl.nAct

/-- A page image has one word per register of its page (R150). -/
def pageWf (c : Cfg) (p : Nat) (image : List Word) : Bool := image.length == c.pageLen p

/-- The rule's shape tag is one of the four supported ones (R7, R110). -/
def Rule.supported (r : Rule) : Bool :=
  match r.headers with
  | .unsupported _ => false
  | _ => true

/-- The structured operands of an operation have the sizes the configuration gives them. A request whose entry or rule
is absent, or whose rule has an unsupported tag, is well formed: the block answers it (R232, R285). -/
def Instr.wf (c : Cfg) : Instr → Bool
  | .loadEntry _ _ (some e) => e.wf c
  | .compile r _ => r.supported
  | .decode _ first none => first.wf c
  | .decode _ first (some second) => first.wf c && second.wf c
  | .encodeKey _ e => e.wf c
  | .pageImage e _ => e.wf c
  | .entryOfPages i0 i1 i2 => pageWf c 0 i0 && pageWf c 1 i1 && pageWf c 2 i2
  | .link first second _ _ => first.wf c && second.wf c
  | .isSecondSlotUsed second => second.wf c
  | .modifyPort e _ _ => e.wf c
  | _ => true

end Sys2Proof
end

