-- ==== Sys2Proof/Machine/Operands.lean ====
section
/-! DEFINITION. The operand forms: fields of header and action words, bit strings of the match window and its bytes,
and entries as page images (00_scope.md R13; 41_layout_mapper.md R150 to R152; 42_shape_mappers.md R180). -/

namespace Sys2Proof

/-! ## Fields of the words of a page -/

/-- Writes the field of a layout row in the words of its page, the first of which is register `dataLo` (R101, R103). -/
def putReg (c : Cfg) (f : FieldPos) (value : Word) (words : List Word) : List Word :=
  words.modify (f.reg - c.dataLo) (fun w => setField w value f.bits)

/-- Reads the field of a layout row from the words of its page (R101, R103). -/
def getReg (c : Cfg) (f : FieldPos) (words : List Word) : Word := getField (words.getD (f.reg - c.dataLo) 0) f.bits

/-! ## The linear window -/

/-- The window in which every byte is value 0, mask 0 (R160). -/
def Window.zero : Window := ⟨0, 0⟩

/-- `w` ones at bit `low`. -/
def sliceMask (low w : Nat) : BitVec windowBits := BitVec.ofNat windowBits (2 ^ w - 1) <<< low

/-- The bit string with the `w` bits from bit `low` up replaced by the low `w` bits of `value`. -/
def setSlice (x : BitVec windowBits) (low w value : Nat) : BitVec windowBits :=
  (x &&& ~~~(sliceMask low w)) ||| (BitVec.ofNat windowBits (value % 2 ^ w) <<< low)

/-- The `w` bits from bit `low` up, as a number. -/
def getSlice (x : BitVec windowBits) (low w : Nat) : Nat := (x >>> low).toNat % 2 ^ w

/-- A field of `w` bits that starts at linear byte `L`, start bit `s`, ends inside the window, as it does in "every call
in this spec" (R180). -/
def placeFits (L s w : Nat) : Bool := 8 * L + s + w ≤ windowBits

/-- The bit of the vector where the field's least significant bit lies: the field takes string positions `8L+s` to
`8L+s+w-1`, most significant bit first (R13, R180). -/
def fieldLow (L s w : Nat) : Nat := windowBits - (8 * L + s + w)

/-- `place(W, L, s, w, pattern, mask)` (R180): pattern and mask, truncated to `w` bits, go to the same positions. -/
def place (W : Window) (L s w pattern mask : Nat) : Window :=
  ⟨setSlice W.v (fieldLow L s w) w pattern, setSlice W.m (fieldLow L s w) w mask⟩

/-- What `place` answers for a field that ends outside the window: the spec states no result, so a free one (DESIGN
CHOICE, log entry 20). -/
def placeFree (W : Window) (L s w pattern mask : Nat) : Window :=
  ⟨Config.placeOutsideValue W.v W.m L s w pattern mask, Config.placeOutsideMask W.v W.m L s w pattern mask⟩

/-- `extract(W, L, s, w)` (R180): the pattern and the mask that lie there. -/
def extract (W : Window) (L s w : Nat) : Nat × Nat :=
  (getSlice W.v (fieldLow L s w) w, getSlice W.m (fieldLow L s w) w)

/-- Where a protocol field of `w` bits lies in the linear window: its first linear byte and its start bit there, 0 for
bit 7 of the byte (R180). -/
structure WinPos (w : Nat) where
  byte : Nat
  start : Nat
deriving DecidableEq, Repr

/-- Places a field's pattern and mask at its position, in lock-step (R172). -/
def placeAt {w : Nat} (p : WinPos w) (f : Pair w) (W : Window) : Window :=
  place W p.byte p.start w f.pat.toNat f.mask.toNat

/-- Reads a field's pattern and mask back from its position (R165). -/
def readAt {w : Nat} (p : WinPos w) (W : Window) : Pair w :=
  ⟨BitVec.ofNat w (extract W p.byte p.start w).1, BitVec.ofNat w (extract W p.byte p.start w).2⟩

/-- The 96 bytes of a linear bit string, byte 0 first; within a byte the most significant bit comes first (R13). -/
def bytesOf (x : BitVec windowBits) : List Byte :=
  (List.range linearBytes).map fun L => x.extractLsb' (windowBits - 8 * (L + 1)) 8

/-- The linear bit string of 96 bytes, byte 0 first (R13). -/
def bitsOf (bytes : List Byte) : BitVec windowBits :=
  BitVec.ofNat windowBits (bytes.foldl (fun acc b => acc * 256 + b.toNat) 0)

/-! ## Entries and page images -/

/-- `ZERO_ENTRY`, the entry with every bit 0 (R26). -/
def zeroEntry (c : Cfg) : Entry :=
  ⟨List.replicate c.rl.nHdr 0, List.replicate c.windowBytes 0, List.replicate c.windowBytes 0,
    List.replicate c.rl.nAct 0⟩

/-- The window registers of an entry, one per byte position, bytes 0 to 47 (R71, R96). -/
def Entry.winRegs (e : Entry) : List Word := List.zipWith winWord e.wm e.wv

/-- `pageImage(E, p)` (R150), register `dataLo` first. Page 3 does not exist. -/
def pageImage (c : Cfg) (e : Entry) (p : Nat) : List Word :=
  match p with
  | 0 => e.hdr ++ e.winRegs.take c.rl.cut
  | 1 => e.winRegs.drop c.rl.cut
  | 2 => e.act
  | _ => []

/-- `entryOfPages(i0, i1, i2)` (R151). -/
def entryOfPages (c : Cfg) (i0 i1 i2 : List Word) : Entry :=
  let win := i0.drop c.rl.nHdr ++ i1
  ⟨i0.take c.rl.nHdr, win.map winValue, win.map winMask, i2⟩

/-- Window byte `b` of an entry, from its register (R71, R96). -/
def Entry.putWin (e : Entry) (b : Nat) (r : Word) : Entry :=
  { e with wv := e.wv.set b (winValue r), wm := e.wm.set b (winMask r) }

/-- Puts one register of page `p`, the `k`-th of the page, into a staging buffer: what `ReadPage` does with each value
it reads (R151, R236). -/
def Entry.putPageReg (c : Cfg) (e : Entry) (p k : Nat) (r : Word) : Entry :=
  match p with
  | 0 => if k < c.rl.nHdr then { e with hdr := e.hdr.set k r } else e.putWin (k - c.rl.nHdr) r
  | 1 => e.putWin (c.rl.cut + k) r
  | 2 => { e with act := e.act.set k r }
  | _ => e

end Sys2Proof
end

