-- ==== Sys2Proof/Machine/Flags.lean ====
section
/-! DEFINITION. The flags and predicates the block computes (10_state.md R36 to R39; 45_table_operations.md R238;
30_encoding.md R95). `used2` (R38) is `isSecondSlotUsed` of Machine/Mapper.lean. -/

namespace Sys2Proof

/-- `BUSY`, bit 15 of a command word (R36, R91). -/
def busyFlag (w : Word) : Bool := getField w busyBits != 0

/-- `SUBBLOCK` of a selector word is 0, the action context (R95, R72). -/
def actionContext (w : Word) : Bool := getField w subblockBits == 0

/-- `valid` of a slot or of an entry (R37): the TAG field of the header words differs from `EMPTY_TAG`. -/
def validWords (c : Cfg) (hdr : List Word) : Bool := getReg c c.rl.tag hdr != c.emptyTag

/-- `found` (R39): the index the device returned "equals the requested index exactly". -/
def foundFlag (hwIndex index : Index) : Bool := hwIndex == index

/-- The controller's test for "no higher valid entry", given that the index read back is `MAX_INDEX`: "the three key
registers of that slot are all zero" (R244). -/
def keysAllZero (k1 k2 k3 : Word) : Bool := k1 == 0 && k2 == 0 && k3 == 0

end Sys2Proof
end

