-- ==== Sys2Proof/Decode.lean ====
section
/-! DEFINITION. Decoding and encoding (30_encoding.md R90 to R125). An instruction arrives as a packet: the format
(which port of the block it is presented at), the word's bits, and the operands that do not fit a word (R115, R118). -/

namespace Sys2Proof

/-- The formats of opcode_table.json. Words of different formats are presented at different ports, so the same bits
may stand in several of them (R90); the functions of format SHAPE are each a piece of logic of their own (R118). -/
inductive Format
  | cmd
  | ext
  | req
  | codecSet
  | codecGet
  | shapeL3
  | shapeL4
  | shapeNeeds
  | shapeCompile
  | shapeDecode
  | fnMapPrefix
  | fnPlace
  | fnEncodeKey
  | fnEncodeActions
  | fnPageImage
  | fnEntryOfPages
  | fnLink
  | fnIsSecondSlotUsed
  | fnModifyPort
  | fnCmdword
deriving DecidableEq, Repr, Inhabited

/-- How many bits of a packet a word of the format has: the command, selector and request words 16 (R90), the codec
bundles 42 and 26 (R118), a shape tag 3 (R110), and none for the functions with structured operands alone. -/
def Format.nbits : Format → Nat
  | .cmd | .ext | .req => 16
  | .codecSet => 42
  | .codecGet => 26
  | .shapeL3 | .shapeL4 | .shapeNeeds | .shapeCompile | .shapeDecode => 3
  | _ => 0

/-- The operands that travel beside a word (R115, R118). -/
inductive Side
  | empty
  | entry (e : Option Entry)
  | adv (index2 : Index) (rule : Option Rule)
  | ipv4 (h : IPv4) (w : Window)
  | ipv6 (h : IPv6) (w : Window)
  | tcp (h : TCP) (w : Window)
  | udp (h : UDP) (w : Window)
  | compileOps (r : Rule) (slot2Index : Index)
  | entries (first : Entry) (second : Option Entry)
  | mac (f : MacFields) (w : Window)
  | place (w : Window) (L s width pattern mask : Nat)
  | key (k : KeyFields) (e : Entry)
  | actions (a : Actions)
  | page (e : Entry) (p : BitVec 2)
  | pages (i0 i1 i2 : List Word)
  | link (first second : Entry) (slot2Index : Index) (a : Actions)
  | second (e : Entry)
  | port (e : Entry) (p : BitVec 4) (add : Bool)
  | command (op : BitVec 3) (page : BitVec 2) (index : Index)
deriving DecidableEq, Repr, Inhabited

/-- An instruction as it is presented. A word sits in the low bits. -/
structure Packet where
  fmt  : Format
  bits : BitVec 48
  side : Side
deriving DecidableEq, Repr, Inhabited

/-- Why a packet is no instruction. -/
inductive DecodeError
  /-- a bit above the format's word is set -/
  | strayBits
  /-- the operands beside the word are not those of the operation -/
  | operands
  /-- the shape tag is 0b100 to 0b111 where the function is defined on the four supported tags only (R110, U2) -/
  | shapeTag
  /-- the tag of the word is not the tag the rule carries (R30) -/
  | ruleTag
deriving DecidableEq, Repr, Inhabited

/-- A word written to the command register (R91, R92): bit 15 clear starts nothing; otherwise the opcode decides. -/
def decodeCmd (w : Word) : Instr :=
  let op : BitVec 3 := w.extractLsb' 12 3
  let page : BitVec 2 := w.extractLsb' 10 2
  let rsvd : BitVec 2 := w.extractLsb' 8 2
  let index : Index := w.extractLsb' 0 8
  if w.extractLsb' 15 1 = 0#1 then .cmdStore op page rsvd index
  else if op = 0 then .nop page rsvd index
  else if op = 1 then .flushAllCmd page rsvd index
  else if op = 2 then .flushEntryCmd page rsvd index
  else if op = 3 then .loadCmd page rsvd index
  else if op = 4 then .getNextCmd page rsvd index
  else if op = 5 then .readCmd page rsvd index
  else if op = 6 then .cmdReserved6 page rsvd index
  else .cmdReserved7 page rsvd index

/-- The entry operand of a request, absent where none is presented (R115, decision D32). -/
def Side.entryOperand : Side → Option Entry
  | .entry e => e
  | _ => none

/-- `INDEX2` of a request, 0 where none is presented (R115). -/
def Side.index2Operand : Side → Index
  | .adv index2 _ => index2
  | _ => 0

/-- The rule operand of a request, absent where none is presented (R115, decision D32). -/
def Side.ruleOperand : Side → Option Rule
  | .adv _ rule => rule
  | _ => none

/-- A request descriptor with the operands beside it (R115, R116). Every descriptor is a request: a reserved `OPSEL`
and an absent operand are answered by the block, with `InvalidArgument` (R125), and operands that an operation does
not use are ignored. -/
def decodeReq (w : Word) (side : Side) : Instr :=
  let opsel : BitVec 4 := w.extractLsb' 12 4
  let port : BitVec 4 := w.extractLsb' 8 4
  let index : Index := w.extractLsb' 0 8
  if opsel = 0 then .reqReserved0 port index
  else if opsel = 1 then .flushAll port index
  else if opsel = 2 then .flushEntry port index
  else if opsel = 3 then .loadEntry port index side.entryOperand
  else if opsel = 4 then .getNextEntry port index
  else if opsel = 5 then .readEntry port index
  else if opsel = 6 then .findEntry port index
  else if opsel = 7 then .addPort port index
  else if opsel = 8 then .removePort port index
  else if opsel = 9 then .advConfig port index side.index2Operand side.ruleOperand
  else if opsel = 10 then .reqReservedA port index
  else if opsel = 11 then .reqReservedB port index
  else if opsel = 12 then .reqReservedC port index
  else if opsel = 13 then .reqReservedD port index
  else if opsel = 14 then .reqReservedE port index
  else .reqReservedF port index

/-- A layer-3 mapper: bit 2 of the tag is 0, bit 1 chooses the IP version (R110). -/
def decodeL3 (tag : BitVec 3) (side : Side) : Except DecodeError Instr :=
  let udp : BitVec 1 := tag.extractLsb' 0 1
  if tag.extractLsb' 2 1 = 1#1 then .error .shapeTag
  else if tag.extractLsb' 1 1 = 0#1 then
    match side with
    | .ipv4 h w => .ok (.mapIPv4 udp h w)
    | _ => .error .operands
  else
    match side with
    | .ipv6 h w => .ok (.mapIPv6 udp h w)
    | _ => .error .operands

/-- A layer-4 mapper (R110). -/
def decodeL4 (tag : BitVec 3) (side : Side) : Except DecodeError Instr :=
  match side with
  | .tcp h w =>
    if tag = 0 then .ok (.mapTCPv4 h w) else if tag = 2 then .ok (.mapTCPv6 h w)
    else if tag.extractLsb' 2 1 = 1#1 then .error .shapeTag else .error .operands
  | .udp h w =>
    if tag = 1 then .ok (.mapUDPv4 h w) else if tag = 3 then .ok (.mapUDPv6 h w)
    else if tag.extractLsb' 2 1 = 1#1 then .error .shapeTag else .error .operands
  | _ => if tag.extractLsb' 2 1 = 1#1 then .error .shapeTag else .error .operands

/-- `compile`: tags 0b100 to 0b111 are unsupported (R110, R160); a supported tag is the rule's own. -/
def decodeCompile (tag : BitVec 3) (side : Side) : Except DecodeError Instr :=
  if tag.extractLsb' 2 1 = 1#1 then .ok (.shapeUnsupported (tag.extractLsb' 0 2))
  else
    match side with
    | .compileOps r j => if r.shape = tag then .ok (.compile r j) else .error .ruleTag
    | _ => .error .operands

/-- `decode` of entries: tags 0b100 to 0b111 are unsupported (R110, R165). -/
def decodeEntries (tag : BitVec 3) (side : Side) : Except DecodeError Instr :=
  if tag.extractLsb' 2 1 = 1#1 then .ok (.shapeUnsupported (tag.extractLsb' 0 2))
  else
    match side with
    | .entries first second => .ok (.decode (tag.extractLsb' 0 2) first second)
    | _ => .error .operands

/-- The decoder: total, and what it cannot read it rejects by name. -/
def decode (p : Packet) : Except DecodeError Instr :=
  if p.bits.toNat < 2 ^ p.fmt.nbits then
    let w : Word := p.bits.setWidth 16
    let tag : BitVec 3 := p.bits.setWidth 3
    match p.fmt, p.side with
    | .cmd, .empty => .ok (decodeCmd w)
    | .ext, .empty => .ok (.extSelect (w.extractLsb' 2 14) (w.extractLsb' 0 2))
    | .req, side => .ok (decodeReq w side)
    | .codecSet, .empty =>
      .ok (.setField (p.bits.extractLsb' 26 16) (p.bits.extractLsb' 10 16) (p.bits.extractLsb' 5 5)
        (p.bits.extractLsb' 0 5))
    | .codecGet, .empty =>
      .ok (.getField (p.bits.extractLsb' 10 16) (p.bits.extractLsb' 5 5) (p.bits.extractLsb' 0 5))
    | .shapeL3, side => decodeL3 tag side
    | .shapeL4, side => decodeL4 tag side
    | .shapeNeeds, .empty =>
      if tag.extractLsb' 2 1 = 1#1 then .error .shapeTag else .ok (.needsSecondSlot (tag.extractLsb' 0 2))
    | .shapeCompile, side => decodeCompile tag side
    | .shapeDecode, side => decodeEntries tag side
    | .fnMapPrefix, .mac f w => .ok (.mapPrefix f w)
    | .fnPlace, .place w L s width pattern mask => .ok (.place w L s width pattern mask)
    | .fnEncodeKey, .key k e => .ok (.encodeKey k e)
    | .fnEncodeActions, .actions a => .ok (.encodeActions a)
    | .fnPageImage, .page e page => .ok (.pageImage e page)
    | .fnEntryOfPages, .pages i0 i1 i2 => .ok (.entryOfPages i0 i1 i2)
    | .fnLink, .link first second j a => .ok (.link first second j a)
    | .fnIsSecondSlotUsed, .second e => .ok (.isSecondSlotUsed e)
    | .fnModifyPort, .port e port add => .ok (.modifyPort e port add)
    | .fnCmdword, .command op page index => .ok (.cmdword op page index)
    | _, _ => .error .operands
  else .error .strayBits

/-! ## The encoder, written from the same tables -/

/-- A command word with all its fields (R91). -/
def cmdBits (busy : BitVec 1) (op : BitVec 3) (page rsvd : BitVec 2) (index : Index) : Word :=
  busy ++ op ++ page ++ rsvd ++ index

/-- A request descriptor (R115). -/
def reqBits (opsel port : BitVec 4) (index : Index) : Word := opsel ++ port ++ index

/-- A packet that holds a 16-bit word. -/
def wordPacket (fmt : Format) (w : Word) (side : Side := .empty) : Packet := ⟨fmt, w.setWidth 48, side⟩

/-- A packet that holds a shape tag. -/
def tagPacket (fmt : Format) (tag : BitVec 3) (side : Side := .empty) : Packet := ⟨fmt, tag.setWidth 48, side⟩

/-- The packet of an instruction. An unsupported tag is presented to `compile` (R110). -/
def encode : Instr → Packet
  | .cmdStore op page rsvd index => wordPacket .cmd (cmdBits 0 op page rsvd index)
  | .nop page rsvd index => wordPacket .cmd (cmdBits 1 0 page rsvd index)
  | .flushAllCmd page rsvd index => wordPacket .cmd (cmdBits 1 1 page rsvd index)
  | .flushEntryCmd page rsvd index => wordPacket .cmd (cmdBits 1 2 page rsvd index)
  | .loadCmd page rsvd index => wordPacket .cmd (cmdBits 1 3 page rsvd index)
  | .getNextCmd page rsvd index => wordPacket .cmd (cmdBits 1 4 page rsvd index)
  | .readCmd page rsvd index => wordPacket .cmd (cmdBits 1 5 page rsvd index)
  | .cmdReserved6 page rsvd index => wordPacket .cmd (cmdBits 1 6 page rsvd index)
  | .cmdReserved7 page rsvd index => wordPacket .cmd (cmdBits 1 7 page rsvd index)
  | .extSelect rsvd subblock => wordPacket .ext (rsvd ++ subblock)
  | .flushAll port index => wordPacket .req (reqBits 0x1 port index)
  | .flushEntry port index => wordPacket .req (reqBits 0x2 port index)
  | .loadEntry port index e => wordPacket .req (reqBits 0x3 port index) (.entry e)
  | .getNextEntry port index => wordPacket .req (reqBits 0x4 port index)
  | .readEntry port index => wordPacket .req (reqBits 0x5 port index)
  | .findEntry port index => wordPacket .req (reqBits 0x6 port index)
  | .addPort port index => wordPacket .req (reqBits 0x7 port index)
  | .removePort port index => wordPacket .req (reqBits 0x8 port index)
  | .advConfig port index index2 rule => wordPacket .req (reqBits 0x9 port index) (.adv index2 rule)
  | .reqReserved0 port index => wordPacket .req (reqBits 0x0 port index)
  | .reqReservedA port index => wordPacket .req (reqBits 0xA port index)
  | .reqReservedB port index => wordPacket .req (reqBits 0xB port index)
  | .reqReservedC port index => wordPacket .req (reqBits 0xC port index)
  | .reqReservedD port index => wordPacket .req (reqBits 0xD port index)
  | .reqReservedE port index => wordPacket .req (reqBits 0xE port index)
  | .reqReservedF port index => wordPacket .req (reqBits 0xF port index)
  | .setField word value offset width =>
    ⟨.codecSet, (word ++ value ++ offset ++ width : BitVec 42).setWidth 48, .empty⟩
  | .getField word offset width => ⟨.codecGet, (word ++ offset ++ width : BitVec 26).setWidth 48, .empty⟩
  | .mapIPv4 udp l3 w => tagPacket .shapeL3 (0b00#2 ++ udp) (.ipv4 l3 w)
  | .mapIPv6 udp l3 w => tagPacket .shapeL3 (0b01#2 ++ udp) (.ipv6 l3 w)
  | .mapTCPv4 l4 w => tagPacket .shapeL4 0b000 (.tcp l4 w)
  | .mapUDPv4 l4 w => tagPacket .shapeL4 0b001 (.udp l4 w)
  | .mapTCPv6 l4 w => tagPacket .shapeL4 0b010 (.tcp l4 w)
  | .mapUDPv6 l4 w => tagPacket .shapeL4 0b011 (.udp l4 w)
  | .shapeUnsupported low => tagPacket .shapeCompile (1#1 ++ low)
  | .needsSecondSlot shape => tagPacket .shapeNeeds (0#1 ++ shape)
  | .compile rule j => tagPacket .shapeCompile rule.shape (.compileOps rule j)
  | .decode shape first second => tagPacket .shapeDecode (0#1 ++ shape) (.entries first second)
  | .mapPrefix mac w => ⟨.fnMapPrefix, 0, .mac mac w⟩
  | .place w L s width pattern mask => ⟨.fnPlace, 0, .place w L s width pattern mask⟩
  | .encodeKey key e => ⟨.fnEncodeKey, 0, .key key e⟩
  | .encodeActions a => ⟨.fnEncodeActions, 0, .actions a⟩
  | .pageImage e page => ⟨.fnPageImage, 0, .page e page⟩
  | .entryOfPages i0 i1 i2 => ⟨.fnEntryOfPages, 0, .pages i0 i1 i2⟩
  | .link first second j a => ⟨.fnLink, 0, .link first second j a⟩
  | .isSecondSlotUsed second => ⟨.fnIsSecondSlotUsed, 0, .second second⟩
  | .modifyPort e port add => ⟨.fnModifyPort, 0, .port e port add⟩
  | .cmdword op page index => ⟨.fnCmdword, 0, .command op page index⟩

/-! ## Words of the opcode table -/

/-- The operands beside a word, every one of them zero: an entry or a rule that is present and all zero. -/
def zeroSide (c : Cfg) (fmt : Format) (w : Nat) : Side :=
  let zeroEntry : Entry :=
    ⟨List.replicate c.rl.nHdr 0, List.replicate c.windowBytes 0, List.replicate c.windowBytes 0,
      List.replicate c.rl.nAct 0⟩
  match fmt with
  | .req =>
    if w / 4096 = 3 then .entry (some zeroEntry)
    else if w / 4096 = 9 then .adv 0 (some ⟨default, default, .ipv4Tcp default default, default⟩)
    else .empty
  | .shapeL4 => if w % 2 = 0 then .tcp default default else .udp default default
  | _ => .empty

/-- The packet that a word of opcode_table.json stands for when only the word is given: its number of bits, in whole
bytes, tells the format. Sixteen bits are read as a request descriptor (the block's request port, R115), not as a
command or selector word; a shape tag selects the layer-4 mapper of its shape, or is unsupported. -/
def tablePacket (nbits w : Nat) : Option Packet :=
  let c := Cfg.ingress 0 1 true
  if nbits = 0 ∨ 48 < nbits then none
  else if nbits ≤ 8 then
    if w < 4 then some ⟨.shapeL4, BitVec.ofNat 48 w, zeroSide c .shapeL4 w⟩
    else if w < 8 then some ⟨.shapeCompile, BitVec.ofNat 48 w, .empty⟩
    else none
  else if nbits ≤ 16 then some ⟨.req, BitVec.ofNat 48 w, zeroSide c .req w⟩
  else if nbits ≤ 32 then some ⟨.codecGet, BitVec.ofNat 48 w, .empty⟩
  else some ⟨.codecSet, BitVec.ofNat 48 w, .empty⟩

/-- The instruction the decoder reads from a word of opcode_table.json. -/
def decodeTableWord (nbits w : Nat) : Option Instr :=
  match tablePacket nbits w with
  | none => none
  | some p =>
    match decode p with
    | .ok i => some i
    | .error _ => none

end Sys2Proof
end

