-- ==== Sys2Proof/Machine/State.lean ====
section
/-! DEFINITION. The state of the block (10_state.md): the controller's record `Ctl` (R21 to R29), what is seen through
the register transport (R31 to R35), and the model's own fields for the requesters and the environment (R20, R42). -/

namespace Sys2Proof.Machine

/-! ## Why a step stops -/

/-- What stops the machine with a fault. -/
inductive Fault
  /-- Raised by the register transport when an access names a register that does not exist: a block other than `TB`, or
  an offset that is neither the command register, the selector nor one of the data bank (R67, R76). The controller
  makes no such access in a state that `State.Inv` holds of. Safe: the spec says no such register is ever accessed. -/
  | noSuchRegister (block off : Nat)
deriving DecidableEq, Repr

/-- What the model refuses. -/
inductive Refusal
  /-- Raised by `exec` for an instruction that has no meaning in this model. Safe. -/
  | notModelled (mnemonic : String)
  /-- Raised by `setField` and `getField` with `offset + width > 16`: "a model must not return a value" (R143, U1). Safe. -/
  | codecPrecondition
  /-- Raised by a write to the command register while `BUSY` is 1 (R210, U3). Safe. -/
  | commandWhileBusy
  /-- Raised by a write to the selector or a data register while `BUSY` is 1 (R80, U4). Safe. -/
  | registerWhileBusy
  /-- Raised for a command word with `OP` 6 or 7 (R218, U5). Safe. -/
  | reservedOpcode
  /-- Raised for a `LOAD` or `READ` of page 3 (R215, U5). Safe. -/
  | reservedPage
  /-- Raised by `pageImage` for page 3: its operand is a page in 0..2 and page 3 does not exist (R70, R150). Safe. -/
  | noSuchPage
  /-- Raised by the device for a `LOAD` or `READ` of page 2 while `SUBBLOCK` is not 0 (R72, U6). Safe. -/
  | subblock
  /-- Raised by the device for a command whose `INDEX` is outside `MIN_INDEX..MAX_INDEX` (R214, U7). Safe. -/
  | indexOutsideTable
  /-- Raised when the device is asked to execute a command word other than the one it has latched: it has no such step
  (R211). The machine's step never asks. Safe. -/
  | commandNotLatched
  /-- Raised for a command or selector word that neither the controller presents, under the lock, nor the device: the
  block "never gives raw access" to its registers to a requester (R60, R66). Safe. -/
  | rawAccess
  /-- Raised by the fetch for a packet that is no instruction. Safe. -/
  | undecodable (e : DecodeError)
  /-- Raised by the fetch for an operand whose size is not the configuration's (R26, R70). Safe. -/
  | illFormedOperand
  /-- Raised when the sequencer stands at a position that is in no access list (R23). It never does in a state that
  `State.Inv` holds of. Safe. -/
  | noSuchPosition
deriving DecidableEq, Repr

/-! ## The controller -/

/-- The states of the Table Operation State Machine (R22). -/
inductive Fsm
  | idle
  | awaitingBusy
  | commandIssued
deriving DecidableEq, Repr, Inhabited

/-- The encoding R22 gives the three states. -/
def Fsm.code : Fsm → BitVec 2
  | .idle => 0
  | .awaitingBusy => 1
  | .commandIssued => 2

/-- The operation in progress with its operands (R23). `AdvConfig` is one or two lock tenures (R285):
`advCascade index1 index2` loads the cascade slot `index2` from `E2`, `advMain index1 index2 two` loads slot `index1`
from `E1`; `two` says that two slots are used. -/
inductive Op
  | flushAll
  | flushEntry (index : Index)
  | loadEntry (index : Index)
  | readEntry (index : Index)
  | getNextEntry (index : Index)
  | findEntry (index : Index)
  | addPort (index : Index) (port : BitVec 4)
  | removePort (index : Index) (port : BitVec 4)
  | advCascade (index1 index2 : Index)
  | advMain (index1 index2 : Index) (two : Bool)
deriving DecidableEq, Repr, Inhabited

/-- The error outcomes (R14, R121, R300). Inside the block a failure of the transport carries the transport's own error
value (R303). -/
inductive Cause
  | invalidArgument
  | notFound
  | timeout
  | transportFailure (e : TransportError)
deriving DecidableEq, Repr, Inhabited

/-- The value of an `Ok` outcome (R29, R282, R285). -/
inductive Value
  | unit
  | entry (e : Entry) (valid : Bool)
  | next (index : Index) (e : Entry)
  | found (e : Entry)
  | slotsUsed (n : Nat)
deriving DecidableEq, Repr, Inhabited

/-- `result` (R29). An outcome other than `Ok` carries its cause and nothing else: its other parts are unspecified
(decision D40). -/
inductive Result
  | ok (v : Value)
  | err (c : Cause)
deriving DecidableEq, Repr, Inhabited

/-- What a combinational function answers to the requester that called it (R42: no state of the block). -/
inductive FnValue
  | none
  | word (w : Word)
  | flag (b : Bool)
  | words (ws : List Word)
  | window (w : Window)
  | entry (e : Entry)
  | entries (es : List Entry)
  | rule (r : Rule)
  | invalidArgument
deriving DecidableEq, Repr, Inhabited

/-! ## Behind the register transport -/

/-- One slot: its three page images, register `dataLo` first (R34). -/
structure Slot where
  p0 : List Word
  p1 : List Word
  p2 : List Word
deriving DecidableEq, Repr, Inhabited

/-- The device's latched command `(op, page, index)` (R35). -/
structure DevCmd where
  op : BitVec 3
  page : BitVec 2
  index : Index
deriving DecidableEq, Repr, Inhabited

/-! ## Requesters -/

/-- A request a requester has submitted and waits for (R20 (a)). -/
structure Submission where
  who : Nat
  packet : Packet
deriving DecidableEq, Repr, Inhabited

/-- What happens next (R20): the device takes its one step `DevComplete` (R211); the transport answers the next access
of the operation that holds the lock (R61 to R65); the waiting request with this number gets its turn (U12); or a
requester submits a request (R20 (a)). -/
inductive Move
  | device
  | access (a : Answer)
  | request (k : Nat)
  | submit (q : Submission)
deriving DecidableEq, Repr, Inhabited

/-- The `n`-th free move of the environment (U10, U11, U12): when the device completes, how the transport answers, who
submits what, which waiting requester gets the lock. A constant with no body: nothing can be proved of it but what holds
for every value. -/
opaque Config.move : Nat → Move

/-- Who presents the instruction that `exec` runs (R20): a requester at one of the block's ports; the controller, whose
register writes are words of `CMD` and `EXT` and are made under the lock (R66); or the table device, whose instructions
are the command words it has latched. -/
inductive Turn
  | port
  | controller
  | device
deriving DecidableEq, Repr, Inhabited

/-! ## The state -/

/-- The state of the block, plain data. -/
structure State where
  /-- The configuration, fixed for the life of the machine (R8). -/
  cfg : Cfg.Checked
  /-- `fsm` (R22). -/
  fsm : Fsm
  /-- `lock_owner` (R24). -/
  lockOwner : Option Nat
  /-- `op` of the sequencer position (R23); there is none while `Idle`. -/
  op : Option Op
  /-- `phase` of the sequencer position: commands issued so far in the operation (R23). -/
  phase : Nat
  /-- `step` of the sequencer position: the place in the access list of the current phase (R23). -/
  seqStep : Nat
  /-- `poll_cnt` (R25). -/
  pollCnt : Nat
  /-- `E1` (R27). -/
  e1 : Entry
  /-- `E2` (R27). -/
  e2 : Entry
  /-- `hw_index` (R28). -/
  hwIndex : Index
  /-- The model's own: `k1`, `k2`, `k3` of `GetNextBody` (R238). -/
  key1 : Word
  key2 : Word
  key3 : Word
  /-- `result` (R29), and the model's own: the requester it went to. -/
  result : Result
  resultFor : Nat
  /-- `CMD` (R31). -/
  cmd : Word
  /-- `EXT` (R32). -/
  ext : Word
  /-- `DATA`, register `dataLo` first (R33). -/
  data : List Word
  /-- `TABLE`, slot `MIN_INDEX` first (R34). -/
  table : List Slot
  /-- `dev_cmd` (R35). -/
  devCmd : Option DevCmd
  /-- The model's own: the requests that wait for their outcome, the one in progress among them (R20, R230). -/
  requests : List Submission
  /-- The model's own: the requesters whose `AdvConfig` has loaded its cascade slot and waits for its second tenure
  (R285). -/
  cascaded : List Nat
  /-- The model's own: the requester on whose behalf `exec` runs, and who presents the instruction (R20). -/
  caller : Nat
  turn : Turn
  /-- The model's own: what a combinational function answered last, and to whom (R42). -/
  fnOut : FnValue
  fnFor : Nat
  /-- The model's own: moves of the environment that are already decided, next one first; when there are none, the
  `drawn`-th free move of Config is next (R42, U10 to U12). -/
  sched : List Move
  drawn : Nat
deriving DecidableEq, Repr

/-- The configuration record of a state. -/
abbrev State.conf (s : State) : Cfg := s.cfg.val

/-! ## Reset -/

/-- The ingress instance of R8 with its OPEN parameters free. -/
def resetCfg : Cfg := Cfg.ingress Config.tb (Config.pollExtra + 1) Config.maskOneIsCompare

theorem resetCfg_wf : resetCfg.wf = true := by
  have hpoll : resetCfg.pollOk = true := by
    simp [resetCfg, Cfg.pollOk, Cfg.ingress]
  have hrest : (resetCfg.rangeOk && resetCfg.portsOk && resetCfg.tagsOk && resetCfg.offsetsOk && resetCfg.shapeOk &&
      resetCfg.pagesOk && resetCfg.placesOk && resetCfg.overlapOk && resetCfg.keyRegsOk &&
      resetCfg.widthsOk) = true := by decide
  simp only [Bool.and_eq_true] at hrest
  simp only [Cfg.wf, Bool.and_eq_true, hpoll, and_true]
  tauto

/-- What `result` holds at reset (R29, R41: unspecified). -/
opaque powerUpResult : Result

/-- What page `p` of slot or buffer `draw` holds at reset: whatever the free values are (U14). -/
def powerUpPage (c : Cfg) (draw : Nat → Nat → Word) (p : Nat) : List Word := (List.range (c.pageLen p)).map (draw p)

/-- A staging buffer at reset (R27: unspecified). -/
def powerUpEntry (c : Cfg) (b : Nat) : Entry :=
  entryOfPages c (powerUpPage c (Config.powerUpStage b) 0) (powerUpPage c (Config.powerUpStage b) 1)
    (powerUpPage c (Config.powerUpStage b) 2)

/-- A slot at reset (R331: unspecified, it may read as valid with any content). -/
def powerUpSlot (c : Cfg) (i : Nat) : Slot :=
  ⟨powerUpPage c (Config.powerUpTable i) 0, powerUpPage c (Config.powerUpTable i) 1,
    powerUpPage c (Config.powerUpTable i) 2⟩

/-- The machine right after reset (R41, R330): the controller idle with the lock free, the device not busy with no
latched command, `poll_cnt` 0; what R41 leaves unspecified holds whatever it holds, one free value each (U14). The
fields that are the model's own start empty (log entry 4). -/
def State.reset : State where
  cfg := ⟨resetCfg, resetCfg_wf⟩
  fsm := .idle
  lockOwner := none
  op := none
  phase := 0
  seqStep := 0
  pollCnt := 0
  e1 := powerUpEntry resetCfg 0
  e2 := powerUpEntry resetCfg 1
  hwIndex := Config.powerUpIndex
  key1 := 0
  key2 := 0
  key3 := 0
  result := powerUpResult
  resultFor := 0
  cmd := 0#1 ++ Config.powerUpCmd
  ext := Config.powerUpExt
  data := (List.range resetCfg.bankSize).map Config.powerUpData
  table := (List.range resetCfg.slots).map fun k => powerUpSlot resetCfg (resetCfg.minIndex + k)
  devCmd := none
  requests := []
  cascaded := []
  caller := 0
  turn := .port
  fnOut := .none
  fnFor := 0
  sched := []
  drawn := 0

end Sys2Proof.Machine
end

