-- ==== Sys2Proof/Machine/Ops.lean ====
section
/-! DEFINITION. The named operations over registers, table and lock that every meaning is written with: the register
transport (20_memory.md R60 to R65), slots (10_state.md R34), the lock (45_table_operations.md R230, R231), the delivery
of an outcome (R29), and the abort sequence (60_exceptions.md R310). -/

namespace Sys2Proof.Machine

/-- What an operation answers. -/
abbrev Out := Host.Outcome State Fault Refusal

/-- Goes on with the next state, if there is one. -/
def andThen (o : Out) (f : State → Out) : Out :=
  match o with
  | .next s => f s
  | .fault r => .fault r
  | .refused r => .refused r

/-! ## The register transport -/

/-- `BUSY` of the command register (R36). -/
def State.busy (s : State) : Bool := busyFlag s.cmd

/-- `T.read(block, off)` (R61); `none` where there is no such register (R67). A read has no side effect (R75). -/
def readReg (s : State) (block off : Nat) : Option Word :=
  if block = s.conf.tb then
    if off = s.conf.cmdOff then some s.cmd
    else if off = s.conf.extOff then some s.ext
    else if s.conf.dataLo ≤ off then s.data[off - s.conf.dataLo]?
    else none
  else none

/-- `T.readField(block, off, bo, bw)` (R63). -/
def readField (s : State) (block off : Nat) (f : BitField) : Option Word :=
  (readReg s block off).map (getField · f)

/-- A write to `CMD` (R210): with bit 15 set it latches a command, with bit 15 clear it stores the word. It is refused
while `BUSY` is 1 (U3), and a command word with a reserved opcode or page is refused (U5, R218). -/
def writeCmd (s : State) (w : Word) : Out :=
  let op : BitVec 3 := (getField w opBits).setWidth 3
  let page : BitVec 2 := (getField w pageBits).setWidth 2
  if s.busy then .refused .commandWhileBusy
  else if !busyFlag w then .next { s with cmd := w }
  else if op = 6 ∨ op = 7 then .refused .reservedOpcode
  else if (op = opLoad ∨ op = opRead) ∧ !s.conf.hasPage page then .refused .reservedPage
  else .next { s with cmd := w, devCmd := some ⟨op, page, (getField w indexBits).setWidth 8⟩ }

/-- A write to `EXT` (R32, R62); refused while `BUSY` is 1 (U4). -/
def writeExt (s : State) (w : Word) : Out :=
  if s.busy then .refused .registerWhileBusy else .next { s with ext := w }

/-- A write to the `k`-th register of the data bank (R33, R62); refused while `BUSY` is 1 (U4). -/
def writeData (s : State) (k : Nat) (w : Word) : Out :=
  if s.busy then .refused .registerWhileBusy else .next { s with data := s.data.set k w }

/-- `T.write(block, off, v)` (R62). -/
def writeReg (s : State) (block off : Nat) (w : Word) : Out :=
  if block = s.conf.tb then
    if off = s.conf.cmdOff then writeCmd s w
    else if off = s.conf.extOff then writeExt s w
    else if s.conf.dataLo ≤ off ∧ off - s.conf.dataLo < s.data.length then writeData s (off - s.conf.dataLo) w
    else .fault (.noSuchRegister block off)
  else .fault (.noSuchRegister block off)

/-- `T.writeField(block, off, bo, bw, v)` (R64): a read and a write of the whole register. -/
def writeField (s : State) (block off : Nat) (f : BitField) (v : Word) : Out :=
  match readReg s block off with
  | some w => writeReg s block off (setField w v f)
  | none => .fault (.noSuchRegister block off)

/-! ## Slots -/

/-- `EMPTY_SLOT` (R34). -/
def emptySlot (c : Cfg) : Slot :=
  ⟨putReg c c.rl.tag c.emptyTag (List.replicate (c.pageLen 0) 0), List.replicate (c.pageLen 1) 0,
    List.replicate (c.pageLen 2) 0⟩

/-- Page `p` of a slot. -/
def Slot.page (t : Slot) (p : Nat) : List Word :=
  match p with
  | 0 => t.p0
  | 1 => t.p1
  | 2 => t.p2
  | _ => []

/-- A slot with page `p` replaced. -/
def Slot.withPage (t : Slot) (p : Nat) (image : List Word) : Slot :=
  match p with
  | 0 => { t with p0 := image }
  | 1 => { t with p1 := image }
  | 2 => { t with p2 := image }
  | _ => t

/-- Where slot `i` lies in the table, the first slot being `MIN_INDEX` (R34). -/
def slotNo (c : Cfg) (i : Index) : Nat := i.toNat - c.minIndex

/-- `TABLE[i]` (R34). -/
def State.slot (s : State) (i : Index) : Slot := s.table.getD (slotNo s.conf i) (emptySlot s.conf)

/-- The state with `TABLE[i]` replaced. -/
def State.putSlot (s : State) (i : Index) (t : Slot) : State :=
  { s with table := s.table.set (slotNo s.conf i) t }

/-- `valid(TABLE[i])` (R37). -/
def State.validAt (s : State) (i : Index) : Bool := validWords s.conf (s.slot i).p0

/-! ## A request, from its submission to its outcome -/

/-- The packet is what a requester may submit: an operation or a combinational function whose operands have their sizes;
words of the block's registers are not among them (R60, R66). -/
def isRequest (c : Cfg) (p : Packet) : Bool :=
  p.fmt != .cmd && p.fmt != .ext &&
    match decode p with
    | .ok i => i.wf c
    | .error _ => false

/-- A requester submits a request, which then waits (R20 (a), R230). A requester that waits for an outcome is blocked and
submits nothing; a packet that is no request is no submission (DESIGN CHOICE, log entry 23). -/
def State.submit (s : State) (q : Submission) : State :=
  { s with
    requests :=
      if s.requests.all (fun p => p.who != q.who) && isRequest s.conf q.packet then s.requests ++ [q]
      else s.requests }

/-- The outcome goes to the requester on whose behalf the operation ran, which then waits no longer (R29, R231). -/
def State.deliver (s : State) (r : Result) : State :=
  { s with
    result := r, resultFor := s.caller, requests := s.requests.filter (fun q => q.who != s.caller),
    cascaded := s.cascaded.filter (fun w => w != s.caller) }

/-- A combinational function answers its caller; no state of the block changes (R42). -/
def State.answer (s : State) (v : FnValue) : State :=
  { s with fnOut := v, fnFor := s.caller, requests := s.requests.filter (fun q => q.who != s.caller) }

/-! ## The lock -/

/-- `Acquire` (R230), for the requester on whose behalf `exec` runs; the first wait starts with `poll_cnt` 0 (R25). -/
def State.acquire (s : State) (op : Op) : State :=
  { s with
    lockOwner := some s.caller, fsm := .awaitingBusy, op := some op, phase := 0, seqStep := 0, pollCnt := 0 }

/-- `Release` (R231): back to `Idle`, the lock free, the sequencer position discarded (R23). -/
def State.release (s : State) : State :=
  { s with lockOwner := none, fsm := .idle, op := none, phase := 0, seqStep := 0 }

/-- An operation ends with `Ok(v)` (R231). -/
def State.endOk (s : State) (v : Value) : State := s.release.deliver (.ok v)

/-- The abort sequence, the one way an operation raises an error (R310, R237): no further access, `Idle`, the lock free,
the cause to the requester; nothing is saved, restored or undone. `E1`, `E2` and `hw_index`, unspecified to the requester
(U13), keep what they hold: DESIGN CHOICE, log entry 31. -/
def State.abort (s : State) (c : Cause) : State := s.release.deliver (.err c)

/-! ## Status -/

/-- The four statuses a requester sees (R120). -/
inductive Status
  | ok
  | invalidArgument
  | notFound
  | fail
deriving DecidableEq, Repr

/-- The code of a status (R120). -/
def Status.code : Status → BitVec 2
  | .ok => 0
  | .invalidArgument => 1
  | .notFound => 2
  | .fail => 3

/-- The internal cause code of an outcome (R121). -/
def Result.causeCode : Result → BitVec 3
  | .ok _ => 0
  | .err .invalidArgument => 1
  | .err .notFound => 2
  | .err .timeout => 3
  | .err (.transportFailure _) => 4

/-- The status mapping of the Rule-Level API (R281, R303): `Timeout` and `TransportFailure`, whatever the transport's
error value, are both `Fail`. -/
def Result.status : Result → Status
  | .ok _ => .ok
  | .err .invalidArgument => .invalidArgument
  | .err .notFound => .notFound
  | .err .timeout => .fail
  | .err (.transportFailure _) => .fail

end Sys2Proof.Machine
end

