-- ==== Sys2Proof/Machine/Device.lean ====
section
/-! DEFINITION. The table device (44_device_commands.md R210 to R219): the effect of each command and its one step,
`DevComplete`. -/

namespace Sys2Proof.Machine

/-- What every command ends with (R211): `BUSY` clears, the latch empties, the other bits of `CMD` stay. -/
def State.complete (s : State) : State := { s with cmd := setField s.cmd 0 busyBits, devCmd := none }

/-- `NOP` (R212). -/
def devNop (s : State) : Out := .next s.complete

/-- `FLUSH_ALL` (R213). -/
def devFlushAll (s : State) : Out :=
  .next ({ s with table := List.replicate s.conf.slots (emptySlot s.conf) } : State).complete

/-- `FLUSH_ENTRY` (R214). -/
def devFlushEntry (s : State) (i : Index) : Out :=
  if s.conf.inRange i then .next (s.putSlot i (emptySlot s.conf)).complete else .refused .indexOutsideTable

/-- What `LOAD` and `READ` ask first: an index of the table (U7), a page that exists (U5), and sub-block 0 for page 2
(U6, R72). -/
def pageAccess (s : State) (page : BitVec 2) (i : Index) (k : Out) : Out :=
  if !s.conf.inRange i then .refused .indexOutsideTable
  else if !s.conf.hasPage page then .refused .reservedPage
  else if page = 2 ∧ !actionContext s.ext then .refused .subblock
  else k

/-- `LOAD` (R215): the registers of the page go from the data bank into the slot. -/
def devLoad (s : State) (page : BitVec 2) (i : Index) : Out :=
  pageAccess s page i <|
    .next (s.putSlot i ((s.slot i).withPage page.toNat (s.data.take (s.conf.pageLen page.toNat)))).complete

/-- The data bank with its first registers replaced by a page image; the others stay (R217). -/
def overlay (data image : List Word) : List Word := image ++ data.drop image.length

/-- `READ` (R217): the registers of the page go from the slot into the data bank. -/
def devRead (s : State) (page : BitVec 2) (i : Index) : Out :=
  pageAccess s page i <|
    .next ({ s with data := overlay s.data ((s.slot i).page page.toNat) } : State).complete

/-- Where `GET_NEXT` starts to search (R216): above `i`, or at `MIN_INDEX` when `i` is `MAX_INDEX`. -/
def searchStart (c : Cfg) (i : Index) : Nat := if i.toNat = c.maxIndex then c.minIndex else i.toNat + 1

/-- The index `GET_NEXT` answers (R216): the lowest valid slot from the start upward, or `MAX_INDEX` if there is none. -/
def nextValid (s : State) (i : Index) : Index :=
  let start := searchStart s.conf i
  let candidates := (List.range (s.conf.maxIndex + 1 - start)).map fun k => BitVec.ofNat 8 (start + k)
  (candidates.find? s.validAt).getD (BitVec.ofNat 8 s.conf.maxIndex)

/-- `GET_NEXT` (R216): the answer goes into `CMD[7:0]`, page 0 of that slot into the data bank. -/
def devGetNext (s : State) (i : Index) : Out :=
  if s.conf.inRange i then
    let j := nextValid s i
    .next ({ s with
      cmd := setField s.cmd (j.setWidth 16) indexBits, data := overlay s.data (s.slot j).p0 } : State).complete
  else .refused .indexOutsideTable

/-- `DevComplete` (R211): the effect of the latched command, in one atomic step; with no command latched the device has
no step and nothing happens. -/
def devComplete (s : State) : Out :=
  match s.devCmd with
  | none => .next s
  | some d =>
    if d.op = opNop then devNop s
    else if d.op = opFlushAll then devFlushAll s
    else if d.op = opFlushEntry then devFlushEntry s d.index
    else if d.op = opLoad then devLoad s d.page d.index
    else if d.op = opGetNext then devGetNext s d.index
    else if d.op = opRead then devRead s d.page d.index
    else .refused .reservedOpcode

end Sys2Proof.Machine
end

