-- ==== Sys2Proof/Machine/Commands.lean ====
section
/-! DEFINITION. The words of the command register and of the selector as instructions (30_encoding.md R91 to R95;
44_device_commands.md R210 to R218). The device's instructions are the command words it has latched; presented by the
controller the same words are writes that arrive at the register. A requester has no access to either (R60). -/

namespace Sys2Proof.Machine

/-- A write that arrives at a register of the block: "only from the controller, only under the lock" (R66). Whether it
arrives is the transport's answer to the access it belongs to (R65, `onWrite`). -/
def registerWrite (s : State) (write : Out) : Out :=
  if s.turn = .controller ∧ s.lockOwner ≠ none then write else .refused .rawAccess

/-- A command word (R210, R211): as the controller's write it arrives at `CMD`, which latches it; as the device's
instruction it has its effect, if it is the command the device has latched. -/
def commandWord (op : BitVec 3) (page rsvd : BitVec 2) (index : Index) (effect : State → Out) (s : State) : Out :=
  if s.turn = .device then
    if s.devCmd = some ⟨op, page, index⟩ then effect s else .refused .commandNotLatched
  else registerWrite s (writeCmd s (cmdBits 1 op page rsvd index))

/-- A write with `BUSY` = 0 stores the word and starts nothing (R210). -/
def execCmdStore (op : BitVec 3) (page rsvd : BitVec 2) (index : Index) (s : State) : Out :=
  registerWrite s (writeCmd s (cmdBits 0 op page rsvd index))

/-- `NOP` (R212). -/
def execNop (page rsvd : BitVec 2) (index : Index) (s : State) : Out :=
  commandWord opNop page rsvd index devNop s

/-- `FLUSH_ALL` (R213); `PAGE` and `INDEX` are ignored. -/
def execFlushAllCmd (page rsvd : BitVec 2) (index : Index) (s : State) : Out :=
  commandWord opFlushAll page rsvd index devFlushAll s

/-- `FLUSH_ENTRY` (R214); `PAGE` is ignored. -/
def execFlushEntryCmd (page rsvd : BitVec 2) (index : Index) (s : State) : Out :=
  commandWord opFlushEntry page rsvd index (devFlushEntry · index) s

/-- `LOAD` (R215). -/
def execLoadCmd (page rsvd : BitVec 2) (index : Index) (s : State) : Out :=
  commandWord opLoad page rsvd index (devLoad · page index) s

/-- `GET_NEXT` (R216); `PAGE` is ignored. -/
def execGetNextCmd (page rsvd : BitVec 2) (index : Index) (s : State) : Out :=
  commandWord opGetNext page rsvd index (devGetNext · index) s

/-- `READ` (R217). -/
def execReadCmd (page rsvd : BitVec 2) (index : Index) (s : State) : Out :=
  commandWord opRead page rsvd index (devRead · page index) s

/-- `OP` = 6, reserved: "a model refuses the step" (R218, U5). -/
def execCmdReserved6 (_page _rsvd : BitVec 2) (_index : Index) (_s : State) : Out := .refused .reservedOpcode

/-- `OP` = 7, reserved: "a model refuses the step" (R218, U5). -/
def execCmdReserved7 (_page _rsvd : BitVec 2) (_index : Index) (_s : State) : Out := .refused .reservedOpcode

/-- A word written to the selector `EXT` (R32, R95). -/
def execExtSelect (rsvd : BitVec 14) (subblock : BitVec 2) (s : State) : Out :=
  registerWrite s (writeExt s (rsvd ++ subblock))

end Sys2Proof.Machine
end

