-- ==== Sys2Proof/Machine/Mapper.lean ====
section
/-! DEFINITION. The Rule Layout Mapper, the Protocol Shape Mappers and the Cascade Manager as functions
(41_layout_mapper.md R153 to R165, 42_shape_mappers.md R181 to R186, 43_cascade.md R200 to R204), and `modifyPort`
(45_table_operations.md R248). Each position is written once and serves both directions (70_reset_and_hazards.md R351). -/

namespace Sys2Proof

/-! ## Key header, action words, sentinel -/

/-- `encodeKey(key, E)` (R153): one `setField` per key field; TAG is not touched. -/
def encodeKey (c : Cfg) (key : KeyFields) (e : Entry) : Entry :=
  { e with hdr :=
      putReg c c.rl.pvecMask key.pvecMask <| putReg c c.rl.pvec key.pvec <|
      putReg c c.rl.vidMask key.vidMask <| putReg c c.rl.vpriMask key.vpriMask <|
      putReg c c.rl.vid key.vid <| putReg c c.rl.vpri key.vpri <|
      putReg c c.rl.tk key.tk <| putReg c c.rl.ft key.ft <|
      putReg c c.rl.tkMask key.tkMask <| putReg c c.rl.ftMask key.ftMask e.hdr }

/-- `decodeKey(E)` (R153): the same positions, read. -/
def decodeKey (c : Cfg) (e : Entry) : KeyFields where
  ftMask := getReg c c.rl.ftMask e.hdr
  tkMask := getReg c c.rl.tkMask e.hdr
  ft := getReg c c.rl.ft e.hdr
  tk := getReg c c.rl.tk e.hdr
  vpri := getReg c c.rl.vpri e.hdr
  vid := getReg c c.rl.vid e.hdr
  vpriMask := getReg c c.rl.vpriMask e.hdr
  vidMask := getReg c c.rl.vidMask e.hdr
  pvec := getReg c c.rl.pvec e.hdr
  pvecMask := getReg c c.rl.pvecMask e.hdr

/-- Writes `VALID_TAG` into TAG (R160, R202, decision D9). -/
def markValid (c : Cfg) (e : Entry) : Entry := { e with hdr := putReg c c.rl.tag c.validTag e.hdr }

/-- `encodeActions(a)` (R156): from zero words, one `setField` per action field. -/
def encodeActions (c : Cfg) (a : Actions) : List Word :=
  putReg c c.rl.queueId a.queueId <| putReg c c.rl.cntId a.cntId <| putReg c c.rl.cntEn a.cntEn <|
  putReg c c.rl.streamFilter a.streamFilter <| putReg c c.rl.flowMeter a.flowMeter <| putReg c c.rl.dpv a.dpv <|
  putReg c c.rl.qpri a.qpri <| putReg c c.rl.qpriOvr a.qpriOvr <| putReg c c.rl.fpri a.fpri <|
  putReg c c.rl.fpriOvr a.fpriOvr <| putReg c c.rl.nextId a.nextId <| putReg c c.rl.cont a.cont <|
  List.replicate c.rl.nAct 0

/-- `decodeActions(act)` (R156): the same positions, read. -/
def decodeActions (c : Cfg) (act : List Word) : Actions where
  cont := getReg c c.rl.cont act
  nextId := getReg c c.rl.nextId act
  fpriOvr := getReg c c.rl.fpriOvr act
  fpri := getReg c c.rl.fpri act
  qpriOvr := getReg c c.rl.qpriOvr act
  qpri := getReg c c.rl.qpri act
  dpv := getReg c c.rl.dpv act
  flowMeter := getReg c c.rl.flowMeter act
  streamFilter := getReg c c.rl.streamFilter act
  cntEn := getReg c c.rl.cntEn act
  cntId := getReg c c.rl.cntId act
  queueId := getReg c c.rl.queueId act

/-! ## Window positions -/

/-- The 18-byte prefix (R154). -/
def posDA : WinPos 48 := ⟨0, 0⟩
@[inherit_doc posDA] def posSA : WinPos 48 := ⟨6, 0⟩
@[inherit_doc posDA] def posVTAG : WinPos 32 := ⟨12, 0⟩
@[inherit_doc posDA] def posETYPE : WinPos 16 := ⟨16, 0⟩

/-- The IPv4 header (R181): linear bytes 18 to 37 (conflict C2). -/
def pos4VER : WinPos 4 := ⟨18, 0⟩
@[inherit_doc pos4VER] def pos4IHL : WinPos 4 := ⟨18, 4⟩
@[inherit_doc pos4VER] def pos4TOS : WinPos 8 := ⟨19, 0⟩
@[inherit_doc pos4VER] def pos4TOTLEN : WinPos 16 := ⟨20, 0⟩
@[inherit_doc pos4VER] def pos4ID : WinPos 16 := ⟨22, 0⟩
@[inherit_doc pos4VER] def pos4FLAGSFRAG : WinPos 16 := ⟨24, 0⟩
@[inherit_doc pos4VER] def pos4TTL : WinPos 8 := ⟨26, 0⟩
@[inherit_doc pos4VER] def pos4PROTO : WinPos 8 := ⟨27, 0⟩
@[inherit_doc pos4VER] def pos4HCSUM : WinPos 16 := ⟨28, 0⟩
@[inherit_doc pos4VER] def pos4SIP : WinPos 32 := ⟨30, 0⟩
@[inherit_doc pos4VER] def pos4DIP : WinPos 32 := ⟨34, 0⟩

/-- The IPv6 header (R182): linear bytes 18 to 57 (conflict C3). -/
def pos6VER : WinPos 4 := ⟨18, 0⟩
@[inherit_doc pos6VER] def pos6TC : WinPos 8 := ⟨18, 4⟩
@[inherit_doc pos6VER] def pos6FLOW : WinPos 20 := ⟨19, 4⟩
@[inherit_doc pos6VER] def pos6PLEN : WinPos 16 := ⟨22, 0⟩
@[inherit_doc pos6VER] def pos6NXT : WinPos 8 := ⟨24, 0⟩
@[inherit_doc pos6VER] def pos6HOP : WinPos 8 := ⟨25, 0⟩
@[inherit_doc pos6VER] def pos6SIP : WinPos 128 := ⟨26, 0⟩
@[inherit_doc pos6VER] def pos6DIP : WinPos 128 := ⟨42, 0⟩

/-- The TCP header from its first linear byte: 38 over IPv4 (R183), 58 over IPv6 (R184). -/
def posSPORT (base : Nat) : WinPos 16 := ⟨base, 0⟩
@[inherit_doc posSPORT] def posDPORT (base : Nat) : WinPos 16 := ⟨base + 2, 0⟩
@[inherit_doc posSPORT] def posSEQ (base : Nat) : WinPos 32 := ⟨base + 4, 0⟩
@[inherit_doc posSPORT] def posACK (base : Nat) : WinPos 32 := ⟨base + 8, 0⟩
@[inherit_doc posSPORT] def posOFFFLAGS (base : Nat) : WinPos 16 := ⟨base + 12, 0⟩
@[inherit_doc posSPORT] def posWIN (base : Nat) : WinPos 16 := ⟨base + 14, 0⟩
@[inherit_doc posSPORT] def posCSUM (base : Nat) : WinPos 16 := ⟨base + 16, 0⟩
@[inherit_doc posSPORT] def posURG (base : Nat) : WinPos 16 := ⟨base + 18, 0⟩

/-- The rest of the UDP header after the ports: 38 over IPv4 (R185), 58 over IPv6 (R186). -/
def posULEN (base : Nat) : WinPos 16 := ⟨base + 4, 0⟩
@[inherit_doc posULEN] def posUCSUM (base : Nat) : WinPos 16 := ⟨base + 6, 0⟩

/-! ## The mappers and their inverses -/

/-- `mapPrefix(prefix, W)` (R154). -/
def mapPrefix (f : MacFields) (W : Window) : Window :=
  placeAt posETYPE f.etype <| placeAt posVTAG f.vtag <| placeAt posSA f.sa <| placeAt posDA f.da W

/-- The prefix fields read from a window (R165). -/
def readPrefix (W : Window) : MacFields where
  da := readAt posDA W
  sa := readAt posSA W
  vtag := readAt posVTAG W
  etype := readAt posETYPE W

/-- `mapIPv4(l3, W)` (R181). -/
def mapIPv4 (h : IPv4) (W : Window) : Window :=
  placeAt pos4DIP h.dip <| placeAt pos4SIP h.sip <| placeAt pos4HCSUM h.hcsum <| placeAt pos4PROTO h.proto <|
  placeAt pos4TTL h.ttl <| placeAt pos4FLAGSFRAG h.flagsFrag <| placeAt pos4ID h.ident <|
  placeAt pos4TOTLEN h.totLen <| placeAt pos4TOS h.tos <| placeAt pos4IHL h.ihl <| placeAt pos4VER h.ver W

/-- The IPv4 fields read from a window (R165). -/
def readIPv4 (W : Window) : IPv4 where
  ver := readAt pos4VER W
  ihl := readAt pos4IHL W
  tos := readAt pos4TOS W
  totLen := readAt pos4TOTLEN W
  ident := readAt pos4ID W
  flagsFrag := readAt pos4FLAGSFRAG W
  ttl := readAt pos4TTL W
  proto := readAt pos4PROTO W
  hcsum := readAt pos4HCSUM W
  sip := readAt pos4SIP W
  dip := readAt pos4DIP W

/-- `mapIPv6(l3, W)` (R182). -/
def mapIPv6 (h : IPv6) (W : Window) : Window :=
  placeAt pos6DIP h.dip6 <| placeAt pos6SIP h.sip6 <| placeAt pos6HOP h.hop <| placeAt pos6NXT h.nxt <|
  placeAt pos6PLEN h.plen <| placeAt pos6FLOW h.flow <| placeAt pos6TC h.tc <| placeAt pos6VER h.ver W

/-- The IPv6 fields read from a window (R165). -/
def readIPv6 (W : Window) : IPv6 where
  ver := readAt pos6VER W
  tc := readAt pos6TC W
  flow := readAt pos6FLOW W
  plen := readAt pos6PLEN W
  nxt := readAt pos6NXT W
  hop := readAt pos6HOP W
  sip6 := readAt pos6SIP W
  dip6 := readAt pos6DIP W

/-- The eight TCP fields from linear byte `base` (R183, R184). -/
def placeTCP (base : Nat) (h : TCP) (W : Window) : Window :=
  placeAt (posURG base) h.urg <| placeAt (posCSUM base) h.csum <| placeAt (posWIN base) h.win <|
  placeAt (posOFFFLAGS base) h.offFlags <| placeAt (posACK base) h.ack <| placeAt (posSEQ base) h.seq <|
  placeAt (posDPORT base) h.dport <| placeAt (posSPORT base) h.sport W

/-- The eight TCP fields read from linear byte `base` (R165). -/
def readTCP (base : Nat) (W : Window) : TCP where
  sport := readAt (posSPORT base) W
  dport := readAt (posDPORT base) W
  seq := readAt (posSEQ base) W
  ack := readAt (posACK base) W
  offFlags := readAt (posOFFFLAGS base) W
  win := readAt (posWIN base) W
  csum := readAt (posCSUM base) W
  urg := readAt (posURG base) W

/-- The four UDP fields from linear byte `base` (R185, R186). -/
def placeUDP (base : Nat) (h : UDP) (W : Window) : Window :=
  placeAt (posUCSUM base) h.ucsum <| placeAt (posULEN base) h.ulen <| placeAt (posDPORT base) h.dport <|
  placeAt (posSPORT base) h.sport W

/-- The four UDP fields read from linear byte `base` (R165). -/
def readUDP (base : Nat) (W : Window) : UDP where
  sport := readAt (posSPORT base) W
  dport := readAt (posDPORT base) W
  ulen := readAt (posULEN base) W
  ucsum := readAt (posUCSUM base) W

/-- `mapTCPv4(l4, W)` (R183): linear bytes 38 to 57. -/
def mapTCPv4 (h : TCP) (W : Window) : Window := placeTCP 38 h W

/-- `mapTCPv6(l4, W)` (R184): linear bytes 58 to 77. -/
def mapTCPv6 (h : TCP) (W : Window) : Window := placeTCP 58 h W

/-- `mapUDPv4(l4, W)` (R185): linear bytes 38 to 45. -/
def mapUDPv4 (h : UDP) (W : Window) : Window := placeUDP 38 h W

/-- `mapUDPv6(l4, W)` (R186): linear bytes 58 to 65. -/
def mapUDPv6 (h : UDP) (W : Window) : Window := placeUDP 58 h W

/-- Layer 3 and layer 4 of a rule of a supported shape (R160). -/
def mapHeaders (h : Headers) (W : Window) : Window :=
  match h with
  | .ipv4Tcp l3 l4 => mapTCPv4 l4 (mapIPv4 l3 W)
  | .ipv4Udp l3 l4 => mapUDPv4 l4 (mapIPv4 l3 W)
  | .ipv6Tcp l3 l4 => mapTCPv6 l4 (mapIPv6 l3 W)
  | .ipv6Udp l3 l4 => mapUDPv6 l4 (mapIPv6 l3 W)
  | .unsupported _ => W

/-- Layer 3 and layer 4 read from a window under a supported tag: bit 1 chooses the IP version, bit 0 the transport
protocol (R110, R165). -/
def readHeaders (shape : BitVec 2) (W : Window) : Headers :=
  if shape = 0b00 then .ipv4Tcp (readIPv4 W) (readTCP 38 W)
  else if shape = 0b01 then .ipv4Udp (readIPv4 W) (readUDP 38 W)
  else if shape = 0b10 then .ipv6Tcp (readIPv6 W) (readTCP 58 W)
  else .ipv6Udp (readIPv6 W) (readUDP 58 W)

/-! ## The Cascade Manager -/

/-- `needsSecondSlot(shape)` on the four supported tags: `shape[1] = 1 or shape[0] = 0` (R200). -/
def needsSecondSlot (shape : BitVec 2) : Bool := shape.getLsbD 1 || !shape.getLsbD 0

/-- `CMP_ALL(n)`: the `n`-bit mask that means "compare every bit" (R204). -/
def cmpAll (c : Cfg) (n : Nat) : Word := if c.maskOneIsCompare then ones n else 0

/-- `isSecondSlotUsed(E2)`: some mask byte of the window is non-zero (R203). -/
def isSecondSlotUsed (e : Entry) : Bool := e.wm.any (· != 0)

/-- The first entry of a linked pair: its action words hold the link and nothing else (R202). -/
def linkFirst (c : Cfg) (e : Entry) (slot2Index : Index) : Entry :=
  { e with act :=
      putReg c c.rl.nextId (slot2Index.setWidth 16) <| putReg c c.rl.cont 1 <| List.replicate c.rl.nAct 0 }

/-- The second entry of a linked pair: `VID` is the continuation tag, compared in every bit; it is marked valid and
holds the rule's actions (R202). -/
def linkSecond (c : Cfg) (e : Entry) (slot2Index : Index) (action : Actions) : Entry :=
  { markValid c
      { e with hdr :=
          putReg c c.rl.vidMask (cmpAll c c.rl.vidMask.bits.width) <|
          putReg c c.rl.vid (slot2Index.setWidth 16) e.hdr } with
    act := encodeActions c action }

/-- `link(E1, E2, slot2Index, action)` (R202). -/
def link (c : Cfg) (first second : Entry) (slot2Index : Index) (action : Actions) : Entry × Entry :=
  (linkFirst c first slot2Index, linkSecond c second slot2Index action)

/-! ## compile and decode -/

/-- The linear window of a rule of a supported shape: prefix, layer 3, layer 4 (R160). -/
def ruleWindow (r : Rule) : Window := mapHeaders r.headers (mapPrefix r.mac Window.zero)

/-- The first entry of a rule before its action words are written (R160). -/
def firstEntry (c : Cfg) (r : Rule) : Entry :=
  let e := markValid c (encodeKey c r.key (zeroEntry c))
  let W := ruleWindow r
  { e with wv := (bytesOf W.v).take c.windowBytes, wm := (bytesOf W.m).take c.windowBytes }

/-- The second entry of a rule after shape mapping: window 2 and nothing else (R160). -/
def secondEntry (c : Cfg) (r : Rule) : Entry :=
  let W := ruleWindow r
  { zeroEntry c with wv := (bytesOf W.v).drop c.windowBytes, wm := (bytesOf W.m).drop c.windowBytes }

/-- `needsSecondSlot` of a rule's shape (R200); an unsupported tag never reaches it (R160). -/
def Rule.needsSecond (r : Rule) : Bool := r.supported && needsSecondSlot (r.shape.setWidth 2)

/-- `compile(rule, slot2Index)` (R160): one entry, two entries, or `InvalidArgument` for an unsupported tag. -/
def compileRule (c : Cfg) (r : Rule) (slot2Index : Index) : Option (List Entry) :=
  if r.supported then
    if r.needsSecond && isSecondSlotUsed (secondEntry c r) then
      let p := link c (firstEntry c r) (secondEntry c r) slot2Index r.action
      some [p.1, p.2]
    else some [{ firstEntry c r with act := encodeActions c r.action }]
  else none

/-- The linear window of one or two entries; without a second entry its half is zero (R165). -/
def entriesWindow (c : Cfg) (first : Entry) (second : Option Entry) : Window :=
  match second with
  | some e => ⟨bitsOf (first.wv ++ e.wv), bitsOf (first.wm ++ e.wm)⟩
  | none => ⟨bitsOf (first.wv ++ List.replicate c.windowBytes 0), bitsOf (first.wm ++ List.replicate c.windowBytes 0)⟩

/-- `decode(shape, entries)` under a supported tag (R165). -/
def decodeRule (c : Cfg) (shape : BitVec 2) (first : Entry) (second : Option Entry) : Rule :=
  let W := entriesWindow c first second
  { key := decodeKey c first
    mac := readPrefix W
    headers := readHeaders shape W
    action := decodeActions c ((second.getD first).act) }

/-! ## Port add and remove -/

/-- `modifyPort(E, p, add)` (R248): the pattern bit becomes 0; the mask bit becomes "do not compare" for an add and
"compare" for a remove, in the convention of the configuration (R204). -/
def modifyPort (c : Cfg) (e : Entry) (p : BitVec 4) (add : Bool) : Entry :=
  let bit : Word := 1 <<< p.toNat
  let pv := getReg c c.rl.pvec e.hdr
  let pm := getReg c c.rl.pvecMask e.hdr
  let pm' := if add == c.maskOneIsCompare then pm &&& ~~~bit else pm ||| bit
  { e with hdr := putReg c c.rl.pvecMask pm' (putReg c c.rl.pvec (pv &&& ~~~bit) e.hdr) }

end Sys2Proof
end

