-- ==== Sys2Proof/Machine/Functions.lean ====
section
/-! DEFINITION. The combinational functions as instructions (40_field_codec.md, 41_layout_mapper.md, 42_shape_mappers.md,
43_cascade.md; 45_table_operations.md R248; 30_encoding.md R93): each answers its caller and changes no state of the
block (10_state.md R20, R42). -/

namespace Sys2Proof.Machine

/-- `setField` (R140); refused outside the precondition (R143). -/
def execSetField (word value : Word) (offset width : BitVec 5) (s : State) : Out :=
  if h : offset.toNat + width.toNat ≤ 16 then
    .next (s.answer (.word (Sys2Proof.setField word value ⟨offset.toNat, width.toNat, h⟩)))
  else .refused .codecPrecondition

/-- `getField` (R141); refused outside the precondition (R143). -/
def execGetField (word : Word) (offset width : BitVec 5) (s : State) : Out :=
  if h : offset.toNat + width.toNat ≤ 16 then
    .next (s.answer (.word (Sys2Proof.getField word ⟨offset.toNat, width.toNat, h⟩)))
  else .refused .codecPrecondition

/-- `mapIPv4` (R181). -/
def execMapIPv4 (_udp : BitVec 1) (l3 : IPv4) (w : Window) (s : State) : Out := .next (s.answer (.window (mapIPv4 l3 w)))

/-- `mapIPv6` (R182). -/
def execMapIPv6 (_udp : BitVec 1) (l3 : IPv6) (w : Window) (s : State) : Out := .next (s.answer (.window (mapIPv6 l3 w)))

/-- `mapTCPv4` (R183). -/
def execMapTCPv4 (l4 : TCP) (w : Window) (s : State) : Out := .next (s.answer (.window (mapTCPv4 l4 w)))

/-- `mapUDPv4` (R185). -/
def execMapUDPv4 (l4 : UDP) (w : Window) (s : State) : Out := .next (s.answer (.window (mapUDPv4 l4 w)))

/-- `mapTCPv6` (R184). -/
def execMapTCPv6 (l4 : TCP) (w : Window) (s : State) : Out := .next (s.answer (.window (mapTCPv6 l4 w)))

/-- `mapUDPv6` (R186). -/
def execMapUDPv6 (l4 : UDP) (w : Window) (s : State) : Out := .next (s.answer (.window (mapUDPv6 l4 w)))

/-- `compile` or `decode` with one of the tags 0b100 to 0b111: `InvalidArgument` (R110, R160, R165). -/
def execShapeUnsupported (_low : BitVec 2) (s : State) : Out := .next (s.answer .invalidArgument)

/-- `needsSecondSlot` (R200). -/
def execNeedsSecondSlot (shape : BitVec 2) (s : State) : Out := .next (s.answer (.flag (needsSecondSlot shape)))

/-- `compile` (R160). -/
def execCompile (rule : Rule) (slot2Index : Index) (s : State) : Out :=
  match compileRule s.conf rule slot2Index with
  | some es => .next (s.answer (.entries es))
  | none => .next (s.answer .invalidArgument)

/-- `decode` of entries (R165). -/
def execDecode (shape : BitVec 2) (first : Entry) (second : Option Entry) (s : State) : Out :=
  .next (s.answer (.rule (decodeRule s.conf shape first second)))

/-- `mapPrefix` (R154). -/
def execMapPrefix (mac : MacFields) (w : Window) (s : State) : Out := .next (s.answer (.window (mapPrefix mac w)))

/-- `place` (R180), which raises nothing: for a field that ends outside the window it answers a free window. -/
def execPlace (w : Window) (L start width pattern mask : Nat) (s : State) : Out :=
  .next (s.answer (.window
    (if placeFits L start width then Sys2Proof.place w L start width pattern mask
    else placeFree w L start width pattern mask)))

/-- `encodeKey` (R153). -/
def execEncodeKey (key : KeyFields) (e : Entry) (s : State) : Out := .next (s.answer (.entry (encodeKey s.conf key e)))

/-- `encodeActions` (R156). -/
def execEncodeActions (a : Actions) (s : State) : Out := .next (s.answer (.words (encodeActions s.conf a)))

/-- `pageImage` (R150); page 3 does not exist (R70). -/
def execPageImage (e : Entry) (page : BitVec 2) (s : State) : Out :=
  if s.conf.hasPage page then .next (s.answer (.words (pageImage s.conf e page.toNat))) else .refused .noSuchPage

/-- `entryOfPages` (R151). -/
def execEntryOfPages (i0 i1 i2 : List Word) (s : State) : Out :=
  .next (s.answer (.entry (entryOfPages s.conf i0 i1 i2)))

/-- `link` (R202). -/
def execLink (first second : Entry) (slot2Index : Index) (action : Actions) (s : State) : Out :=
  .next (s.answer (.entries [(link s.conf first second slot2Index action).1,
    (link s.conf first second slot2Index action).2]))

/-- `isSecondSlotUsed` (R203). -/
def execIsSecondSlotUsed (second : Entry) (s : State) : Out := .next (s.answer (.flag (isSecondSlotUsed second)))

/-- `modifyPort` (R248). -/
def execModifyPort (e : Entry) (port : BitVec 4) (add : Bool) (s : State) : Out :=
  .next (s.answer (.entry (modifyPort s.conf e port add)))

/-- `cmdword` (R93). -/
def execCmdword (op : BitVec 3) (page : BitVec 2) (index : Index) (s : State) : Out :=
  .next (s.answer (.word (Sys2Proof.cmdword op page index)))

end Sys2Proof.Machine
end

