-- ==== Sys2Proof/Machine/Sequencer.lean ====
section
/-! DEFINITION. The Table Operation State Machine (45_table_operations.md R233 to R250): the access list of every
operation, phase by phase, and one transport access as one step of the controller. -/

namespace Sys2Proof.Machine

/-! ## Access lists -/

/-- One transport access of an operation (R236, decision D34). Page registers are numbered from `dataLo`. -/
inductive Access
  /-- `T.readField(TB, CMD_OFF, 15, 1)`, a poll of the busy bit (R233) -/
  | poll
  /-- `SelectAction`: `T.writeField(TB, EXT_OFF, 0, 2, 0)` (R236) -/
  | select
  /-- `T.write` of the `k`-th page register (R236) -/
  | write (k : Nat) (v : Word)
  /-- `T.read` of the `k`-th register of page `p` into the staging buffer (R236) -/
  | read (p k : Nat)
  /-- `T.read` of the command register into `hw_index` (R238) -/
  | readCmd
  /-- `T.read` of key register `KEY1`, `KEY2` or `KEY3` for `k` = 0, 1, 2 (R238) -/
  | readKey (k : Nat)
  /-- `Issue(op, page, index)` (R235) -/
  | issue (op : BitVec 3) (page : BitVec 2) (index : Index)
deriving DecidableEq, Repr

/-- `WritePage(E, p)`, ascending (R236). -/
def writePage (c : Cfg) (e : Entry) (p : Nat) : List Access :=
  (pageImage c e p).mapIdx fun k v => .write k v

/-- `ReadPage(p)`, ascending (R236). -/
def readPage (c : Cfg) (p : Nat) : List Access := (List.range (c.pageLen p)).map (.read p)

/-- `LoadBody(i, E)` (R238), what follows the wait of each of its phases: pages 2, 1, 0 in this order (R340). -/
def loadBody (c : Cfg) (e : Entry) (i : Index) : Nat → List Access
  | 0 => .select :: writePage c e 2 ++ [.issue opLoad 2 i]
  | 1 => writePage c e 1 ++ [.issue opLoad 1 i]
  | 2 => writePage c e 0 ++ [.issue opLoad 0 i]
  | _ => []

/-- `ReadBody(i)` (R238), what follows the wait of each of its phases: pages 0, 1, 2 in this order. -/
def readBody (c : Cfg) (i : Index) : Nat → List Access
  | 0 => [.issue opRead 0 i]
  | 1 => readPage c 0 ++ [.issue opRead 1 i]
  | 2 => readPage c 1 ++ [.select, .issue opRead 2 i]
  | 3 => readPage c 2
  | _ => []

/-- `GetNextBody(i)` (R238), what follows the wait of each of its phases; the key registers are read only when the
index read back is `MAX_INDEX` (R244 (a)). -/
def getNextBody (c : Cfg) (i hwIndex : Index) : Nat → List Access
  | 0 => [.issue opGetNext 0 i]
  | 1 =>
    .readCmd ::
      (if hwIndex.toNat = c.maxIndex then [.readKey 0, .readKey 1, .readKey 2] else []) ++ readBody c hwIndex 0
  | k + 2 => readBody c hwIndex (k + 1)

/-- Where `FindBody(i)` starts the search: `i - 1`, wrapping to `MAX_INDEX` at `MIN_INDEX` (R238, decision D36). -/
def findStart (c : Cfg) (i : Index) : Index :=
  if i.toNat = c.minIndex then BitVec.ofNat 8 c.maxIndex else i - 1

/-- `AddPort` and `RemovePort` (R246, R247): `FindBody`, then `LoadBody` of the modified entry under the same lock. -/
def modifyBody (c : Cfg) (e : Entry) (i hwIndex : Index) (k : Nat) : List Access :=
  if k < 4 then getNextBody c (findStart c i) hwIndex k
  else if k = 4 then getNextBody c (findStart c i) hwIndex 4 ++ loadBody c e i 0
  else loadBody c e i (k - 4)

/-- What follows the wait of a phase of an operation (R240 to R247, R285). -/
def phaseBody (s : State) (op : Op) (k : Nat) : List Access :=
  match op with
  | .flushAll => if k = 0 then [.issue opFlushAll 0 0] else []
  | .flushEntry i => if k = 0 then [.issue opFlushEntry 0 i] else []
  | .loadEntry i => loadBody s.conf s.e1 i k
  | .readEntry i => readBody s.conf i k
  | .getNextEntry i => getNextBody s.conf i s.hwIndex k
  | .findEntry i => getNextBody s.conf (findStart s.conf i) s.hwIndex k
  | .addPort i _ => modifyBody s.conf s.e1 i s.hwIndex k
  | .removePort i _ => modifyBody s.conf s.e1 i s.hwIndex k
  | .advCascade _ index2 => loadBody s.conf s.e2 index2 k
  | .advMain index1 _ _ => loadBody s.conf s.e1 index1 k

/-- The access list of the current phase: every phase starts with a wait, the first one before any command (R234) and
the others after the command that began the phase (R235). -/
def accessList (s : State) : List Access :=
  match s.op with
  | none => []
  | some op => .poll :: phaseBody s op s.phase

/-! ## One access -/

/-- The operation has made its last access: `Release` with its outcome (R240 to R247, R285). A cascade tenure ends with
no outcome; its requester waits for the lock again. -/
def finish (s : State) : Out :=
  match s.op with
  | some .flushAll | some (.flushEntry _) | some (.loadEntry _) | some (.addPort _ _) | some (.removePort _ _) =>
    .next (s.endOk .unit)
  | some (.readEntry _) => .next (s.endOk (.entry s.e1 (validWords s.conf s.e1.hdr)))
  | some (.getNextEntry _) => .next (s.endOk (.next s.hwIndex s.e1))
  | some (.findEntry _) => .next (s.endOk (.found s.e1))
  | some (.advCascade _ _) => .next { s.release with cascaded := s.caller :: s.cascaded }
  | some (.advMain _ _ two) => .next (s.endOk (.slotsUsed (if two then 2 else 1)))
  | none => .refused .noSuchPosition

/-- The position advances by one after a successful access (R23); at the end of the list the operation ends. -/
def advance (s : State) : Out :=
  let t := { s with seqStep := s.seqStep + 1 }
  if t.seqStep < (accessList t).length then .next t else finish t

/-- One poll (R233): `BUSY` 0 ends the wait; `BUSY` 1 counts, and raises `Timeout` when the count reaches `POLL_LIMIT`. -/
def pollOnce (s : State) : Out :=
  match readField s s.conf.tb s.conf.cmdOff busyBits with
  | none => .fault (.noSuchRegister s.conf.tb s.conf.cmdOff)
  | some b =>
    if b = 0 then advance { s with fsm := .awaitingBusy }
    else
      let t := { s with pollCnt := s.pollCnt + 1 }
      if s.conf.pollLimit ≤ t.pollCnt then .next (t.abort .timeout) else .next t

/-- A write access (R65): on success the operation goes on with `k`; on a failure it aborts, the write done or not, with
the transport's error value carried unchanged (R303). -/
def onWrite (ans : Answer) (s : State) (write : Out) (k : State → Out) : Out :=
  match ans with
  | .ok => andThen write k
  | .lost e => .next (s.abort (.transportFailure e))
  | .landed e => andThen write fun t => .next (t.abort (.transportFailure e))

/-- A read access (R65): on success the operation goes on with the value; a failed read returns none and aborts it, with
the transport's error value carried unchanged (R303). -/
def onRead (ans : Answer) (s : State) (off : Nat) (k : Word → Out) : Out :=
  match ans with
  | .ok =>
    match readReg s s.conf.tb off with
    | some w => k w
    | none => .fault (.noSuchRegister s.conf.tb off)
  | .lost e | .landed e => .next (s.abort (.transportFailure e))

/-- `Issue` (R235) after its write: a new phase, whose wait starts with `poll_cnt` 0. -/
def State.issued (s : State) : State :=
  { s with fsm := .commandIssued, phase := s.phase + 1, seqStep := 0, pollCnt := 0 }

/-- After the last register of page 2 `FindBody` compares the index and `AddPort` and `RemovePort` modify the entry
(R238, R246 to R248); elsewhere nothing is left to do. -/
def afterRead (s : State) (p k : Nat) : Out :=
  if p = 2 ∧ k + 1 = s.conf.pageLen 2 then
    match s.op with
    | some (.findEntry i) => if foundFlag s.hwIndex i then advance s else .next (s.abort .notFound)
    | some (.addPort i port) =>
      if foundFlag s.hwIndex i then advance { s with e1 := modifyPort s.conf s.e1 port true }
      else .next (s.abort .notFound)
    | some (.removePort i port) =>
      if foundFlag s.hwIndex i then advance { s with e1 := modifyPort s.conf s.e1 port false }
      else .next (s.abort .notFound)
    | _ => advance s
  else advance s

/-- After a key register is read: the third one decides `NotFound` (R238, R244). -/
def afterKey (s : State) (k : Nat) (w : Word) : Out :=
  if k = 0 then advance { s with key1 := w }
  else if k = 1 then advance { s with key2 := w }
  else
    let t := { s with key3 := w }
    if keysAllZero t.key1 t.key2 t.key3 then .next (t.abort .notFound) else advance t

/-- One transport access with the transport's answer (R61 to R65, R233 to R238). -/
def runAccess (a : Access) (ans : Answer) (s : State) : Out :=
  match a with
  | .poll =>
    match ans with
    | .ok => pollOnce s
    | .lost e | .landed e => .next (s.abort (.transportFailure e))
  | .select => onWrite ans s (writeField s s.conf.tb s.conf.extOff subblockBits 0) advance
  | .write k v => onWrite ans s (writeReg s s.conf.tb (s.conf.dataLo + k) v) advance
  | .read p k =>
    onRead ans s (s.conf.dataLo + k) fun w => afterRead { s with e1 := s.e1.putPageReg s.conf p k w } p k
  | .readCmd =>
    onRead ans s s.conf.cmdOff fun w => advance { s with hwIndex := (getField w indexBits).setWidth 8 }
  | .readKey k => onRead ans s (s.conf.dataLo + k) fun w => afterKey s k w
  | .issue op page i =>
    onWrite ans s (writeReg s s.conf.tb s.conf.cmdOff (cmdword op page i)) fun t => .next t.issued

/-- One step of the controller (R20 (b)): the access at the sequencer's position. -/
def ctlStep (ans : Answer) (s : State) : Out :=
  match (accessList s)[s.seqStep]? with
  | some a => runAccess a ans s
  | none => .refused .noSuchPosition

/-! ## A run of an operation -/

/-- One move of the environment, as far as it concerns the operation in progress (R352): what other requesters submit or
present is no part of a burst (log entry 9). -/
def applyMove (m : Move) (s : State) : Out :=
  match m with
  | .device => devComplete s
  | .access ans => ctlStep ans s
  | .request _ | .submit _ => .next s

/-- The operation in progress goes on for as long as moves are given or until it ends; moves it did not use are kept. -/
def runMoves : List Move → State → Out
  | [], s => .next s
  | m :: ms, s =>
    if s.lockOwner = none then .next { s with sched := m :: ms }
    else andThen (applyMove m s) (runMoves ms)

/-- The operation in progress goes on with the moves that are already decided. -/
def goOn (s : State) : Out := runMoves s.sched { s with sched := [] }

/-- A request that validation refuses ends with `InvalidArgument`, without the lock (R232, R301). A requester whose
operation is in progress submits nothing else (R20 (a)). -/
def reject (s : State) : Out :=
  if s.lockOwner = some s.caller then .next s else .next (s.deliver (.err .invalidArgument))

/-- A request that validation accepts: it goes on if it is in progress, takes the lock if that is free, and waits,
without effect, while another requester holds it (R230). -/
def perform (op : Op) (stage : State → State) (s : State) : Out :=
  if s.lockOwner = some s.caller then
    if s.op = some op then goOn s else .next s
  else if s.lockOwner = none then goOn (stage (s.acquire op))
  else .next s

end Sys2Proof.Machine
end

