-- ==== Sys2Proof/Machine/Requests.lean ====
section
/-! DEFINITION. The requests (30_encoding.md R115, R116; 45_table_operations.md R240 to R247; 46_rule_api.md R285).
Validation comes first and touches nothing (R232); then the operation takes the lock and makes its accesses. -/

namespace Sys2Proof.Machine

/-- `FlushAll` (R240). -/
def execFlushAll (_port : BitVec 4) (_index : Index) (s : State) : Out := perform .flushAll id s

/-- `FlushEntry(index)` (R241). -/
def execFlushEntry (_port : BitVec 4) (index : Index) (s : State) : Out :=
  if s.conf.inRange index then perform (.flushEntry index) id s else reject s

/-- `LoadEntry(index, E)` (R242): `E1 <- E` with the lock just taken. -/
def execLoadEntry (_port : BitVec 4) (index : Index) (entry : Option Entry) (s : State) : Out :=
  match entry with
  | none => reject s
  | some e =>
    if s.conf.inRange index then perform (.loadEntry index) (fun t => { t with e1 := e }) s else reject s

/-- `GetNextEntry(index)` (R244). -/
def execGetNextEntry (_port : BitVec 4) (index : Index) (s : State) : Out :=
  if s.conf.inRange index then perform (.getNextEntry index) id s else reject s

/-- `ReadEntry(index)` (R243). -/
def execReadEntry (_port : BitVec 4) (index : Index) (s : State) : Out :=
  if s.conf.inRange index then perform (.readEntry index) id s else reject s

/-- `FindEntry(index)` (R245). -/
def execFindEntry (_port : BitVec 4) (index : Index) (s : State) : Out :=
  if s.conf.inRange index then perform (.findEntry index) id s else reject s

/-- `AddPort(index, port)` (R246). -/
def execAddPort (port : BitVec 4) (index : Index) (s : State) : Out :=
  if s.conf.inRange index && port.toNat < s.conf.nPorts then perform (.addPort index port) id s else reject s

/-- `RemovePort(index, port)` (R247). -/
def execRemovePort (port : BitVec 4) (index : Index) (s : State) : Out :=
  if s.conf.inRange index && port.toNat < s.conf.nPorts then perform (.removePort index port) id s else reject s

/-- The operand checks of `AdvConfig` for a rule that is present (R285): a supported tag, `index1` in range, and, only
when the shape needs a second slot, `index2` in range and different from `index1`. -/
def advValid (c : Cfg) (index1 index2 : Index) (r : Rule) : Bool :=
  r.supported && c.inRange index1 && (!r.needsSecond || (c.inRange index2 && index2 != index1))

/-- The second tenure of an `AdvConfig` with two entries, or its only one (R285). -/
def advMainTenure (index1 index2 : Index) (es : List Entry) (s : State) : Out :=
  match es with
  | [a, b] => perform (.advMain index1 index2 true) (fun t => { t with e1 := a, e2 := b }) s
  | [a] => perform (.advMain index1 index2 false) (fun t => { t with e1 := a }) s
  | _ => reject s

/-- The tenures of an `AdvConfig` (R285, decision D26): with two entries the cascade slot is loaded first, under a lock
tenure of its own; between the two tenures other requesters may run. When the first tenure ends and further moves are
decided, the second one is granted next. -/
def advTenures (index1 index2 : Index) (es : List Entry) (s : State) : Out :=
  match es with
  | [a, b] =>
    if s.cascaded.contains s.caller then advMainTenure index1 index2 es s
    else
      andThen (perform (.advCascade index1 index2) (fun t => { t with e1 := a, e2 := b }) s) fun t =>
        if t.cascaded.contains t.caller && t.lockOwner == none && !t.sched.isEmpty then
          advMainTenure index1 index2 es t
        else .next t
  | _ => advMainTenure index1 index2 es s

/-- `AdvConfig(index1, index2, rule)` (R285): compose, cascade, load. -/
def execAdvConfig (_port : BitVec 4) (index index2 : Index) (rule : Option Rule) (s : State) : Out :=
  match rule with
  | none => reject s
  | some r =>
    if advValid s.conf index index2 r then
      match compileRule s.conf r index2 with
      | some es => advTenures index index2 es s
      | none => reject s
    else reject s

/-- Reserved `OPSEL` codes end with `InvalidArgument` before any access (R116, R125, R232 (1)). -/
def execReqReserved0 (_port : BitVec 4) (_index : Index) (s : State) : Out := reject s
@[inherit_doc execReqReserved0]
def execReqReservedA (_port : BitVec 4) (_index : Index) (s : State) : Out := reject s
@[inherit_doc execReqReserved0]
def execReqReservedB (_port : BitVec 4) (_index : Index) (s : State) : Out := reject s
@[inherit_doc execReqReserved0]
def execReqReservedC (_port : BitVec 4) (_index : Index) (s : State) : Out := reject s
@[inherit_doc execReqReserved0]
def execReqReservedD (_port : BitVec 4) (_index : Index) (s : State) : Out := reject s
@[inherit_doc execReqReserved0]
def execReqReservedE (_port : BitVec 4) (_index : Index) (s : State) : Out := reject s
@[inherit_doc execReqReserved0]
def execReqReservedF (_port : BitVec 4) (_index : Index) (s : State) : Out := reject s

end Sys2Proof.Machine
end

