-- ==== Sys2Proof/Machine/Dispatch.lean ====
section
/-! DEFINITION. `exec`: one arm per row of opcode_table.json. -/

namespace Sys2Proof.Machine

def exec (i : Instr) (s : State) : Host.Outcome State Fault Refusal :=
  match i with
  | .cmdStore op page rsvd index => Sys2Proof.Machine.execCmdStore op page rsvd index s
  | .nop page rsvd index => Sys2Proof.Machine.execNop page rsvd index s
  | .flushAllCmd page rsvd index => Sys2Proof.Machine.execFlushAllCmd page rsvd index s
  | .flushEntryCmd page rsvd index => Sys2Proof.Machine.execFlushEntryCmd page rsvd index s
  | .loadCmd page rsvd index => Sys2Proof.Machine.execLoadCmd page rsvd index s
  | .getNextCmd page rsvd index => Sys2Proof.Machine.execGetNextCmd page rsvd index s
  | .readCmd page rsvd index => Sys2Proof.Machine.execReadCmd page rsvd index s
  | .cmdReserved6 page rsvd index => Sys2Proof.Machine.execCmdReserved6 page rsvd index s
  | .cmdReserved7 page rsvd index => Sys2Proof.Machine.execCmdReserved7 page rsvd index s
  | .extSelect rsvd subblock => Sys2Proof.Machine.execExtSelect rsvd subblock s
  | .flushAll port index => Sys2Proof.Machine.execFlushAll port index s
  | .flushEntry port index => Sys2Proof.Machine.execFlushEntry port index s
  | .loadEntry port index entry => Sys2Proof.Machine.execLoadEntry port index entry s
  | .getNextEntry port index => Sys2Proof.Machine.execGetNextEntry port index s
  | .readEntry port index => Sys2Proof.Machine.execReadEntry port index s
  | .findEntry port index => Sys2Proof.Machine.execFindEntry port index s
  | .addPort port index => Sys2Proof.Machine.execAddPort port index s
  | .removePort port index => Sys2Proof.Machine.execRemovePort port index s
  | .advConfig port index index2 rule => Sys2Proof.Machine.execAdvConfig port index index2 rule s
  | .reqReserved0 port index => Sys2Proof.Machine.execReqReserved0 port index s
  | .reqReservedA port index => Sys2Proof.Machine.execReqReservedA port index s
  | .reqReservedB port index => Sys2Proof.Machine.execReqReservedB port index s
  | .reqReservedC port index => Sys2Proof.Machine.execReqReservedC port index s
  | .reqReservedD port index => Sys2Proof.Machine.execReqReservedD port index s
  | .reqReservedE port index => Sys2Proof.Machine.execReqReservedE port index s
  | .reqReservedF port index => Sys2Proof.Machine.execReqReservedF port index s
  | .setField word value offset width => Sys2Proof.Machine.execSetField word value offset width s
  | .getField word offset width => Sys2Proof.Machine.execGetField word offset width s
  | .mapIPv4 udp l3 w => Sys2Proof.Machine.execMapIPv4 udp l3 w s
  | .mapIPv6 udp l3 w => Sys2Proof.Machine.execMapIPv6 udp l3 w s
  | .mapTCPv4 l4 w => Sys2Proof.Machine.execMapTCPv4 l4 w s
  | .mapUDPv4 l4 w => Sys2Proof.Machine.execMapUDPv4 l4 w s
  | .mapTCPv6 l4 w => Sys2Proof.Machine.execMapTCPv6 l4 w s
  | .mapUDPv6 l4 w => Sys2Proof.Machine.execMapUDPv6 l4 w s
  | .shapeUnsupported low => Sys2Proof.Machine.execShapeUnsupported low s
  | .needsSecondSlot shape => Sys2Proof.Machine.execNeedsSecondSlot shape s
  | .compile rule slot2Index => Sys2Proof.Machine.execCompile rule slot2Index s
  | .decode shape first second => Sys2Proof.Machine.execDecode shape first second s
  | .mapPrefix mac w => Sys2Proof.Machine.execMapPrefix mac w s
  | .place w L start width pattern mask => Sys2Proof.Machine.execPlace w L start width pattern mask s
  | .encodeKey key e => Sys2Proof.Machine.execEncodeKey key e s
  | .encodeActions a => Sys2Proof.Machine.execEncodeActions a s
  | .pageImage e page => Sys2Proof.Machine.execPageImage e page s
  | .entryOfPages i0 i1 i2 => Sys2Proof.Machine.execEntryOfPages i0 i1 i2 s
  | .link first second slot2Index action => Sys2Proof.Machine.execLink first second slot2Index action s
  | .isSecondSlotUsed second => Sys2Proof.Machine.execIsSecondSlotUsed second s
  | .modifyPort e port add => Sys2Proof.Machine.execModifyPort e port add s
  | .cmdword op page index => Sys2Proof.Machine.execCmdword op page index s

end Sys2Proof.Machine
end

