-- ==== Sys2Proof/Machine/Fetch.lean ====
section
/-! DEFINITION. Who moves next and which instruction is run (10_state.md R20, R42; 70_reset_and_hazards.md R352): a step
of the machine is one transport access of the controller, one `DevComplete` of the device, the submission of a request,
or the presentation of one that waits. -/

namespace Sys2Proof.Machine

/-- The next move of the environment: the first of those already decided, else a free one (U10 to U12). -/
def nextMove (s : State) : Move :=
  match s.sched with
  | m :: _ => m
  | [] => Config.move s.drawn

/-- The state once `nextMove` is taken. -/
def dropMove (s : State) : State :=
  match s.sched with
  | _ :: ms => { s with sched := ms }
  | [] => { s with drawn := s.drawn + 1 }

/-- Runs an instruction with exactly the given moves decided, and puts the others back behind those it did not use. -/
def execWith (moves : List Move) (i : Instr) (s : State) : Out :=
  andThen (exec i { s with sched := moves }) fun t => .next { t with sched := t.sched ++ s.sched, turn := .port }

/-- A request is presented: its packet is decoded and the instruction run for its requester. -/
def present (moves : List Move) (q : Submission) (s : State) : Out :=
  match decode q.packet with
  | .error e => .refused (.undecodable e)
  | .ok i =>
    if i.wf s.conf then execWith moves i { s with caller := q.who, turn := .port }
    else .refused .illFormedOperand

/-- The `k`-th of the waiting requests is presented; no request is promised its turn (R230, R349). -/
def presentNth (k : Nat) (s : State) : Out :=
  match s.requests[k % s.requests.length]? with
  | some q => present [] q s
  | none => .next s

/-- The packet of the command the device has latched; bits 9:8 are those of `CMD` (R91, R94). -/
def latchedPacket (s : State) (d : DevCmd) : Packet :=
  wordPacket .cmd (cmdBits 1 d.op d.page (s.cmd.extractLsb' 8 2) d.index)

/-- The device's turn: it runs the command it has latched, if any (R211). -/
def deviceTurn (s : State) : Out :=
  match s.devCmd with
  | none => .next s
  | some d =>
    match decode (latchedPacket s d) with
    | .error e => .refused (.undecodable e)
    | .ok i => execWith [] i { s with turn := .device }

/-- The turn of the requester that holds the lock: the transport answers one access of its operation. -/
def ownerTurn (who : Nat) (ans : Answer) (s : State) : Out :=
  match s.requests.find? (fun q => q.who == who) with
  | some q => present [.access ans] q s
  | none => .next s

/-- One move is made (R20): of the device, of the transport for the operation that holds the lock, or of a requester. -/
def makeMove (m : Move) (s : State) : Out :=
  match m with
  | .device => deviceTurn s
  | .access ans =>
    match s.lockOwner with
    | some who => ownerTurn who ans s
    | none => .next s
  | .request k => presentNth k s
  | .submit q => .next (s.submit q)

/-- One step: the next move of the environment is made (R352). -/
def stepOnce (s : State) : Out := makeMove (nextMove s) (dropMove s)

/-- The requester that a word of opcode_table.json is presented for. -/
abbrev tableRequester : Nat := 0

/-- The state in which the word is the one waiting request, the lock is free, and the request's turn is next: an
operation in progress is dropped. A word that stands for no packet is presented as a packet that does not decode. -/
def placeWord (s : State) (nbits w : Nat) : State :=
  { s.release with
    requests := [⟨tableRequester, (tablePacket nbits w).getD ⟨.fnPlace, 0, .empty⟩⟩]
    cascaded := s.cascaded.filter (fun q => q != tableRequester)
    sched := .request 0 :: s.sched }

end Sys2Proof.Machine
end

