-- ==== Sys2Proof/Machine/Step.lean ====
section
/-! DEFINITION. The step of the machine, and where a word of the opcode table is put to be run next. -/

namespace Sys2Proof.Machine

/-- One step (R352). -/
def step (s : State) : Host.Outcome State Fault Refusal := stepOnce s

/-- The state whose next step fetches and runs the word. -/
def State.withFetchWord (s : State) (nbits w : Nat) : State := placeWord s nbits w

end Sys2Proof.Machine
end

