-- ==== Sys2Proof/Safety.lean ====
section
/-! DEFINITION. What counts as a state the block can be in, and as a run of the environment in which nothing goes wrong:
the terms the statements are made in. Every predicate is a Bool, so that a concrete state can be tested. -/

namespace Sys2Proof.Machine

/-! ## Sizes -/

/-- A slot has one word per register of each page (R34). -/
def Slot.sized (c : Cfg) (t : Slot) : Bool := pageWf c 0 t.p0 && pageWf c 1 t.p1 && pageWf c 2 t.p2

/-- The data bank, the table and the staging buffers have the sizes the configuration gives them (R26, R33, R34). -/
def State.sized (s : State) : Bool :=
  s.data.length == s.conf.bankSize && s.table.length == s.conf.slots && s.table.all (Slot.sized s.conf) &&
    s.e1.wf s.conf && s.e2.wf s.conf

/-! ## The lock, the latch, the command -/

/-- `lock_owner = none` if and only if `fsm = Idle` (R24), and there is a sequencer position only while an operation is
in progress (R23). -/
def State.lockOk (s : State) : Bool :=
  (s.lockOwner.isNone == (s.fsm == .idle)) && (s.lockOwner.isNone == s.op.isNone)

/-- The fields of the command register (R91). -/
def cmdOp (w : Word) : BitVec 3 := (getField w opBits).setWidth 3
@[inherit_doc cmdOp] def cmdPage (w : Word) : BitVec 2 := (getField w pageBits).setWidth 2
@[inherit_doc cmdOp] def cmdIndex (w : Word) : Index := (getField w indexBits).setWidth 8

/-- `dev_cmd != none` if and only if `CMD.BUSY = 1`, and then it is the triple in `CMD` (R35). -/
def State.latchOk (s : State) : Bool :=
  match s.devCmd with
  | none => !s.busy
  | some d => s.busy && cmdOp s.cmd == d.op && cmdPage s.cmd == d.page && cmdIndex s.cmd == d.index

/-- The device has a meaning for the command: none of the situations U5, U6 and U7. -/
def State.deviceCan (s : State) (d : DevCmd) : Bool :=
  if d.op = opNop ∨ d.op = opFlushAll then true
  else if d.op = opFlushEntry ∨ d.op = opGetNext then s.conf.inRange d.index
  else if d.op = opLoad ∨ d.op = opRead then
    s.conf.inRange d.index && s.conf.hasPage d.page && (d.page != 2 || actionContext s.ext)
  else false

/-- The device has a meaning for the command it has latched, if any. -/
def State.commandOk (s : State) : Bool :=
  match s.devCmd with
  | none => true
  | some d => s.deviceCan d

/-! ## The sequencer position -/

/-- How many commands an operation issues at most (R250). -/
def Op.commands : Op → Nat
  | .flushAll | .flushEntry _ => 1
  | .loadEntry _ | .readEntry _ | .advCascade _ _ | .advMain _ _ _ => 3
  | .getNextEntry _ | .findEntry _ => 4
  | .addPort _ _ | .removePort _ _ => 7

/-- The operands of the operation in progress passed validation (R232). -/
def Op.valid (c : Cfg) : Op → Bool
  | .flushAll => true
  | .flushEntry i | .loadEntry i | .readEntry i | .getNextEntry i | .findEntry i => c.inRange i
  | .addPort i p | .removePort i p => c.inRange i && p.toNat < c.nPorts
  | .advCascade i j => c.inRange i && c.inRange j
  | .advMain i _ _ => c.inRange i

/-- The operations that begin with `GetNextBody` (R238). -/
def Op.searches : Op → Bool
  | .getNextEntry _ | .findEntry _ | .addPort _ _ | .removePort _ _ => true
  | _ => false

/-- The sequencer of an operation in progress stands in its access list (R23); `CommandIssued` is the state of the wait
after a command and of nothing else (R250); past the wait the device is idle (R233, R234); past `SelectAction` sub-block
0 is selected (R72); the count of polls is below its bound (R25); and the index a search works with is one of the table
(R244 (f), U16). -/
def State.positionOk (s : State) : Bool :=
  match s.op with
  | none => true
  | some op =>
    s.seqStep < (accessList s).length && s.phase ≤ op.commands && op.valid s.conf &&
      ((s.fsm == .commandIssued) == (s.phase != 0 && s.seqStep == 0)) &&
      (s.seqStep == 0 || !s.busy) &&
      (!((accessList s).take s.seqStep).contains .select || actionContext s.ext) &&
      s.pollCnt < s.conf.pollLimit &&
      (!op.searches || s.phase != 1 || s.conf.inRange (cmdIndex s.cmd)) &&
      (!op.searches || s.phase == 0 || (s.phase == 1 && s.seqStep < 2) || s.conf.inRange s.hwIndex)

/-! ## Requests -/

/-- The instruction is the request whose operation is `op` (R116). -/
def instrRuns (i : Instr) (op : Op) : Bool :=
  match i, op with
  | .flushAll _ _, .flushAll => true
  | .flushEntry _ i, .flushEntry j => i == j
  | .loadEntry _ i (some _), .loadEntry j => i == j
  | .readEntry _ i, .readEntry j => i == j
  | .getNextEntry _ i, .getNextEntry j => i == j
  | .findEntry _ i, .findEntry j => i == j
  | .addPort p i, .addPort j q => i == j && p == q
  | .removePort p i, .removePort j q => i == j && p == q
  | .advConfig _ i i2 (some _), .advCascade j j2 => i == j && i2 == j2
  | .advConfig _ i i2 (some _), .advMain j j2 _ => i == j && i2 == j2
  | _, _ => false

/-- A requester has at most one request outstanding: it blocks until its outcome (R20 (a)). -/
def State.oneEach (s : State) : Bool := (s.requests.map (·.who)).Nodup

/-- The requester that holds the lock is one of those that wait, and its request is the operation in progress. -/
def State.ownerOk (s : State) : Bool :=
  match s.lockOwner, s.op with
  | some who, some op =>
    match s.requests.find? (fun q => q.who == who) with
    | some q =>
      match decode q.packet with
      | .ok i => instrRuns i op
      | .error _ => false
    | none => false
  | _, _ => true

/-- A requester whose `AdvConfig` is half done waits with that `AdvConfig` (R285): what it submits anew starts with its
first tenure. -/
def State.cascadedOk (s : State) : Bool :=
  s.cascaded.all fun w =>
    match s.requests.find? (fun q => q.who == w) with
    | some q =>
      match decode q.packet with
      | .ok (.advConfig _ _ _ (some _)) => true
      | _ => false
    | none => false

/-- Every waiting request is one that a requester may submit. -/
def State.waitingOk (s : State) : Bool := s.requests.all fun q => isRequest s.conf q.packet

/-! ## The invariant -/

/-- The part of the invariant that does not depend on the lock. -/
def State.basic (s : State) : Bool := s.sized && s.latchOk && s.oneEach

/-- What every state keeps, whatever requests are presented and whatever the environment does: the device is never given
a command it has no meaning for, and the sequencer is always at a position of its access list. -/
def State.inv (s : State) : Bool :=
  s.basic && s.lockOk && s.commandOk && s.positionOk && s.ownerOk && s.cascadedOk

/-! ## Refusals that a machine of the invariant can answer when all that waits was submitted -/

/-- Refusals that come from an operand outside a function's domain, and from nothing the block does: a field of the codec
that crosses the top of its word (R143), and a page that does not exist (log entry 22). -/
def Refusal.ofOperand : Refusal → Bool
  | .codecPrecondition | .noSuchPage => true
  | _ => false

/-! ## Runs in which nothing goes wrong -/

/-- The first `n` accesses find a prompt device and a transport that does not fail: before each access the device
completes what it has latched (one of the runs R211 allows), and each access succeeds. -/
def prompt (n : Nat) : List Move := (List.replicate n [Move.device, Move.access .ok]).flatten

/-- The caller may start an operation at once: nobody holds the lock, the device is idle, all sizes are right, and its
`AdvConfig` is not half done. -/
def State.ready (s : State) : Bool :=
  s.sized && s.lockOwner.isNone && s.devCmd.isNone && !s.busy && !s.cascaded.contains s.caller

/-- As `ready`, with the caller's `AdvConfig` half done: its cascade slot is loaded, and it waits for its second tenure
(R285). -/
def State.betweenTenures (s : State) : Bool :=
  s.sized && s.lockOwner.isNone && s.devCmd.isNone && !s.busy && s.cascaded.contains s.caller

/-- The pages of an entry as a slot holds them (R34, R150). -/
def slotOf (c : Cfg) (e : Entry) : Slot := ⟨pageImage c e 0, pageImage c e 1, pageImage c e 2⟩

/-- The entry a slot holds (R151). -/
def entryOf (c : Cfg) (t : Slot) : Entry := entryOfPages c t.p0 t.p1 t.p2

/-- The state `s` after an operation of its caller has ended with outcome `r`, with the device idle and the moves `rest`
left: the sequencer and the lock are as R231 leaves them, the last wait made no busy poll, and the caller has its
outcome. Nothing else differs from `s`. -/
def finished (s : State) (r : Result) (rest : List Move) : State :=
  { s with
    fsm := .idle, lockOwner := none, op := none, phase := 0, seqStep := 0, pollCnt := 0, devCmd := none, sched := rest,
    result := r, resultFor := s.caller, requests := s.requests.filter (fun q => q.who != s.caller),
    cascaded := s.cascaded.filter (fun w => w != s.caller) }

/-- The instruction is one of the combinational functions (R3, level 1; R118). -/
def isFunction (i : Instr) : Bool :=
  match (encode i).fmt with
  | .cmd | .ext | .req => false
  | _ => true

/-- The operation of the Table Operation State Machine that a request names (R116). -/
def opOf : Instr → Option Op
  | .flushAll _ _ => some .flushAll
  | .flushEntry _ i => some (.flushEntry i)
  | .loadEntry _ i (some _) => some (.loadEntry i)
  | .readEntry _ i => some (.readEntry i)
  | .getNextEntry _ i => some (.getNextEntry i)
  | .findEntry _ i => some (.findEntry i)
  | .addPort p i => some (.addPort i p)
  | .removePort p i => some (.removePort i p)
  | _ => none

/-- The request passes validation (R232). -/
def accepted (c : Cfg) (i : Instr) : Bool :=
  match opOf i with
  | some op => op.valid c
  | none => false

end Sys2Proof.Machine
end

