-- ==== Sys2Proof/Certificates/Slice0/Obligations.lean ====
section
/-! DEFINITION. The statements about the model. Each docstring says which part of spec/ it formalises. First the
vocabulary of the statements: the tables of the spec written out once more, independently of the model's functions. -/

namespace Sys2Proof.Claims

open Sys2Proof Sys2Proof.Machine

/-! ## Tables of the spec -/

/-- A field of the linear window as a row of the tables of 41_layout_mapper.md and 42_shape_mappers.md: first linear
byte, start bit, width, and what the pattern and the mask there are. -/
structure WinField where
  L : Nat
  s : Nat
  w : Nat
  pat : Nat
  mask : Nat

/-- The row of a field of `w` bits. -/
def row {w : Nat} (L s : Nat) (f : Pair w) : WinField := ⟨L, s, w, f.pat.toNat, f.mask.toNat⟩

/-- The field covers string position `q` (R13). -/
def WinField.covers (f : WinField) (q : Nat) : Prop := 8 * f.L + f.s ≤ q ∧ q < 8 * f.L + f.s + f.w

/-- R154. -/
def macTable (f : MacFields) : List WinField := [row 0 0 f.da, row 6 0 f.sa, row 12 0 f.vtag, row 16 0 f.etype]

/-- R181. -/
def ipv4Table (h : IPv4) : List WinField :=
  [row 18 0 h.ver, row 18 4 h.ihl, row 19 0 h.tos, row 20 0 h.totLen, row 22 0 h.ident, row 24 0 h.flagsFrag,
    row 26 0 h.ttl, row 27 0 h.proto, row 28 0 h.hcsum, row 30 0 h.sip, row 34 0 h.dip]

/-- R182. -/
def ipv6Table (h : IPv6) : List WinField :=
  [row 18 0 h.ver, row 18 4 h.tc, row 19 4 h.flow, row 22 0 h.plen, row 24 0 h.nxt, row 25 0 h.hop, row 26 0 h.sip6,
    row 42 0 h.dip6]

/-- R183. -/
def tcp4Table (h : TCP) : List WinField :=
  [row 38 0 h.sport, row 40 0 h.dport, row 42 0 h.seq, row 46 0 h.ack, row 50 0 h.offFlags, row 52 0 h.win,
    row 54 0 h.csum, row 56 0 h.urg]

/-- R184. -/
def tcp6Table (h : TCP) : List WinField :=
  [row 58 0 h.sport, row 60 0 h.dport, row 62 0 h.seq, row 66 0 h.ack, row 70 0 h.offFlags, row 72 0 h.win,
    row 74 0 h.csum, row 76 0 h.urg]

/-- R185. -/
def udp4Table (h : UDP) : List WinField :=
  [row 38 0 h.sport, row 40 0 h.dport, row 42 0 h.ulen, row 44 0 h.ucsum]

/-- R186. -/
def udp6Table (h : UDP) : List WinField :=
  [row 58 0 h.sport, row 60 0 h.dport, row 62 0 h.ulen, row 64 0 h.ucsum]

/-- The fields of a rule's layer 3 and layer 4, by shape (R187). -/
def headersTable : Headers → List WinField
  | .ipv4Tcp l3 l4 => ipv4Table l3 ++ tcp4Table l4
  | .ipv4Udp l3 l4 => ipv4Table l3 ++ udp4Table l4
  | .ipv6Tcp l3 l4 => ipv6Table l3 ++ tcp6Table l4
  | .ipv6Udp l3 l4 => ipv6Table l3 ++ udp6Table l4
  | .unsupported _ => []

/-- In `W'` every field of the table holds its pattern and its mask, and every bit that no field covers is `W`'s. -/
def PlacesExactly (fs : List WinField) (W W' : Window) : Prop :=
  (∀ f ∈ fs, extract W' f.L f.s f.w = (f.pat, f.mask)) ∧
    ∀ q < 768, (∀ f ∈ fs, ¬ f.covers q) → W'.v.getMsbD q = W.v.getMsbD q ∧ W'.m.getMsbD q = W.m.getMsbD q

/-- A table with pattern and mask exchanged in every window field. -/
def swapPair {w : Nat} (f : Pair w) : Pair w := ⟨f.mask, f.pat⟩
@[inherit_doc swapPair] def swapWindow (W : Window) : Window := ⟨W.m, W.v⟩
@[inherit_doc swapPair] def swapMac (f : MacFields) : MacFields :=
  ⟨swapPair f.da, swapPair f.sa, swapPair f.vtag, swapPair f.etype⟩
@[inherit_doc swapPair] def swapIPv4 (h : IPv4) : IPv4 :=
  ⟨swapPair h.ver, swapPair h.ihl, swapPair h.tos, swapPair h.totLen, swapPair h.ident, swapPair h.flagsFrag,
    swapPair h.ttl, swapPair h.proto, swapPair h.hcsum, swapPair h.sip, swapPair h.dip⟩
@[inherit_doc swapPair] def swapIPv6 (h : IPv6) : IPv6 :=
  ⟨swapPair h.ver, swapPair h.tc, swapPair h.flow, swapPair h.plen, swapPair h.nxt, swapPair h.hop, swapPair h.sip6,
    swapPair h.dip6⟩
@[inherit_doc swapPair] def swapTCP (h : TCP) : TCP :=
  ⟨swapPair h.sport, swapPair h.dport, swapPair h.seq, swapPair h.ack, swapPair h.offFlags, swapPair h.win,
    swapPair h.csum, swapPair h.urg⟩
@[inherit_doc swapPair] def swapUDP (h : UDP) : UDP :=
  ⟨swapPair h.sport, swapPair h.dport, swapPair h.ulen, swapPair h.ucsum⟩

/-- The key fields with their values (R101, R153). -/
def keyTable (l : Layout) (k : KeyFields) : List (FieldPos × Word) :=
  [(l.ftMask, k.ftMask), (l.tkMask, k.tkMask), (l.ft, k.ft), (l.tk, k.tk), (l.vpri, k.vpri), (l.vid, k.vid),
    (l.vpriMask, k.vpriMask), (l.vidMask, k.vidMask), (l.pvec, k.pvec), (l.pvecMask, k.pvecMask)]

/-- The action fields with their values (R103, R156). -/
def actTable (l : Layout) (a : Actions) : List (FieldPos × Word) :=
  [(l.cont, a.cont), (l.nextId, a.nextId), (l.fpriOvr, a.fpriOvr), (l.fpri, a.fpri), (l.qpriOvr, a.qpriOvr),
    (l.qpri, a.qpri), (l.dpv, a.dpv), (l.flowMeter, a.flowMeter), (l.streamFilter, a.streamFilter),
    (l.cntEn, a.cntEn), (l.cntId, a.cntId), (l.queueId, a.queueId)]

/-- Every field of the table holds its value, cut to the field's width. -/
def HoldsFields (c : Cfg) (fs : List (FieldPos × Word)) (words : List Word) : Prop :=
  ∀ p ∈ fs, getReg c p.1 words = p.2 &&& ones p.1.bits.width

/-- The two lists of page words are equally long and agree in every bit outside the given fields. -/
def SameOutside (c : Cfg) (fs : List FieldPos) (words words' : List Word) : Prop :=
  words'.length = words.length ∧
    ∀ k b, (∀ f ∈ fs, ¬ (f.reg = c.dataLo + k ∧ f.bits.offset ≤ b ∧ b < f.bits.offset + f.bits.width)) →
      (words'.getD k 0).getLsbD b = (words.getD k 0).getLsbD b

/-- Every key and action value of the rule fits its field (premise P2 of R171). -/
def FitsWidths (c : Cfg) (r : Rule) : Prop :=
  (∀ p ∈ keyTable c.rl r.key, p.2 &&& ones p.1.bits.width = p.2) ∧
    ∀ p ∈ actTable c.rl r.action, p.2 &&& ones p.1.bits.width = p.2

/-- Some mask bit of the rule lies at linear byte 48 or above (R161 (b)). -/
def MasksSecondWindow (r : Rule) : Prop := ∃ q, 384 ≤ q ∧ q < 768 ∧ (ruleWindow r).m.getMsbD q = true

/-- The register space holds both fields disjointly inside one word (R142). -/
def DisjointBits (f g : BitField) : Prop :=
  f.offset + f.width ≤ g.offset ∨ g.offset + g.width ≤ f.offset ∨ f.width = 0 ∨ g.width = 0

/-! ## States and outcomes -/

/-- The state after a combinational function has answered `v` to its caller. -/
def answered (s : State) (v : FnValue) : State :=
  { s with fnOut := v, fnFor := s.caller, requests := s.requests.filter (fun q => q.who != s.caller) }

/-- The state after validation has turned a request of the caller away (R301): the outcome has gone to the caller. -/
def turnedAway (s : State) : State :=
  { s with
    result := .err .invalidArgument, resultFor := s.caller, requests := s.requests.filter (fun q => q.who != s.caller),
    cascaded := s.cascaded.filter (fun w => w != s.caller) }

/-- The state after the abort sequence (R310): idle, the lock free, the cause with the caller, all else as it stood. -/
def aborted (s : State) (c : Cause) : State :=
  { s with
    fsm := .idle, lockOwner := none, op := none, phase := 0, seqStep := 0, result := .err c, resultFor := s.caller,
    requests := s.requests.filter (fun q => q.who != s.caller),
    cascaded := s.cascaded.filter (fun w => w != s.caller) }

/-- The state after `Acquire` by the caller (R230): at the start of the operation's access list, waiting. -/
def acquired (s : State) (op : Op) : State :=
  { s with
    lockOwner := some s.caller, fsm := .awaitingBusy, op := some op, phase := 0, seqStep := 0, pollCnt := 0 }

/-- `CMD` and the latch after the device has finished (R211): bit 15 clear, every other bit of `CMD` as it was. -/
def deviceDone (s : State) : State := { s with cmd := s.cmd &&& 0x7FFF, devCmd := none }

/-- The machine with other moves decided. -/
def withMoves (s : State) (ms : List Move) : State := { s with sched := ms }

/-- The operation that `s` starts ended in `t` with one of the two errors that the environment causes; the error value of
a failed access is one the transport has answered (R303). -/
def Failed (s t : State) : Prop :=
  t.result = .err .timeout ∨
    ∃ e, t.result = .err (.transportFailure e) ∧
      (Move.access (.lost e) ∈ s.sched ∨ Move.access (.landed e) ∈ s.sched)

/-- What every operation leaves as it is: the configuration, the model's fields for requesters and functions, and the
waiting requests and half-done `AdvConfig`s of requesters other than the caller. -/
def SameForOthers (s t : State) : Prop :=
  t.cfg = s.cfg ∧ t.caller = s.caller ∧ t.turn = s.turn ∧ t.fnOut = s.fnOut ∧ t.fnFor = s.fnFor ∧ t.drawn = s.drawn ∧
    t.requests.filter (fun q => q.who != s.caller) = s.requests.filter (fun q => q.who != s.caller) ∧
    t.cascaded.filter (fun w => w != s.caller) = s.cascaded.filter (fun w => w != s.caller)

/-- Registers of one entry, all three pages (59 under RL0, R152). -/
def pageRegisters (c : Cfg) : Nat := c.pageLen 0 + c.pageLen 1 + c.pageLen 2

/-- The data bank after the three pages have gone through it, first page first (R243, R342). -/
def throughBank (data p q r : List Word) : List Word := overlay (overlay (overlay data p) q) r

/-- What the controller takes for "no higher valid entry" (R238, R244): the device answered `MAX_INDEX` and the three
key registers of that slot read zero. -/
def nothingHigher (s : State) (j : Index) : Prop :=
  j.toNat = s.conf.maxIndex ∧ (s.slot j).p0.getD 0 0 = 0 ∧ (s.slot j).p0.getD 1 0 = 0 ∧ (s.slot j).p0.getD 2 0 = 0

/-- The three key registers when the device has answered `MAX_INDEX`, the ones of before otherwise. -/
def withKeys (s : State) (j : Index) (t : State) : State :=
  if j.toNat = s.conf.maxIndex then
    { t with
      key1 := (s.slot j).p0.getD 0 0, key2 := (s.slot j).p0.getD 1 0, key3 := (s.slot j).p0.getD 2 0 }
  else t

/-- The accesses of a search that finds the device's answer `j` (R244 (a)): three more when `j` is `MAX_INDEX`. -/
def searchAccesses (s : State) (j : Index) : Nat :=
  pageRegisters s.conf + 11 + if j.toNat = s.conf.maxIndex then 3 else 0

/-- The accesses that a list of moves gives the transport to answer. -/
def accesses (ms : List Move) : Nat :=
  (ms.filter fun m => match m with | .access _ => true | _ => false).length

/-- An `AdvConfig` that passes validation (R285). -/
def AdvAccepted (c : Cfg) (i : Instr) : Prop :=
  ∃ port index index2 r, i = .advConfig port index index2 (some r) ∧ advValid c index index2 r = true

end Sys2Proof.Claims

open Sys2Proof Sys2Proof.Machine Sys2Proof.Claims

/-! ## Encodings -/

/-- Decoding gives back every well-formed instruction from its encoding, whatever its operands (30_encoding.md). -/
def Obligations.DecodeOfEncodeIsTheInstruction : Prop :=
  ∀ (c : Cfg) (i : Instr), i.wf c = true → Sys2Proof.decode (encode i) = .ok i

/-- Each packet has one meaning: what decodes is encoded with the same bits, and, but for an unsupported shape tag, in
the same format (30_encoding.md). -/
def Obligations.DecodedPacketsKeepTheirBits : Prop :=
  ∀ (p : Packet) (i : Instr), Sys2Proof.decode p = .ok i →
    (encode i).bits = p.bits ∧ ((∀ low, i ≠ .shapeUnsupported low) → (encode i).fmt = p.fmt)

/-- Words that the spec writes out decode to the operations it writes them for. -/
def Obligations.WordsOfTheSpecDecode : Prop :=
  Sys2Proof.decode ⟨.cmd, 0x8000, .empty⟩ = .ok (.nop 0 0 0) ∧
    Sys2Proof.decode ⟨.cmd, 0x9000, .empty⟩ = .ok (.flushAllCmd 0 0 0) ∧
    Sys2Proof.decode ⟨.cmd, 0xA007, .empty⟩ = .ok (.flushEntryCmd 0 0 7) ∧
    Sys2Proof.decode ⟨.cmd, 0xB805, .empty⟩ = .ok (.loadCmd 2 0 5) ∧
    Sys2Proof.decode ⟨.cmd, 0xC0FF, .empty⟩ = .ok (.getNextCmd 0 0 255) ∧
    Sys2Proof.decode ⟨.cmd, 0xD407, .empty⟩ = .ok (.readCmd 1 0 7) ∧
    Sys2Proof.decode ⟨.cmd, 0x3005, .empty⟩ = .ok (.cmdStore 3 0 0 5) ∧
    Sys2Proof.decode ⟨.req, 0x7314, .empty⟩ = .ok (.addPort 3 20) ∧
    Sys2Proof.decode ⟨.req, 0x900A, .adv 0x0B none⟩ = .ok (.advConfig 0 10 11 none) ∧
    Sys2Proof.decode ⟨.shapeNeeds, 0b001, .empty⟩ = .ok (.needsSecondSlot 1) ∧
    Sys2Proof.decode ⟨.shapeCompile, 0b110, .empty⟩ = .ok (.shapeUnsupported 2)

/-! ## Field Codec -/

/-- `setField` (R140): bit `offset + k` of the result is bit `k` of the value for `k < width`, every other bit is the
word's; the example of the rule. -/
def Obligations.SetFieldWritesItsBitsOnly : Prop :=
  (∀ (word value : Word) (offset width : BitVec 5) (s : State), offset.toNat + width.toNat ≤ 16 →
    ∃ r : Word, exec (.setField word value offset width) s = .next (answered s (.word r)) ∧
      ∀ b < 16, r.getLsbD b =
        if offset.toNat ≤ b ∧ b < offset.toNat + width.toNat then value.getLsbD (b - offset.toNat)
        else word.getLsbD b) ∧
    ∀ s, exec (.setField 0xFFFF 0x5 4 3) s = .next (answered s (.word 0xFFDF))

/-- `getField` (R141): bit `k` of the result is bit `offset + k` of the word for `k < width`, the others are 0; the
example of the rule. -/
def Obligations.GetFieldReadsItsBits : Prop :=
  (∀ (word : Word) (offset width : BitVec 5) (s : State), offset.toNat + width.toNat ≤ 16 →
    ∃ r : Word, exec (.getField word offset width) s = .next (answered s (.word r)) ∧
      ∀ b, r.getLsbD b = (decide (b < width.toNat) && word.getLsbD (offset.toNat + b))) ∧
    ∀ s, exec (.getField 0xFFDF 4 3) s = .next (answered s (.word 0x5))

/-- The laws L1 to L5 of R142. -/
def Obligations.CodecLaws : Prop :=
  ∀ (w v v1 v2 : Word) (f g : BitField),
    getField (setField w v f) f = v &&& BitVec.ofNat 16 (2 ^ f.width - 1) ∧
      setField w (getField w f) f = w ∧
      (DisjointBits f g → getField (setField w v f) g = getField w g) ∧
      setField (setField w v1 f) v2 f = setField w v2 f ∧
      (DisjointBits f g → setField (setField w v1 f) v2 g = setField (setField w v2 g) v1 f)

/-- Functions applied outside their domain answer nothing: a field that crosses the top of its word (R143, U1), and a
page that does not exist (R70; the refusal of the latter is the model's choice, log entry 22). -/
def Obligations.FunctionsRefuseOutsideTheirDomain : Prop :=
  ∀ s : State,
    (∀ word value offset width, 16 < offset.toNat + width.toNat →
      exec (.setField word value offset width) s = .refused .codecPrecondition ∧
        exec (.getField word offset width) s = .refused .codecPrecondition) ∧
      ∀ e, exec (.pageImage e 3) s = .refused .noSuchPage

/-! ## Window placement -/

/-- `place` and `extract` (R180): the field's bits go to its string positions, most significant first, pattern and mask
alike; every other bit stays; `extract` gives back what was placed, cut to the width, and sees nothing of a `place` at
disjoint positions; and string position `q` is bit `7 - q mod 8` of byte `q div 8` (R13). A field that ends outside the
window is placed too, with a window that is free (the model's choice, log entry 20). -/
def Obligations.PlacePutsAFieldAtItsBits : Prop :=
  (∀ (W : Window) (L st w pattern mask : Nat) (s : State), 8 * L + st + w ≤ 768 →
    ∃ W' : Window, exec (.place W L st w pattern mask) s = .next (answered s (.window W')) ∧
      (∀ k < w, W'.v.getMsbD (8 * L + st + k) = pattern.testBit (w - 1 - k) ∧
        W'.m.getMsbD (8 * L + st + k) = mask.testBit (w - 1 - k)) ∧
      (∀ q < 768, q < 8 * L + st ∨ 8 * L + st + w ≤ q →
        W'.v.getMsbD q = W.v.getMsbD q ∧ W'.m.getMsbD q = W.m.getMsbD q) ∧
      extract W' L st w = (pattern % 2 ^ w, mask % 2 ^ w) ∧
      ∀ L2 st2 w2, 8 * L2 + st2 + w2 ≤ 768 →
        8 * L + st + w ≤ 8 * L2 + st2 ∨ 8 * L2 + st2 + w2 ≤ 8 * L + st →
        extract W' L2 st2 w2 = extract W L2 st2 w2) ∧
    (∀ (W : Window) (L st w pattern mask : Nat) (s : State), 768 < 8 * L + st + w →
      ∃ W' : Window, exec (.place W L st w pattern mask) s = .next (answered s (.window W'))) ∧
    ∀ (x : BitVec windowBits) (q : Nat), q < 768 →
      ((bytesOf x).getD (q / 8) 0).getLsbD (7 - q % 8) = x.getMsbD q

/-- The mappers of the MAC/VLAN/EtherType part (R154), of layer 3 (R181, R182) and of layer 4 (R183 to R186) place each
field of their table at its bits and nothing else. -/
def Obligations.MappersPlaceTheirFieldsOnly : Prop :=
  ∀ (W : Window) (s : State),
    (∀ mac, ∃ W', exec (.mapPrefix mac W) s = .next (answered s (.window W')) ∧ PlacesExactly (macTable mac) W W') ∧
      (∀ udp l3, ∃ W', exec (.mapIPv4 udp l3 W) s = .next (answered s (.window W')) ∧
        PlacesExactly (ipv4Table l3) W W') ∧
      (∀ udp l3, ∃ W', exec (.mapIPv6 udp l3 W) s = .next (answered s (.window W')) ∧
        PlacesExactly (ipv6Table l3) W W') ∧
      (∀ l4, ∃ W', exec (.mapTCPv4 l4 W) s = .next (answered s (.window W')) ∧ PlacesExactly (tcp4Table l4) W W') ∧
      (∀ l4, ∃ W', exec (.mapTCPv6 l4 W) s = .next (answered s (.window W')) ∧
        PlacesExactly (tcp6Table l4) W W') ∧
      (∀ l4, ∃ W', exec (.mapUDPv4 l4 W) s = .next (answered s (.window W')) ∧
        PlacesExactly (udp4Table l4) W W') ∧
      ∀ l4, ∃ W', exec (.mapUDPv6 l4 W) s = .next (answered s (.window W')) ∧ PlacesExactly (udp6Table l4) W W'

/-- Lock-step (R172): every mapper treats patterns and masks alike, at the same positions: exchanging them before or
after mapping is the same. -/
def Obligations.PatternAndMaskMoveInLockStep : Prop :=
  ∀ W : Window,
    (∀ f, mapPrefix (swapMac f) (swapWindow W) = swapWindow (mapPrefix f W)) ∧
      (∀ h, mapIPv4 (swapIPv4 h) (swapWindow W) = swapWindow (mapIPv4 h W)) ∧
      (∀ h, mapIPv6 (swapIPv6 h) (swapWindow W) = swapWindow (mapIPv6 h W)) ∧
      (∀ h, mapTCPv4 (swapTCP h) (swapWindow W) = swapWindow (mapTCPv4 h W)) ∧
      (∀ h, mapTCPv6 (swapTCP h) (swapWindow W) = swapWindow (mapTCPv6 h W)) ∧
      (∀ h, mapUDPv4 (swapUDP h) (swapWindow W) = swapWindow (mapUDPv4 h W)) ∧
      ∀ h, mapUDPv6 (swapUDP h) (swapWindow W) = swapWindow (mapUDPv6 h W)

/-! ## Entries -/

/-- `encodeKey` (R153): every key field holds its value cut to its width, every other bit of the header words is as
before, TAG among them, and nothing else of the entry changes. -/
def Obligations.EncodeKeyWritesTheKeyFieldsOnly : Prop :=
  ∀ (key : KeyFields) (e : Entry) (s : State), e.wf s.conf = true →
    ∃ hdr, exec (.encodeKey key e) s = .next (answered s (.entry { e with hdr := hdr })) ∧
      HoldsFields s.conf (keyTable s.conf.rl key) hdr ∧
      SameOutside s.conf ((keyTable s.conf.rl key).map (·.1)) e.hdr hdr ∧
      getReg s.conf s.conf.rl.tag hdr = getReg s.conf s.conf.rl.tag e.hdr

/-- `encodeActions` (R156): every action field holds its value cut to its width, every other bit is 0. -/
def Obligations.EncodeActionsWritesTheActionFieldsOnly : Prop :=
  ∀ (a : Actions) (s : State),
    ∃ act, exec (.encodeActions a) s = .next (answered s (.words act)) ∧
      HoldsFields s.conf (actTable s.conf.rl a) act ∧
      SameOutside s.conf ((actTable s.conf.rl a).map (·.1)) (List.replicate s.conf.rl.nAct 0) act

/-- Page images (R150) hold header word `k` in register `k` of page 0, the action words in page 2, and the window bytes
after the header words of page 0 up to the cut and in page 1 from there (R71), mask byte in bits 15:8 and value byte in
bits 7:0 (R96). R70, R71 and R150 say so under RL0; that every other layout is arranged as RL0 is, each page from its
first register and the window cut once, is the model's choice (log entry 33). Page images and entries are mutually
inverse and lose nothing (R151, R152). -/
def Obligations.PagesAndEntriesAreInverse : Prop :=
  (∀ (e : Entry) (s : State), e.wf s.conf = true →
    (∀ p : BitVec 2, p ≠ 3 →
      exec (.pageImage e p) s = .next (answered s (.words (pageImage s.conf e p.toNat))) ∧
        pageWf s.conf p.toNat (pageImage s.conf e p.toNat) = true) ∧
      (∀ k < s.conf.rl.nHdr, (pageImage s.conf e 0)[k]? = e.hdr[k]?) ∧
      (∀ b < 48, ∃ r : Word,
        (if b < s.conf.rl.cut then (pageImage s.conf e 0)[s.conf.rl.nHdr + b]?
          else (pageImage s.conf e 1)[b - s.conf.rl.cut]?) = some r ∧
          e.wm[b]? = some (r.extractLsb' 8 8) ∧ e.wv[b]? = some (r.extractLsb' 0 8)) ∧
      pageImage s.conf e 2 = e.act ∧
      exec (.entryOfPages (pageImage s.conf e 0) (pageImage s.conf e 1) (pageImage s.conf e 2)) s =
        .next (answered s (.entry e))) ∧
    (∀ (i0 i1 i2 : List Word) (s : State),
      pageWf s.conf 0 i0 = true → pageWf s.conf 1 i1 = true → pageWf s.conf 2 i2 = true →
      ∃ e, exec (.entryOfPages i0 i1 i2) s = .next (answered s (.entry e)) ∧ e.wf s.conf = true ∧
        pageImage s.conf e 0 = i0 ∧ pageImage s.conf e 1 = i1 ∧ pageImage s.conf e 2 = i2) ∧
    ∀ tb pollLimit mask,
      (Cfg.ingress tb pollLimit mask).pageLen 0 = 30 ∧ (Cfg.ingress tb pollLimit mask).pageLen 1 = 24 ∧
        (Cfg.ingress tb pollLimit mask).pageLen 2 = 5

/-! ## The Cascade Manager, compile and decode -/

/-- `needsSecondSlot` on the four supported tags (R200). -/
def Obligations.NeedsSecondSlotIsAPropertyOfTheShape : Prop :=
  ∀ s : State,
    exec (.needsSecondSlot 0b00) s = .next (answered s (.flag true)) ∧
      exec (.needsSecondSlot 0b01) s = .next (answered s (.flag false)) ∧
      exec (.needsSecondSlot 0b10) s = .next (answered s (.flag true)) ∧
      exec (.needsSecondSlot 0b11) s = .next (answered s (.flag true)) ∧
      ∀ shape, exec (.needsSecondSlot shape) s =
        .next (answered s (.flag (shape.getLsbD 1 || !shape.getLsbD 0)))

/-- `isSecondSlotUsed` (R203): some mask byte is non-zero; the value bytes are not looked at. -/
def Obligations.SecondSlotIsUsedIffAMaskByteIsSet : Prop :=
  ∀ (e : Entry) (s : State), e.wf s.conf = true →
    ∃ b, exec (.isSecondSlotUsed e) s = .next (answered s (.flag b)) ∧
      (b = true ↔ ∃ k < 48, e.wm.getD k 0 ≠ 0) ∧ ∀ wv, isSecondSlotUsed { e with wv := wv } = b

/-- `link` (R202, R204): the first entry keeps all but its action words, which hold CONTINUE and NEXT_ID and nothing
else; the second entry holds the continuation tag, compared in every bit, VALID_TAG and the rule's actions, and keeps
all else. -/
def Obligations.LinkWritesTheContinuation : Prop :=
  ∀ (first second : Entry) (slot2 : Index) (a : Actions) (s : State),
    first.wf s.conf = true → second.wf s.conf = true →
    ∃ act1 hdr2 act2,
      exec (.link first second slot2 a) s =
          .next (answered s (.entries [{ first with act := act1 }, { second with hdr := hdr2, act := act2 }])) ∧
        HoldsFields s.conf [(s.conf.rl.cont, 1), (s.conf.rl.nextId, slot2.setWidth 16)] act1 ∧
        SameOutside s.conf [s.conf.rl.cont, s.conf.rl.nextId] (List.replicate s.conf.rl.nAct 0) act1 ∧
        HoldsFields s.conf
          [(s.conf.rl.vid, slot2.setWidth 16),
            (s.conf.rl.vidMask, if s.conf.maskOneIsCompare then 0xFFFF else 0),
            (s.conf.rl.tag, s.conf.validTag)] hdr2 ∧
        SameOutside s.conf [s.conf.rl.vid, s.conf.rl.vidMask, s.conf.rl.tag] second.hdr hdr2 ∧
        HoldsFields s.conf (actTable s.conf.rl a) act2 ∧
        SameOutside s.conf ((actTable s.conf.rl a).map (·.1)) (List.replicate s.conf.rl.nAct 0) act2

/-- `compile` of a supported shape (R160, R161): one or two well-formed entries, each valid, the first with the rule's
key and window 1; two exactly when the shape can need a second slot and some mask bit lies at linear byte 48 or above;
never two for IPv4-UDP. The windows hold the fields of the shape's tables and nothing else. A single entry holds the
rule's actions; of two the first holds CONTINUE and the index of the second slot, and the second the continuation tag,
compared in every bit, `VALID_TAG` and the rule's actions (R202, R204). Every bit that no such field covers is 0. -/
def Obligations.CompileAnswersOneOrTwoEntries : Prop :=
  ∀ (r : Rule) (j : Index) (s : State), r.supported = true →
    ∃ (first : Entry) (second : Option Entry),
      exec (.compile r j) s = .next (answered s (.entries (first :: second.toList))) ∧
        (second.isSome = true ↔ MasksSecondWindow r) ∧
        (r.shape = 0b001 → second = none) ∧
        (∀ e ∈ first :: second.toList, e.wf s.conf = true ∧ validWords s.conf e.hdr = true) ∧
        HoldsFields s.conf ((s.conf.rl.tag, s.conf.validTag) :: keyTable s.conf.rl r.key) first.hdr ∧
        SameOutside s.conf (s.conf.rl.tag :: (keyTable s.conf.rl r.key).map (·.1))
          (List.replicate s.conf.rl.nHdr 0) first.hdr ∧
        PlacesExactly (macTable r.mac ++ headersTable r.headers) ⟨0, 0⟩ (ruleWindow r) ∧
        first.wv = (bytesOf (ruleWindow r).v).take 48 ∧ first.wm = (bytesOf (ruleWindow r).m).take 48 ∧
        (second = none →
          HoldsFields s.conf (actTable s.conf.rl r.action) first.act ∧
            SameOutside s.conf ((actTable s.conf.rl r.action).map (·.1)) (List.replicate s.conf.rl.nAct 0)
              first.act) ∧
        ∀ e, second = some e →
          e.wv = (bytesOf (ruleWindow r).v).drop 48 ∧ e.wm = (bytesOf (ruleWindow r).m).drop 48 ∧
            HoldsFields s.conf [(s.conf.rl.cont, 1), (s.conf.rl.nextId, j.setWidth 16)] first.act ∧
            SameOutside s.conf [s.conf.rl.cont, s.conf.rl.nextId] (List.replicate s.conf.rl.nAct 0) first.act ∧
            HoldsFields s.conf
              [(s.conf.rl.vid, j.setWidth 16), (s.conf.rl.vidMask, if s.conf.maskOneIsCompare then 0xFFFF else 0),
                (s.conf.rl.tag, s.conf.validTag)] e.hdr ∧
            SameOutside s.conf [s.conf.rl.vid, s.conf.rl.vidMask, s.conf.rl.tag] (List.replicate s.conf.rl.nHdr 0)
              e.hdr ∧
            HoldsFields s.conf (actTable s.conf.rl r.action) e.act ∧
            SameOutside s.conf ((actTable s.conf.rl r.action).map (·.1)) (List.replicate s.conf.rl.nAct 0) e.act

/-- `decode` of any entries under a supported tag (R165) answers a rule of that shape whose window fields are those at
the positions of the shape's tables, whose key is read from the first entry and whose actions are read from the last.
The window of well-formed entries is the first entry's bytes followed by the second's, or by 48 zeros. -/
def Obligations.DecodeReadsEveryFieldAtItsPlace : Prop :=
  ∀ (shape : BitVec 2) (first : Entry) (second : Option Entry) (s : State),
    ∃ (r : Rule) (W : Window), exec (.decode shape first second) s = .next (answered s (.rule r)) ∧
      r.shape = 0#1 ++ shape ∧
      (∀ f ∈ macTable r.mac ++ headersTable r.headers, extract W f.L f.s f.w = (f.pat, f.mask)) ∧
      (first.wf s.conf = true → (∀ e, second = some e → e.wf s.conf = true) →
        bytesOf W.v = first.wv ++ (second.elim (List.replicate 48 0) (·.wv)) ∧
          bytesOf W.m = first.wm ++ (second.elim (List.replicate 48 0) (·.wm))) ∧
      (∀ p ∈ keyTable s.conf.rl r.key, p.2 = getReg s.conf p.1 first.hdr) ∧
      ∀ p ∈ actTable s.conf.rl r.action, p.2 = getReg s.conf p.1 (second.getD first).act

/-- The round-trip law (R171): a rule of a supported shape (P1) whose values fit their widths (P2) and which has no
pattern bit at linear byte 48 or above when it has no mask bit there (P3) comes back from `decode` of what `compile`
answered, whatever the index of the second slot. -/
def Obligations.CompileThenDecodeGivesTheRuleBack : Prop :=
  ∀ (r : Rule) (j : Index) (s : State), r.supported = true → FitsWidths s.conf r →
    (¬ MasksSecondWindow r → ∀ q, 384 ≤ q → q < 768 → (ruleWindow r).v.getMsbD q = false) →
    ∃ (first : Entry) (second : Option Entry),
      exec (.compile r j) s = .next (answered s (.entries (first :: second.toList))) ∧
        exec (.decode (r.shape.setWidth 2) first second) s = .next (answered s (.rule r))

/-- `modifyPort` (R248): the port's pattern bit becomes 0, its mask bit "do not compare" for an add and "compare" for
a remove; nothing else changes; doing it twice is doing it once; and a remove undoes an add exactly when the port was
not a member before. -/
def Obligations.ModifyPortChangesOnePort : Prop :=
  ∀ (e : Entry) (port : BitVec 4) (add : Bool) (s : State), e.wf s.conf = true →
    ∃ hdr, exec (.modifyPort e port add) s = .next (answered s (.entry { e with hdr := hdr })) ∧
      (∀ b < s.conf.nPorts,
        (getReg s.conf s.conf.rl.pvec hdr).getLsbD b =
            (decide (b ≠ port.toNat) && (getReg s.conf s.conf.rl.pvec e.hdr).getLsbD b) ∧
          (getReg s.conf s.conf.rl.pvecMask hdr).getLsbD b =
            if b = port.toNat then (if add then !s.conf.maskOneIsCompare else s.conf.maskOneIsCompare)
            else (getReg s.conf s.conf.rl.pvecMask e.hdr).getLsbD b) ∧
      SameOutside s.conf [s.conf.rl.pvec, s.conf.rl.pvecMask] e.hdr hdr ∧
      modifyPort s.conf { e with hdr := hdr } port add = { e with hdr := hdr } ∧
      (port.toNat < s.conf.nPorts →
        (modifyPort s.conf (modifyPort s.conf e port true) port false = e ↔
          (getReg s.conf s.conf.rl.pvec e.hdr).getLsbD port.toNat = false ∧
            (getReg s.conf s.conf.rl.pvecMask e.hdr).getLsbD port.toNat = s.conf.maskOneIsCompare))

/-- `cmdword` (R93): the formula, the same word built with the Field Codec, operands that an opcode does not use
written 0 wherever the controller issues it, and the worked example. -/
def Obligations.CommandWordFormula : Prop :=
  (∀ (op : BitVec 3) (page : BitVec 2) (index : Index) (s : State),
    exec (.cmdword op page index) s =
        .next (answered s (.word
          (0x8000 ||| (op.setWidth 16 <<< 12) ||| (page.setWidth 16 <<< 10) ||| index.setWidth 16))) ∧
      setField (setField (setField (setField 0 1 (bitField 15 1)) (op.setWidth 16) (bitField 12 3))
          (page.setWidth 16) (bitField 10 2)) (index.setWidth 16) (bitField 0 8) =
        0x8000 ||| (op.setWidth 16 <<< 12) ||| (page.setWidth 16 <<< 10) ||| index.setWidth 16) ∧
    (∀ (s : State) (op : BitVec 3) (page : BitVec 2) (index : Index), Access.issue op page index ∈ accessList s →
      (op = opFlushAll → cmdword op page index = 0x9000) ∧ (op = opFlushEntry ∨ op = opGetNext → page = 0)) ∧
    ∀ s, exec (.cmdword opLoad 2 5) s = .next (answered s (.word 0xB805))

/-- The combinational functions take no step of the block (R20, R42): they change nothing but what their caller is
answered, and the answer depends on nothing but their operands and the configuration. -/
def Obligations.FunctionsTouchNoStateOfTheBlock : Prop :=
  ∀ (i : Instr) (s t : State), isFunction i = true → exec i s = .next t →
    t = answered s t.fnOut ∧
      ∀ s', s'.cfg = s.cfg → exec i s' = .next (answered s' t.fnOut)

/-! ## Register words -/

/-- Latching (R210): with `BUSY` 0, a command word that the controller writes to `CMD` under the lock is stored and
latched, and one with bit 15 clear is stored and starts nothing; a word for the selector is stored (R32). The writes of
an operation are these: an `Issue` (R235) whose access succeeds is the command word's arrival followed by a new phase,
`SelectAction` (R236) the arrival of the selector's word with sub-block 0 (R64) followed by the next position. -/
def Obligations.WritesAtThePortAreStoredAndLatched : Prop :=
  (∀ (page rsvd : BitVec 2) (index : Index) (s : State),
    s.turn = .controller → s.lockOwner ≠ none → s.busy = false →
    (∀ op, exec (.cmdStore op page rsvd index) s = .next { s with cmd := 0#1 ++ op ++ page ++ rsvd ++ index }) ∧
      exec (.nop page rsvd index) s =
        .next { s with cmd := 1#1 ++ 0#3 ++ page ++ rsvd ++ index, devCmd := some ⟨0, page, index⟩ } ∧
      exec (.flushAllCmd page rsvd index) s =
        .next { s with cmd := 1#1 ++ 1#3 ++ page ++ rsvd ++ index, devCmd := some ⟨1, page, index⟩ } ∧
      exec (.flushEntryCmd page rsvd index) s =
        .next { s with cmd := 1#1 ++ 2#3 ++ page ++ rsvd ++ index, devCmd := some ⟨2, page, index⟩ } ∧
      (page ≠ 3 → exec (.loadCmd page rsvd index) s =
        .next { s with cmd := 1#1 ++ 3#3 ++ page ++ rsvd ++ index, devCmd := some ⟨3, page, index⟩ }) ∧
      exec (.getNextCmd page rsvd index) s =
        .next { s with cmd := 1#1 ++ 4#3 ++ page ++ rsvd ++ index, devCmd := some ⟨4, page, index⟩ } ∧
      (page ≠ 3 → exec (.readCmd page rsvd index) s =
        .next { s with cmd := 1#1 ++ 5#3 ++ page ++ rsvd ++ index, devCmd := some ⟨5, page, index⟩ }) ∧
      ∀ r sub, exec (.extSelect r sub) s = .next { s with ext := r ++ sub }) ∧
    (∀ (op : BitVec 3) (page : BitVec 2) (index : Index) (i : Instr) (s : State), s.inv = true →
      (accessList s)[s.seqStep]? = some (.issue op page index) →
      Sys2Proof.decode ⟨.cmd, (1#1 ++ op ++ page ++ 0#2 ++ index).setWidth 48, .empty⟩ = .ok i →
      ctlStep .ok s = andThen (exec i { s with turn := .controller }) fun t =>
        .next ({ t with turn := s.turn } : State).issued) ∧
    ∀ s : State, s.inv = true → (accessList s)[s.seqStep]? = some .select →
      ctlStep .ok s = andThen (exec (.extSelect (s.ext.extractLsb' 2 14) 0) { s with turn := .controller }) fun t =>
        advance { t with turn := s.turn }

/-- What is outside the protocol is refused, not given a meaning: a register word presented by a requester, or by the
controller outside the lock (R60, R66), a register write while `BUSY` is 1 (U3, U4), a `LOAD` or `READ` of page 3 (U5;
that the write is refused already is log entry 11), and, in the device, an index outside the table (U7), page 2 while the
sub-block is not 0 (U6), and a command that is not the one latched (log entry 25). -/
def Obligations.OutsideTheProtocolIsRefused : Prop :=
  ∀ (page rsvd : BitVec 2) (index : Index) (s : State),
    (s.turn = .port ∨ s.turn = .controller ∧ s.lockOwner = none →
      (∀ op, exec (.cmdStore op page rsvd index) s = .refused .rawAccess) ∧
        (∀ i ∈ [Instr.nop page rsvd index, .flushAllCmd page rsvd index, .flushEntryCmd page rsvd index,
            .loadCmd page rsvd index, .getNextCmd page rsvd index, .readCmd page rsvd index],
          exec i s = .refused .rawAccess) ∧
        ∀ r sub, exec (.extSelect r sub) s = .refused .rawAccess) ∧
    (s.turn = .controller → s.lockOwner ≠ none → s.busy = true →
      (∀ op, exec (.cmdStore op page rsvd index) s = .refused .commandWhileBusy) ∧
        (∀ i ∈ [Instr.nop page rsvd index, .flushAllCmd page rsvd index, .flushEntryCmd page rsvd index,
            .loadCmd page rsvd index, .getNextCmd page rsvd index, .readCmd page rsvd index],
          exec i s = .refused .commandWhileBusy) ∧
        ∀ r sub, exec (.extSelect r sub) s = .refused .registerWhileBusy) ∧
      (s.turn = .controller → s.lockOwner ≠ none → s.busy = false →
        exec (.loadCmd 3 rsvd index) s = .refused .reservedPage ∧
          exec (.readCmd 3 rsvd index) s = .refused .reservedPage) ∧
      (s.turn = .device → s.conf.inRange index = false →
        (s.devCmd = some ⟨opFlushEntry, page, index⟩ →
          exec (.flushEntryCmd page rsvd index) s = .refused .indexOutsideTable) ∧
          (s.devCmd = some ⟨opLoad, page, index⟩ →
            exec (.loadCmd page rsvd index) s = .refused .indexOutsideTable) ∧
          (s.devCmd = some ⟨opGetNext, page, index⟩ →
            exec (.getNextCmd page rsvd index) s = .refused .indexOutsideTable) ∧
          (s.devCmd = some ⟨opRead, page, index⟩ →
            exec (.readCmd page rsvd index) s = .refused .indexOutsideTable)) ∧
      (s.turn = .device → s.conf.inRange index = true →
        (s.devCmd = some ⟨opLoad, 3, index⟩ → exec (.loadCmd 3 rsvd index) s = .refused .reservedPage) ∧
          (s.devCmd = some ⟨opRead, 3, index⟩ → exec (.readCmd 3 rsvd index) s = .refused .reservedPage) ∧
          (s.ext &&& 3 ≠ 0 →
            (s.devCmd = some ⟨opLoad, 2, index⟩ → exec (.loadCmd 2 rsvd index) s = .refused .subblock) ∧
              (s.devCmd = some ⟨opRead, 2, index⟩ → exec (.readCmd 2 rsvd index) s = .refused .subblock))) ∧
      (s.turn = .device →
        ∀ p ∈ [(opNop, Instr.nop page rsvd index), (opFlushAll, .flushAllCmd page rsvd index),
            (opFlushEntry, .flushEntryCmd page rsvd index), (opLoad, .loadCmd page rsvd index),
            (opGetNext, .getNextCmd page rsvd index), (opRead, .readCmd page rsvd index)],
          s.devCmd ≠ some ⟨p.1, page, index⟩ → exec p.2 s = .refused .commandNotLatched)

/-- `OP` = 6 and 7 (R218): a model gives such a command word no meaning, and no access list of the controller holds
one. -/
def Obligations.ReservedOpcodesHaveNoMeaning : Prop :=
  (∀ (page rsvd : BitVec 2) (index : Index) (s : State),
    exec (.cmdReserved6 page rsvd index) s = .refused .reservedOpcode ∧
      exec (.cmdReserved7 page rsvd index) s = .refused .reservedOpcode) ∧
    ∀ (s : State) (op : BitVec 3) (page : BitVec 2) (index : Index), Access.issue op page index ∈ accessList s →
      op ≠ 6 ∧ op ≠ 7

/-! ## Commands in the device -/

/-- `NOP` (R212), command word `0x8000`: no effect on `TABLE` and `DATA`; `BUSY` clears. The controller never issues
it. -/
def Obligations.NopClearsBusyOnly : Prop :=
  encode (.nop 0 0 0) = ⟨.cmd, 0x8000, .empty⟩ ∧
    (∀ (page rsvd : BitVec 2) (index : Index) (s : State),
      s.turn = .device → s.devCmd = some ⟨opNop, page, index⟩ →
      exec (.nop page rsvd index) s = .next (deviceDone s)) ∧
    ∀ (s : State) (op : BitVec 3) (page : BitVec 2) (index : Index), Access.issue op page index ∈ accessList s →
      op ≠ opNop

/-- `FLUSH_ALL` (R213), command word `0x9000`: every slot becomes `EMPTY_SLOT`, hence invalid; `PAGE` and `INDEX` are
ignored; `DATA` and all else stay. -/
def Obligations.FlushAllCommandEmptiesEverySlot : Prop :=
  encode (.flushAllCmd 0 0 0) = ⟨.cmd, 0x9000, .empty⟩ ∧
    ∀ (page rsvd : BitVec 2) (index : Index) (s : State),
      s.turn = .device → s.devCmd = some ⟨opFlushAll, page, index⟩ →
      ∃ table, exec (.flushAllCmd page rsvd index) s = .next { deviceDone s with table := table } ∧
        table.length = s.conf.slots ∧
        ∀ j, s.conf.inRange j = true →
          ({ deviceDone s with table := table } : State).slot j = emptySlot s.conf ∧
            ({ deviceDone s with table := table } : State).validAt j = false

/-- `FLUSH_ENTRY` (R214): slot `index` becomes `EMPTY_SLOT`, hence invalid; every other slot, `DATA` and all else stay. -/
def Obligations.FlushEntryCommandEmptiesOneSlot : Prop :=
  ∀ (page rsvd : BitVec 2) (index : Index) (s : State),
    s.turn = .device → s.devCmd = some ⟨opFlushEntry, page, index⟩ → s.conf.inRange index = true → s.sized = true →
    ∃ table, exec (.flushEntryCmd page rsvd index) s = .next { deviceDone s with table := table } ∧
      table.length = s.table.length ∧
      ({ deviceDone s with table := table } : State).slot index = emptySlot s.conf ∧
      ({ deviceDone s with table := table } : State).validAt index = false ∧
      ∀ j, s.conf.inRange j = true → j ≠ index → ({ deviceDone s with table := table } : State).slot j = s.slot j

/-- `LOAD` (R215): the registers of the page go from the data bank into the slot, all 16 bits of each; the other pages of
the slot, every other slot, `DATA` and all else stay; page 0 decides validity by the TAG it carries, pages 1 and 2
cannot change it. -/
def Obligations.LoadCommandStoresOnePage : Prop :=
  ∀ (page rsvd : BitVec 2) (index : Index) (s : State),
    s.turn = .device → s.devCmd = some ⟨opLoad, page, index⟩ → s.conf.inRange index = true → page ≠ 3 →
    (page = 2 → s.ext &&& 3 = 0) → s.sized = true →
    ∃ table, exec (.loadCmd page rsvd index) s = .next { deviceDone s with table := table } ∧
      table.length = s.table.length ∧
      (({ deviceDone s with table := table } : State).slot index).page page.toNat =
        s.data.take (s.conf.pageLen page.toNat) ∧
      (∀ p < 3, p ≠ page.toNat →
        (({ deviceDone s with table := table } : State).slot index).page p = (s.slot index).page p) ∧
      ({ deviceDone s with table := table } : State).validAt index =
        (if page = 0 then validWords s.conf s.data else s.validAt index) ∧
      ∀ j, s.conf.inRange j = true → j ≠ index → ({ deviceDone s with table := table } : State).slot j = s.slot j

/-- `GET_NEXT` (R216): the answer is the lowest valid slot above `i`, or from `MIN_INDEX` when `i` is `MAX_INDEX`, and
`MAX_INDEX` if there is none; it goes into `CMD[7:0]`, page 0 of that slot into the data bank; the other bits of `CMD`,
the rest of the bank, the table and all else stay. -/
def Obligations.GetNextCommandFindsTheLowestHigherSlot : Prop :=
  ∀ (page rsvd : BitVec 2) (i : Index) (s : State),
    s.turn = .device → s.devCmd = some ⟨opGetNext, page, i⟩ → s.conf.inRange i = true → s.sized = true →
    ∃ (j : Index) (data : List Word),
      exec (.getNextCmd page rsvd i) s =
          .next { deviceDone s with cmd := (s.cmd &&& 0x7F00) ||| j.setWidth 16, data := data } ∧
        s.conf.inRange j = true ∧ data.length = s.data.length ∧
        data.take (s.conf.pageLen 0) = (s.slot j).p0 ∧
        data.drop (s.conf.pageLen 0) = s.data.drop (s.conf.pageLen 0) ∧
        (∀ k : Index, s.conf.inRange k = true → s.validAt k = true → i.toNat = s.conf.maxIndex ∨ i.toNat < k.toNat →
          j.toNat ≤ k.toNat) ∧
        (s.validAt j = true ∧ (i.toNat = s.conf.maxIndex ∨ i.toNat < j.toNat) ∨
          j.toNat = s.conf.maxIndex ∧
            ∀ k : Index, s.conf.inRange k = true → i.toNat = s.conf.maxIndex ∨ i.toNat < k.toNat →
              s.validAt k = false)

/-- `READ` (R217): the registers of the page go from the slot into the data bank, whether or not the slot is valid; the
other registers of the bank, the table and all else stay. -/
def Obligations.ReadCommandFetchesOnePage : Prop :=
  ∀ (page rsvd : BitVec 2) (index : Index) (s : State),
    s.turn = .device → s.devCmd = some ⟨opRead, page, index⟩ → s.conf.inRange index = true → page ≠ 3 →
    (page = 2 → s.ext &&& 3 = 0) → s.sized = true →
    ∃ data, exec (.readCmd page rsvd index) s = .next { deviceDone s with data := data } ∧
      data.length = s.data.length ∧
      data.take (s.conf.pageLen page.toNat) = (s.slot index).page page.toNat ∧
      data.drop (s.conf.pageLen page.toNat) = s.data.drop (s.conf.pageLen page.toNat)

/-! ## Operations with a prompt device and a transport that does not fail -/

/-- `FlushAll` and `FlushEntry` (R240, R241) run to their end in three accesses. -/
def Obligations.FlushesCompleteInThreeAccesses : Prop :=
  ∀ (port : BitVec 4) (index : Index) (rest : List Move) (s : State), s.ready = true →
    s.sched = prompt 3 ++ rest →
    exec (.flushAll port index) s =
        .next { finished s (.ok .unit) rest with
          cmd := 0x1000, table := List.replicate s.conf.slots (emptySlot s.conf) } ∧
      (s.conf.inRange index = true →
        exec (.flushEntry port index) s =
          .next { finished s (.ok .unit) rest with
            cmd := 0x2000 ||| index.setWidth 16,
            table := s.table.set (slotNo s.conf index) (emptySlot s.conf) })

/-- `LoadEntry` (R242) runs to its end in one access per page register and eight more (67 under RL0): the slot holds the
pages of the entry, every other slot is as before. -/
def Obligations.LoadEntryStoresTheEntry : Prop :=
  ∀ (port : BitVec 4) (index : Index) (e : Entry) (rest : List Move) (s : State), s.ready = true →
    s.conf.inRange index = true → e.wf s.conf = true →
    s.sched = prompt (pageRegisters s.conf + 8) ++ rest →
    exec (.loadEntry port index (some e)) s =
      .next { finished s (.ok .unit) rest with
        e1 := e, cmd := 0x3000 ||| index.setWidth 16, ext := s.ext &&& 0xFFFC,
        table := s.table.set (slotNo s.conf index) (slotOf s.conf e),
        data := throughBank s.data (pageImage s.conf e 2) (pageImage s.conf e 1) (pageImage s.conf e 0) }

/-- `ReadEntry` (R243) runs to its end in one access per page register and eight more (67 under RL0): the caller gets the
entry the slot holds and whether it is valid; the table is not changed. -/
def Obligations.ReadEntryReturnsTheSlot : Prop :=
  ∀ (port : BitVec 4) (index : Index) (rest : List Move) (s : State), s.ready = true →
    s.conf.inRange index = true →
    s.sched = prompt (pageRegisters s.conf + 8) ++ rest →
    exec (.readEntry port index) s =
      .next { finished s (.ok (.entry (entryOf s.conf (s.slot index)) (s.validAt index))) rest with
        e1 := entryOf s.conf (s.slot index), cmd := 0x5800 ||| index.setWidth 16, ext := s.ext &&& 0xFFFC,
        data := throughBank s.data (s.slot index).p0 (s.slot index).p1 (s.slot index).p2 }

/-- `GetNextEntry` (R244): with `j` the device's answer, `NotFound` after seven accesses when `j` is `MAX_INDEX` and its
three key registers are zero; otherwise `j` and the entry of slot `j`, the key registers read only when `j` is
`MAX_INDEX`. What `hw_index` and `E1` hold after `NotFound` is the model's choice (log entry 31). -/
def Obligations.GetNextEntryReturnsTheNextSlot : Prop :=
  ∀ (port : BitVec 4) (index j : Index) (rest : List Move) (s : State), s.ready = true →
    s.conf.inRange index = true → j = nextValid s index →
    (nothingHigher s j → s.sched = prompt 7 ++ rest →
      exec (.getNextEntry port index) s =
        .next (withKeys s j { finished s (.err .notFound) rest with
          hwIndex := j, cmd := 0x4000 ||| j.setWidth 16, data := overlay s.data (s.slot j).p0 })) ∧
      (¬ nothingHigher s j → s.sched = prompt (searchAccesses s j) ++ rest →
        exec (.getNextEntry port index) s =
          .next (withKeys s j { finished s (.ok (.next j (entryOf s.conf (s.slot j)))) rest with
            hwIndex := j, e1 := entryOf s.conf (s.slot j), cmd := 0x5800 ||| j.setWidth 16, ext := s.ext &&& 0xFFFC,
            data := throughBank s.data (s.slot j).p0 (s.slot j).p1 (s.slot j).p2 }))

/-- `FindEntry` (R245, R39): the search starts just below the index, wrapping to `MAX_INDEX` at `MIN_INDEX`; found only
if the index the device returned equals the requested index exactly; another slot is read in full before it is
discarded (R345). What `hw_index` and `E1` hold after `NotFound` is the model's choice (log entry 31). -/
def Obligations.FindEntryReturnsTheExactSlot : Prop :=
  ∀ (port : BitVec 4) (index start j : Index) (rest : List Move) (s : State), s.ready = true →
    s.conf.inRange index = true →
    start = (if index.toNat = s.conf.minIndex then BitVec.ofNat 8 s.conf.maxIndex else index - 1) →
    j = nextValid s start →
    (nothingHigher s j → s.sched = prompt 7 ++ rest →
      exec (.findEntry port index) s =
        .next (withKeys s j { finished s (.err .notFound) rest with
          hwIndex := j, cmd := 0x4000 ||| j.setWidth 16, data := overlay s.data (s.slot j).p0 })) ∧
      (¬ nothingHigher s j → s.sched = prompt (searchAccesses s j) ++ rest →
        exec (.findEntry port index) s =
          .next (withKeys s j {
            finished s (if j = index then .ok (.found (entryOf s.conf (s.slot j))) else .err .notFound) rest with
            hwIndex := j, e1 := entryOf s.conf (s.slot j), cmd := 0x5800 ||| j.setWidth 16, ext := s.ext &&& 0xFFFC,
            data := throughBank s.data (s.slot j).p0 (s.slot j).p1 (s.slot j).p2 }))

/-- `AddPort` and `RemovePort` (R246, R247): when the search of `FindEntry` finds the slot, the entry is modified and
loaded back under the same lock; when it does not, `NotFound` and no slot is touched. What `hw_index` and `E1` hold after `NotFound` is the
model's choice (log entry 31). -/
def Obligations.PortOperationsModifyTheExactSlot : Prop :=
  ∀ (port : BitVec 4) (index start j : Index) (add : Bool) (rest : List Move) (i : Instr) (s : State),
    s.ready = true → s.conf.inRange index = true → port.toNat < s.conf.nPorts →
    i = (if add then .addPort port index else .removePort port index) →
    start = (if index.toNat = s.conf.minIndex then BitVec.ofNat 8 s.conf.maxIndex else index - 1) →
    j = nextValid s start →
    (nothingHigher s j → s.sched = prompt 7 ++ rest →
      exec i s =
        .next (withKeys s j { finished s (.err .notFound) rest with
          hwIndex := j, cmd := 0x4000 ||| j.setWidth 16, data := overlay s.data (s.slot j).p0 })) ∧
      (¬ nothingHigher s j → j ≠ index → s.sched = prompt (searchAccesses s j) ++ rest →
        exec i s =
          .next (withKeys s j { finished s (.err .notFound) rest with
            hwIndex := j, e1 := entryOf s.conf (s.slot j), cmd := 0x5800 ||| j.setWidth 16, ext := s.ext &&& 0xFFFC,
            data := throughBank s.data (s.slot j).p0 (s.slot j).p1 (s.slot j).p2 })) ∧
      (¬ nothingHigher s j → j = index →
        s.sched = prompt (searchAccesses s j + pageRegisters s.conf + 7) ++ rest →
        ∀ e, e = modifyPort s.conf (entryOf s.conf (s.slot index)) port add →
          exec i s =
            .next (withKeys s j { finished s (.ok .unit) rest with
              hwIndex := index, e1 := e, cmd := 0x3000 ||| index.setWidth 16, ext := s.ext &&& 0xFFFC,
              table := s.table.set (slotNo s.conf index) (slotOf s.conf e),
              data := throughBank
                (throughBank s.data (s.slot index).p0 (s.slot index).p1 (s.slot index).p2)
                (pageImage s.conf e 2) (pageImage s.conf e 1) (pageImage s.conf e 0) }))

/-- `AdvConfig` (R285): a rule that compiles to one entry is loaded at `index`, one slot is reported, and `index2` is not
touched; of two entries the cascade slot is loaded first, under a lock tenure of its own with no outcome, then the slot
that links to it, and two slots are reported. The second tenure is the same whether it follows in the same burst or its
requester comes to the lock later (R343). What the staging buffers hold is the model's reading (log entry 12). -/
def Obligations.AdvConfigLoadsTheCascadeSlotFirst : Prop :=
  (∀ (port : BitVec 4) (index index2 : Index) (r : Rule) (rest : List Move) (s : State),
    s.ready = true → advValid s.conf index index2 r = true →
    (∀ e, compileRule s.conf r index2 = some [e] →
      s.sched = prompt (pageRegisters s.conf + 8) ++ rest →
      exec (.advConfig port index index2 (some r)) s =
        .next { finished s (.ok (.slotsUsed 1)) rest with
          e1 := e, cmd := 0x3000 ||| index.setWidth 16, ext := s.ext &&& 0xFFFC,
          table := s.table.set (slotNo s.conf index) (slotOf s.conf e),
          data := throughBank s.data (pageImage s.conf e 2) (pageImage s.conf e 1) (pageImage s.conf e 0) }) ∧
      ∀ a b, compileRule s.conf r index2 = some [a, b] →
        (s.sched = prompt (pageRegisters s.conf + 8) →
          ∃ t, exec (.advConfig port index index2 (some r)) s = .next t ∧ t.lockOwner = none ∧ t.fsm = .idle ∧
            t.table = s.table.set (slotNo s.conf index2) (slotOf s.conf b) ∧ t.result = s.result ∧
            t.requests = s.requests) ∧
          (s.sched = prompt (pageRegisters s.conf + 8) ++ (prompt (pageRegisters s.conf + 8) ++ rest) →
            exec (.advConfig port index index2 (some r)) s =
              .next { finished s (.ok (.slotsUsed 2)) rest with
                e1 := a, e2 := b, cmd := 0x3000 ||| index.setWidth 16, ext := s.ext &&& 0xFFFC,
                table := (s.table.set (slotNo s.conf index2) (slotOf s.conf b)).set (slotNo s.conf index)
                  (slotOf s.conf a),
                data := throughBank
                  (throughBank s.data (pageImage s.conf b 2) (pageImage s.conf b 1) (pageImage s.conf b 0))
                  (pageImage s.conf a 2) (pageImage s.conf a 1) (pageImage s.conf a 0) })) ∧
    ∀ (port : BitVec 4) (index index2 : Index) (r : Rule) (a b : Entry) (rest : List Move) (s : State),
      s.betweenTenures = true → advValid s.conf index index2 r = true →
      compileRule s.conf r index2 = some [a, b] → s.sched = prompt (pageRegisters s.conf + 8) ++ rest →
      exec (.advConfig port index index2 (some r)) s =
        .next { finished s (.ok (.slotsUsed 2)) rest with
          e1 := a, e2 := b, cmd := 0x3000 ||| index.setWidth 16, ext := s.ext &&& 0xFFFC,
          table := s.table.set (slotNo s.conf index) (slotOf s.conf a),
          data := throughBank s.data (pageImage s.conf a 2) (pageImage s.conf a 1) (pageImage s.conf a 0) }

/-! ## Validation, the lock, errors -/

/-- `InvalidArgument` (R301, R232, R285): every condition of the table, whoever holds the lock; raised before the lock is
taken and before any access, leaving every piece of state of the block as it was. -/
def Obligations.InvalidArgumentTouchesNothing : Prop :=
  ∀ (port : BitVec 4) (index : Index) (s : State), s.lockOwner ≠ some s.caller →
    (∀ i ∈ [Instr.reqReserved0 port index, .reqReservedA port index, .reqReservedB port index,
        .reqReservedC port index, .reqReservedD port index, .reqReservedE port index, .reqReservedF port index,
        .loadEntry port index none],
      exec i s = .next (turnedAway s)) ∧
      (∀ index2, exec (.advConfig port index index2 none) s = .next (turnedAway s)) ∧
      (¬ (s.conf.minIndex ≤ index.toNat ∧ index.toNat ≤ s.conf.maxIndex) →
        (∀ i ∈ [Instr.flushEntry port index, .readEntry port index, .getNextEntry port index, .findEntry port index,
            .addPort port index, .removePort port index],
          exec i s = .next (turnedAway s)) ∧
          (∀ e, exec (.loadEntry port index e) s = .next (turnedAway s)) ∧
          ∀ index2 r, exec (.advConfig port index index2 r) s = .next (turnedAway s)) ∧
      (s.conf.nPorts ≤ port.toNat →
        exec (.addPort port index) s = .next (turnedAway s) ∧
          exec (.removePort port index) s = .next (turnedAway s)) ∧
      (∀ index2 r, r.supported = false →
        exec (.advConfig port index index2 (some r)) s = .next (turnedAway s)) ∧
      (∀ index2 r, r.shape ≠ 0b001 →
        ¬ (s.conf.minIndex ≤ index2.toNat ∧ index2.toNat ≤ s.conf.maxIndex) ∨ index2 = index →
        exec (.advConfig port index index2 (some r)) s = .next (turnedAway s)) ∧
      (∀ low, exec (.shapeUnsupported low) s = .next (answered s .invalidArgument)) ∧
      ∀ r j, r.supported = false → exec (.compile r j) s = .next (answered s .invalidArgument)

/-- `Acquire` (R230): with the lock free a request that passes validation takes it in one step; while another requester
holds it the request waits and has no effect on any state. An `AdvConfig` with two entries takes it for its cascade slot
first, and for its own slot once that tenure is done (R285; which buffers are staged is log entry 12). -/
def Obligations.AcquireTakesTheFreeLockOrWaits : Prop :=
  (∀ (i : Instr) (op : Op) (s : State), opOf i = some op → accepted s.conf i = true →
    (s.lockOwner = none → s.sched = [] →
      ∃ e, exec i s = .next { acquired s op with e1 := e } ∧
        ((∃ port index, i = .loadEntry port index (some e)) ∨
          e = s.e1 ∧ ∀ port index e', i ≠ .loadEntry port index (some e'))) ∧
      ∀ w, s.lockOwner = some w → w ≠ s.caller → exec i s = .next s) ∧
    ∀ (port : BitVec 4) (index index2 : Index) (r : Rule) (s : State), advValid s.conf index index2 r = true →
      (s.lockOwner = none → s.sched = [] →
        ∃ es, compileRule s.conf r index2 = some es ∧
          ((∃ a, es = [a] ∧
            exec (.advConfig port index index2 (some r)) s =
              .next { acquired s (.advMain index index2 false) with e1 := a }) ∨
            ∃ a b, es = [a, b] ∧
              exec (.advConfig port index index2 (some r)) s =
                .next { acquired s
                    (if s.caller ∈ s.cascaded then .advMain index index2 true else .advCascade index index2) with
                  e1 := a, e2 := b })) ∧
        ∀ w, s.lockOwner = some w → w ≠ s.caller → exec (.advConfig port index index2 (some r)) s = .next s

/-- While an operation holds the lock, nothing that another requester presents changes any state of the block (R40, R79,
R315): it waits, is turned away, or is a combinational function. -/
def Obligations.TheLockKeepsOthersOut : Prop :=
  ∀ (i : Instr) (w : Nat) (s t : State), s.lockOwner = some w → w ≠ s.caller → s.turn = .port → exec i s = .next t →
    t = s ∨ t = turnedAway s ∨ ∃ v, t = answered s v

/-- A device that stays busy (R219, R233, R302). The first wait of every operation ends with `Timeout` after exactly
`POLL_LIMIT` polls; no register is written and the latched command stays latched. So does the wait after every command
of every operation: `Issue` (R235) starts it with a poll count of 0 (R25), each busy poll counts one and does nothing
else, and the one that reaches `POLL_LIMIT` ends the operation with nothing changed since the command was written. A poll
that reads 0 ends a wait, however many busy ones came before. Last, the instance T8.1 for the flushes: a device idle at
the first wait and stuck after the command. -/
def Obligations.AStuckDeviceTimesOut : Prop :=
  (∀ (i : Instr) (rest : List Move) (s : State), accepted s.conf i = true ∨ AdvAccepted s.conf i →
    s.lockOwner = none → s.busy = true →
    s.sched = List.replicate s.conf.pollLimit (.access .ok) ++ rest →
    ∃ e1 e2, exec i s =
      .next { finished s (.err .timeout) rest with
        pollCnt := s.conf.pollLimit, devCmd := s.devCmd, e1 := e1, e2 := e2 }) ∧
    (∀ (rest : List Move) (s : State), s.inv = true → s.sched = [] → s.op ≠ none → s.seqStep = 0 →
      (s.busy = true →
        (∀ n, s.pollCnt + n < s.conf.pollLimit →
          runMoves (List.replicate n (.access .ok)) s = .next { s with pollCnt := s.pollCnt + n }) ∧
          runMoves (List.replicate (s.conf.pollLimit - s.pollCnt) (.access .ok) ++ rest) s =
            .next { aborted s .timeout with pollCnt := s.conf.pollLimit, sched := rest }) ∧
        (s.busy = false → 1 < (accessList s).length →
          ctlStep .ok s = .next { s with fsm := .awaitingBusy, seqStep := 1 })) ∧
    (∀ (op : BitVec 3) (page : BitVec 2) (index : Index) (rest : List Move) (s : State), s.inv = true → s.sched = [] →
      (accessList s)[s.seqStep]? = some (.issue op page index) →
      (∀ n < s.conf.pollLimit,
        runMoves (.access .ok :: List.replicate n (.access .ok)) s =
          .next { s with
            cmd := cmdword op page index, devCmd := some ⟨op, page, index⟩, fsm := .commandIssued,
            phase := s.phase + 1, seqStep := 0, pollCnt := n }) ∧
        runMoves (.access .ok :: (List.replicate s.conf.pollLimit (.access .ok) ++ rest)) s =
          .next { aborted s .timeout with
            cmd := cmdword op page index, devCmd := some ⟨op, page, index⟩, pollCnt := s.conf.pollLimit,
            sched := rest }) ∧
    ∀ (port : BitVec 4) (index : Index) (rest : List Move) (s : State), s.ready = true →
      s.sched = .access .ok :: .access .ok :: (List.replicate s.conf.pollLimit (.access .ok) ++ rest) →
      exec (.flushAll port index) s =
          .next { finished s (.err .timeout) rest with
            pollCnt := s.conf.pollLimit, cmd := 0x9000, devCmd := some ⟨1, 0, 0⟩ } ∧
        (s.conf.inRange index = true →
          exec (.flushEntry port index) s =
            .next { finished s (.err .timeout) rest with
              pollCnt := s.conf.pollLimit, cmd := 0xA000 ||| index.setWidth 16, devCmd := some ⟨2, 0, index⟩ })

/-- A failing access (R65, R237, R303, R310): the operation ends at once with `TransportFailure`, which carries the
transport's own error value unchanged; a failed read has no effect, a failed write has either none or its own; nothing
else is saved, restored or undone. That `E1`, `E2` and `hw_index`,
unspecified to the requester, keep what they hold is the model's choice (log entry 31). -/
def Obligations.AFailedAccessAborts : Prop :=
  ∀ (a : Access) (err : TransportError) (s : State), s.inv = true → (accessList s)[s.seqStep]? = some a →
    ctlStep (.lost err) s = .next (aborted s (.transportFailure err)) ∧
      ((∀ k v, a ≠ .write k v) → a ≠ .select → (∀ o p i, a ≠ .issue o p i) →
        ctlStep (.landed err) s = .next (aborted s (.transportFailure err))) ∧
      (a = .select → ctlStep (.landed err) s = .next { aborted s (.transportFailure err) with ext := s.ext &&& 0xFFFC }) ∧
      (∀ k v, a = .write k v →
        ctlStep (.landed err) s = .next { aborted s (.transportFailure err) with data := s.data.set k v }) ∧
      ∀ o p i, a = .issue o p i →
        ctlStep (.landed err) s =
          .next { aborted s (.transportFailure err) with cmd := cmdword o p i, devCmd := some ⟨o, p, i⟩ }

/-- Status and cause codes of every outcome (R120, R121, R281): `Timeout` and `TransportFailure` are both `Fail`; causes 5
to 7 are unused. -/
def Obligations.StatusAndCauseCodes : Prop :=
  (∀ v, (Result.ok v).status.code = 0 ∧ (Result.ok v).causeCode = 0) ∧
    (Result.err .invalidArgument).status.code = 1 ∧ (Result.err .invalidArgument).causeCode = 1 ∧
    (Result.err .notFound).status.code = 2 ∧ (Result.err .notFound).causeCode = 2 ∧
    (Result.err .timeout).status.code = 3 ∧ (Result.err .timeout).causeCode = 3 ∧
    (∀ e, (Result.err (.transportFailure e)).status.code = 3 ∧ (Result.err (.transportFailure e)).causeCode = 4) ∧
    ∀ r : Result, r.causeCode.toNat ≤ 4

/-! ## Operations under every environment -/

/-- What an operation changes (its frame), whatever the device and the transport do: the configuration, the second
staging buffer, and, unless it searches, the index and key registers of the search stay; the flushes leave the first
staging buffer and the selector alone; `AdvConfig` leaves the search registers alone; the waiting requests and the
half-done `AdvConfig`s of other requesters stay as they are. -/
def Obligations.OperationsKeepWhatTheyDoNotName : Prop :=
  ∀ (i : Instr) (s t : State), exec i s = .next t →
    (∀ op, opOf i = some op →
      SameForOthers s t ∧ t.e2 = s.e2 ∧
        (op.searches = false → t.hwIndex = s.hwIndex ∧ t.key1 = s.key1 ∧ t.key2 = s.key2 ∧ t.key3 = s.key3) ∧
        (op = .flushAll ∨ (∃ j, op = .flushEntry j) → t.e1 = s.e1 ∧ t.ext = s.ext)) ∧
      ((∃ port index index2 r, i = .advConfig port index index2 r) →
        SameForOthers s t ∧ t.hwIndex = s.hwIndex ∧ t.key1 = s.key1 ∧ t.key2 = s.key2 ∧ t.key3 = s.key3)

/-- Page order (R340, R311, R341): however far a `LoadEntry` gets, its slot holds the old pages with page 2 replaced
first, then page 1, then page 0, and every other slot is as before; so a slot that was invalid is invalid until it
holds all of the entry. -/
def Obligations.ASlotIsNeverValidHalfWritten : Prop :=
  ∀ (port : BitVec 4) (index : Index) (e : Entry) (s : State), s.ready = true → s.conf.inRange index = true →
    e.wf s.conf = true →
    ∃ t, exec (.loadEntry port index (some e)) s = .next t ∧
      (∃ slot ∈ [s.slot index, { s.slot index with p2 := pageImage s.conf e 2 },
          { s.slot index with p2 := pageImage s.conf e 2, p1 := pageImage s.conf e 1 }, slotOf s.conf e],
        t.table = s.table.set (slotNo s.conf index) slot) ∧
      (s.validAt index = false → t.validAt index = false ∨ t.slot index = slotOf s.conf e)

/-- Partial effects of the other operations (R311), however far they get: the flushes have happened or not, the reads
change no slot, the port operations have changed the port of their own slot or nothing, and `AdvConfig`, run in one burst
with no other requester between its tenures (log entries 9 and 12), touches two slots at most, its own only after the
cascade slot is complete. -/
def Obligations.PartialEffectsOnTheTable : Prop :=
  ∀ (port : BitVec 4) (index : Index) (s : State), s.ready = true →
    (∃ t, exec (.flushAll port index) s = .next t ∧
      (t.table = s.table ∨ t.table = List.replicate s.conf.slots (emptySlot s.conf))) ∧
      (s.conf.inRange index = true →
        (∃ t, exec (.flushEntry port index) s = .next t ∧
          (t.table = s.table ∨ t.table = s.table.set (slotNo s.conf index) (emptySlot s.conf))) ∧
          (∀ i ∈ [Instr.readEntry port index, .getNextEntry port index, .findEntry port index],
            ∃ t, exec i s = .next t ∧ t.table = s.table) ∧
          (port.toNat < s.conf.nPorts → ∀ add,
            ∃ t, exec (if add then .addPort port index else .removePort port index) s = .next t ∧
              (t.table = s.table ∨
                t.table = s.table.set (slotNo s.conf index)
                  (slotOf s.conf (modifyPort s.conf (entryOf s.conf (s.slot index)) port add)))) ∧
          ∀ index2 r, advValid s.conf index index2 r = true →
            ∃ t es, exec (.advConfig port index index2 (some r)) s = .next t ∧
              compileRule s.conf r index2 = some es ∧
              (∀ j, s.conf.inRange j = true → j ≠ index → (j ≠ index2 ∨ es.length = 1) → t.slot j = s.slot j) ∧
              ∀ a b, es = [a, b] → t.slot index ≠ s.slot index → t.slot index2 = slotOf s.conf b)

/-- Outcomes tell the truth: when an operation that started with the device idle has ended, whatever the device and the
transport did, either the outcome is what R240 to R247 say for the table of the start and the effect has happened, or
it is `Timeout` or `TransportFailure`. An `AdvConfig` reports its slots only when they hold its entries (R285); it may
have ended its first tenure only, with no outcome and the cascade slot loaded. -/
def Obligations.OutcomesTellTheTruth : Prop :=
  (∀ (port : BitVec 4) (index : Index) (s t : State), s.ready = true → t.lockOwner = none →
    (exec (.flushAll port index) s = .next t →
      t.result = .ok .unit ∧ (∀ j, s.conf.inRange j = true → t.slot j = emptySlot s.conf) ∨ Failed s t) ∧
      (s.conf.inRange index = true →
        (exec (.flushEntry port index) s = .next t →
          t.result = .ok .unit ∧ t.slot index = emptySlot s.conf ∨ Failed s t) ∧
          (∀ e, e.wf s.conf = true → exec (.loadEntry port index (some e)) s = .next t →
            t.result = .ok .unit ∧ t.slot index = slotOf s.conf e ∨ Failed s t) ∧
          (exec (.readEntry port index) s = .next t →
            t.result = .ok (.entry (entryOf s.conf (s.slot index)) (s.validAt index)) ∨ Failed s t) ∧
          (∀ j, j = nextValid s index → exec (.getNextEntry port index) s = .next t →
            (nothingHigher s j ∧ t.result = .err .notFound) ∨
              (¬ nothingHigher s j ∧ t.result = .ok (.next j (entryOf s.conf (s.slot j)))) ∨ Failed s t) ∧
          ∀ j, j = nextValid s (findStart s.conf index) →
            (exec (.findEntry port index) s = .next t →
              ((nothingHigher s j ∨ j ≠ index) ∧ t.result = .err .notFound) ∨
                (¬ nothingHigher s j ∧ j = index ∧ t.result = .ok (.found (entryOf s.conf (s.slot index)))) ∨
                Failed s t) ∧
              ∀ add, port.toNat < s.conf.nPorts →
                exec (if add then .addPort port index else .removePort port index) s = .next t →
                ((nothingHigher s j ∨ j ≠ index) ∧ t.result = .err .notFound) ∨
                  (¬ nothingHigher s j ∧ j = index ∧ t.result = .ok .unit ∧
                    t.slot index =
                      slotOf s.conf (modifyPort s.conf (entryOf s.conf (s.slot index)) port add)) ∨
                  Failed s t)) ∧
    ∀ (port : BitVec 4) (index index2 : Index) (r : Rule) (es : List Entry) (s t : State),
      s.ready = true ∨ s.betweenTenures = true → advValid s.conf index index2 r = true →
      compileRule s.conf r index2 = some es → t.lockOwner = none →
      exec (.advConfig port index index2 (some r)) s = .next t →
      (∃ a, es = [a] ∧ t.result = .ok (.slotsUsed 1) ∧ t.slot index = slotOf s.conf a) ∨
        (∃ a b, es = [a, b] ∧ t.slot index2 = (if s.ready then slotOf s.conf b else s.slot index2) ∧
          (t.result = .ok (.slotsUsed 2) ∧ t.slot index = slotOf s.conf a ∨
            s.ready = true ∧ s.caller ∈ t.cascaded ∧ t.result = s.result ∧ t.slot index = s.slot index)) ∨
        Failed s t

/-- Load/Read symmetry and the sentinel (R220, R243): what a completed `LoadEntry` stored, a completed `ReadEntry`
returns bit for bit with its validity, whatever the data bank held; and after `FlushEntry` the slot reads as invalid. -/
def Obligations.LoadThenReadGivesTheEntry : Prop :=
  ∀ (port : BitVec 4) (index : Index) (e : Entry) (s t : State), s.ready = true → s.conf.inRange index = true →
    e.wf s.conf = true →
    (exec (.loadEntry port index (some e)) (withMoves s (prompt (pageRegisters s.conf + 8))) = .next t →
      ∃ u, exec (.readEntry port index) (withMoves t (prompt (pageRegisters s.conf + 8))) = .next u ∧
        u.result = .ok (.entry e (validWords s.conf e.hdr))) ∧
      (exec (.flushEntry port index) (withMoves s (prompt 3)) = .next t →
        ∃ u, exec (.readEntry port index) (withMoves t (prompt (pageRegisters s.conf + 8))) = .next u ∧
          u.result = .ok (.entry (entryOf s.conf (emptySlot s.conf)) false))

/-- Termination (R251): once an operation holds the lock, it ends within 8 waits of at most `POLL_LIMIT` polls and two
accesses per page register and 13 more (131 under RL0), whatever the device and the transport do. -/
def Obligations.OperationsEndWithinTheirBound : Prop :=
  (∀ (i : Instr) (s : State), s.sized = true → s.latchOk = true → s.commandOk = true → s.lockOwner = none →
    i.wf s.conf = true → accepted s.conf i = true ∨ AdvAccepted s.conf i →
    8 * s.conf.pollLimit + 2 * pageRegisters s.conf + 13 ≤ accesses s.sched →
    ∃ t, exec i s = .next t ∧ t.lockOwner = none) ∧
    ∀ tb pollLimit mask, 2 * pageRegisters (Cfg.ingress tb pollLimit mask) + 13 = 131

/-- An operation may be run in one burst or move by move (R23, R352; the burst is log entry 9): running it with the
moves `a` and then, if it is still in progress, with the moves `b` is running it with `a` followed by `b`. An `AdvConfig`
whose first tenure has ended goes on with its second. -/
def Obligations.ABurstIsItsParts : Prop :=
  ∀ (i : Instr) (a b : List Move) (s : State), s.lockOwner = none →
    (accepted s.conf i = true →
      exec i (withMoves s (a ++ b)) =
        andThen (exec i (withMoves s a)) fun t =>
          if t.lockOwner = none then .next (withMoves t (t.sched ++ b)) else exec i (withMoves t b)) ∧
      (AdvAccepted s.conf i →
        exec i (withMoves s (a ++ b)) =
          andThen (exec i (withMoves s a)) fun t =>
            if t.lockOwner = none ∧ (s.caller ∉ t.cascaded ∨ b = []) then .next (withMoves t (t.sched ++ b))
            else exec i (withMoves t b))

/-! ## The whole machine -/

/-- A step runs the decoded instruction: of the request of the lock's owner with the transport's answer, of the request
whose turn it is, and of the command the device has latched; around `exec` a step only notes who presents it and keeps
the moves that it did not use. Or it takes in a request that is submitted, unless its requester waits already (R20 (a)) or
it is none. R20 says who takes steps; which of them does is a move (log entries 5 and 9), and what is no submission is
log entry 23's choice. -/
def Obligations.AStepRunsTheDecodedInstruction : Prop :=
  ∀ (i : Instr) (s : State),
    (∀ w ans q, s.lockOwner = some w → nextMove s = .access ans →
      s.requests.find? (fun q => q.who == w) = some q → Sys2Proof.decode q.packet = .ok i → i.wf s.conf = true →
      step s = andThen (exec i { dropMove s with caller := q.who, turn := .port, sched := [.access ans] }) fun t =>
        .next { t with sched := t.sched ++ (dropMove s).sched, turn := .port }) ∧
      (∀ k q, nextMove s = .request k → s.requests[k % s.requests.length]? = some q →
        Sys2Proof.decode q.packet = .ok i → i.wf s.conf = true →
        step s = andThen (exec i { dropMove s with caller := q.who, turn := .port, sched := [] }) fun t =>
          .next { t with sched := t.sched ++ (dropMove s).sched, turn := .port }) ∧
      (∀ d, s.devCmd = some d → nextMove s = .device →
        Sys2Proof.decode ⟨.cmd, (1#1 ++ d.op ++ d.page ++ s.cmd.extractLsb' 8 2 ++ d.index).setWidth 48, .empty⟩ =
          .ok i →
        step s = andThen (exec i { dropMove s with turn := .device, sched := [] }) fun t =>
          .next { t with sched := t.sched ++ (dropMove s).sched, turn := .port }) ∧
      ∀ q, nextMove s = .submit q →
        ((∀ p ∈ s.requests, p.who ≠ q.who) → q.packet.fmt ≠ .cmd → q.packet.fmt ≠ .ext →
          Sys2Proof.decode q.packet = .ok i → i.wf s.conf = true →
          step s = .next { dropMove s with requests := s.requests ++ [q] }) ∧
          ((∃ p ∈ s.requests, p.who = q.who) ∨ isRequest s.conf q.packet = false → step s = .next (dropMove s))

/-- The lock (R24): `lock_owner` is `none` if and only if `fsm` is `Idle`; true after reset, where it is `none`, and
kept by every step. -/
def Obligations.LockOwnerNoneIffIdle : Prop :=
  (∀ s : State, s.lockOk = true → (s.lockOwner = none ↔ s.fsm = .idle)) ∧
    (∀ s t : State, s.lockOk = true → step s = .next t → t.lockOk = true) ∧
    State.reset.lockOk = true ∧ State.reset.lockOwner = none

/-- The latch (R35): `dev_cmd` is not `none` if and only if `CMD.BUSY` is 1, and then it is the triple of the command
word; true after reset, where it is `none`, and kept by every step, whatever is presented; no register shows it. -/
def Obligations.DevCmdIffBusy : Prop :=
  (∀ s : State, s.latchOk = true →
    (s.devCmd ≠ none ↔ s.cmd.getLsbD 15 = true) ∧
      ∀ d, s.devCmd = some d →
        d = ⟨s.cmd.extractLsb' 12 3, s.cmd.extractLsb' 10 2, s.cmd.extractLsb' 0 8⟩) ∧
    (∀ s t : State, s.latchOk = true → step s = .next t → t.latchOk = true) ∧
    State.reset.latchOk = true ∧ State.reset.devCmd = none ∧
    ∀ (s : State) (d : Option DevCmd) (block off : Nat),
      readReg { s with devCmd := d } block off = readReg s block off

/-- Reset (R41, R330): idle, the lock free, no operation, no poll counted, the device not busy with nothing latched; the
configuration of R8; the bank and the table have their sizes. -/
def Obligations.ResetIsIdleAndNotBusy : Prop :=
  State.reset.fsm = .idle ∧ State.reset.lockOwner = none ∧ State.reset.op = none ∧ State.reset.pollCnt = 0 ∧
    State.reset.busy = false ∧ State.reset.devCmd = none ∧
    (∃ tb pollLimit mask, State.reset.conf = Cfg.ingress tb pollLimit mask ∧ 1 ≤ pollLimit) ∧
    State.reset.sized = true

/-- The invariant holds after reset, and so does that all that waits is what a requester may submit: nothing waits. -/
def Obligations.TheInvariantHoldsAfterReset : Prop := State.reset.inv = true ∧ State.reset.waitingOk = true

/-- Sizes, the latch, and one request per requester are kept by every step, whatever is submitted and presented; the
configuration never changes; and if all that waits is what a requester may submit, that stays so (R8, R20, R34, R35). -/
def Obligations.EveryStepKeepsTheBasicInvariant : Prop :=
  ∀ s t : State, s.basic = true → step s = .next t →
    t.basic = true ∧ t.cfg = s.cfg ∧ (s.waitingOk = true → t.waitingOk = true)

/-- The invariant is kept by every step, whatever the device, the transport and the requesters do (R20, R22 to R25, R35,
R72, R78, R250, R285). -/
def Obligations.EveryStepKeepsTheInvariant : Prop :=
  ∀ s t : State, s.inv = true → step s = .next t → t.inv = true

/-- Registers are reached only through the operations (R60, R66), so nothing that the spec leaves without a meaning
happens (U3 to U7, U16): where all that waits is what a requester may submit, no step faults, and a step refuses only an
operand outside a function's domain. Both premises hold after reset and are kept by every step; the second shuts out
packets that no submission puts there. -/
def Obligations.ADisciplinedMachineNeverStops : Prop :=
  ∀ s : State, s.inv = true → s.waitingOk = true →
    (∀ f, step s ≠ .fault f) ∧ ∀ r, step s = .refused r → r.ofOperand = true

/-- While a command is outstanding nobody but the device touches what it works on (R78, R80, R347): in every step that
leaves the command latched, the table and the three kinds of registers stay as they are. -/
def Obligations.NothingMovesUnderALatchedCommand : Prop :=
  ∀ (d : DevCmd) (s t : State), s.inv = true → s.devCmd = some d → step s = .next t → t.devCmd = some d →
    t.cmd = s.cmd ∧ t.ext = s.ext ∧ t.data = s.data ∧ t.table = s.table
end

