-- ==== Sys2Proof/Laws/Codec.lean ====
section
/-! SUPPORT. The Field Codec and the window bit strings, bit by bit. -/

namespace Sys2Proof

section

set_option linter.unusedSimpArgs false

/-! ## Words -/

/-- `ones n` has exactly its low `n` bits set. -/
theorem ones_getLsbD (n b : Nat) : (ones n).getLsbD b = (decide (b < n) && decide (b < 16)) := by
  simp [ones, BitVec.getLsbD_ofNat, Nat.testBit_two_pow_sub_one, Bool.and_comm]

/-- Bit `b` of a word with a field written (R140). -/
theorem setField_getLsbD (word value : Word) (f : BitField) (b : Nat) (hb : b < 16) :
    (setField word value f).getLsbD b =
      if f.offset ≤ b ∧ b < f.offset + f.width then value.getLsbD (b - f.offset) else word.getLsbD b := by
  have := f.fits
  simp only [setField, BitVec.getLsbD_or, BitVec.getLsbD_and, BitVec.getLsbD_not, BitVec.getLsbD_shiftLeft, ones_getLsbD]
  by_cases h1 : f.offset ≤ b
  · by_cases h2 : b < f.offset + f.width
    · have h3 : b - f.offset < f.width := by omega
      have h4 : b - f.offset < 16 := by omega
      have h5 : ¬ b < f.offset := by omega
      simp [h1, h2, h3, h4, h5, hb]
    · have h3 : ¬ b - f.offset < f.width := by omega
      simp [h1, h2, h3, hb]
  · have h5 : b < f.offset := by omega
    simp [h1, h5, hb]

/-- Bit `b` of a field read from a word (R141). -/
theorem getField_getLsbD (word : Word) (f : BitField) (b : Nat) :
    (getField word f).getLsbD b = (decide (b < f.width) && word.getLsbD (f.offset + b)) := by
  have := f.fits
  simp only [getField, BitVec.getLsbD_and, BitVec.getLsbD_ushiftRight, ones_getLsbD]
  by_cases h : b < f.width
  · have : b < 16 := by omega
    simp [h, this]
  · simp [h]

/-- Two words are equal when their 16 bits are. -/
theorem word_ext {x y : Word} (h : ∀ b < 16, x.getLsbD b = y.getLsbD b) : x = y :=
  BitVec.eq_of_getLsbD_eq fun i hi => h i hi

/-- Reading the field just written gives the value, cut to the field's width. -/
theorem getField_setField_self (word value : Word) (f : BitField) :
    getField (setField word value f) f = value &&& ones f.width := by
  refine word_ext fun b hb => ?_
  have := f.fits
  rw [getField_getLsbD, BitVec.getLsbD_and, ones_getLsbD]
  by_cases h : b < f.width
  · rw [setField_getLsbD _ _ _ _ (by omega)]
    simp [h, hb]
  · simp [h]

/-- Reading a field that shares no bit with the one written gives what it held. -/
theorem getField_setField_apart (word value : Word) (f g : BitField)
    (h : f.offset + f.width ≤ g.offset ∨ g.offset + g.width ≤ f.offset) :
    getField (setField word value f) g = getField word g := by
  refine word_ext fun b hb => ?_
  have := g.fits
  rw [getField_getLsbD, getField_getLsbD]
  by_cases hw : b < g.width
  · rw [setField_getLsbD _ _ _ _ (by omega), if_neg (by omega)]
  · simp [hw]

/-- Cutting a field that was read to its own width changes nothing. -/
theorem getField_and_ones (word : Word) (f : BitField) : getField word f &&& ones f.width = getField word f := by
  refine word_ext fun b hb => ?_
  rw [BitVec.getLsbD_and, getField_getLsbD, ones_getLsbD]
  by_cases h : b < f.width <;> simp [h, hb]

/-- The last write of a field wins (R142 L4). -/
theorem setField_setField_self (word v w : Word) (f : BitField) :
    setField (setField word v f) w f = setField word w f := by
  refine word_ext fun b hb => ?_
  rw [setField_getLsbD _ w _ _ hb, setField_getLsbD _ w _ _ hb, setField_getLsbD _ v _ _ hb]
  by_cases h : f.offset ≤ b ∧ b < f.offset + f.width
  · rw [if_pos h, if_pos h]
  · rw [if_neg h, if_neg h, if_neg h]

/-- Writing back what was read changes nothing (R142 L2). -/
theorem setField_getField_self (word : Word) (f : BitField) : setField word (getField word f) f = word := by
  refine word_ext fun b hb => ?_
  rw [setField_getLsbD _ _ _ _ hb, getField_getLsbD]
  split
  · have h : b - f.offset < f.width := by omega
    have h' : f.offset + (b - f.offset) = b := by omega
    simp [h, h']
  · rfl

/-- `BUSY` is bit 15. -/
theorem busyFlag_eq (w : Word) : busyFlag w = w.getLsbD 15 := by
  have h : ∀ w : Word, (getField w busyBits != 0) = w.getLsbD 15 := by
    intro w
    have : getField w busyBits = if w.getLsbD 15 then 1 else 0 := by
      refine word_ext fun b hb => ?_
      rw [getField_getLsbD]
      by_cases hb1 : b < 1
      · have : b = 0 := by omega
        subst this
        cases h : w.getLsbD 15 <;> simp [h]
      · cases w.getLsbD 15
        · simp [hb1]
        · simp [hb1]
          omega
    rw [this]
    cases w.getLsbD 15 <;> simp
  exact h w

/-- Clearing `BUSY` leaves the other fifteen bits. -/
theorem clear_busy (w : Word) : setField w 0 busyBits = w &&& 0x7FFF := by
  refine word_ext fun b hb => ?_
  rw [setField_getLsbD _ _ _ _ hb, BitVec.getLsbD_and]
  interval_cases b <;> simp [busyBits, bitField]

/-- Clearing `SUBBLOCK` leaves the other fourteen bits (R95). -/
theorem clear_subblock (w : Word) : setField w 0 subblockBits = w &&& 0xFFFC := by
  refine word_ext fun b hb => ?_
  rw [setField_getLsbD _ _ _ _ hb, BitVec.getLsbD_and]
  interval_cases b <;> simp [subblockBits, bitField]

/-- The selector is in the action context when its two low bits are 0. -/
theorem actionContext_iff (w : Word) : actionContext w = true ↔ w &&& 3 = 0 := by
  have h : getField w subblockBits = w &&& 3 := by
    refine word_ext fun b hb => ?_
    rw [getField_getLsbD, BitVec.getLsbD_and]
    interval_cases b <;> simp [subblockBits, bitField]
  simp [actionContext, h]

/-- After `SelectAction` the selector is in the action context. -/
@[simp] theorem actionContext_clear (w : Word) : actionContext (setField w 0 subblockBits) = true := by
  rw [clear_subblock, actionContext_iff]
  refine word_ext fun b hb => ?_
  simp only [BitVec.getLsbD_and]
  interval_cases b <;> simp

/-! ## The command word -/

/-- Bit `b` of a command word with the given fields (R91). -/
theorem commandBits_getLsbD (busy : BitVec 1) (op : BitVec 3) (page rsvd : BitVec 2) (index : Index) (b : Nat) :
    (busy ++ op ++ page ++ rsvd ++ index : Word).getLsbD b =
      if b < 8 then index.getLsbD b
      else if b - 8 < 2 then rsvd.getLsbD (b - 8)
      else if b - 8 - 2 < 2 then page.getLsbD (b - 8 - 2)
      else if b - 8 - 2 - 2 < 3 then op.getLsbD (b - 8 - 2 - 2)
      else busy.getLsbD (b - 8 - 2 - 2 - 3) := by
  simp only [BitVec.getLsbD_append]

/-- The parts of a command word, most significant first (R91, R93). -/
theorem cmdword_eq (op : BitVec 3) (page : BitVec 2) (index : Index) :
    cmdword op page index = 1#1 ++ op ++ page ++ 0#2 ++ index := by
  refine word_ext fun b hb => ?_
  rw [commandBits_getLsbD]
  simp only [cmdword, setField_getLsbD _ _ _ _ hb]
  interval_cases b <;> simp

/-- Reading the fields of a command word back (R94). -/
@[simp] theorem busyFlag_command (busy : BitVec 1) (op : BitVec 3) (page rsvd : BitVec 2) (index : Index) :
    busyFlag (busy ++ op ++ page ++ rsvd ++ index) = busy.getLsbD 0 := by
  rw [busyFlag_eq, commandBits_getLsbD]
  simp

@[inherit_doc busyFlag_command, simp] theorem getField_op_command (busy : BitVec 1) (op : BitVec 3)
    (page rsvd : BitVec 2) (index : Index) :
    getField (busy ++ op ++ page ++ rsvd ++ index) opBits = op.setWidth 16 := by
  refine word_ext fun b hb => ?_
  rw [getField_getLsbD, commandBits_getLsbD]
  interval_cases b <;> simp

@[inherit_doc busyFlag_command, simp] theorem getField_page_command (busy : BitVec 1) (op : BitVec 3)
    (page rsvd : BitVec 2) (index : Index) :
    getField (busy ++ op ++ page ++ rsvd ++ index) pageBits = page.setWidth 16 := by
  refine word_ext fun b hb => ?_
  rw [getField_getLsbD, commandBits_getLsbD]
  interval_cases b <;> simp

@[inherit_doc busyFlag_command, simp] theorem getField_index_command (busy : BitVec 1) (op : BitVec 3)
    (page rsvd : BitVec 2) (index : Index) :
    getField (busy ++ op ++ page ++ rsvd ++ index) indexBits = index.setWidth 16 := by
  refine word_ext fun b hb => ?_
  rw [getField_getLsbD, commandBits_getLsbD]
  interval_cases b <;> simp

/-- Replacing `INDEX` in a command word (R216). -/
theorem setField_index_command (busy : BitVec 1) (op : BitVec 3) (page rsvd : BitVec 2) (index index' : Index) :
    setField (busy ++ op ++ page ++ rsvd ++ index) (index'.setWidth 16) indexBits =
      busy ++ op ++ page ++ rsvd ++ index' := by
  refine word_ext fun b hb => ?_
  rw [setField_getLsbD _ _ _ _ hb, commandBits_getLsbD, commandBits_getLsbD]
  interval_cases b <;> simp

/-- Every word is a command word. -/
theorem word_eq_command (w : Word) :
    w = w.extractLsb' 15 1 ++ w.extractLsb' 12 3 ++ w.extractLsb' 10 2 ++ w.extractLsb' 8 2 ++ w.extractLsb' 0 8 := by
  refine word_ext fun b hb => ?_
  rw [commandBits_getLsbD]
  interval_cases b <;> simp

/-! ## Window registers -/

/-- Bit `b` of a window register (R96). -/
theorem winWord_getLsbD (mask value : Byte) (b : Nat) (hb : b < 16) :
    (winWord mask value).getLsbD b = if b < 8 then value.getLsbD b else mask.getLsbD (b - 8) := by
  simp only [winWord, setField_getLsbD _ _ _ _ hb]
  interval_cases b <;> simp

/-- A window register is its mask byte above its value byte (R96). -/
theorem winWord_eq (mask value : Byte) : winWord mask value = mask ++ value := by
  refine word_ext fun b hb => ?_
  rw [winWord_getLsbD _ _ _ hb]
  change _ = BitVec.getLsbD (w := 8 + 8) (mask ++ value) b
  rw [BitVec.getLsbD_append]

@[simp] theorem winValue_winWord (mask value : Byte) : winValue (winWord mask value) = value := by
  refine BitVec.eq_of_getLsbD_eq fun b hb => ?_
  rw [winValue, BitVec.getLsbD_setWidth, getField_getLsbD, winWord_getLsbD _ _ _ (by simp; omega)]
  simp [hb]

@[simp] theorem winMask_winWord (mask value : Byte) : winMask (winWord mask value) = mask := by
  refine BitVec.eq_of_getLsbD_eq fun b hb => ?_
  rw [winMask, BitVec.getLsbD_setWidth, getField_getLsbD, winWord_getLsbD _ _ _ (by simp; omega)]
  simp [hb]

@[simp] theorem winWord_winMask_winValue (r : Word) : winWord (winMask r) (winValue r) = r := by
  refine word_ext fun b hb => ?_
  rw [winWord_getLsbD _ _ _ hb, winMask, winValue, BitVec.getLsbD_setWidth, BitVec.getLsbD_setWidth, getField_getLsbD,
    getField_getLsbD]
  interval_cases b <;> simp

/-! ## Bit strings of the window -/

/-- Bit `b` of a bit string with `w` bits from bit `low` up replaced. -/
theorem setSlice_getLsbD (x : BitVec windowBits) (low w value b : Nat) (hb : b < windowBits) (hw : low + w ≤ windowBits) :
    (setSlice x low w value).getLsbD b = if low ≤ b ∧ b < low + w then value.testBit (b - low) else x.getLsbD b := by
  simp only [setSlice, sliceMask, BitVec.getLsbD_or, BitVec.getLsbD_and, BitVec.getLsbD_not, BitVec.getLsbD_shiftLeft,
    BitVec.getLsbD_ofNat, Nat.testBit_two_pow_sub_one, Nat.testBit_mod_two_pow]
  by_cases h1 : low ≤ b
  · have h5 : ¬ b < low := by omega
    by_cases h2 : b < low + w
    · have h3 : b - low < w := by omega
      have h4 : b - low < windowBits := by omega
      simp [h1, h2, h3, h4, h5, hb]
    · have h3 : ¬ b - low < w := by omega
      simp [h2, h3, h5, hb]
  · have h5 : b < low := by omega
    simp [h1, h5, hb]

/-- Bit `k` of the number that `w` bits from bit `low` up make. -/
theorem getSlice_testBit (x : BitVec windowBits) (low w k : Nat) :
    (getSlice x low w).testBit k = (decide (k < w) && x.getLsbD (low + k)) := by
  simp [getSlice, Nat.testBit_mod_two_pow, BitVec.testBit_toNat, BitVec.getLsbD_ushiftRight]

/-- Reading the bits just written gives the value, cut to their number. -/
theorem getSlice_setSlice_self (x : BitVec windowBits) (low w value : Nat) (hw : low + w ≤ windowBits) :
    getSlice (setSlice x low w value) low w = value % 2 ^ w := by
  refine Nat.eq_of_testBit_eq fun k => ?_
  rw [getSlice_testBit, Nat.testBit_mod_two_pow]
  by_cases h : k < w
  · rw [setSlice_getLsbD _ _ _ _ _ (by omega) hw]
    simp [h]
  · simp [h]

/-- Reading bits that share none with the ones written gives what they held. -/
theorem getSlice_setSlice_apart (x : BitVec windowBits) (low w value low' w' : Nat) (hw : low + w ≤ windowBits)
    (hw' : low' + w' ≤ windowBits) (h : low + w ≤ low' ∨ low' + w' ≤ low) :
    getSlice (setSlice x low w value) low' w' = getSlice x low' w' := by
  refine Nat.eq_of_testBit_eq fun k => ?_
  rw [getSlice_testBit, getSlice_testBit]
  by_cases hk : k < w'
  · rw [setSlice_getLsbD _ _ _ _ _ (by omega) hw, if_neg (by omega)]
  · simp [hk]

end

end Sys2Proof
end

