-- ==== Sys2Proof/Laws/Config.lean ====
section
/-! SUPPORT. What a checked configuration guarantees, one fact per lemma. -/

namespace Sys2Proof

section

variable (c : Cfg.Checked)

/-- The parts of `Cfg.wf`. -/
theorem Cfg.Checked.parts :
    c.val.rangeOk = true ∧ c.val.pollOk = true ∧ c.val.portsOk = true ∧ c.val.tagsOk = true ∧
      c.val.offsetsOk = true ∧ c.val.shapeOk = true ∧ c.val.pagesOk = true ∧ c.val.placesOk = true ∧
      c.val.overlapOk = true ∧ c.val.keyRegsOk = true ∧ c.val.widthsOk = true := by
  have h := c.property
  simp only [Cfg.wf, Bool.and_eq_true] at h
  tauto

theorem Cfg.Checked.min_le_max : c.val.minIndex ≤ c.val.maxIndex := by
  have h := c.parts.1
  simp only [Cfg.rangeOk, Bool.and_eq_true, decide_eq_true_eq] at h
  exact h.1

theorem Cfg.Checked.max_le : c.val.maxIndex ≤ 255 := by
  have h := c.parts.1
  simp only [Cfg.rangeOk, Bool.and_eq_true, decide_eq_true_eq] at h
  exact h.2

theorem Cfg.Checked.poll_pos : 1 ≤ c.val.pollLimit := by
  have h := c.parts.2.1
  simpa [Cfg.pollOk] using h

theorem Cfg.Checked.ports_le : c.val.nPorts ≤ 16 := by
  have h := c.parts.2.2.1
  simp only [Cfg.portsOk, Bool.and_eq_true, decide_eq_true_eq] at h
  exact h.2

/-- The tags differ, are bytes, and fit the TAG field. -/
theorem Cfg.Checked.tags :
    c.val.emptyTag ≠ c.val.validTag ∧ c.val.emptyTag.toNat < 256 ∧ c.val.validTag.toNat < 256 ∧
      8 ≤ c.val.rl.tag.bits.width := by
  have h := c.parts.2.2.2.1
  simp only [Cfg.tagsOk, Bool.and_eq_true, decide_eq_true_eq, bne_iff_ne] at h
  tauto

/-- The command register, the selector and the data bank are apart. -/
theorem Cfg.Checked.offsets :
    c.val.dataLo ≤ c.val.dataHi ∧ c.val.cmdOff ≠ c.val.extOff ∧
      (c.val.cmdOff < c.val.dataLo ∨ c.val.dataHi < c.val.cmdOff) ∧
      (c.val.extOff < c.val.dataLo ∨ c.val.dataHi < c.val.extOff) := by
  have h := c.parts.2.2.2.2.1
  simp only [Cfg.offsetsOk, Bool.and_eq_true, Bool.or_eq_true, decide_eq_true_eq, bne_iff_ne] at h
  tauto

/-- Windows have 48 bytes. -/
theorem Cfg.Checked.windowBytes_eq : c.val.windowBytes = 48 := by
  have h := c.parts.2.2.2.2.2.1
  simp only [Cfg.shapeOk, Bool.and_eq_true, beq_iff_eq] at h
  exact h.1

/-- Slots have three pages. -/
theorem Cfg.Checked.nPages_eq : c.val.nPages = 3 := by
  have h := c.parts.2.2.2.2.2.1
  simp only [Cfg.shapeOk, Bool.and_eq_true, beq_iff_eq] at h
  exact h.2

/-- Of the four values of a page operand only page 3 does not exist. -/
theorem Cfg.Checked.hasPage_eq (p : BitVec 2) : c.val.hasPage p = true ↔ p ≠ 3 := by
  simp only [Cfg.hasPage, c.nPages_eq, decide_eq_true_eq]
  revert p
  decide

/-- There are three key registers, and the window is cut inside its bytes. -/
theorem Cfg.Checked.sizes :
    3 ≤ c.val.rl.nHdr ∧ c.val.rl.cut ≤ c.val.windowBytes := by
  have h := c.parts.2.2.2.2.2.2.1
  simp only [Cfg.pagesOk, Bool.and_eq_true, decide_eq_true_eq] at h
  tauto

/-- Every page fits the data bank. -/
theorem Cfg.Checked.pageLen_le (p : Nat) : c.val.pageLen p ≤ c.val.bankSize := by
  have h := c.parts.2.2.2.2.2.2.1
  simp only [Cfg.pagesOk, Bool.and_eq_true, decide_eq_true_eq] at h
  match p with
  | 0 => exact h.1.1.2
  | 1 => exact h.1.2
  | 2 => exact h.2
  | _ + 3 => simp [Cfg.pageLen]

/-- A header field lies in one of the header words. -/
theorem Cfg.Checked.hdrPos {f : FieldPos} (hf : f ∈ c.val.rl.hdrFields) :
    f.page = 0 ∧ c.val.dataLo ≤ f.reg ∧ f.reg < c.val.dataLo + c.val.rl.nHdr := by
  have h := c.parts.2.2.2.2.2.2.2.1
  simp only [Cfg.placesOk, Bool.and_eq_true, List.all_eq_true] at h
  have := h.1 f hf
  simp only [Cfg.hdrPosOk, Bool.and_eq_true, decide_eq_true_eq, beq_iff_eq] at this
  tauto

/-- An action field lies in one of the action words. -/
theorem Cfg.Checked.actPos {f : FieldPos} (hf : f ∈ c.val.rl.actFields) :
    f.page = 2 ∧ c.val.dataLo ≤ f.reg ∧ f.reg < c.val.dataLo + c.val.rl.nAct := by
  have h := c.parts.2.2.2.2.2.2.2.1
  simp only [Cfg.placesOk, Bool.and_eq_true, List.all_eq_true] at h
  have := h.2 f hf
  simp only [Cfg.actPosOk, Bool.and_eq_true, decide_eq_true_eq, beq_iff_eq] at this
  tauto

theorem Cfg.Checked.hdr_noOverlap : noOverlap c.val.rl.hdrFields = true := by
  have h := c.parts.2.2.2.2.2.2.2.2.1
  simp only [Cfg.overlapOk, Bool.and_eq_true] at h
  exact h.1

theorem Cfg.Checked.act_noOverlap : noOverlap c.val.rl.actFields = true := by
  have h := c.parts.2.2.2.2.2.2.2.2.1
  simp only [Cfg.overlapOk, Bool.and_eq_true] at h
  exact h.2

/-- The widths that R106 asks for. -/
theorem Cfg.Checked.widths :
    8 ≤ c.val.rl.nextId.bits.width ∧ 8 ≤ c.val.rl.vid.bits.width ∧ c.val.rl.pvec.bits.width = c.val.nPorts ∧
      c.val.rl.pvecMask.bits.width = c.val.nPorts ∧ c.val.rl.dpv.bits.width = c.val.nPorts := by
  have h := c.parts.2.2.2.2.2.2.2.2.2.2
  simp only [Cfg.widthsOk, Bool.and_eq_true, decide_eq_true_eq, beq_iff_eq] at h
  tauto

end

end Sys2Proof
end

