-- ==== Sys2Proof/Laws/State.lean ====
section
/-! SUPPORT. What each named update of the state does to each field: one lemma per field per update. -/

namespace Sys2Proof.Machine

/-! ## `State.acquire` -/

section

variable (s : State) (op : Op)

@[simp] theorem State.acquire_cfg : (s.acquire op).cfg = s.cfg := rfl
@[simp] theorem State.acquire_fsm : (s.acquire op).fsm = .awaitingBusy := rfl
@[simp] theorem State.acquire_lockOwner : (s.acquire op).lockOwner = some s.caller := rfl
@[simp] theorem State.acquire_op : (s.acquire op).op = some op := rfl
@[simp] theorem State.acquire_phase : (s.acquire op).phase = 0 := rfl
@[simp] theorem State.acquire_seqStep : (s.acquire op).seqStep = 0 := rfl
@[simp] theorem State.acquire_pollCnt : (s.acquire op).pollCnt = 0 := rfl
@[simp] theorem State.acquire_e1 : (s.acquire op).e1 = s.e1 := rfl
@[simp] theorem State.acquire_e2 : (s.acquire op).e2 = s.e2 := rfl
@[simp] theorem State.acquire_hwIndex : (s.acquire op).hwIndex = s.hwIndex := rfl
@[simp] theorem State.acquire_key1 : (s.acquire op).key1 = s.key1 := rfl
@[simp] theorem State.acquire_key2 : (s.acquire op).key2 = s.key2 := rfl
@[simp] theorem State.acquire_key3 : (s.acquire op).key3 = s.key3 := rfl
@[simp] theorem State.acquire_result : (s.acquire op).result = s.result := rfl
@[simp] theorem State.acquire_resultFor : (s.acquire op).resultFor = s.resultFor := rfl
@[simp] theorem State.acquire_cmd : (s.acquire op).cmd = s.cmd := rfl
@[simp] theorem State.acquire_ext : (s.acquire op).ext = s.ext := rfl
@[simp] theorem State.acquire_data : (s.acquire op).data = s.data := rfl
@[simp] theorem State.acquire_table : (s.acquire op).table = s.table := rfl
@[simp] theorem State.acquire_devCmd : (s.acquire op).devCmd = s.devCmd := rfl
@[simp] theorem State.acquire_requests : (s.acquire op).requests = s.requests := rfl
@[simp] theorem State.acquire_cascaded : (s.acquire op).cascaded = s.cascaded := rfl
@[simp] theorem State.acquire_caller : (s.acquire op).caller = s.caller := rfl
@[simp] theorem State.acquire_turn : (s.acquire op).turn = s.turn := rfl
@[simp] theorem State.acquire_fnOut : (s.acquire op).fnOut = s.fnOut := rfl
@[simp] theorem State.acquire_fnFor : (s.acquire op).fnFor = s.fnFor := rfl
@[simp] theorem State.acquire_sched : (s.acquire op).sched = s.sched := rfl
@[simp] theorem State.acquire_drawn : (s.acquire op).drawn = s.drawn := rfl
@[simp] theorem State.acquire_conf : (s.acquire op).conf = s.conf := rfl

end

/-! ## `State.release` -/

section

variable (s : State)

@[simp] theorem State.release_cfg : (s.release).cfg = s.cfg := rfl
@[simp] theorem State.release_fsm : (s.release).fsm = .idle := rfl
@[simp] theorem State.release_lockOwner : (s.release).lockOwner = none := rfl
@[simp] theorem State.release_op : (s.release).op = none := rfl
@[simp] theorem State.release_phase : (s.release).phase = 0 := rfl
@[simp] theorem State.release_seqStep : (s.release).seqStep = 0 := rfl
@[simp] theorem State.release_pollCnt : (s.release).pollCnt = s.pollCnt := rfl
@[simp] theorem State.release_e1 : (s.release).e1 = s.e1 := rfl
@[simp] theorem State.release_e2 : (s.release).e2 = s.e2 := rfl
@[simp] theorem State.release_hwIndex : (s.release).hwIndex = s.hwIndex := rfl
@[simp] theorem State.release_key1 : (s.release).key1 = s.key1 := rfl
@[simp] theorem State.release_key2 : (s.release).key2 = s.key2 := rfl
@[simp] theorem State.release_key3 : (s.release).key3 = s.key3 := rfl
@[simp] theorem State.release_result : (s.release).result = s.result := rfl
@[simp] theorem State.release_resultFor : (s.release).resultFor = s.resultFor := rfl
@[simp] theorem State.release_cmd : (s.release).cmd = s.cmd := rfl
@[simp] theorem State.release_ext : (s.release).ext = s.ext := rfl
@[simp] theorem State.release_data : (s.release).data = s.data := rfl
@[simp] theorem State.release_table : (s.release).table = s.table := rfl
@[simp] theorem State.release_devCmd : (s.release).devCmd = s.devCmd := rfl
@[simp] theorem State.release_requests : (s.release).requests = s.requests := rfl
@[simp] theorem State.release_cascaded : (s.release).cascaded = s.cascaded := rfl
@[simp] theorem State.release_caller : (s.release).caller = s.caller := rfl
@[simp] theorem State.release_turn : (s.release).turn = s.turn := rfl
@[simp] theorem State.release_fnOut : (s.release).fnOut = s.fnOut := rfl
@[simp] theorem State.release_fnFor : (s.release).fnFor = s.fnFor := rfl
@[simp] theorem State.release_sched : (s.release).sched = s.sched := rfl
@[simp] theorem State.release_drawn : (s.release).drawn = s.drawn := rfl
@[simp] theorem State.release_conf : (s.release).conf = s.conf := rfl

end

/-! ## `State.deliver` -/

section

variable (s : State) (r : Result)

@[simp] theorem State.deliver_cfg : (s.deliver r).cfg = s.cfg := rfl
@[simp] theorem State.deliver_fsm : (s.deliver r).fsm = s.fsm := rfl
@[simp] theorem State.deliver_lockOwner : (s.deliver r).lockOwner = s.lockOwner := rfl
@[simp] theorem State.deliver_op : (s.deliver r).op = s.op := rfl
@[simp] theorem State.deliver_phase : (s.deliver r).phase = s.phase := rfl
@[simp] theorem State.deliver_seqStep : (s.deliver r).seqStep = s.seqStep := rfl
@[simp] theorem State.deliver_pollCnt : (s.deliver r).pollCnt = s.pollCnt := rfl
@[simp] theorem State.deliver_e1 : (s.deliver r).e1 = s.e1 := rfl
@[simp] theorem State.deliver_e2 : (s.deliver r).e2 = s.e2 := rfl
@[simp] theorem State.deliver_hwIndex : (s.deliver r).hwIndex = s.hwIndex := rfl
@[simp] theorem State.deliver_key1 : (s.deliver r).key1 = s.key1 := rfl
@[simp] theorem State.deliver_key2 : (s.deliver r).key2 = s.key2 := rfl
@[simp] theorem State.deliver_key3 : (s.deliver r).key3 = s.key3 := rfl
@[simp] theorem State.deliver_result : (s.deliver r).result = r := rfl
@[simp] theorem State.deliver_resultFor : (s.deliver r).resultFor = s.caller := rfl
@[simp] theorem State.deliver_cmd : (s.deliver r).cmd = s.cmd := rfl
@[simp] theorem State.deliver_ext : (s.deliver r).ext = s.ext := rfl
@[simp] theorem State.deliver_data : (s.deliver r).data = s.data := rfl
@[simp] theorem State.deliver_table : (s.deliver r).table = s.table := rfl
@[simp] theorem State.deliver_devCmd : (s.deliver r).devCmd = s.devCmd := rfl
@[simp] theorem State.deliver_requests : (s.deliver r).requests = s.requests.filter (fun q => q.who != s.caller) := rfl
@[simp] theorem State.deliver_cascaded : (s.deliver r).cascaded = s.cascaded.filter (fun w => w != s.caller) := rfl
@[simp] theorem State.deliver_caller : (s.deliver r).caller = s.caller := rfl
@[simp] theorem State.deliver_turn : (s.deliver r).turn = s.turn := rfl
@[simp] theorem State.deliver_fnOut : (s.deliver r).fnOut = s.fnOut := rfl
@[simp] theorem State.deliver_fnFor : (s.deliver r).fnFor = s.fnFor := rfl
@[simp] theorem State.deliver_sched : (s.deliver r).sched = s.sched := rfl
@[simp] theorem State.deliver_drawn : (s.deliver r).drawn = s.drawn := rfl
@[simp] theorem State.deliver_conf : (s.deliver r).conf = s.conf := rfl

end

/-! ## `State.answer` -/

section

variable (s : State) (v : FnValue)

@[simp] theorem State.answer_cfg : (s.answer v).cfg = s.cfg := rfl
@[simp] theorem State.answer_fsm : (s.answer v).fsm = s.fsm := rfl
@[simp] theorem State.answer_lockOwner : (s.answer v).lockOwner = s.lockOwner := rfl
@[simp] theorem State.answer_op : (s.answer v).op = s.op := rfl
@[simp] theorem State.answer_phase : (s.answer v).phase = s.phase := rfl
@[simp] theorem State.answer_seqStep : (s.answer v).seqStep = s.seqStep := rfl
@[simp] theorem State.answer_pollCnt : (s.answer v).pollCnt = s.pollCnt := rfl
@[simp] theorem State.answer_e1 : (s.answer v).e1 = s.e1 := rfl
@[simp] theorem State.answer_e2 : (s.answer v).e2 = s.e2 := rfl
@[simp] theorem State.answer_hwIndex : (s.answer v).hwIndex = s.hwIndex := rfl
@[simp] theorem State.answer_key1 : (s.answer v).key1 = s.key1 := rfl
@[simp] theorem State.answer_key2 : (s.answer v).key2 = s.key2 := rfl
@[simp] theorem State.answer_key3 : (s.answer v).key3 = s.key3 := rfl
@[simp] theorem State.answer_result : (s.answer v).result = s.result := rfl
@[simp] theorem State.answer_resultFor : (s.answer v).resultFor = s.resultFor := rfl
@[simp] theorem State.answer_cmd : (s.answer v).cmd = s.cmd := rfl
@[simp] theorem State.answer_ext : (s.answer v).ext = s.ext := rfl
@[simp] theorem State.answer_data : (s.answer v).data = s.data := rfl
@[simp] theorem State.answer_table : (s.answer v).table = s.table := rfl
@[simp] theorem State.answer_devCmd : (s.answer v).devCmd = s.devCmd := rfl
@[simp] theorem State.answer_requests : (s.answer v).requests = s.requests.filter (fun q => q.who != s.caller) := rfl
@[simp] theorem State.answer_cascaded : (s.answer v).cascaded = s.cascaded := rfl
@[simp] theorem State.answer_caller : (s.answer v).caller = s.caller := rfl
@[simp] theorem State.answer_turn : (s.answer v).turn = s.turn := rfl
@[simp] theorem State.answer_fnOut : (s.answer v).fnOut = v := rfl
@[simp] theorem State.answer_fnFor : (s.answer v).fnFor = s.caller := rfl
@[simp] theorem State.answer_sched : (s.answer v).sched = s.sched := rfl
@[simp] theorem State.answer_drawn : (s.answer v).drawn = s.drawn := rfl
@[simp] theorem State.answer_conf : (s.answer v).conf = s.conf := rfl

end

/-! ## `State.submit` -/

section

variable (s : State) (q : Submission)

@[simp] theorem State.submit_cfg : (s.submit q).cfg = s.cfg := rfl
@[simp] theorem State.submit_fsm : (s.submit q).fsm = s.fsm := rfl
@[simp] theorem State.submit_lockOwner : (s.submit q).lockOwner = s.lockOwner := rfl
@[simp] theorem State.submit_op : (s.submit q).op = s.op := rfl
@[simp] theorem State.submit_phase : (s.submit q).phase = s.phase := rfl
@[simp] theorem State.submit_seqStep : (s.submit q).seqStep = s.seqStep := rfl
@[simp] theorem State.submit_pollCnt : (s.submit q).pollCnt = s.pollCnt := rfl
@[simp] theorem State.submit_e1 : (s.submit q).e1 = s.e1 := rfl
@[simp] theorem State.submit_e2 : (s.submit q).e2 = s.e2 := rfl
@[simp] theorem State.submit_hwIndex : (s.submit q).hwIndex = s.hwIndex := rfl
@[simp] theorem State.submit_key1 : (s.submit q).key1 = s.key1 := rfl
@[simp] theorem State.submit_key2 : (s.submit q).key2 = s.key2 := rfl
@[simp] theorem State.submit_key3 : (s.submit q).key3 = s.key3 := rfl
@[simp] theorem State.submit_result : (s.submit q).result = s.result := rfl
@[simp] theorem State.submit_resultFor : (s.submit q).resultFor = s.resultFor := rfl
@[simp] theorem State.submit_cmd : (s.submit q).cmd = s.cmd := rfl
@[simp] theorem State.submit_ext : (s.submit q).ext = s.ext := rfl
@[simp] theorem State.submit_data : (s.submit q).data = s.data := rfl
@[simp] theorem State.submit_table : (s.submit q).table = s.table := rfl
@[simp] theorem State.submit_devCmd : (s.submit q).devCmd = s.devCmd := rfl
@[simp] theorem State.submit_cascaded : (s.submit q).cascaded = s.cascaded := rfl
@[simp] theorem State.submit_caller : (s.submit q).caller = s.caller := rfl
@[simp] theorem State.submit_turn : (s.submit q).turn = s.turn := rfl
@[simp] theorem State.submit_fnOut : (s.submit q).fnOut = s.fnOut := rfl
@[simp] theorem State.submit_fnFor : (s.submit q).fnFor = s.fnFor := rfl
@[simp] theorem State.submit_sched : (s.submit q).sched = s.sched := rfl
@[simp] theorem State.submit_drawn : (s.submit q).drawn = s.drawn := rfl
@[simp] theorem State.submit_conf : (s.submit q).conf = s.conf := rfl
@[simp] theorem State.submit_slot (i : Index) : (s.submit q).slot i = s.slot i := rfl
@[simp] theorem State.submit_busy : (s.submit q).busy = s.busy := rfl

end

/-! ## `State.endOk` -/

section

variable (s : State) (v : Value)

@[simp] theorem State.endOk_cfg : (s.endOk v).cfg = s.cfg := rfl
@[simp] theorem State.endOk_fsm : (s.endOk v).fsm = .idle := rfl
@[simp] theorem State.endOk_lockOwner : (s.endOk v).lockOwner = none := rfl
@[simp] theorem State.endOk_op : (s.endOk v).op = none := rfl
@[simp] theorem State.endOk_phase : (s.endOk v).phase = 0 := rfl
@[simp] theorem State.endOk_seqStep : (s.endOk v).seqStep = 0 := rfl
@[simp] theorem State.endOk_pollCnt : (s.endOk v).pollCnt = s.pollCnt := rfl
@[simp] theorem State.endOk_e1 : (s.endOk v).e1 = s.e1 := rfl
@[simp] theorem State.endOk_e2 : (s.endOk v).e2 = s.e2 := rfl
@[simp] theorem State.endOk_hwIndex : (s.endOk v).hwIndex = s.hwIndex := rfl
@[simp] theorem State.endOk_key1 : (s.endOk v).key1 = s.key1 := rfl
@[simp] theorem State.endOk_key2 : (s.endOk v).key2 = s.key2 := rfl
@[simp] theorem State.endOk_key3 : (s.endOk v).key3 = s.key3 := rfl
@[simp] theorem State.endOk_result : (s.endOk v).result = .ok v := rfl
@[simp] theorem State.endOk_resultFor : (s.endOk v).resultFor = s.caller := rfl
@[simp] theorem State.endOk_cmd : (s.endOk v).cmd = s.cmd := rfl
@[simp] theorem State.endOk_ext : (s.endOk v).ext = s.ext := rfl
@[simp] theorem State.endOk_data : (s.endOk v).data = s.data := rfl
@[simp] theorem State.endOk_table : (s.endOk v).table = s.table := rfl
@[simp] theorem State.endOk_devCmd : (s.endOk v).devCmd = s.devCmd := rfl
@[simp] theorem State.endOk_requests : (s.endOk v).requests = s.requests.filter (fun q => q.who != s.caller) := rfl
@[simp] theorem State.endOk_cascaded : (s.endOk v).cascaded = s.cascaded.filter (fun w => w != s.caller) := rfl
@[simp] theorem State.endOk_caller : (s.endOk v).caller = s.caller := rfl
@[simp] theorem State.endOk_turn : (s.endOk v).turn = s.turn := rfl
@[simp] theorem State.endOk_fnOut : (s.endOk v).fnOut = s.fnOut := rfl
@[simp] theorem State.endOk_fnFor : (s.endOk v).fnFor = s.fnFor := rfl
@[simp] theorem State.endOk_sched : (s.endOk v).sched = s.sched := rfl
@[simp] theorem State.endOk_drawn : (s.endOk v).drawn = s.drawn := rfl
@[simp] theorem State.endOk_conf : (s.endOk v).conf = s.conf := rfl

end

/-! ## `State.abort` -/

section

variable (s : State) (c : Cause)

@[simp] theorem State.abort_cfg : (s.abort c).cfg = s.cfg := rfl
@[simp] theorem State.abort_fsm : (s.abort c).fsm = .idle := rfl
@[simp] theorem State.abort_lockOwner : (s.abort c).lockOwner = none := rfl
@[simp] theorem State.abort_op : (s.abort c).op = none := rfl
@[simp] theorem State.abort_phase : (s.abort c).phase = 0 := rfl
@[simp] theorem State.abort_seqStep : (s.abort c).seqStep = 0 := rfl
@[simp] theorem State.abort_pollCnt : (s.abort c).pollCnt = s.pollCnt := rfl
@[simp] theorem State.abort_e1 : (s.abort c).e1 = s.e1 := rfl
@[simp] theorem State.abort_e2 : (s.abort c).e2 = s.e2 := rfl
@[simp] theorem State.abort_hwIndex : (s.abort c).hwIndex = s.hwIndex := rfl
@[simp] theorem State.abort_key1 : (s.abort c).key1 = s.key1 := rfl
@[simp] theorem State.abort_key2 : (s.abort c).key2 = s.key2 := rfl
@[simp] theorem State.abort_key3 : (s.abort c).key3 = s.key3 := rfl
@[simp] theorem State.abort_result : (s.abort c).result = .err c := rfl
@[simp] theorem State.abort_resultFor : (s.abort c).resultFor = s.caller := rfl
@[simp] theorem State.abort_cmd : (s.abort c).cmd = s.cmd := rfl
@[simp] theorem State.abort_ext : (s.abort c).ext = s.ext := rfl
@[simp] theorem State.abort_data : (s.abort c).data = s.data := rfl
@[simp] theorem State.abort_table : (s.abort c).table = s.table := rfl
@[simp] theorem State.abort_devCmd : (s.abort c).devCmd = s.devCmd := rfl
@[simp] theorem State.abort_requests : (s.abort c).requests = s.requests.filter (fun q => q.who != s.caller) := rfl
@[simp] theorem State.abort_cascaded : (s.abort c).cascaded = s.cascaded.filter (fun w => w != s.caller) := rfl
@[simp] theorem State.abort_caller : (s.abort c).caller = s.caller := rfl
@[simp] theorem State.abort_turn : (s.abort c).turn = s.turn := rfl
@[simp] theorem State.abort_fnOut : (s.abort c).fnOut = s.fnOut := rfl
@[simp] theorem State.abort_fnFor : (s.abort c).fnFor = s.fnFor := rfl
@[simp] theorem State.abort_sched : (s.abort c).sched = s.sched := rfl
@[simp] theorem State.abort_drawn : (s.abort c).drawn = s.drawn := rfl
@[simp] theorem State.abort_conf : (s.abort c).conf = s.conf := rfl

end

/-! ## `State.complete` -/

section

variable (s : State)

@[simp] theorem State.complete_cfg : (s.complete).cfg = s.cfg := rfl
@[simp] theorem State.complete_fsm : (s.complete).fsm = s.fsm := rfl
@[simp] theorem State.complete_lockOwner : (s.complete).lockOwner = s.lockOwner := rfl
@[simp] theorem State.complete_op : (s.complete).op = s.op := rfl
@[simp] theorem State.complete_phase : (s.complete).phase = s.phase := rfl
@[simp] theorem State.complete_seqStep : (s.complete).seqStep = s.seqStep := rfl
@[simp] theorem State.complete_pollCnt : (s.complete).pollCnt = s.pollCnt := rfl
@[simp] theorem State.complete_e1 : (s.complete).e1 = s.e1 := rfl
@[simp] theorem State.complete_e2 : (s.complete).e2 = s.e2 := rfl
@[simp] theorem State.complete_hwIndex : (s.complete).hwIndex = s.hwIndex := rfl
@[simp] theorem State.complete_key1 : (s.complete).key1 = s.key1 := rfl
@[simp] theorem State.complete_key2 : (s.complete).key2 = s.key2 := rfl
@[simp] theorem State.complete_key3 : (s.complete).key3 = s.key3 := rfl
@[simp] theorem State.complete_result : (s.complete).result = s.result := rfl
@[simp] theorem State.complete_resultFor : (s.complete).resultFor = s.resultFor := rfl
@[simp] theorem State.complete_cmd : (s.complete).cmd = setField s.cmd 0 busyBits := rfl
@[simp] theorem State.complete_ext : (s.complete).ext = s.ext := rfl
@[simp] theorem State.complete_data : (s.complete).data = s.data := rfl
@[simp] theorem State.complete_table : (s.complete).table = s.table := rfl
@[simp] theorem State.complete_devCmd : (s.complete).devCmd = none := rfl
@[simp] theorem State.complete_requests : (s.complete).requests = s.requests := rfl
@[simp] theorem State.complete_cascaded : (s.complete).cascaded = s.cascaded := rfl
@[simp] theorem State.complete_caller : (s.complete).caller = s.caller := rfl
@[simp] theorem State.complete_turn : (s.complete).turn = s.turn := rfl
@[simp] theorem State.complete_fnOut : (s.complete).fnOut = s.fnOut := rfl
@[simp] theorem State.complete_fnFor : (s.complete).fnFor = s.fnFor := rfl
@[simp] theorem State.complete_sched : (s.complete).sched = s.sched := rfl
@[simp] theorem State.complete_drawn : (s.complete).drawn = s.drawn := rfl
@[simp] theorem State.complete_conf : (s.complete).conf = s.conf := rfl

end

/-! ## `State.putSlot` -/

section

variable (s : State) (i : Index) (t : Slot)

@[simp] theorem State.putSlot_cfg : (s.putSlot i t).cfg = s.cfg := rfl
@[simp] theorem State.putSlot_fsm : (s.putSlot i t).fsm = s.fsm := rfl
@[simp] theorem State.putSlot_lockOwner : (s.putSlot i t).lockOwner = s.lockOwner := rfl
@[simp] theorem State.putSlot_op : (s.putSlot i t).op = s.op := rfl
@[simp] theorem State.putSlot_phase : (s.putSlot i t).phase = s.phase := rfl
@[simp] theorem State.putSlot_seqStep : (s.putSlot i t).seqStep = s.seqStep := rfl
@[simp] theorem State.putSlot_pollCnt : (s.putSlot i t).pollCnt = s.pollCnt := rfl
@[simp] theorem State.putSlot_e1 : (s.putSlot i t).e1 = s.e1 := rfl
@[simp] theorem State.putSlot_e2 : (s.putSlot i t).e2 = s.e2 := rfl
@[simp] theorem State.putSlot_hwIndex : (s.putSlot i t).hwIndex = s.hwIndex := rfl
@[simp] theorem State.putSlot_key1 : (s.putSlot i t).key1 = s.key1 := rfl
@[simp] theorem State.putSlot_key2 : (s.putSlot i t).key2 = s.key2 := rfl
@[simp] theorem State.putSlot_key3 : (s.putSlot i t).key3 = s.key3 := rfl
@[simp] theorem State.putSlot_result : (s.putSlot i t).result = s.result := rfl
@[simp] theorem State.putSlot_resultFor : (s.putSlot i t).resultFor = s.resultFor := rfl
@[simp] theorem State.putSlot_cmd : (s.putSlot i t).cmd = s.cmd := rfl
@[simp] theorem State.putSlot_ext : (s.putSlot i t).ext = s.ext := rfl
@[simp] theorem State.putSlot_data : (s.putSlot i t).data = s.data := rfl
@[simp] theorem State.putSlot_table : (s.putSlot i t).table = s.table.set (slotNo s.conf i) t := rfl
@[simp] theorem State.putSlot_devCmd : (s.putSlot i t).devCmd = s.devCmd := rfl
@[simp] theorem State.putSlot_requests : (s.putSlot i t).requests = s.requests := rfl
@[simp] theorem State.putSlot_cascaded : (s.putSlot i t).cascaded = s.cascaded := rfl
@[simp] theorem State.putSlot_caller : (s.putSlot i t).caller = s.caller := rfl
@[simp] theorem State.putSlot_turn : (s.putSlot i t).turn = s.turn := rfl
@[simp] theorem State.putSlot_fnOut : (s.putSlot i t).fnOut = s.fnOut := rfl
@[simp] theorem State.putSlot_fnFor : (s.putSlot i t).fnFor = s.fnFor := rfl
@[simp] theorem State.putSlot_sched : (s.putSlot i t).sched = s.sched := rfl
@[simp] theorem State.putSlot_drawn : (s.putSlot i t).drawn = s.drawn := rfl
@[simp] theorem State.putSlot_conf : (s.putSlot i t).conf = s.conf := rfl

end

/-! ## `State.issued` -/

section

variable (s : State)

@[simp] theorem State.issued_cfg : (s.issued).cfg = s.cfg := rfl
@[simp] theorem State.issued_fsm : (s.issued).fsm = .commandIssued := rfl
@[simp] theorem State.issued_lockOwner : (s.issued).lockOwner = s.lockOwner := rfl
@[simp] theorem State.issued_op : (s.issued).op = s.op := rfl
@[simp] theorem State.issued_phase : (s.issued).phase = s.phase + 1 := rfl
@[simp] theorem State.issued_seqStep : (s.issued).seqStep = 0 := rfl
@[simp] theorem State.issued_pollCnt : (s.issued).pollCnt = 0 := rfl
@[simp] theorem State.issued_e1 : (s.issued).e1 = s.e1 := rfl
@[simp] theorem State.issued_e2 : (s.issued).e2 = s.e2 := rfl
@[simp] theorem State.issued_hwIndex : (s.issued).hwIndex = s.hwIndex := rfl
@[simp] theorem State.issued_key1 : (s.issued).key1 = s.key1 := rfl
@[simp] theorem State.issued_key2 : (s.issued).key2 = s.key2 := rfl
@[simp] theorem State.issued_key3 : (s.issued).key3 = s.key3 := rfl
@[simp] theorem State.issued_result : (s.issued).result = s.result := rfl
@[simp] theorem State.issued_resultFor : (s.issued).resultFor = s.resultFor := rfl
@[simp] theorem State.issued_cmd : (s.issued).cmd = s.cmd := rfl
@[simp] theorem State.issued_ext : (s.issued).ext = s.ext := rfl
@[simp] theorem State.issued_data : (s.issued).data = s.data := rfl
@[simp] theorem State.issued_table : (s.issued).table = s.table := rfl
@[simp] theorem State.issued_devCmd : (s.issued).devCmd = s.devCmd := rfl
@[simp] theorem State.issued_requests : (s.issued).requests = s.requests := rfl
@[simp] theorem State.issued_cascaded : (s.issued).cascaded = s.cascaded := rfl
@[simp] theorem State.issued_caller : (s.issued).caller = s.caller := rfl
@[simp] theorem State.issued_turn : (s.issued).turn = s.turn := rfl
@[simp] theorem State.issued_fnOut : (s.issued).fnOut = s.fnOut := rfl
@[simp] theorem State.issued_fnFor : (s.issued).fnFor = s.fnFor := rfl
@[simp] theorem State.issued_sched : (s.issued).sched = s.sched := rfl
@[simp] theorem State.issued_drawn : (s.issued).drawn = s.drawn := rfl
@[simp] theorem State.issued_conf : (s.issued).conf = s.conf := rfl

end

end Sys2Proof.Machine
end

