-- ==== Sys2Proof/Laws/Ops.lean ====
section
/-! SUPPORT. What the shared operations over registers, slots and the latch can do, said once each. -/

namespace Sys2Proof.Machine

/-! ## Sequencing of outcomes -/

@[simp] theorem andThen_next (s : State) (f : State → Out) : andThen (.next s) f = f s := rfl
@[simp] theorem andThen_fault (r : Fault) (f : State → Out) : andThen (.fault r) f = .fault r := rfl
@[simp] theorem andThen_refused (r : Refusal) (f : State → Out) : andThen (.refused r) f = .refused r := rfl

/-- What goes on answers a next state only from a next state. -/
theorem andThen_eq_next {o : Out} {f : State → Out} {t : State} (h : andThen o f = .next t) :
    ∃ u, o = .next u ∧ f u = .next t := by
  cases o with
  | next u => exact ⟨u, rfl, h⟩
  | fault r => cases h
  | refused r => cases h

theorem andThen_assoc (o : Out) (f g : State → Out) :
    andThen (andThen o f) g = andThen o fun s => andThen (f s) g := by
  cases o <;> rfl

/-! ## Reading registers -/

theorem busy_eq (s : State) : s.busy = s.cmd.getLsbD 15 := busyFlag_eq _

/-- A read of the command register (R61). -/
@[simp] theorem readReg_cmd (s : State) : readReg s s.conf.tb s.conf.cmdOff = some s.cmd := by
  simp [readReg]

/-- A read of the selector (R61). -/
@[simp] theorem readReg_ext (s : State) : readReg s s.conf.tb s.conf.extOff = some s.ext := by
  have h := s.cfg.offsets.2.1
  simp [readReg, Ne.symm h]

/-- A data register is neither the command register nor the selector (R76). -/
theorem data_offset_ne (s : State) {k : Nat} (hk : k < s.conf.bankSize) :
    s.conf.dataLo + k ≠ s.conf.cmdOff ∧ s.conf.dataLo + k ≠ s.conf.extOff := by
  obtain ⟨-, -, h1, h2⟩ := s.cfg.offsets
  simp only [Cfg.bankSize, State.conf] at hk ⊢
  omega

/-- A read of a register of the data bank (R61). -/
theorem readReg_data (s : State) {k : Nat} (hk : k < s.conf.bankSize) :
    readReg s s.conf.tb (s.conf.dataLo + k) = s.data[k]? := by
  have h := data_offset_ne s hk
  simp [readReg, h.1, h.2]

/-! ## Writing registers -/

/-- A write to the selector with `BUSY` 0 (R62). -/
theorem writeReg_ext (s : State) (w : Word) (hb : s.busy = false) :
    writeReg s s.conf.tb s.conf.extOff w = .next { s with ext := w } := by
  have h := s.cfg.offsets.2.1
  simp [writeReg, Ne.symm h, writeExt, hb]

/-- A write to a register of the data bank with `BUSY` 0 (R62). -/
theorem writeReg_data (s : State) (w : Word) {k : Nat} (hk : k < s.conf.bankSize) (hd : k < s.data.length)
    (hb : s.busy = false) :
    writeReg s s.conf.tb (s.conf.dataLo + k) w = .next { s with data := s.data.set k w } := by
  have h := data_offset_ne s hk
  simp [writeReg, h.1, h.2, hd, writeData, hb]

/-- A command word written to `CMD` with `BUSY` 0 is stored and latched (R210). -/
theorem writeCmd_command (s : State) (op : BitVec 3) (page rsvd : BitVec 2) (index : Index) (hb : s.busy = false)
    (ho : op ≠ 6 ∧ op ≠ 7) (hp : op = opLoad ∨ op = opRead → page ≠ 3) :
    writeCmd s (1#1 ++ op ++ page ++ rsvd ++ index) =
      .next { s with cmd := 1#1 ++ op ++ page ++ rsvd ++ index, devCmd := some ⟨op, page, index⟩ } := by
  simp only [writeCmd, getField_op_command, getField_page_command, getField_index_command, busyFlag_command, hb]
  have h1 : (BitVec.setWidth 16 op).setWidth 3 = op := BitVec.setWidth_setWidth_of_le op (by omega)
  have h2 : (BitVec.setWidth 16 page).setWidth 2 = page := BitVec.setWidth_setWidth_of_le page (by omega)
  have h3 : (BitVec.setWidth 16 index).setWidth 8 = index := BitVec.setWidth_setWidth_of_le index (by omega)
  rw [h1, h2, h3]
  have h4 : ¬ ((op = opLoad ∨ op = opRead) ∧ (!s.conf.hasPage page) = true) := fun h => by
    have := (s.cfg.hasPage_eq page).2 (hp h.1)
    simp_all
  rw [if_neg (by decide), if_neg (by decide), if_neg (by tauto), if_neg h4]

/-- The controller's `Issue` write (R235). -/
theorem writeReg_issue (s : State) (op : BitVec 3) (page : BitVec 2) (index : Index) (hb : s.busy = false)
    (ho : op ≠ 6 ∧ op ≠ 7) (hp : op = opLoad ∨ op = opRead → page ≠ 3) :
    writeReg s s.conf.tb s.conf.cmdOff (cmdword op page index) =
      .next { s with cmd := cmdword op page index, devCmd := some ⟨op, page, index⟩ } := by
  simp only [writeReg, if_true, cmdword_eq]
  exact writeCmd_command s op page 0#2 index hb ho hp

/-- Whatever is written to `CMD`, a write that is not refused found `BUSY` 0 and leaves the latch as R35 says. -/
theorem writeCmd_cases {s t : State} {w : Word} (h : writeCmd s w = .next t) :
    s.busy = false ∧
      ((busyFlag w = false ∧ t = { s with cmd := w }) ∨
        (busyFlag w = true ∧
          t = { s with
            cmd := w,
            devCmd := some ⟨(getField w opBits).setWidth 3, (getField w pageBits).setWidth 2,
              (getField w indexBits).setWidth 8⟩ })) := by
  simp only [writeCmd] at h
  split at h
  · cases h
  rename_i hb
  refine ⟨by simpa using hb, ?_⟩
  split at h
  · rename_i hw
    cases h
    exact .inl ⟨by simpa using hw, rfl⟩
  rename_i hw
  split at h
  · cases h
  split at h
  · cases h
  cases h
  exact .inr ⟨by simpa using hw, rfl⟩

/-- What a register write that is not stopped can do. -/
theorem writeReg_cases {s t : State} {block off : Nat} {w : Word} (h : writeReg s block off w = .next t) :
    s.busy = false ∧
      (writeCmd s w = .next t ∨ t = { s with ext := w } ∨ ∃ k, t = { s with data := s.data.set k w }) := by
  simp only [writeReg] at h
  split at h
  · split at h
    · exact ⟨(writeCmd_cases h).1, .inl h⟩
    split at h
    · simp only [writeExt] at h
      split at h
      · cases h
      cases h
      exact ⟨by simp_all, .inr (.inl rfl)⟩
    split at h
    · simp only [writeData] at h
      split at h
      · cases h
      cases h
      exact ⟨by simp_all, .inr (.inr ⟨_, rfl⟩)⟩
    · cases h
  · cases h

/-! ## Slots -/

theorem slotNo_lt (s : State) {i : Index} (hs : s.table.length = s.conf.slots) (hi : s.conf.inRange i = true) :
    slotNo s.conf i < s.table.length := by
  simp only [Cfg.inRange, Bool.and_eq_true, decide_eq_true_eq] at hi
  simp only [slotNo, hs, Cfg.slots]
  omega

theorem slotNo_inj (c : Cfg) {i j : Index} (hi : c.inRange i = true) (hj : c.inRange j = true)
    (h : slotNo c i = slotNo c j) : i = j := by
  simp only [Cfg.inRange, Bool.and_eq_true, decide_eq_true_eq] at hi hj
  simp only [slotNo] at h
  exact BitVec.eq_of_toNat_eq (by omega)

/-- A slot reads as it was last written (R34). -/
theorem slot_putSlot_self (s : State) {i : Index} (t : Slot) (hs : s.table.length = s.conf.slots)
    (hi : s.conf.inRange i = true) : (s.putSlot i t).slot i = t := by
  have h := slotNo_lt s hs hi
  simp [State.slot, State.putSlot, List.getD_eq_getElem?_getD, h]

/-- Writing one slot leaves every other slot. -/
theorem slot_putSlot_ne (s : State) {i j : Index} (t : Slot) (hi : s.conf.inRange i = true)
    (hj : s.conf.inRange j = true) (h : i ≠ j) : (s.putSlot i t).slot j = s.slot j := by
  have hn : slotNo s.conf i ≠ slotNo s.conf j := fun e => h (slotNo_inj _ hi hj e)
  simp [State.slot, State.putSlot, List.getD_eq_getElem?_getD, List.getElem?_set_ne hn]

/-! ## The device -/

/-- Everything `DevComplete` can do (R211): nothing with no command latched, and otherwise a change of the table, the
data bank or `CMD.INDEX`, with the latch emptied. -/
theorem devComplete_cases {s t : State} (h : devComplete s = .next t) :
    (s.devCmd = none ∧ t = s) ∨
      ∃ d, s.devCmd = some d ∧
        ((d.op = opNop ∧ t = s.complete) ∨
          (d.op = opFlushAll ∧
            t = ({ s with table := List.replicate s.conf.slots (emptySlot s.conf) } : State).complete) ∨
          (d.op = opFlushEntry ∧ s.conf.inRange d.index = true ∧
            t = (s.putSlot d.index (emptySlot s.conf)).complete) ∨
          (d.op = opLoad ∧ s.conf.inRange d.index = true ∧ d.page ≠ 3 ∧
            t = (s.putSlot d.index ((s.slot d.index).withPage d.page.toNat
              (s.data.take (s.conf.pageLen d.page.toNat)))).complete) ∨
          (d.op = opGetNext ∧ s.conf.inRange d.index = true ∧
            t = ({ s with
              cmd := setField s.cmd ((nextValid s d.index).setWidth 16) indexBits,
              data := overlay s.data (s.slot (nextValid s d.index)).p0 } : State).complete) ∨
          (d.op = opRead ∧ s.conf.inRange d.index = true ∧ d.page ≠ 3 ∧
            t = ({ s with data := overlay s.data ((s.slot d.index).page d.page.toNat) } : State).complete)) := by
  simp only [devComplete] at h
  split at h
  · rename_i hd
    cases h
    exact .inl ⟨hd, rfl⟩
  rename_i d hd
  refine .inr ⟨d, hd, ?_⟩
  have access : ∀ {page : BitVec 2} {i : Index} {o : Out}, pageAccess s page i o = .next t →
      s.conf.inRange i = true ∧ page ≠ 3 ∧ o = .next t := by
    intro page i o ho
    simp only [pageAccess] at ho
    split at ho
    · cases ho
    split at ho
    · cases ho
    rename_i hp
    split at ho
    · cases ho
    exact ⟨by simp_all, (s.cfg.hasPage_eq page).1 (by simpa using hp), ho⟩
  split at h
  · cases h
    exact .inl ⟨by assumption, rfl⟩
  split at h
  · cases h
    exact .inr (.inl ⟨by assumption, rfl⟩)
  split at h
  · simp only [devFlushEntry] at h
    split at h
    · cases h
      exact .inr (.inr (.inl ⟨by assumption, by assumption, rfl⟩))
    · cases h
  split at h
  · obtain ⟨h1, h2, h3⟩ := access h
    cases h3
    exact .inr (.inr (.inr (.inl ⟨by assumption, h1, h2, rfl⟩)))
  split at h
  · simp only [devGetNext] at h
    split at h
    · cases h
      exact .inr (.inr (.inr (.inr (.inl ⟨by assumption, by assumption, rfl⟩))))
    · cases h
  split at h
  · obtain ⟨h1, h2, h3⟩ := access h
    cases h3
    exact .inr (.inr (.inr (.inr (.inr ⟨by assumption, h1, h2, rfl⟩))))
  · cases h

/-! ## Submissions -/

/-- Everything a submission can do: the request comes last of those that wait, if its requester waits for nothing and it
is a request; else nothing happens. -/
theorem submit_cases (s : State) (q : Submission) :
    s.submit q = s ∨
      (∀ p ∈ s.requests, p.who ≠ q.who) ∧ isRequest s.conf q.packet = true ∧
        s.submit q = { s with requests := s.requests ++ [q] } := by
  by_cases h : (s.requests.all (fun p => p.who != q.who) && isRequest s.conf q.packet) = true
  · refine .inr ⟨?_, ?_, by simp only [State.submit, h, if_true]⟩
    · simpa using (Bool.and_eq_true_iff.1 h).1
    · exact (Bool.and_eq_true_iff.1 h).2
  · exact .inl (by simp only [State.submit, h, Bool.false_eq_true, if_false])

/-- A requester has at most one request outstanding (R20 (a)), also after a submission. -/
theorem submit_oneEach {s : State} {q : Submission} (h : (s.requests.map (·.who)).Nodup) :
    ((s.submit q).requests.map (·.who)).Nodup := by
  rcases submit_cases s q with e | ⟨hq, -, e⟩
  · rwa [e]
  · rw [e]
    simp only [List.map_append, List.map_cons, List.map_nil]
    refine List.nodup_append.2 ⟨h, List.nodup_singleton _, ?_⟩
    rintro a ha b hb rfl
    obtain ⟨p, hp, rfl⟩ := List.mem_map.1 ha
    exact hq p hp (by simpa using hb)

end Sys2Proof.Machine
end

