-- ==== Sys2Proof/Laws/Commands.lean ====
section
/-! SUPPORT. What a register word can do, for each of those who may present it. -/

namespace Sys2Proof.Machine

/-- A register write happens only for the controller under the lock, and then is the write (R66). -/
theorem registerWrite_eq_next {s t : State} {write : Out} (h : registerWrite s write = .next t) :
    s.turn = .controller ∧ s.lockOwner ≠ none ∧ write = .next t := by
  simp only [registerWrite] at h
  split at h
  · rename_i hc
    exact ⟨hc.1, hc.2, h⟩
  · cases h

/-- For the controller under the lock a register write is the write (R66). -/
theorem registerWrite_controller {s : State} (write : Out) (ht : s.turn = .controller) (hl : s.lockOwner ≠ none) :
    registerWrite s write = write := if_pos ⟨ht, hl⟩

/-- A command word is a latched command's effect in the device, or a write of the controller's (R210, R211). -/
theorem commandWord_eq_next {op : BitVec 3} {page rsvd : BitVec 2} {index : Index} {effect : State → Out} {s t : State}
    (h : commandWord op page rsvd index effect s = .next t) :
    (s.turn = .device ∧ s.devCmd = some ⟨op, page, index⟩ ∧ effect s = .next t) ∨
      (s.turn = .controller ∧ s.lockOwner ≠ none ∧ writeCmd s (cmdBits 1 op page rsvd index) = .next t) := by
  simp only [commandWord] at h
  split at h
  · split at h
    · exact .inl ⟨by assumption, by assumption, h⟩
    · cases h
  · exact .inr (registerWrite_eq_next h)

end Sys2Proof.Machine
end

