-- ==== Sys2Proof/Laws/Operands.lean ====
section
/-! SUPPORT. Fields of the words of a page, window fields, and entries as page images. -/

namespace Sys2Proof

/-! ## Fields of page words -/

/-- Two layout rows share no bit. -/
def FieldPos.Apart (f g : FieldPos) : Prop :=
  f.page ≠ g.page ∨ f.reg ≠ g.reg ∨ f.bits.offset + f.bits.width ≤ g.bits.offset ∨
    g.bits.offset + g.bits.width ≤ f.bits.offset

theorem FieldPos.apart_iff (f g : FieldPos) : f.apart g = true ↔ f.Apart g := by
  simp [FieldPos.apart, FieldPos.Apart, or_assoc]

@[simp] theorem putReg_length (c : Cfg) (f : FieldPos) (v : Word) (ws : List Word) :
    (putReg c f v ws).length = ws.length := by
  simp [putReg]

/-- A word of a page after a field is written. -/
theorem putReg_getD (c : Cfg) (f : FieldPos) (v : Word) (ws : List Word) (k : Nat) (hk : k < ws.length) :
    (putReg c f v ws).getD k 0 =
      if k = f.reg - c.dataLo then setField (ws.getD k 0) v f.bits else ws.getD k 0 := by
  simp only [putReg, List.getD_eq_getElem?_getD, List.getElem?_modify, List.getElem?_eq_getElem hk]
  by_cases h : f.reg - c.dataLo = k
  · simp [h]
  · simp [h, Ne.symm h]

/-- Reading the field just written gives the value, cut to the field's width. -/
theorem getReg_putReg_self (c : Cfg) (f : FieldPos) (v : Word) (ws : List Word)
    (h : f.reg - c.dataLo < ws.length) : getReg c f (putReg c f v ws) = v &&& ones f.bits.width := by
  rw [getReg, putReg_getD _ _ _ _ _ h, if_pos rfl, getField_setField_self]

/-- Writing one field leaves every field that shares no bit with it. -/
theorem getReg_putReg_apart (c : Cfg) (f g : FieldPos) (v : Word) (ws : List Word) (hp : f.page = g.page)
    (hf : c.dataLo ≤ f.reg) (hg : c.dataLo ≤ g.reg) (h : f.Apart g) :
    getReg c g (putReg c f v ws) = getReg c g ws := by
  by_cases hk : g.reg - c.dataLo < ws.length
  · rw [getReg, putReg_getD _ _ _ _ _ hk]
    split
    · rename_i e
      have : f.reg = g.reg := by omega
      rcases h with h | h | h | h
      · exact absurd hp h
      · exact absurd this h
      · rw [getField_setField_apart _ _ _ _ (.inl h), getReg]
      · rw [getField_setField_apart _ _ _ _ (.inr h), getReg]
    · rfl
  · rw [getReg, getReg, List.getD_eq_default _ _ (by simpa using hk), List.getD_eq_default _ _ (by simpa using hk)]

/-! ## Window fields -/

/-- Every part of `extract` after a `place` at the same place (R180). -/
theorem extract_place_self (W : Window) (L s w p m : Nat) (h : 8 * L + s + w ≤ windowBits) :
    extract (place W L s w p m) L s w = (p % 2 ^ w, m % 2 ^ w) := by
  have hf : fieldLow L s w + w ≤ windowBits := by unfold fieldLow; omega
  simp [extract, place, getSlice_setSlice_self _ _ _ _ hf]

/-- `extract` sees nothing of a `place` at disjoint positions (R180). -/
theorem extract_place_apart (W : Window) (L s w p m L' s' w' : Nat) (h : 8 * L + s + w ≤ windowBits)
    (h' : 8 * L' + s' + w' ≤ windowBits) (ha : 8 * L + s + w ≤ 8 * L' + s' ∨ 8 * L' + s' + w' ≤ 8 * L + s) :
    extract (place W L s w p m) L' s' w' = extract W L' s' w' := by
  have hf : fieldLow L s w + w ≤ windowBits := by unfold fieldLow; omega
  have hf' : fieldLow L' s' w' + w' ≤ windowBits := by unfold fieldLow; omega
  have hd : fieldLow L s w + w ≤ fieldLow L' s' w' ∨ fieldLow L' s' w' + w' ≤ fieldLow L s w := by
    unfold fieldLow
    omega
  simp [extract, place, getSlice_setSlice_apart _ _ _ _ _ _ hf hf' hd]

/-- What a field reads back just after it is placed. -/
theorem readAt_placeAt_self {w : Nat} (p : WinPos w) (f : Pair w) (W : Window)
    (h : 8 * p.byte + p.start + w ≤ windowBits) : readAt p (placeAt p f W) = f := by
  have hp : f.pat.toNat % 2 ^ w = f.pat.toNat := Nat.mod_eq_of_lt f.pat.isLt
  have hm : f.mask.toNat % 2 ^ w = f.mask.toNat := Nat.mod_eq_of_lt f.mask.isLt
  simp [readAt, placeAt, extract_place_self _ _ _ _ _ _ h, hp, hm]

/-- What a field reads is not changed by placing a field at disjoint positions. -/
theorem readAt_placeAt_apart {w w' : Nat} (p : WinPos w) (q : WinPos w') (f : Pair w) (W : Window)
    (h : 8 * p.byte + p.start + w ≤ windowBits) (h' : 8 * q.byte + q.start + w' ≤ windowBits)
    (ha : 8 * p.byte + p.start + w ≤ 8 * q.byte + q.start ∨ 8 * q.byte + q.start + w' ≤ 8 * p.byte + p.start) :
    readAt q (placeAt p f W) = readAt q W := by
  simp only [readAt, placeAt]
  rw [extract_place_apart _ _ _ _ _ _ _ _ _ h h' ha]

/-- String position `q` after a `place` (R180). -/
theorem place_getMsbD (W : Window) (L s w p m q : Nat) (h : 8 * L + s + w ≤ windowBits) (hq : q < windowBits) :
    (place W L s w p m).v.getMsbD q =
        (if 8 * L + s ≤ q ∧ q < 8 * L + s + w then p.testBit (8 * L + s + w - 1 - q) else W.v.getMsbD q) ∧
      (place W L s w p m).m.getMsbD q =
        (if 8 * L + s ≤ q ∧ q < 8 * L + s + w then m.testBit (8 * L + s + w - 1 - q) else W.m.getMsbD q) := by
  have hf : fieldLow L s w + w ≤ windowBits := by unfold fieldLow; omega
  have hb : windowBits - 1 - q < windowBits := by omega
  have hi : fieldLow L s w = windowBits - (8 * L + s + w) := rfl
  have key : ∀ (x : BitVec windowBits) (v : Nat), (setSlice x (fieldLow L s w) w v).getMsbD q =
      if 8 * L + s ≤ q ∧ q < 8 * L + s + w then v.testBit (8 * L + s + w - 1 - q) else x.getMsbD q := by
    intro x v
    rw [BitVec.getMsbD, setSlice_getLsbD _ _ _ _ _ hb hf, BitVec.getMsbD]
    by_cases hc : 8 * L + s ≤ q ∧ q < 8 * L + s + w
    · rw [if_pos (by omega), if_pos hc]
      rw [show windowBits - 1 - q - fieldLow L s w = 8 * L + s + w - 1 - q by omega]
      simp [hq]
    · rw [if_neg (by omega), if_neg hc]
  exact ⟨key _ _, key _ _⟩

/-! ## Bytes of the window -/

@[simp] theorem bytesOf_length (x : BitVec windowBits) : (bytesOf x).length = 96 := by
  simp [bytesOf, linearBytes]

/-- Bit `7 - q mod 8` of byte `q div 8` is string position `q` (R13). -/
theorem bytesOf_getLsbD (x : BitVec windowBits) (q : Nat) (hq : q < windowBits) :
    ((bytesOf x).getD (q / 8) 0).getLsbD (7 - q % 8) = x.getMsbD q := by
  have hb : windowBits = 768 := rfl
  have h1 : q / 8 < (List.range linearBytes).length := by
    rw [List.length_range]
    simp only [linearBytes]
    omega
  have h2 : windowBits - 8 * (q / 8 + 1) + (7 - q % 8) = windowBits - 1 - q := by omega
  have h3 : 7 - q % 8 < 8 := by omega
  rw [bytesOf, List.getD_eq_getElem?_getD, List.getElem?_map, List.getElem?_eq_getElem h1, List.getElem_range,
    Option.map_some, Option.getD_some, BitVec.getLsbD_extractLsb', h2, BitVec.getMsbD]
  simp [h3, hq]

/-! ## Entries and page images -/

/-- The sizes of a well-formed entry. -/
theorem Entry.wf_iff (c : Cfg) (e : Entry) :
    e.wf c = true ↔ e.hdr.length = c.rl.nHdr ∧ e.wv.length = c.windowBytes ∧ e.wm.length = c.windowBytes ∧
      e.act.length = c.rl.nAct := by
  simp [Entry.wf, and_assoc]

theorem winRegs_length {c : Cfg} {e : Entry} (h : e.wf c = true) : e.winRegs.length = c.windowBytes := by
  obtain ⟨-, hv, hm, -⟩ := (Entry.wf_iff c e).1 h
  simp [Entry.winRegs, hv, hm]

/-- A page image of a well-formed entry has one word per register of the page. -/
theorem pageImage_length (c : Cfg.Checked) {e : Entry} (h : e.wf c.val = true) (p : Nat) :
    (pageImage c.val e p).length = c.val.pageLen p := by
  have hw := winRegs_length h
  have hc := c.sizes.2
  obtain ⟨hh, -, -, ha⟩ := (Entry.wf_iff _ e).1 h
  match p with
  | 0 => simp [pageImage, Cfg.pageLen, hh, hw]; omega
  | 1 => simp [pageImage, Cfg.pageLen, hw]
  | 2 => simp [pageImage, Cfg.pageLen, ha]
  | _ + 3 => simp [pageImage, Cfg.pageLen]

theorem map_winValue_winRegs {c : Cfg} {e : Entry} (h : e.wf c = true) : e.winRegs.map winValue = e.wv := by
  obtain ⟨-, hv, hm, -⟩ := (Entry.wf_iff c e).1 h
  refine List.ext_getElem (by simp [Entry.winRegs, hv, hm]) fun k h1 h2 => ?_
  simp [Entry.winRegs]

theorem map_winMask_winRegs {c : Cfg} {e : Entry} (h : e.wf c = true) : e.winRegs.map winMask = e.wm := by
  obtain ⟨-, hv, hm, -⟩ := (Entry.wf_iff c e).1 h
  refine List.ext_getElem (by simp [Entry.winRegs, hv, hm]) fun k h1 h2 => ?_
  simp [Entry.winRegs]

end Sys2Proof
end

