-- ==== Sys2Proof/Laws/Sequencer.lean ====
section
/-! SUPPORT. What one access of the controller, one move and one run of moves can do, said once each. -/

namespace Sys2Proof.Machine

/-! ## One access -/

/-- What an access changes before the position moves (R23): a wait that ends or counts, one register write, one register
read into the staging buffer or the search registers, and the modification of the entry once it is read in full. -/
inductive Touches (s : State) : State → Prop
  | nothing : Touches s s
  | waited : Touches s { s with fsm := .awaitingBusy }
  | polled : Touches s { s with pollCnt := s.pollCnt + 1 }
  | register {off : Nat} {w : Word} {t : State} (h : writeReg s s.conf.tb off w = .next t) : Touches s t
  | staged (p k : Nat) (w : Word) : Touches s { s with e1 := s.e1.putPageReg s.conf p k w }
  | modified (p k : Nat) (w : Word) (i : Index) (port : BitVec 4) (add : Bool)
      (h : s.op = some (.addPort i port) ∨ s.op = some (.removePort i port)) :
      Touches s { s with e1 := modifyPort s.conf (s.e1.putPageReg s.conf p k w) port add }
  | index (i : Index) (h : Access.readCmd ∈ accessList s) : Touches s { s with hwIndex := i }
  | key1 (w : Word) (k : Nat) (h : Access.readKey k ∈ accessList s) : Touches s { s with key1 := w }
  | key2 (w : Word) (k : Nat) (h : Access.readKey k ∈ accessList s) : Touches s { s with key2 := w }
  | key3 (w : Word) (k : Nat) (h : Access.readKey k ∈ accessList s) : Touches s { s with key3 := w }

/-- Where an access leaves the sequencer (R23, R231, R235, R310). -/
inductive Continues (u : State) : State → Prop
  | stays : Continues u u
  | moves (h : u.seqStep + 1 < (accessList { u with seqStep := u.seqStep + 1 }).length) :
      Continues u { u with seqStep := u.seqStep + 1 }
  | issues (op : BitVec 3) (page : BitVec 2) (i : Index) (h : u.devCmd = some ⟨op, page, i⟩) : Continues u u.issued
  | aborts (c : Cause) : Continues u (u.abort c)
  | ends (v : Value) : Continues u (u.endOk v)
  | cascades (i j : Index) (h : u.op = some (.advCascade i j)) :
      Continues u { u.release with cascaded := u.caller :: u.cascaded }

/-- The end of an operation, from a state in which only the position has moved. -/
theorem finish_cases {u t : State} (n : Nat) (h : finish { u with seqStep := n } = .next t) : Continues u t := by
  simp only [finish] at h
  split at h
  all_goals first
    | (cases h; exact .ends _)
    | (cases h; exact .cascades _ _ (by assumption))
    | cases h

/-- `advance` moves on or ends the operation. -/
theorem advance_cases {u t : State} (h : advance u = .next t) : Continues u t := by
  simp only [advance] at h
  split at h
  · rename_i hl
    cases h
    exact .moves hl
  · exact finish_cases _ h

theorem onWrite_cases {ans : Answer} {s t : State} {write : Out} {k : State → Out}
    (h : onWrite ans s write k = .next t) :
    (∃ e, ans = .lost e ∧ t = s.abort (.transportFailure e)) ∨
      ∃ u, write = .next u ∧
        ((∃ e, ans = .landed e ∧ t = u.abort (.transportFailure e)) ∨ ans = .ok ∧ k u = .next t) := by
  cases ans with
  | ok =>
    obtain ⟨u, h1, h2⟩ := andThen_eq_next h
    exact .inr ⟨u, h1, .inr ⟨rfl, h2⟩⟩
  | lost e =>
    cases h
    exact .inl ⟨e, rfl, rfl⟩
  | landed e =>
    obtain ⟨u, h1, h2⟩ := andThen_eq_next h
    cases h2
    exact .inr ⟨u, h1, .inl ⟨e, rfl, rfl⟩⟩

theorem onRead_cases {ans : Answer} {s t : State} {off : Nat} {k : Word → Out} (h : onRead ans s off k = .next t) :
    (∃ e, (ans = .lost e ∨ ans = .landed e) ∧ t = s.abort (.transportFailure e)) ∨
      ans = .ok ∧ ∃ w, readReg s s.conf.tb off = some w ∧ k w = .next t := by
  cases ans with
  | ok =>
    simp only [onRead] at h
    split at h
    · exact .inr ⟨rfl, _, by assumption, h⟩
    · cases h
  | lost e =>
    cases h
    exact .inl ⟨e, .inl rfl, rfl⟩
  | landed e =>
    cases h
    exact .inl ⟨e, .inr rfl, rfl⟩

theorem afterRead_cases {s t : State} {p k : Nat} (h : afterRead s p k = .next t) :
    Continues s t ∨ ∃ i port add, (s.op = some (.addPort i port) ∨ s.op = some (.removePort i port)) ∧
      Continues { s with e1 := modifyPort s.conf s.e1 port add } t := by
  simp only [afterRead] at h
  split at h
  · split at h
    · split at h
      · exact .inl (advance_cases h)
      · cases h
        exact .inl (.aborts _)
    · split at h
      · exact .inr ⟨_, _, true, .inl (by assumption), advance_cases h⟩
      · cases h
        exact .inl (.aborts _)
    · split at h
      · exact .inr ⟨_, _, false, .inr (by assumption), advance_cases h⟩
      · cases h
        exact .inl (.aborts _)
    · exact .inl (advance_cases h)
  · exact .inl (advance_cases h)

/-- Everything one step of the controller can do: one touch, then the position. -/
theorem ctlStep_cases {ans : Answer} {s t : State} (h : ctlStep ans s = .next t) :
    ∃ u, Touches s u ∧ Continues u t := by
  simp only [ctlStep] at h
  split at h
  case h_2 => cases h
  rename_i a ha
  have hmem : a ∈ accessList s := List.mem_of_getElem? ha
  cases a with
  | poll =>
    cases ans with
    | lost e => cases h; exact ⟨s, .nothing, .aborts _⟩
    | landed e => cases h; exact ⟨s, .nothing, .aborts _⟩
    | ok =>
      simp only [runAccess, pollOnce] at h
      split at h
      · cases h
      split at h
      · exact ⟨_, .waited, advance_cases h⟩
      split at h
      · cases h
        exact ⟨_, .polled, .aborts _⟩
      · cases h
        exact ⟨_, .polled, .stays⟩
  | select =>
    rcases onWrite_cases h with ⟨e, -, rfl⟩ | ⟨u, hu, h⟩
    · exact ⟨s, .nothing, .aborts _⟩
    have hu' : Touches s u := by
      simp only [writeField] at hu
      split at hu
      · exact .register hu
      · cases hu
    rcases h with ⟨e, -, rfl⟩ | ⟨-, h⟩
    · exact ⟨u, hu', .aborts _⟩
    · exact ⟨u, hu', advance_cases h⟩
  | write k v =>
    rcases onWrite_cases h with ⟨e, -, rfl⟩ | ⟨u, hu, ⟨e, -, rfl⟩ | ⟨-, h⟩⟩
    · exact ⟨s, .nothing, .aborts _⟩
    · exact ⟨u, .register hu, .aborts _⟩
    · exact ⟨u, .register hu, advance_cases h⟩
  | read p k =>
    rcases onRead_cases h with ⟨e, -, rfl⟩ | ⟨-, w, -, h⟩
    · exact ⟨s, .nothing, .aborts _⟩
    rcases afterRead_cases h with h | ⟨i, port, add, ho, h⟩
    · exact ⟨_, .staged p k w, h⟩
    · exact ⟨_, .modified p k w i port add ho, h⟩
  | readCmd =>
    rcases onRead_cases h with ⟨e, -, rfl⟩ | ⟨-, w, -, h⟩
    · exact ⟨s, .nothing, .aborts _⟩
    · exact ⟨_, .index _ hmem, advance_cases h⟩
  | readKey k =>
    rcases onRead_cases h with ⟨e, -, rfl⟩ | ⟨-, w, -, h⟩
    · exact ⟨s, .nothing, .aborts _⟩
    simp only [afterKey] at h
    split at h
    · exact ⟨_, .key1 w k hmem, advance_cases h⟩
    split at h
    · exact ⟨_, .key2 w k hmem, advance_cases h⟩
    split at h
    · cases h
      exact ⟨_, .key3 w k hmem, .aborts _⟩
    · exact ⟨_, .key3 w k hmem, advance_cases h⟩
  | issue op page i =>
    rcases onWrite_cases h with ⟨e, -, rfl⟩ | ⟨u, hu, ⟨e, -, rfl⟩ | ⟨-, h⟩⟩
    · exact ⟨s, .nothing, .aborts _⟩
    · exact ⟨u, .register hu, .aborts _⟩
    · cases h
      refine ⟨u, .register hu, .issues op page i ?_⟩
      simp only [writeReg, if_true, cmdword_eq] at hu
      obtain ⟨-, ⟨hb, -⟩ | ⟨-, rfl⟩⟩ := writeCmd_cases hu
      · simp at hb
      · have h1 : (BitVec.setWidth 16 op).setWidth 3 = op := BitVec.setWidth_setWidth_of_le op (by omega)
        have h2 : (BitVec.setWidth 16 page).setWidth 2 = page := BitVec.setWidth_setWidth_of_le page (by omega)
        have h3 : (BitVec.setWidth 16 i).setWidth 8 = i := BitVec.setWidth_setWidth_of_le i (by omega)
        simp [h1, h2, h3]

/-! ## Runs of moves -/

theorem runMoves_nil (s : State) : runMoves [] s = .next s := rfl

/-- Once the operation has ended, no move is used. -/
theorem runMoves_idle (s : State) (ms : List Move) (h : s.lockOwner = none) (hs : s.sched = []) :
    runMoves ms s = .next { s with sched := ms } := by
  cases ms with
  | nil =>
    rw [runMoves, ← hs]
  | cons m ms => simp [runMoves, h]

/-- While the operation is in progress, one move is made and the run goes on. -/
theorem runMoves_cons (s : State) (m : Move) (ms : List Move) (h : s.lockOwner ≠ none) :
    runMoves (m :: ms) s = andThen (applyMove m s) (runMoves ms) := by
  simp [runMoves, h]

/-- A move leaves the decided moves alone. -/
theorem applyMove_sched {m : Move} {s t : State} (h : applyMove m s = .next t) : t.sched = s.sched := by
  cases m with
  | device =>
    rcases devComplete_cases h with ⟨-, rfl⟩ | ⟨d, -, h⟩
    · rfl
    · rcases h with ⟨-, rfl⟩ | ⟨-, rfl⟩ | ⟨-, -, rfl⟩ | ⟨-, -, -, rfl⟩ | ⟨-, -, rfl⟩ | ⟨-, -, -, rfl⟩ <;> rfl
  | request k =>
    cases h
    rfl
  | submit q =>
    cases h
    rfl
  | access ans =>
    obtain ⟨u, h1, h2⟩ := ctlStep_cases h
    have hu : u.sched = s.sched := by
      cases h1 with
      | register hw =>
        obtain ⟨-, hw | rfl | ⟨k, rfl⟩⟩ := writeReg_cases hw
        · obtain ⟨-, ⟨-, rfl⟩ | ⟨-, rfl⟩⟩ := writeCmd_cases hw <;> rfl
        · rfl
        · rfl
      | _ => rfl
    rw [← hu]
    cases h2 <;> rfl

/-- A run of moves may be cut in two: the second part starts where the first one ended, if the operation is still in
progress. -/
theorem runMoves_append (s : State) (a b : List Move) (hs : s.sched = []) :
    runMoves (a ++ b) s =
      andThen (runMoves a s) fun t =>
        if t.lockOwner = none then .next { t with sched := t.sched ++ b } else runMoves b t := by
  induction a generalizing s with
  | nil =>
    simp only [List.nil_append, runMoves_nil, andThen_next]
    split
    · rw [runMoves_idle s b ‹_› hs, hs, List.nil_append]
    · rfl
  | cons m a ih =>
    by_cases h : s.lockOwner = none
    · simp [runMoves, h]
    · rw [List.cons_append, runMoves_cons _ _ _ h, runMoves_cons _ _ _ h, andThen_assoc]
      cases hm : applyMove m s with
      | next u =>
        simp only [andThen_next]
        exact ih u (by rw [applyMove_sched hm, hs])
      | fault r => rfl
      | refused r => rfl

end Sys2Proof.Machine
end

