-- ==== Sys2Proof/Laws/Sizes.lean ====
section
/-! SUPPORT. The data bank, the table and the staging buffers keep their sizes: the table is one list of slots, each with
exactly the words the configuration gives it, so that equal tables are equal data; every operation on it keeps this form. -/

namespace Sys2Proof

/-! ## Entries -/

theorem modifyPort_wf (c : Cfg) (e : Entry) (p : BitVec 4) (add : Bool) (h : e.wf c = true) :
    (modifyPort c e p add).wf c = true := by
  simp only [Entry.wf_iff, modifyPort, putReg_length] at h ⊢
  exact h

theorem putPageReg_wf (c : Cfg) (e : Entry) (p k : Nat) (r : Word) (h : e.wf c = true) :
    (e.putPageReg c p k r).wf c = true := by
  simp only [Entry.wf_iff] at h ⊢
  match p with
  | 0 =>
    simp only [Entry.putPageReg]
    split <;> simpa [Entry.putWin] using h
  | 1 => simpa [Entry.putPageReg, Entry.putWin] using h
  | 2 => simpa [Entry.putPageReg] using h
  | _ + 3 => exact h

theorem encodeKey_hdr_length (c : Cfg) (key : KeyFields) (e : Entry) :
    (encodeKey c key e).hdr.length = e.hdr.length := by
  simp [encodeKey]

theorem encodeActions_length (c : Cfg) (a : Actions) : (encodeActions c a).length = c.rl.nAct := by
  simp [encodeActions]

/-- Every entry that `compile` answers is well formed. -/
theorem compileRule_wf (c : Cfg.Checked) (r : Rule) (j : Index) (es : List Entry)
    (h : compileRule c.val r j = some es) : ∀ e ∈ es, e.wf c.val = true := by
  have hw := c.windowBytes_eq
  have h1 : ∀ act : List Word, act.length = c.val.rl.nAct →
      ({ firstEntry c.val r with act := act } : Entry).wf c.val = true := by
    intro act ha
    simp [Entry.wf_iff, firstEntry, markValid, encodeKey_hdr_length, zeroEntry, ha, hw]
  have h2 : (linkSecond c.val (secondEntry c.val r) j r.action).wf c.val = true := by
    simp [Entry.wf_iff, linkSecond, markValid, secondEntry, zeroEntry, encodeActions_length, hw]
  simp only [compileRule] at h
  split at h
  · split at h
    · cases h
      intro e he
      simp only [link, List.mem_cons, List.not_mem_nil, or_false] at he
      rcases he with rfl | rfl
      · exact h1 _ (by simp)
      · exact h2
    · cases h
      intro e he
      simp only [List.mem_cons, List.not_mem_nil, or_false] at he
      subst he
      exact h1 _ (encodeActions_length _ _)
  · cases h

namespace Machine

/-! ## The state -/

/-- The parts of `State.sized`. -/
theorem State.sized_iff (s : State) :
    s.sized = true ↔ s.data.length = s.conf.bankSize ∧ s.table.length = s.conf.slots ∧
      (∀ t ∈ s.table, t.sized s.conf = true) ∧ s.e1.wf s.conf = true ∧ s.e2.wf s.conf = true := by
  simp [State.sized, and_assoc]

/-- The parts of `Slot.sized`. -/
theorem Slot.sized_iff (c : Cfg) (t : Slot) :
    t.sized c = true ↔ t.p0.length = c.pageLen 0 ∧ t.p1.length = c.pageLen 1 ∧ t.p2.length = c.pageLen 2 := by
  simp [Slot.sized, pageWf, and_assoc]

/-- The empty slot has the sizes of a slot (R34). -/
theorem emptySlot_sized (c : Cfg) : (emptySlot c).sized c = true := by
  simp [Slot.sized_iff, emptySlot]

/-- Every slot of a sized state, in range or not, has the sizes of a slot. -/
theorem State.slot_sized {s : State} (h : s.sized = true) (i : Index) : (s.slot i).sized s.conf = true := by
  have ht := ((State.sized_iff s).1 h).2.2.1
  simp only [State.slot, List.getD_eq_getElem?_getD]
  cases hx : s.table[slotNo s.conf i]? with
  | none => simpa using emptySlot_sized _
  | some t => simpa using ht t (List.mem_of_getElem? hx)

/-- A page of a sized slot has the length of the page. -/
theorem Slot.page_length {c : Cfg} {t : Slot} (h : t.sized c = true) (p : Nat) : (t.page p).length = c.pageLen p := by
  obtain ⟨h0, h1, h2⟩ := (Slot.sized_iff c t).1 h
  match p with
  | 0 => exact h0
  | 1 => exact h1
  | 2 => exact h2
  | _ + 3 => simp [Slot.page, Cfg.pageLen]

theorem Slot.withPage_sized {c : Cfg} {t : Slot} (h : t.sized c = true) (p : Nat) (image : List Word)
    (hi : image.length = c.pageLen p) : (t.withPage p image).sized c = true := by
  rw [Slot.sized_iff] at h ⊢
  match p with
  | 0 => exact ⟨hi, h.2⟩
  | 1 => exact ⟨h.1, hi, h.2.2⟩
  | 2 => exact ⟨h.1, h.2.1, hi⟩
  | _ + 3 => exact h

theorem overlay_length (data image : List Word) (h : image.length ≤ data.length) :
    (overlay data image).length = data.length := by
  simp [overlay]
  omega

/-- Replacing a slot by a sized one keeps the sizes. -/
theorem State.putSlot_sized {s : State} (h : s.sized = true) (i : Index) (t : Slot) (ht : t.sized s.conf = true) :
    (s.putSlot i t).sized = true := by
  rw [State.sized_iff] at h ⊢
  refine ⟨h.1, by simpa using h.2.1, ?_, h.2.2.2⟩
  intro u hu
  rcases List.mem_or_eq_of_mem_set hu with hu | rfl
  · exact h.2.2.1 u hu
  · exact ht

/-- Sizes depend on five fields only. -/
theorem State.sized_congr {s t : State} (hc : t.cfg = s.cfg) (hd : t.data.length = s.data.length)
    (ht : t.table = s.table) (h1 : t.e1 = s.e1) (h2 : t.e2 = s.e2) (h : s.sized = true) : t.sized = true := by
  have hcf : t.conf = s.conf := by simp [State.conf, hc]
  rw [State.sized_iff] at h ⊢
  rw [hcf, hd, ht, h1, h2]
  exact h

/-- The device keeps the configuration and the sizes. -/
theorem devComplete_keeps {s t : State} (h : devComplete s = .next t) :
    t.cfg = s.cfg ∧ (s.sized = true → t.sized = true) := by
  rcases devComplete_cases h with ⟨-, rfl⟩ | ⟨d, -, h⟩
  · exact ⟨rfl, id⟩
  rcases h with ⟨-, rfl⟩ | ⟨-, rfl⟩ | ⟨-, -, rfl⟩ | ⟨-, -, -, rfl⟩ | ⟨-, -, rfl⟩ | ⟨-, -, -, rfl⟩
  · exact ⟨rfl, State.sized_congr rfl rfl rfl rfl rfl⟩
  · refine ⟨rfl, fun hs => ?_⟩
    rw [State.sized_iff] at hs ⊢
    refine ⟨hs.1, by simp, ?_, hs.2.2.2⟩
    intro u hu
    simp only [State.complete_table] at hu
    rw [List.eq_of_mem_replicate hu]
    exact emptySlot_sized _
  · exact ⟨rfl, fun hs => State.sized_congr rfl rfl rfl rfl rfl (State.putSlot_sized hs _ _ (emptySlot_sized _))⟩
  · refine ⟨rfl, fun hs => State.sized_congr rfl rfl rfl rfl rfl (State.putSlot_sized hs _ _ ?_)⟩
    refine Slot.withPage_sized (State.slot_sized hs _) _ _ ?_
    have := s.cfg.pageLen_le d.page.toNat
    rw [List.length_take, ((State.sized_iff s).1 hs).1]
    simp only [State.conf]
    omega
  · refine ⟨rfl, fun hs => State.sized_congr (s := s) rfl ?_ rfl rfl rfl hs⟩
    have h0 := Slot.page_length (State.slot_sized hs (nextValid s d.index)) 0
    have := s.cfg.pageLen_le 0
    simp only [State.complete_data]
    refine overlay_length _ _ ?_
    rw [((State.sized_iff s).1 hs).1]
    simp only [State.conf] at h0 ⊢
    exact le_trans (le_of_eq h0) this
  · refine ⟨rfl, fun hs => State.sized_congr (s := s) rfl ?_ rfl rfl rfl hs⟩
    have h0 := Slot.page_length (State.slot_sized hs d.index) d.page.toNat
    have := s.cfg.pageLen_le d.page.toNat
    simp only [State.complete_data]
    refine overlay_length _ _ ?_
    rw [((State.sized_iff s).1 hs).1, h0]
    exact this

/-- A register write keeps the configuration and the sizes. -/
theorem writeReg_keeps {s t : State} {block off : Nat} {w : Word} (h : writeReg s block off w = .next t) :
    t.cfg = s.cfg ∧ (s.sized = true → t.sized = true) := by
  obtain ⟨-, h | rfl | ⟨k, rfl⟩⟩ := writeReg_cases h
  · obtain ⟨-, ⟨-, rfl⟩ | ⟨-, rfl⟩⟩ := writeCmd_cases h
    · exact ⟨rfl, State.sized_congr rfl rfl rfl rfl rfl⟩
    · exact ⟨rfl, State.sized_congr rfl rfl rfl rfl rfl⟩
  · exact ⟨rfl, State.sized_congr rfl rfl rfl rfl rfl⟩
  · exact ⟨rfl, State.sized_congr rfl (by simp) rfl rfl rfl⟩

theorem Touches.keeps {s u : State} (h : Touches s u) : u.cfg = s.cfg ∧ (s.sized = true → u.sized = true) := by
  cases h with
  | register hw => exact writeReg_keeps hw
  | staged p k w =>
    refine ⟨rfl, fun hs => ?_⟩
    rw [State.sized_iff] at hs ⊢
    exact ⟨hs.1, hs.2.1, hs.2.2.1, putPageReg_wf _ _ _ _ _ hs.2.2.2.1, hs.2.2.2.2⟩
  | modified p k w i port add ho =>
    refine ⟨rfl, fun hs => ?_⟩
    rw [State.sized_iff] at hs ⊢
    exact ⟨hs.1, hs.2.1, hs.2.2.1, modifyPort_wf _ _ _ _ (putPageReg_wf _ _ _ _ _ hs.2.2.2.1), hs.2.2.2.2⟩
  | _ => exact ⟨rfl, State.sized_congr rfl rfl rfl rfl rfl⟩

theorem Continues.keeps {u t : State} (h : Continues u t) : t.cfg = u.cfg ∧ (u.sized = true → t.sized = true) := by
  cases h <;> exact ⟨rfl, State.sized_congr rfl rfl rfl rfl rfl⟩

/-- A move keeps the configuration and the sizes. -/
theorem applyMove_keeps {m : Move} {s t : State} (h : applyMove m s = .next t) :
    t.cfg = s.cfg ∧ (s.sized = true → t.sized = true) := by
  cases m with
  | device => exact devComplete_keeps h
  | request k =>
    cases h
    exact ⟨rfl, id⟩
  | submit q =>
    cases h
    exact ⟨rfl, id⟩
  | access ans =>
    obtain ⟨u, h1, h2⟩ := ctlStep_cases h
    exact ⟨h2.keeps.1.trans h1.keeps.1, fun hs => h2.keeps.2 (h1.keeps.2 hs)⟩

/-- A run of moves keeps the configuration and the sizes. -/
theorem runMoves_keeps {ms : List Move} {s t : State} (h : runMoves ms s = .next t) :
    t.cfg = s.cfg ∧ (s.sized = true → t.sized = true) := by
  induction ms generalizing s with
  | nil =>
    cases h
    exact ⟨rfl, id⟩
  | cons m ms ih =>
    rw [runMoves] at h
    split at h
    · cases h
      exact ⟨rfl, State.sized_congr rfl rfl rfl rfl rfl⟩
    · obtain ⟨u, h1, h2⟩ := andThen_eq_next h
      exact ⟨(ih h2).1.trans (applyMove_keeps h1).1, fun hs => (ih h2).2 ((applyMove_keeps h1).2 hs)⟩

/-! ## Reset -/

@[simp] theorem powerUpPage_length (c : Cfg) (draw : Nat → Nat → Word) (p : Nat) :
    (powerUpPage c draw p).length = c.pageLen p := by
  simp [powerUpPage]

/-- What reset leaves in a slot has the sizes of a slot. -/
theorem powerUpSlot_sized (c : Cfg) (i : Nat) : (powerUpSlot c i).sized c = true := by
  simp [Slot.sized_iff, powerUpSlot]

/-- What reset leaves in a staging buffer has the sizes of an entry. -/
theorem powerUpEntry_wf (b : Nat) : (powerUpEntry resetCfg b).wf resetCfg = true := by
  simp only [Entry.wf_iff, powerUpEntry, entryOfPages, List.length_take, List.length_map, List.length_append,
    List.length_drop, powerUpPage_length]
  decide

/-- The state after reset has the sizes of its configuration, whatever its free values are. -/
theorem reset_sized : State.reset.sized = true := by
  rw [State.sized_iff]
  refine ⟨by simp [State.reset], by simp [State.reset], ?_, powerUpEntry_wf 0, powerUpEntry_wf 1⟩
  intro t ht
  simp only [State.reset, List.mem_map] at ht
  obtain ⟨k, -, rfl⟩ := ht
  exact powerUpSlot_sized _ _

end Machine

end Sys2Proof
end

