-- ==== Sys2Proof/Tests/Slice0.lean ====
section
/-! SUPPORT. Tests of the model against words and values written out from spec/ (95_test_vectors.md unless a rule is
named), and, for every statement that has hypotheses, a concrete state and operands that meet them. -/

namespace Sys2Proof.Tests

open Sys2Proof Sys2Proof.Machine Sys2Proof.Claims

/-! ## A small configuration and small states -/

/-- The ingress instance with 16 slots, `POLL_LIMIT` 4, `MASK_ONE_IS_COMPARE` true. -/
def tc : Cfg := { Cfg.ingress 3 4 true with maxIndex := 15 }

theorem test_configuration_is_accepted : tc.wf = true := by decide

/-- A valid slot whose `VID` is `0x100 + n` (program P2's entries). -/
def slotWith (n : Nat) : Slot :=
  ⟨[0, BitVec.ofNat 16 (0x100 + n), 0x0FFF, 0, 0, 1] ++ List.replicate 24 0, List.replicate 24 0, [0, 0, 1, 0, 0]⟩

/-- Slots 3, 7 and 12 valid, all others empty (the start of T6). -/
def table3 : List Slot :=
  (List.range 16).map fun n => if n = 3 ∨ n = 7 ∨ n = 12 then slotWith n else emptySlot tc

/-- An idle machine. -/
def st : State :=
  { State.reset with
    cfg := ⟨tc, test_configuration_is_accepted⟩, e1 := zeroEntry tc, e2 := zeroEntry tc, hwIndex := 0
    result := .ok .unit, cmd := 0, ext := 0, data := List.replicate 30 0x5555, table := table3, caller := 1 }

/-- The machine in which the device has latched the command and it is the device's turn. -/
def latched (op : BitVec 3) (page : BitVec 2) (index : Index) : State :=
  { st with cmd := cmdword op page index, devCmd := some ⟨op, page, index⟩, turn := .device }

/-- The machine in which the controller, for requester 1, writes a register. -/
def writing : State := { st with turn := .controller, lockOwner := some 1, fsm := .awaitingBusy }

/-- The machine with moves decided. -/
def at' (ms : List Move) : State := { st with sched := ms }

/-- The machine in the middle of an operation of requester 1, at a position. -/
def midway (i : Instr) (op : Op) (phase seqStep : Nat) : State :=
  { st with
    lockOwner := some 1, fsm := if phase ≠ 0 ∧ seqStep = 0 then .commandIssued else .awaitingBusy, op := some op
    phase := phase, seqStep := seqStep, requests := [⟨1, encode i⟩] }

/-- What a test looks at in a next state. -/
def seen {α : Type} (o : Out) (f : State → α) : Option α :=
  match o with
  | .next t => some (f t)
  | _ => none

/-- The outcome is a next state with the given property. -/
def goes (o : Out) (p : State → Bool) : Bool := seen o p == some true

theorem goes_next {o : Out} {p : State → Bool} (h : goes o p = true) : ∃ t, o = .next t ∧ p t = true := by
  cases o with
  | next t => exact ⟨t, rfl, by simpa [goes, seen] using h⟩
  | fault r => simp [goes, seen] at h
  | refused r => simp [goes, seen] at h

/-! ## WellFormed refuses each kind of ill-formed term -/

theorem test_range_refused : { tc with minIndex := 16 }.rangeOk = false ∧ { tc with maxIndex := 256 }.rangeOk = false := by
  decide
theorem test_poll_limit_refused : { tc with pollLimit := 0 }.pollOk = false := by decide
theorem test_ports_refused : { tc with nPorts := 17 }.portsOk = false ∧ { tc with nPorts := 0 }.portsOk = false := by decide
theorem test_tags_refused : { tc with validTag := 0 }.tagsOk = false ∧ { tc with validTag := 0x101 }.tagsOk = false := by
  decide
theorem test_offsets_refused : { tc with extOff := 0x1F }.offsetsOk = false ∧ { tc with cmdOff := 1 }.offsetsOk = false := by
  decide
theorem test_pages_refused : { tc with rl := { rl0 with cut := 25 } }.pagesOk = false := by decide
theorem test_tag_outside_page0_refused : { tc with rl := { rl0 with tag := fieldPos 2 2 0 8 } }.placesOk = false := by decide
theorem test_overlap_refused : { tc with rl := { rl0 with vpri := fieldPos 0 3 11 3 } }.overlapOk = false := by decide
theorem test_tag_in_key_register_refused :
    { tc with emptyTag := 1, rl := { rl0 with tag := fieldPos 0 4 0 8 } }.keyRegsOk = false := by decide
theorem test_other_windows_refused :
    { tc with windowBytes := 47 }.shapeOk = false ∧ { tc with nPages := 4 }.shapeOk = false := by decide
theorem test_narrow_nextId_refused : { tc with rl := { rl0 with nextId := fieldPos 2 2 0 7 } }.widthsOk = false := by decide
theorem test_narrow_pvec_refused : { tc with rl := { rl0 with pvec := fieldPos 0 5 0 10 } }.widthsOk = false := by decide
theorem test_ill_formed_configuration_refused : { tc with pollLimit := 0 }.wf = false := by decide

theorem test_short_entry_refused : ({ zeroEntry tc with hdr := [0, 0, 0, 0, 0] } : Entry).wf tc = false := by decide
theorem test_ill_formed_operands_refused :
    (Instr.loadEntry 0 0 (some { zeroEntry tc with wv := [] })).wf tc = false ∧
      (Instr.compile { (default : Rule) with headers := .unsupported 1 } 0).wf tc = false ∧
      (Instr.decode 0 { zeroEntry tc with wm := [] } none).wf tc = false ∧
      (Instr.encodeKey default { zeroEntry tc with hdr := [] }).wf tc = false ∧
      (Instr.pageImage { zeroEntry tc with act := [] } 0).wf tc = false ∧
      (Instr.entryOfPages [] [] []).wf tc = false ∧
      (Instr.link (zeroEntry tc) { zeroEntry tc with act := [] } 0 default).wf tc = false ∧
      (Instr.isSecondSlotUsed { zeroEntry tc with wm := [] }).wf tc = false ∧
      (Instr.modifyPort { zeroEntry tc with hdr := [] } 0 true).wf tc = false := by decide

/-! ## Decoding: words written out from the encodings of 30_encoding.md -/

/-- Format CMD: BUSY, OP, PAGE, reserved, INDEX (R91, R92). -/
theorem test_decode_cmd_words :
    Sys2Proof.decode ⟨.cmd, 0b0_011_10_01_00000101, .empty⟩ = .ok (.cmdStore 3 2 1 5) ∧
      Sys2Proof.decode ⟨.cmd, 0b1_000_00_00_00000000, .empty⟩ = .ok (.nop 0 0 0) ∧
      Sys2Proof.decode ⟨.cmd, 0b1_001_00_00_00000000, .empty⟩ = .ok (.flushAllCmd 0 0 0) ∧
      Sys2Proof.decode ⟨.cmd, 0b1_010_00_00_00000111, .empty⟩ = .ok (.flushEntryCmd 0 0 7) ∧
      Sys2Proof.decode ⟨.cmd, 0b1_011_10_00_00000101, .empty⟩ = .ok (.loadCmd 2 0 5) ∧
      Sys2Proof.decode ⟨.cmd, 0b1_100_00_00_11111111, .empty⟩ = .ok (.getNextCmd 0 0 255) ∧
      Sys2Proof.decode ⟨.cmd, 0b1_101_01_00_00000111, .empty⟩ = .ok (.readCmd 1 0 7) ∧
      Sys2Proof.decode ⟨.cmd, 0b1_110_01_10_10000001, .empty⟩ = .ok (.cmdReserved6 1 2 0x81) ∧
      Sys2Proof.decode ⟨.cmd, 0b1_111_11_11_11111111, .empty⟩ = .ok (.cmdReserved7 3 3 255) := by decide

/-- Format EXT: reserved, SUBBLOCK (R95). -/
theorem test_decode_ext_word :
    Sys2Proof.decode ⟨.ext, 0b00000000000101_10, .empty⟩ = .ok (.extSelect 5 2) := by decide

/-- Format REQ: OPSEL, PORT, INDEX (R115, R116). -/
theorem test_decode_req_words :
    Sys2Proof.decode ⟨.req, 0x0005, .empty⟩ = .ok (.reqReserved0 0 5) ∧
      Sys2Proof.decode ⟨.req, 0x1000, .empty⟩ = .ok (.flushAll 0 0) ∧
      Sys2Proof.decode ⟨.req, 0x2005, .empty⟩ = .ok (.flushEntry 0 5) ∧
      Sys2Proof.decode ⟨.req, 0x3014, .entry (some (zeroEntry tc))⟩ = .ok (.loadEntry 0 20 (some (zeroEntry tc))) ∧
      Sys2Proof.decode ⟨.req, 0x40FF, .empty⟩ = .ok (.getNextEntry 0 255) ∧
      Sys2Proof.decode ⟨.req, 0x500A, .empty⟩ = .ok (.readEntry 0 10) ∧
      Sys2Proof.decode ⟨.req, 0x6005, .empty⟩ = .ok (.findEntry 0 5) ∧
      Sys2Proof.decode ⟨.req, 0x7314, .empty⟩ = .ok (.addPort 3 20) ∧
      Sys2Proof.decode ⟨.req, 0x8314, .empty⟩ = .ok (.removePort 3 20) ∧
      Sys2Proof.decode ⟨.req, 0x900A, .adv 0x0B none⟩ = .ok (.advConfig 0 10 11 none) ∧
      Sys2Proof.decode ⟨.req, 0xA005, .empty⟩ = .ok (.reqReservedA 0 5) ∧
      Sys2Proof.decode ⟨.req, 0xB1FF, .empty⟩ = .ok (.reqReservedB 1 255) ∧
      Sys2Proof.decode ⟨.req, 0xC000, .empty⟩ = .ok (.reqReservedC 0 0) ∧
      Sys2Proof.decode ⟨.req, 0xD000, .empty⟩ = .ok (.reqReservedD 0 0) ∧
      Sys2Proof.decode ⟨.req, 0xE000, .empty⟩ = .ok (.reqReservedE 0 0) ∧
      Sys2Proof.decode ⟨.req, 0xF000, .empty⟩ = .ok (.reqReservedF 0 0) := by decide

/-- The codec's bundles (R118): word, value, offset, width; word, offset, width. -/
theorem test_decode_codec_bundles :
    Sys2Proof.decode ⟨.codecSet, 0b1111111111111111_0000000000000101_00100_00011, .empty⟩ =
        .ok (.setField 0xFFFF 0x5 4 3) ∧
      Sys2Proof.decode ⟨.codecGet, 0b1111111111011111_00100_00011, .empty⟩ = .ok (.getField 0xFFDF 4 3) := by decide

/-- Format SHAPE_L3 (R110): bit 1 chooses the IP version, bit 0 the transport protocol. -/
theorem test_decode_layer3_tags :
    Sys2Proof.decode ⟨.shapeL3, 0b000, .ipv4 default Window.zero⟩ = .ok (.mapIPv4 0 default Window.zero) ∧
      Sys2Proof.decode ⟨.shapeL3, 0b001, .ipv4 default Window.zero⟩ = .ok (.mapIPv4 1 default Window.zero) ∧
      Sys2Proof.decode ⟨.shapeL3, 0b011, .ipv6 default Window.zero⟩ = .ok (.mapIPv6 1 default Window.zero) := by
  decide +kernel

/-- Format SHAPE_L4 (R110). -/
theorem test_decode_layer4_tags :
    Sys2Proof.decode ⟨.shapeL4, 0b000, .tcp default Window.zero⟩ = .ok (.mapTCPv4 default Window.zero) ∧
      Sys2Proof.decode ⟨.shapeL4, 0b001, .udp default Window.zero⟩ = .ok (.mapUDPv4 default Window.zero) ∧
      Sys2Proof.decode ⟨.shapeL4, 0b010, .tcp default Window.zero⟩ = .ok (.mapTCPv6 default Window.zero) ∧
      Sys2Proof.decode ⟨.shapeL4, 0b011, .udp default Window.zero⟩ = .ok (.mapUDPv6 default Window.zero) := by
  decide +kernel

/-- Format SHAPE (R110): tags 0b100 to 0b111 are unsupported. -/
theorem test_decode_shape_tags :
    Sys2Proof.decode ⟨.shapeCompile, 0b110, .empty⟩ = .ok (.shapeUnsupported 2) ∧
      Sys2Proof.decode ⟨.shapeDecode, 0b100, .empty⟩ = .ok (.shapeUnsupported 0) ∧
      Sys2Proof.decode ⟨.shapeNeeds, 0b011, .empty⟩ = .ok (.needsSecondSlot 3) ∧
      Sys2Proof.decode ⟨.shapeDecode, 0b010, .entries (zeroEntry tc) none⟩ = .ok (.decode 2 (zeroEntry tc) none) := by
  decide

/-- `compile` under the tag of its rule (R30, R110). -/
theorem test_decode_compile :
    Sys2Proof.decode
        ⟨.shapeCompile, 0b001, .compileOps { (default : Rule) with headers := .ipv4Udp default default } 8⟩ =
      .ok (.compile { (default : Rule) with headers := .ipv4Udp default default } 8) := by decide +kernel

/-- The functions with structured operands have no word (R118). -/
theorem test_decode_functions :
    Sys2Proof.decode ⟨.fnMapPrefix, 0, .mac default Window.zero⟩ = .ok (.mapPrefix default Window.zero) ∧
      Sys2Proof.decode ⟨.fnPlace, 0, .place Window.zero 40 0 16 0x1BB 0xFFFF⟩ =
        .ok (.place Window.zero 40 0 16 0x1BB 0xFFFF) ∧
      Sys2Proof.decode ⟨.fnEncodeKey, 0, .key default default⟩ = .ok (.encodeKey default default) ∧
      Sys2Proof.decode ⟨.fnEncodeActions, 0, .actions default⟩ = .ok (.encodeActions default) ∧
      Sys2Proof.decode ⟨.fnPageImage, 0, .page default 2⟩ = .ok (.pageImage default 2) ∧
      Sys2Proof.decode ⟨.fnEntryOfPages, 0, .pages [1] [2] [3]⟩ = .ok (.entryOfPages [1] [2] [3]) ∧
      Sys2Proof.decode ⟨.fnLink, 0, .link default default 8 default⟩ = .ok (.link default default 8 default) ∧
      Sys2Proof.decode ⟨.fnIsSecondSlotUsed, 0, .second default⟩ = .ok (.isSecondSlotUsed default) ∧
      Sys2Proof.decode ⟨.fnModifyPort, 0, .port default 3 true⟩ = .ok (.modifyPort default 3 true) ∧
      Sys2Proof.decode ⟨.fnCmdword, 0, .command 3 2 5⟩ = .ok (.cmdword 3 2 5) := by decide +kernel

/-- What is no packet is rejected by name (R110, R118). -/
theorem test_decode_rejects :
    Sys2Proof.decode ⟨.req, 0x11000, .empty⟩ = .error .strayBits ∧
      Sys2Proof.decode ⟨.shapeNeeds, 0b100, .empty⟩ = .error .shapeTag ∧
      Sys2Proof.decode ⟨.shapeCompile, 0b000, .compileOps { (default : Rule) with headers := .ipv4Udp default default } 8⟩ =
        .error .ruleTag ∧
      Sys2Proof.decode ⟨.fnLink, 0, .empty⟩ = .error .operands := by decide +kernel

/-- Words of the opcode table: T7.13, and REQ words of programs P1 and P3. -/
theorem test_decode_table_words :
    decodeTableWord 16 0x0005 = some (.reqReserved0 0 5) ∧ decodeTableWord 16 0x2005 = some (.flushEntry 0 5) ∧
      decodeTableWord 16 0x7314 = some (.addPort 3 20) ∧ decodeTableWord 8 0b110 = some (.shapeUnsupported 2) := by decide

/-! ## Field Codec (T1) -/

theorem test_setField : setField 0xFFFF 0x5 (bitField 4 3) = 0xFFDF ∧ setField 0xA5A5 1 (bitField 7 2) = 0xA4A5 ∧
    setField 0 0x1FF (bitField 8 8) = 0xFF00 ∧ setField 0xABCD 0 (bitField 16 0) = 0xABCD ∧
    setField 0 0xFFFF (bitField 0 16) = 0xFFFF := by decide
theorem test_getField : getField 0xFFDF (bitField 4 3) = 0x5 ∧ getField 0xE0A0 (bitField 14 2) = 3 ∧
    getField 0xABCD (bitField 0 16) = 0xABCD ∧ getField 0xABCD (bitField 16 0) = 0 := by decide
theorem test_codec_precondition :
    (exec (.setField 0xFFFF 1 10 7) st = .refused .codecPrecondition) ∧
      exec (.getField 0xFFFF 16 1) st = .refused .codecPrecondition := ⟨rfl, rfl⟩

/-! ## Entries (T2) -/

theorem test_encodeKey : (encodeKey tc
    { (default : KeyFields) with
      ft := 2, ftMask := 3, tk := 1, tkMask := 1, vpri := 5, vid := 100, vpriMask := 7, vidMask := 0xFFF, pvecMask := 0x7FF }
    (zeroEntry tc)).hdr = [0xE0A0, 0x5064, 0x7FFF, 0, 0x07FF, 0] := by decide
theorem test_encodeKey_wide_value : (encodeKey tc { (default : KeyFields) with vid := 0x1FFF } (zeroEntry tc)).hdr =
    [0, 0x0FFF, 0, 0, 0, 0] := by decide
theorem test_encodeActions : encodeActions tc
    { (default : Actions) with
      cont := 1, nextId := 0x21, fpriOvr := 1, fpri := 7, flowMeter := 0xAB, streamFilter := 0xCD, cntEn := 1
      cntId := 0x3F, queueId := 7 } = [0x8021, 0xF000, 0x0000, 0xABCD, 0xBF07] := by decide
theorem test_encodeActions_dpv : encodeActions tc { (default : Actions) with dpv := 8, qpriOvr := 1, qpri := 5 } =
    [0x0000, 0x0D00, 0x0008, 0x0000, 0x0000] := by decide

/-- T2.8 to T2.10: the corners of the window in the page registers. -/
theorem test_pageImage :
    let e : Entry := { zeroEntry tc with
      wv := ((((zeroEntry tc).wv.set 0 0x01).set 23 0x45).set 24 0x40).set 47 0x99
      wm := ((((zeroEntry tc).wm.set 0 0xFF).set 23 0xF0).set 24 0xE0).set 47 0xFF }
    (pageImage tc e 0)[6]? = some 0xFF01 ∧ (pageImage tc e 0)[29]? = some 0xF045 ∧
      (pageImage tc e 1)[0]? = some 0xE040 ∧ (pageImage tc e 1)[23]? = some 0xFF99 := by decide
theorem test_entryOfPages :
    (entryOfPages tc ([1, 2, 3, 4, 5, 6] ++ List.replicate 24 0xFF01) (List.replicate 24 0xF045) [7, 8, 9, 10, 11]).wv =
      List.replicate 24 0x01 ++ List.replicate 24 0x45 := by decide

/-! ## Windows (T3) -/

/-- T3.1. -/
theorem test_mapPrefix :
    let W := mapPrefix ⟨⟨0x0180C2000001, 0xFFFFFFFFFFFF⟩, ⟨0, 0⟩, ⟨0x81006064, 0xFFFFEFFF⟩, ⟨0x0800, 0xFFFF⟩⟩ Window.zero
    (bytesOf W.v).take 18 = [0x01, 0x80, 0xC2, 0, 0, 0x01, 0, 0, 0, 0, 0, 0, 0x81, 0x00, 0x60, 0x64, 0x08, 0x00] ∧
      ((bytesOf W.m).drop 12).take 7 = [0xFF, 0xFF, 0xEF, 0xFF, 0xFF, 0xFF, 0] := by decide +kernel
/-- T3.2. -/
theorem test_mapIPv4 :
    let W := mapIPv4 { (default : IPv4) with
      ver := ⟨4, 0xF⟩, ihl := ⟨5, 0xF⟩, flagsFrag := ⟨0x4000, 0xE000⟩, dip := ⟨0xC0A80101, 0xFFFFFF00⟩ } Window.zero
    ((bytesOf W.v).drop 18).take 20 =
        [0x45, 0, 0, 0, 0, 0, 0x40, 0, 0, 0, 0, 0, 0, 0, 0, 0, 0xC0, 0xA8, 0x01, 0x01] ∧
      ((bytesOf W.m).drop 34).take 4 = [0xFF, 0xFF, 0xFF, 0] := by decide +kernel
/-- T3.3, T3.9. -/
theorem test_mapIPv6 :
    let W := mapIPv6 { (default : IPv6) with
      ver := ⟨6, 0xF⟩, tc := ⟨0xAB, 0xFF⟩, flow := ⟨0x12345, 0xFFFFF⟩, dip6 := ⟨1, 1⟩ } Window.zero
    ((bytesOf W.v).drop 18).take 4 = [0x6A, 0xB1, 0x23, 0x45] ∧ (bytesOf W.m)[57]? = some 1 := by decide +kernel
/-- T3.5, T3.6, T3.10. -/
theorem test_mapTCPv4 :
    let W := mapTCPv4 { (default : TCP) with
      dport := ⟨0x1BB, 0xFFFF⟩, ack := ⟨0xFFFF0000, 0xFFFF0000⟩, urg := ⟨0x1234, 0xFFFF⟩ } Window.zero
    ((bytesOf W.v).drop 38).take 20 =
      [0, 0, 0x01, 0xBB, 0, 0, 0, 0, 0xFF, 0xFF, 0, 0, 0, 0, 0, 0, 0, 0, 0x12, 0x34] := by decide +kernel
/-- T3.7. -/
theorem test_mapTCPv6 :
    ((bytesOf (mapTCPv6 { (default : TCP) with dport := ⟨0x1BB, 0xFFFF⟩ } Window.zero).v).drop 58).take 4 =
      [0, 0, 0x01, 0xBB] := by decide +kernel
/-- T3.4. -/
theorem test_mapUDPv4 :
    ((bytesOf (mapUDPv4 { (default : UDP) with sport := ⟨53, 0xFFFF⟩ } Window.zero).v).drop 38).take 4 =
      [0x00, 0x35, 0, 0] := by decide +kernel
/-- R186. -/
theorem test_mapUDPv6 :
    ((bytesOf (mapUDPv6 { (default : UDP) with dport := ⟨0x35, 0xFFFF⟩ } Window.zero).v).drop 58).take 4 =
      [0, 0, 0x00, 0x35] := by decide +kernel
/-- R180: the example, and a field that ends with the window's last bit. -/
theorem test_place :
    ((bytesOf (place Window.zero 40 0 16 0x01BB 0xFFFF).v).drop 40).take 2 = [0x01, 0xBB] ∧
      (bytesOf (place Window.zero 95 4 4 0xF 0).v)[95]? = some 0x0F := by decide +kernel

/-! ## Cascade, compile, decode (T4, T5) -/

theorem test_needsSecondSlot : needsSecondSlot 0 = true ∧ needsSecondSlot 1 = false ∧ needsSecondSlot 2 = true ∧
    needsSecondSlot 3 = true := by decide
theorem test_isSecondSlotUsed :
    isSecondSlotUsed { zeroEntry tc with wv := (zeroEntry tc).wv.set 5 0x77 } = false ∧
      isSecondSlotUsed { zeroEntry tc with wm := (zeroEntry tc).wm.set 9 1 } = true := by decide
/-- T5.7, under both mask conventions. -/
theorem test_link :
    let p := link tc (zeroEntry tc) (zeroEntry tc) 8 { (default : Actions) with dpv := 4 }
    p.1.act = [0x8008, 0, 0, 0, 0] ∧ p.2.hdr = [0, 0x0008, 0x0FFF, 0, 0, 0x0001] ∧ p.2.act = [0, 0, 4, 0, 0] ∧
      (link { tc with maskOneIsCompare := false } (zeroEntry tc) (zeroEntry tc) 8 default).2.hdr =
        [0, 0x0008, 0, 0, 0, 0x0001] := by decide

/-- The rule of T4.1 (program P1). -/
def ruleA : Rule :=
  ⟨default, default,
    .ipv4Tcp { (default : IPv4) with sip := ⟨0x0A000001, 0xFFFFFFFF⟩ } { (default : TCP) with dport := ⟨0x1BB, 0xFFFF⟩ },
    { (default : Actions) with dpv := 4 }⟩
/-- The rule of T4.2 (program P4). -/
def ruleC : Rule :=
  ⟨{ (default : KeyFields) with vid := 100, vidMask := 0xFFF }, default,
    .ipv4Tcp { (default : IPv4) with proto := ⟨6, 0xFF⟩ }
      { (default : TCP) with dport := ⟨80, 0xFFFF⟩, urg := ⟨0x1234, 0xFFFF⟩ },
    { (default : Actions) with dpv := 8, qpriOvr := 1, qpri := 5 }⟩

/-- T4.1: one entry. -/
theorem test_compile_one :
    (compileRule tc ruleA 9).map (fun es => es.map fun e => (e.hdr, e.act, (e.wv.drop 30).take 12)) =
      some [([0, 0, 0, 0, 0, 1], [0, 0, 4, 0, 0], [0x0A, 0, 0, 1, 0, 0, 0, 0, 0, 0, 0x01, 0xBB])] := by decide +kernel
/-- T4.2: two entries, the second with window 2. -/
theorem test_compile_two :
    (compileRule tc ruleC 11).map (fun es => es.map fun e => (e.hdr, e.act, (e.wv.drop 8).take 2)) =
      some [([0, 0x64, 0xFFF, 0, 0, 1], [0x800B, 0, 0, 0, 0], [0, 0]),
        ([0, 0x0B, 0xFFF, 0, 0, 1], [0, 0x0D00, 8, 0, 0], [0x12, 0x34])] := by decide +kernel
/-- T4.2: `decode(0b000, [E1, E2])` is the rule. -/
theorem test_decode_two :
    (compileRule tc ruleC 11).map (fun es => decodeRule tc 0 (es.getD 0 default) es[1]?) = some ruleC := by decide +kernel
/-- T4.6. -/
theorem test_compile_unsupported : compileRule tc { ruleA with headers := .unsupported 1 } 9 = none := by decide
/-- R248's example: port 3 added to an entry in which no port is a member, then removed. -/
theorem test_modifyPort :
    let e : Entry := { zeroEntry tc with hdr := [0, 0x64, 0xFFF, 0, 0x7FF, 1] }
    (modifyPort tc e 3 true).hdr = [0, 0x64, 0xFFF, 0, 0x7F7, 1] ∧
      modifyPort tc (modifyPort tc e 3 true) 3 false = e := by decide
theorem test_cmdword : cmdword opLoad 2 5 = 0xB805 ∧ cmdword opFlushAll 0 0 = 0x9000 ∧ cmdword opGetNext 0 255 = 0xC0FF := by
  decide

/-! ## Commands (T6) -/

/-- A word with bit 15 clear is stored and starts nothing (R210). -/
theorem test_cmdStore :
    seen (exec (.cmdStore 3 0 1 5) writing) (fun t => (t.cmd, t.devCmd)) = some (0x3105, none) := by decide
/-- A command that the controller writes is latched (R210); a requester cannot write one (R60). -/
theorem test_load_latched :
    seen (exec (.loadCmd 2 0 5) writing) (fun t => (t.cmd, t.devCmd)) = some (0xB805, some ⟨3, 2, 5⟩) ∧
      exec (.loadCmd 2 0 5) st = .refused .rawAccess := ⟨by decide, rfl⟩
theorem test_extSelect : seen (exec (.extSelect 5 2) writing) (fun t => t.ext) = some 0x0016 := by decide
/-- T6.1. -/
theorem test_nop : seen (exec (.nop 0 0 0) (latched 0 0 0)) (fun t => (t.cmd, t.devCmd)) = some (0x0000, none) := by decide
/-- T6.2. -/
theorem test_flushAllCmd : seen (exec (.flushAllCmd 0 0 0) (latched 1 0 0)) (fun t => (t.cmd, t.validAt 3, t.validAt 12)) =
    some (0x1000, false, false) := by decide +kernel
/-- T6.3. -/
theorem test_flushEntryCmd :
    seen (exec (.flushEntryCmd 0 0 7) (latched 2 0 7)) (fun t => (t.cmd, t.validAt 3, t.validAt 7, t.validAt 12)) =
      some (0x2007, true, false, true) := by decide +kernel
/-- T6.4. -/
theorem test_loadCmd :
    seen (exec (.loadCmd 2 0 5) { latched 3 2 5 with data := [0, 0, 4, 0, 0] ++ List.replicate 25 0x5555 })
      (fun t => (t.cmd, (t.slot 5).p2, t.validAt 5)) = some (0x3805, [0, 0, 4, 0, 0], false) := by decide +kernel
/-- T6.5: page 0 with TAG = 1 makes the slot valid. -/
theorem test_loadCmd_page0 :
    seen (exec (.loadCmd 0 0 5) { latched 3 0 5 with data := (List.replicate 30 0).set 5 1 })
      (fun t => (t.cmd, t.validAt 5)) = some (0x3005, true) := by decide +kernel
/-- T6.6: from the maximum index the search starts at the bottom. -/
theorem test_getNextCmd_wraps :
    seen (exec (.getNextCmd 0 0 15) (latched 4 0 15)) (fun t => (t.cmd, t.data.take 3)) =
      some (0x4003, [0, 0x0103, 0x0FFF]) := by decide +kernel
/-- T6.8: nothing above 12. -/
theorem test_getNextCmd_none :
    seen (exec (.getNextCmd 0 0 12) (latched 4 0 12)) (fun t => (t.cmd, t.data)) =
      some (0x400F, List.replicate 30 0) := by decide +kernel
/-- T6.10: page 1 has 24 registers, the last six of the bank stay. -/
theorem test_readCmd :
    seen (exec (.readCmd 1 0 7) (latched 5 1 7)) (fun t => (t.cmd, t.data)) =
      some (0x5407, List.replicate 24 0 ++ List.replicate 6 0x5555) := by decide +kernel
/-- R218. -/
theorem test_reserved_commands :
    exec (.cmdReserved6 0 0 0) st = .refused .reservedOpcode ∧ exec (.cmdReserved7 0 0 0) st = .refused .reservedOpcode :=
  ⟨rfl, rfl⟩

/-! ## Operations (T7, T8) -/

/-- T7.1: three accesses. -/
theorem test_flushAll : seen (exec (.flushAll 0 0) (at' (prompt 3)))
    (fun t => (t.result, t.cmd, t.validAt 3, t.sched)) = some (.ok .unit, 0x1000, false, []) := by decide +kernel
/-- R241. -/
theorem test_flushEntry : seen (exec (.flushEntry 0 7) (at' (prompt 3)))
    (fun t => (t.result, t.cmd, t.validAt 3, t.validAt 7)) = some (.ok .unit, 0x2007, true, false) := by decide +kernel
/-- T7.8: seven accesses, `NotFound`. -/
theorem test_getNextEntry_notFound : seen (exec (.getNextEntry 0 12) (at' (prompt 7)))
    (fun t => (t.result, t.cmd, t.lockOwner)) = some (.err .notFound, 0x400F, none) := by decide +kernel
/-- T7.4's first access after the wait: the action page comes first (R242). -/
theorem test_loadEntry_first_writes :
    (accessList (midway (.loadEntry 0 5 (some { zeroEntry tc with act := [1, 2, 3, 4, 5] })) (.loadEntry 5) 0 1)).take 3 =
        [.poll, .select, .write 0 0] ∧
      (loadBody tc (zeroEntry tc) 5 0)[6]? = some (.issue 3 2 5) ∧ (loadBody tc (zeroEntry tc) 5 2)[30]? = some (.issue 3 0 5) := by
  decide
/-- T7.3: the three READ words, in the order 0, 1, 2, page 2 after a select. -/
theorem test_readEntry_commands :
    readBody tc 7 0 = [.issue 5 0 7] ∧ (readBody tc 7 1)[30]? = some (.issue 5 1 7) ∧
      (readBody tc 7 2).drop 24 = [.select, .issue 5 2 7] := by decide
/-- T7.6: `FindEntry 0` searches from the maximum index. -/
theorem test_findEntry_wraps : phaseBody st (.findEntry 0) 0 = [.issue 4 0 15] ∧ phaseBody st (.findEntry 7) 0 = [.issue 4 0 6] := by
  decide
/-- T7.9: the commands of `AddPort` after the read. -/
theorem test_addPort_loads_back :
    (phaseBody { st with hwIndex := 12 } (.addPort 12 3) 4).take 7 =
      [.read 2 0, .read 2 1, .read 2 2, .read 2 3, .read 2 4, .select, .write 0 0] := by decide
theorem test_removePort_searches : phaseBody st (.removePort 12 3) 0 = [.issue 4 0 11] := by decide
/-- R285: the cascade slot has the first tenure. -/
theorem test_advConfig_first_tenure : seen (exec (.advConfig 0 10 11 (some ruleC)) st)
    (fun t => (t.op, t.fsm, t.lockOwner)) = some (some (.advCascade 10 11), .awaitingBusy, some 1) := by decide +kernel
/-- T8.8: equal indices are turned away when the shape can need a second slot. -/
theorem test_advConfig_equal_indices : seen (exec (.advConfig 0 10 10 (some ruleC)) st) (fun t => (t.result, t.lockOwner)) =
    some (.err .invalidArgument, none) := by decide +kernel
/-- T7.11, T7.12, T7.13. -/
theorem test_invalid_arguments :
    seen (exec (.addPort 11 12) st) (·.result) = some (.err .invalidArgument) ∧
      seen (exec (.loadEntry 0 5 none) st) (·.result) = some (.err .invalidArgument) ∧
      seen (exec (.reqReservedF 0 0) st) (·.result) = some (.err .invalidArgument) := by decide
/-- T8.1: `FlushEntry 7` on a device that never completes. -/
theorem test_timeout : seen (exec (.flushEntry 0 7) (at' (List.replicate 6 (.access .ok))))
    (fun t => (t.result, t.cmd, t.devCmd, t.validAt 7)) =
      some (.err .timeout, 0xA007, some ⟨2, 0, 7⟩, true) := by decide +kernel
/-- T8.6: a failed poll is `TransportFailure`, even the last one. -/
theorem test_failed_poll :
    seen (exec (.flushEntry 0 7) (at' (List.replicate 5 (.access .ok) ++ [.access (.lost 9)]))) (fun t => (t.result, t.pollCnt)) =
      some (.err (.transportFailure 9), 3) := by decide +kernel
/-- From reset a requester submits `FlushEntry 7`, its turn comes, and it takes the lock (R20, R230). -/
theorem test_submission_runs_from_reset :
    seen (andThen (step { State.reset with sched := [.submit ⟨3, encode (.flushEntry 0 7)⟩, .request 0] }) step)
      (fun t => (t.op, t.lockOwner)) = some (some (.flushEntry 7), some 3) := by decide +kernel
/-- A requester that waits is blocked, and a register word is no request (R20, R66). -/
theorem test_no_submission :
    (midway (.flushEntry 0 7) (.flushEntry 7) 0 0).submit ⟨1, encode (.flushAll 0 0)⟩ =
        midway (.flushEntry 0 7) (.flushEntry 7) 0 0 ∧
      st.submit ⟨3, encode (.flushAllCmd 0 0 0)⟩ = st ∧ (st.submit ⟨3, encode (.flushAll 0 0)⟩).requests.length = 1 := by
  decide +kernel
/-- A word of the opcode table is the first instruction after it is placed. -/
theorem test_placed_word_runs : seen (step (st.withFetchWord 16 0x2007)) (fun t => (t.op, t.lockOwner)) =
    some (some (.flushEntry 7), some 0) := by decide +kernel

/-! ## Witnesses: for every statement that has hypotheses, a state and operands that meet them, at the ends of their
ranges; where the hypothesis is a run, the run has an outcome of its own -/

/-- A valid entry for a slot. -/
def entryA : Entry := { zeroEntry tc with hdr := [0, 0x0105, 0x0FFF, 0, 0, 1], act := [0, 0, 4, 0, 0] }

/-- The step of the state is refused with this reason. -/
def stops (s : State) (r : Refusal) : Bool :=
  match step s with
  | .refused q => q == r
  | _ => false

/-- The table of `st` with the top slot valid as well. -/
def topValid (ms : List Move) : State := { at' ms with table := table3.set 15 (slotWith 15) }

/-- The table with nothing valid. -/
def noneValid (ms : List Move) : State := { at' ms with table := List.replicate 16 (emptySlot tc) }

/-- The rule of shape IPv4-UDP with every window mask bit of its fields clear. -/
def ruleU : Rule := ⟨default, default, .ipv4Udp default default, default⟩

theorem witness_DecodeOfEncodeIsTheInstruction :
    (Instr.loadEntry 15 255 (some entryA)).wf tc = true ∧ (Instr.compile ruleC 255).wf tc = true ∧
      (Instr.decode 3 entryA (some entryA)).wf tc = true ∧ (Instr.link entryA entryA 0 default).wf tc = true ∧
      (Instr.cmdReserved7 3 3 255).wf tc = true ∧ (Instr.setField 0xFFFF 0xFFFF 31 31).wf tc = true := by decide
theorem witness_DecodedPacketsKeepTheirBits :
    Sys2Proof.decode ⟨.shapeDecode, 0b111, .empty⟩ = .ok (.shapeUnsupported 3) ∧
      Sys2Proof.decode ⟨.cmd, 0xFFFF, .empty⟩ = .ok (.cmdReserved7 3 3 255) ∧
      Sys2Proof.decode ⟨.codecSet, 0x3FFFFFFFFFF, .empty⟩ = .ok (.setField 0xFFFF 0xFFFF 31 31) := by decide
theorem witness_SetFieldWritesItsBitsOnly :
    (13#5).toNat + (3#5).toNat ≤ 16 ∧ (16#5).toNat + (0#5).toNat ≤ 16 ∧ (0#5).toNat + (16#5).toNat ≤ 16 := by decide
theorem witness_GetFieldReadsItsBits :
    (13#5).toNat + (3#5).toNat ≤ 16 ∧ (16#5).toNat + (0#5).toNat ≤ 16 ∧ (0#5).toNat + (16#5).toNat ≤ 16 := by decide
theorem witness_CodecLaws :
    DisjointBits (bitField 0 8) (bitField 8 8) ∧ DisjointBits (bitField 15 1) (bitField 0 15) ∧
      DisjointBits (bitField 4 0) (bitField 0 16) := by
  unfold DisjointBits; decide
theorem witness_FunctionsRefuseOutsideTheirDomain :
    16 < (14#5).toNat + (3#5).toNat ∧ 16 < (31#5).toNat + (31#5).toNat ∧ 16 < (0#5).toNat + (17#5).toNat ∧
      16 < (16#5).toNat + (1#5).toNat := by decide
theorem witness_PlacePutsAFieldAtItsBits :
    8 * 95 + 4 + 4 ≤ 768 ∧ 8 * 0 + 0 + 768 ≤ 768 ∧ 8 * 96 + 0 + 0 ≤ 768 ∧ 8 * 40 + 0 + 16 ≤ 8 * 42 + 0 ∧
      8 * 39 + 7 + 1 ≤ 8 * 40 + 0 ∧ 768 < 8 * 95 + 4 + 5 ∧ 768 < 8 * 96 + 0 + 1 := by decide
theorem witness_EncodeKeyWritesTheKeyFieldsOnly : (zeroEntry st.conf).wf st.conf = true ∧ entryA.wf st.conf = true := by
  decide
theorem witness_PagesAndEntriesAreInverse :
    entryA.wf st.conf = true ∧ (2 : BitVec 2) ≠ 3 ∧ (0 : BitVec 2) ≠ 3 ∧
      pageWf st.conf 0 (List.replicate 30 0xFFFF) = true ∧ pageWf st.conf 1 (List.replicate 24 0xFFFF) = true ∧
      pageWf st.conf 2 (List.replicate 5 0xFFFF) = true := by decide
theorem witness_SecondSlotIsUsedIffAMaskByteIsSet :
    ({ entryA with wm := entryA.wm.set 47 1 } : Entry).wf st.conf = true ∧ entryA.wf st.conf = true := by decide
theorem witness_LinkWritesTheContinuation : entryA.wf st.conf = true ∧ (zeroEntry st.conf).wf st.conf = true := by decide

theorem ruleC_masks_second : MasksSecondWindow ruleC := ⟨448, by decide, by decide, by decide +kernel⟩
theorem ruleA_masks_first_only : ¬ MasksSecondWindow ruleA := by
  have h : ∀ q < 768, 384 ≤ q → (ruleWindow ruleA).m.getMsbD q = false := by decide +kernel
  rintro ⟨q, h1, h2, h3⟩
  simp [h q h2 h1] at h3
theorem witness_CompileAnswersOneOrTwoEntries :
    (ruleA.supported = true ∧ ¬ MasksSecondWindow ruleA) ∧ (ruleC.supported = true ∧ MasksSecondWindow ruleC) ∧
      ruleU.supported = true ∧ ruleU.shape = 0b001 :=
  ⟨⟨rfl, ruleA_masks_first_only⟩, ⟨rfl, ruleC_masks_second⟩, rfl, rfl⟩
theorem witness_DecodeReadsEveryFieldAtItsPlace :
    entryA.wf st.conf = true ∧ ∀ e, some (zeroEntry st.conf) = some e → e.wf st.conf = true :=
  ⟨by decide, fun e h => by cases h; decide⟩
/-- With two entries and with one; the second rule has no pattern bit in the second window, as P3 asks. -/
theorem witness_CompileThenDecodeGivesTheRuleBack :
    (ruleC.supported = true ∧ FitsWidths st.conf ruleC ∧ MasksSecondWindow ruleC) ∧
      (ruleA.supported = true ∧ FitsWidths st.conf ruleA ∧
        ∀ q, 384 ≤ q → q < 768 → (ruleWindow ruleA).v.getMsbD q = false) := by
  have h : ∀ q < 768, 384 ≤ q → (ruleWindow ruleA).v.getMsbD q = false := by decide +kernel
  refine ⟨⟨rfl, ?_, ruleC_masks_second⟩, rfl, ?_, fun q h1 h2 => h q h2 h1⟩ <;> (unfold FitsWidths; decide +kernel)
theorem witness_ModifyPortChangesOnePort :
    entryA.wf st.conf = true ∧ (10 : BitVec 4).toNat < st.conf.nPorts ∧ ¬ (11 : BitVec 4).toNat < st.conf.nPorts ∧
      (getReg st.conf st.conf.rl.pvecMask ({ entryA with hdr := entryA.hdr.set 4 0x7FF } : Entry).hdr).getLsbD 10 =
        st.conf.maskOneIsCompare ∧
      (getReg st.conf st.conf.rl.pvecMask entryA.hdr).getLsbD 10 ≠ st.conf.maskOneIsCompare := by decide
theorem witness_CommandWordFormula :
    Access.issue opFlushAll 0 0 ∈ accessList (midway (.flushAll 0 0) .flushAll 0 1) ∧
      Access.issue opFlushEntry 0 15 ∈ accessList (midway (.flushEntry 0 15) (.flushEntry 15) 0 1) ∧
      Access.issue opGetNext 0 15 ∈ accessList (midway (.findEntry 0 0) (.findEntry 0) 0 1) ∧
      Access.issue opRead 2 7 ∈ accessList (midway (.readEntry 0 7) (.readEntry 7) 2 1) := by decide +kernel
theorem witness_FunctionsTouchNoStateOfTheBlock :
    isFunction (.getField 0xFFDF 4 3) = true ∧
      goes (exec (.getField 0xFFDF 4 3) st) (fun t => t.fnOut == .word 5 && t.fnFor == 1) = true ∧
      isFunction (.shapeUnsupported 3) = true ∧
      goes (exec (.shapeUnsupported 3) st) (fun t => t.fnOut == .invalidArgument) = true ∧
      ({ st with ext := 7 } : State).cfg = st.cfg := by
  decide +kernel

theorem witness_WritesAtThePortAreStoredAndLatched :
    (writing.turn = .controller ∧ writing.lockOwner ≠ none ∧ writing.busy = false ∧ (2 : BitVec 2) ≠ 3) ∧
      (let s : State := midway (.flushEntry 0 15) (.flushEntry 15) 0 1;
        s.inv = true ∧ (accessList s)[s.seqStep]? = some (.issue 2 0 15) ∧
          Sys2Proof.decode ⟨.cmd, (1#1 ++ 2#3 ++ 0#2 ++ 0#2 ++ 15#8).setWidth 48, .empty⟩ =
            .ok (.flushEntryCmd 0 0 15)) ∧
      (let s : State := { midway (.loadEntry 0 15 (some entryA)) (.loadEntry 15) 0 1 with ext := 0xFFFF };
        s.inv = true ∧ (accessList s)[s.seqStep]? = some .select ∧
          seen (ctlStep .ok s) (·.ext) = some 0xFFFC) := by decide +kernel
/-- The states of the parts: a requester; the controller without the lock; busy; idle; latched with an index outside the table, and just
inside it with page 3 and with page 2 under sub-block 3; latched with another command. -/
theorem witness_OutsideTheProtocolIsRefused :
    (st.turn = .port ∧ { st with turn := .controller }.lockOwner = none) ∧
      (let b : State := { writing with cmd := 0x8000, devCmd := some ⟨0, 0, 0⟩ };
        b.turn = .controller ∧ b.lockOwner ≠ none ∧ b.busy = true) ∧
      (writing.turn = .controller ∧ writing.lockOwner ≠ none ∧ writing.busy = false) ∧
      ((latched 2 0 16).turn = .device ∧ (latched 2 0 16).conf.inRange 16 = false ∧
        (latched 2 0 16).devCmd = some ⟨opFlushEntry, 0, 16⟩ ∧ (latched 3 1 255).devCmd = some ⟨opLoad, 1, 255⟩ ∧
        (latched 4 0 16).devCmd = some ⟨opGetNext, 0, 16⟩ ∧ (latched 5 2 16).devCmd = some ⟨opRead, 2, 16⟩) ∧
      ((latched 3 3 15).turn = .device ∧ (latched 3 3 15).conf.inRange 15 = true ∧
        (latched 3 3 15).devCmd = some ⟨opLoad, 3, 15⟩ ∧ (latched 5 3 0).devCmd = some ⟨opRead, 3, 0⟩ ∧
        ({ latched 3 2 15 with ext := 3 } : State).ext &&& 3 ≠ 0 ∧
        ({ latched 3 2 15 with ext := 3 } : State).devCmd = some ⟨opLoad, 2, 15⟩ ∧
        ({ latched 5 2 0 with ext := 0xFFFD } : State).ext &&& 3 ≠ 0 ∧
        ({ latched 5 2 0 with ext := 0xFFFD } : State).devCmd = some ⟨opRead, 2, 0⟩) ∧
      ((latched 5 0 7).devCmd ≠ some ⟨opRead, 1, 7⟩ ∧ (latched 5 0 7).devCmd ≠ some ⟨opLoad, 0, 7⟩ ∧
        ({ st with turn := .device } : State).devCmd ≠ some ⟨opNop, 0, 0⟩) := by decide +kernel
theorem witness_ReservedOpcodesHaveNoMeaning :
    Access.issue opLoad 2 15 ∈ accessList (midway (.loadEntry 0 15 (some entryA)) (.loadEntry 15) 0 1) := by decide +kernel
theorem witness_NopClearsBusyOnly :
    (latched 0 3 255).turn = .device ∧ (latched 0 3 255).devCmd = some ⟨opNop, 3, 255⟩ ∧
      Access.issue opRead 2 7 ∈ accessList (midway (.readEntry 0 7) (.readEntry 7) 2 1) := by decide +kernel
theorem witness_FlushAllCommandEmptiesEverySlot :
    (latched 1 3 255).turn = .device ∧ (latched 1 3 255).devCmd = some ⟨opFlushAll, 3, 255⟩ ∧
      (latched 1 3 255).conf.inRange 15 = true := by decide
theorem witness_FlushEntryCommandEmptiesOneSlot :
    (latched 2 3 15).turn = .device ∧ (latched 2 3 15).devCmd = some ⟨opFlushEntry, 3, 15⟩ ∧
      (latched 2 3 15).conf.inRange 15 = true ∧ (latched 2 3 15).sized = true ∧
      (latched 2 3 15).conf.inRange 0 = true ∧ (0 : Index) ≠ 15 := by decide +kernel
theorem witness_LoadCommandStoresOnePage :
    ((latched 3 2 15).turn = .device ∧ (latched 3 2 15).devCmd = some ⟨opLoad, 2, 15⟩ ∧
      (latched 3 2 15).conf.inRange 15 = true ∧ (2 : BitVec 2) ≠ 3 ∧ (latched 3 2 15).ext &&& 3 = 0 ∧
      (latched 3 2 15).sized = true) ∧
      ((latched 3 0 0).devCmd = some ⟨opLoad, 0, 0⟩ ∧ (latched 3 0 0).conf.inRange 0 = true ∧
        (latched 3 0 0).sized = true) := by decide +kernel
/-- At the maximum index the search wraps; above the highest valid slot nothing is found. -/
theorem witness_GetNextCommandFindsTheLowestHigherSlot :
    ((latched 4 3 15).turn = .device ∧ (latched 4 3 15).devCmd = some ⟨opGetNext, 3, 15⟩ ∧
      (latched 4 3 15).conf.inRange 15 = true ∧ (latched 4 3 15).sized = true ∧ nextValid (latched 4 3 15) 15 = 3) ∧
      ((latched 4 0 12).devCmd = some ⟨opGetNext, 0, 12⟩ ∧ (latched 4 0 12).conf.inRange 12 = true ∧
        (latched 4 0 12).sized = true ∧ nextValid (latched 4 0 12) 12 = 15) := by decide +kernel
theorem witness_ReadCommandFetchesOnePage :
    ((latched 5 2 15).turn = .device ∧ (latched 5 2 15).devCmd = some ⟨opRead, 2, 15⟩ ∧
      (latched 5 2 15).conf.inRange 15 = true ∧ (2 : BitVec 2) ≠ 3 ∧ (latched 5 2 15).ext &&& 3 = 0 ∧
      (latched 5 2 15).sized = true) ∧
      ((latched 5 0 0).devCmd = some ⟨opRead, 0, 0⟩ ∧ (latched 5 0 0).conf.inRange 0 = true ∧
        (latched 5 0 0).sized = true) := by decide +kernel

theorem witness_FlushesCompleteInThreeAccesses :
    (at' (prompt 3 ++ [.request 0])).ready = true ∧ (at' (prompt 3 ++ [.request 0])).conf.inRange 15 = true := by
  decide +kernel
theorem witness_LoadEntryStoresTheEntry :
    (at' (prompt 67 ++ [])).ready = true ∧ (at' (prompt 67 ++ [])).conf.inRange 15 = true ∧ entryA.wf tc = true ∧
      pageRegisters tc + 8 = 67 ∧
      goes (exec (.loadEntry 0 15 (some entryA)) (at' (prompt 67)))
        (fun t => t.result == .ok .unit && t.slot 15 == slotOf tc entryA) = true := by decide +kernel
theorem witness_ReadEntryReturnsTheSlot :
    (at' (prompt 67)).ready = true ∧ (at' (prompt 67)).conf.inRange 0 = true ∧ pageRegisters tc + 8 = 67 ∧
      goes (exec (.readEntry 0 7) (at' (prompt 67)))
        (fun t => t.result == .ok (.entry (entryOf tc (slotWith 7)) true)) = true := by decide +kernel
/-- Nothing higher; a slot in between; the top slot, whose key registers are read. -/
theorem witness_GetNextEntryReturnsTheNextSlot :
    ((noneValid (prompt 7)).ready = true ∧ (noneValid (prompt 7)).conf.inRange 15 = true ∧
      15 = nextValid (noneValid (prompt 7)) 15 ∧ nothingHigher (noneValid (prompt 7)) 15) ∧
      ((at' (prompt 70)).ready = true ∧ 3 = nextValid (at' (prompt 70)) 0 ∧ ¬ nothingHigher (at' (prompt 70)) 3 ∧
        searchAccesses (at' (prompt 70)) 3 = 70) ∧
      ((topValid (prompt 73)).ready = true ∧ 15 = nextValid (topValid (prompt 73)) 12 ∧
        ¬ nothingHigher (topValid (prompt 73)) 15 ∧ searchAccesses (topValid (prompt 73)) 15 = 73) := by
  unfold nothingHigher; decide +kernel
/-- Nothing higher; the slot itself, at both ends of the table; another slot. -/
theorem witness_FindEntryReturnsTheExactSlot :
    ((at' (prompt 7)).ready = true ∧ (at' (prompt 7)).conf.inRange 14 = true ∧ 15 = nextValid (at' (prompt 7)) 13 ∧
      nothingHigher (at' (prompt 7)) 15) ∧
      ((topValid (prompt 73)).ready = true ∧ (topValid (prompt 73)).conf.inRange 15 = true ∧
        15 = nextValid (topValid (prompt 73)) 14 ∧ ¬ nothingHigher (topValid (prompt 73)) 15) ∧
      ((at' (prompt 70)).ready = true ∧ (at' (prompt 70)).conf.inRange 0 = true ∧ 3 = nextValid (at' (prompt 70)) 15 ∧
        ¬ nothingHigher (at' (prompt 70)) 3 ∧ (3 : Index) ≠ 0) := by
  unfold nothingHigher; decide +kernel
theorem witness_PortOperationsModifyTheExactSlot :
    ((at' (prompt 7)).ready = true ∧ (at' (prompt 7)).conf.inRange 14 = true ∧
      (10 : BitVec 4).toNat < (at' (prompt 7)).conf.nPorts ∧ 15 = nextValid (at' (prompt 7)) 13 ∧
      nothingHigher (at' (prompt 7)) 15) ∧
      ((at' (prompt 70)).ready = true ∧ 3 = nextValid (at' (prompt 70)) 15 ∧ ¬ nothingHigher (at' (prompt 70)) 3 ∧
        (3 : Index) ≠ 0) ∧
      ((at' (prompt 136)).ready = true ∧ (at' (prompt 136)).conf.inRange 7 = true ∧
        7 = nextValid (at' (prompt 136)) 6 ∧ ¬ nothingHigher (at' (prompt 136)) 7 ∧
        searchAccesses (at' (prompt 136)) 7 + pageRegisters tc + 7 = 136 ∧
        goes (exec (.addPort 10 7) (at' (prompt 136))) (fun t => t.result == .ok .unit && t.lockOwner == none) = true) := by
  unfold nothingHigher; decide +kernel
/-- One entry; two entries, at the two ends of the table. -/
theorem witness_AdvConfigLoadsTheCascadeSlotFirst :
    ((at' (prompt 67)).ready = true ∧ advValid tc 15 0 ruleA = true ∧
      (compileRule tc ruleA 0).map List.length = some 1) ∧
      (advValid tc 0 15 ruleC = true ∧ (compileRule tc ruleC 15).map List.length = some 2 ∧
        (at' (prompt 67 ++ (prompt 67 ++ []))).ready = true ∧
        goes (exec (.advConfig 0 0 15 (some ruleC)) (at' (prompt 67 ++ (prompt 67 ++ []))))
          (fun t => t.result == .ok (.slotsUsed 2) && t.lockOwner == none) = true) ∧
      (({ at' (prompt 67) with cascaded := [1] } : State).betweenTenures = true ∧
        goes (exec (.advConfig 0 0 15 (some ruleC)) { at' (prompt 67) with cascaded := [1] })
          (fun t => t.result == .ok (.slotsUsed 2) && t.cascaded == []) = true) := by decide +kernel

theorem witness_InvalidArgumentTouchesNothing :
    (st.lockOwner ≠ some st.caller ∧ ({ st with lockOwner := some 2 } : State).lockOwner ≠ some st.caller) ∧
      ¬ (st.conf.minIndex ≤ (16 : Index).toNat ∧ (16 : Index).toNat ≤ st.conf.maxIndex) ∧
      st.conf.nPorts ≤ (11 : BitVec 4).toNat ∧
      ({ ruleA with headers := .unsupported 0 } : Rule).supported = false ∧ ruleC.shape ≠ 0b001 := by decide +kernel
theorem witness_AcquireTakesTheFreeLockOrWaits :
    (opOf (.loadEntry 0 15 (some entryA)) = some (.loadEntry 15) ∧ accepted st.conf (.loadEntry 0 15 (some entryA)) = true ∧
      st.lockOwner = none ∧ st.sched = []) ∧
      (opOf (.addPort 10 0) = some (.addPort 0 10) ∧ accepted st.conf (.addPort 10 0) = true ∧
        ({ st with lockOwner := some 2 } : State).lockOwner = some 2 ∧ 2 ≠ st.caller) ∧
      (advValid st.conf 0 15 ruleC = true ∧
        seen (exec (.advConfig 0 0 15 (some ruleC)) { st with cascaded := [1] }) (·.op) =
          some (some (.advMain 0 15 true)) ∧
        seen (exec (.advConfig 0 0 15 (some ruleA)) st) (·.op) = some (some (.advMain 0 15 false))) := by decide +kernel
/-- Waiting, turned away, a function answered. -/
theorem witness_TheLockKeepsOthersOut :
    let s : State := { midway (.flushEntry 0 7) (.flushEntry 7) 0 0 with caller := 2 }
    s.lockOwner = some 1 ∧ 1 ≠ s.caller ∧ s.turn = .port ∧
      goes (exec (.readEntry 0 15) s) (fun t => t.requests == s.requests) = true ∧
      goes (exec (.readEntry 0 16) s) (fun t => t.resultFor == 2) = true ∧
      goes (exec (.needsSecondSlot 1) s) (fun t => t.fnOut == .flag false) = true := by decide +kernel
theorem witness_AStuckDeviceTimesOut :
    let s : State := { at' (List.replicate 4 (.access .ok) ++ [.device]) with cmd := 0xA007, devCmd := some ⟨2, 0, 7⟩ }
    accepted s.conf (.readEntry 0 15) = true ∧ s.lockOwner = none ∧ s.busy = true ∧ s.conf.pollLimit = 4 ∧
      seen (exec (.readEntry 0 15) s) (·.result) = some (.err .timeout) := by decide +kernel
theorem witness_AStuckDeviceTimesOut_adv : AdvAccepted st.conf (.advConfig 0 0 15 (some ruleC)) :=
  ⟨0, 0, 15, ruleC, rfl, by decide⟩
/-- A wait with a busy device, at its first and its last poll but one, a wait with an idle one, an `Issue` after a wait
that counted polls, and the instance T8.1. -/
theorem witness_AStuckDeviceTimesOut_later :
    (let s : State := { midway (.flushEntry 0 7) (.flushEntry 7) 1 0 with cmd := 0xA007, devCmd := some ⟨2, 0, 7⟩ };
      s.inv = true ∧ s.sched = [] ∧ s.op ≠ none ∧ s.seqStep = 0 ∧ s.busy = true ∧ s.pollCnt + 3 < s.conf.pollLimit ∧
        { s with pollCnt := 3 }.inv = true ∧
        seen (runMoves (List.replicate 4 (.access .ok)) s) (·.result) = some (.err .timeout)) ∧
      (let s : State := { midway (.flushEntry 0 7) (.flushEntry 7) 0 0 with pollCnt := 3 };
        s.inv = true ∧ s.busy = false ∧ 1 < (accessList s).length) ∧
      (let s : State := { midway (.flushEntry 0 7) (.flushEntry 7) 0 1 with pollCnt := 3 };
        s.inv = true ∧ (accessList s)[s.seqStep]? = some (.issue opFlushEntry 0 7) ∧
          seen (runMoves (List.replicate 4 (.access .ok)) s) (fun t => (t.pollCnt, t.fsm)) =
            some (3, .commandIssued)) ∧
      (at' (List.replicate 6 (.access .ok))).ready = true ∧
      seen (exec (.flushEntry 0 15) (at' (List.replicate 6 (.access .ok)))) (·.result) = some (.err .timeout) := by
  decide +kernel
/-- A state of the invariant at each kind of access. -/
theorem witness_AFailedAccessAborts :
    let at_ (s : State) (a : Access) : Bool := s.inv && (accessList s)[s.seqStep]? == some a
    at_ (midway (.flushEntry 0 7) (.flushEntry 7) 0 0) .poll = true ∧
      at_ (midway (.loadEntry 0 15 (some entryA)) (.loadEntry 15) 0 1) .select = true ∧
      at_ { midway (.loadEntry 0 15 (some entryA)) (.loadEntry 15) 0 4 with e1 := entryA } (.write 2 4) = true ∧
      at_ (midway (.readEntry 0 0) (.readEntry 0) 3 1) (.read 2 0) = true ∧
      at_ { midway (.getNextEntry 0 12) (.getNextEntry 12) 1 1 with cmd := 0x400F } .readCmd = true ∧
      at_ { midway (.getNextEntry 0 12) (.getNextEntry 12) 1 2 with cmd := 0x400F, hwIndex := 15 } (.readKey 0) = true ∧
      at_ (midway (.flushEntry 0 15) (.flushEntry 15) 0 1) (.issue opFlushEntry 0 15) = true := by decide +kernel

theorem witness_OperationsKeepWhatTheyDoNotName :
    (goes (exec (.advConfig 0 0 15 (some ruleC)) (midway (.advConfig 0 0 15 (some ruleC)) (.advCascade 0 15) 0 1))
      (fun t => t.seqStep == 1) = true) ∧
    (goes (exec (.flushAll 0 0) (at' (prompt 3))) (fun t => t.lockOwner == none) = true ∧
      opOf (.flushAll 0 0) = some .flushAll ∧ Op.flushAll.searches = false) ∧
      (goes (exec (.advConfig 0 0 15 (some ruleC)) (at' (prompt 67))) (fun t => t.cascaded == [1]) = true ∧
        (at' (prompt 67)).lockOwner = none) := by decide +kernel
/-- Cut off after the page 2 and page 1 loads the slot is still invalid. -/
theorem witness_ASlotIsNeverValidHalfWritten :
    (at' (prompt 36 ++ [.access (.lost 9)])).ready = true ∧ (at' (prompt 36)).conf.inRange 15 = true ∧
      entryA.wf tc = true ∧ (at' (prompt 36)).validAt 15 = false ∧
      goes (exec (.loadEntry 0 15 (some entryA)) (at' (prompt 36 ++ [.access (.lost 9)])))
        (fun t => (t.slot 15).p2 == entryA.act && !t.validAt 15) = true := by decide +kernel
theorem witness_PartialEffectsOnTheTable :
    (at' (prompt 134)).ready = true ∧ (at' (prompt 134)).conf.inRange 15 = true ∧
      (10 : BitVec 4).toNat < (at' (prompt 134)).conf.nPorts ∧ advValid tc 15 0 ruleC = true ∧
      (compileRule tc ruleC 0).map List.length = some 2 ∧
      goes (exec (.advConfig 0 15 0 (some ruleC)) (at' (prompt 134))) (fun t => t.slot 15 != st.slot 15) = true := by
  decide +kernel
/-- Every operation ended, each on a run of its own; a search that finds nothing, one that finds another slot, and one
that finds its slot. -/
theorem witness_OutcomesTellTheTruth :
    let ends (i : Instr) (s : State) : Bool := s.ready && goes (exec i s) (fun t => t.lockOwner == none)
    ends (.flushAll 0 0) (at' (prompt 3)) = true ∧ ends (.flushEntry 0 15) (at' (prompt 3)) = true ∧
      (entryA.wf tc = true ∧ ends (.loadEntry 0 0 (some entryA)) (at' (prompt 67)) = true) ∧
      ends (.readEntry 0 15) (at' (prompt 67)) = true ∧
      (12 = nextValid (at' (prompt 70)) 7 ∧ ends (.getNextEntry 0 7) (at' (prompt 70)) = true) ∧
      (15 = nextValid (at' (prompt 7)) (findStart tc 13) ∧ ends (.findEntry 0 13) (at' (prompt 7)) = true) ∧
      (7 = nextValid (at' (prompt 70)) (findStart tc 7) ∧ ends (.findEntry 0 7) (at' (prompt 70)) = true) ∧
      ((10 : BitVec 4).toNat < tc.nPorts ∧ ends (.removePort 10 5) (at' (prompt 70)) = true ∧
        ends (.addPort 0 12) (at' (prompt 136)) = true) ∧
      (advValid tc 0 15 ruleC = true ∧ ends (.advConfig 0 0 15 (some ruleC)) (at' (prompt 134)) = true ∧
        ends (.advConfig 0 0 15 (some ruleC)) (at' (prompt 67)) = true) := by decide +kernel
theorem witness_LoadThenReadGivesTheEntry :
    st.ready = true ∧ st.conf.inRange 15 = true ∧ entryA.wf st.conf = true ∧
      goes (exec (.loadEntry 0 15 (some entryA)) (withMoves st (prompt (pageRegisters st.conf + 8))))
        (fun t => t.slot 15 == slotOf tc entryA) = true ∧
      goes (exec (.flushEntry 0 0) (withMoves st (prompt 3))) (fun t => t.slot 0 == emptySlot tc) = true := by
  decide +kernel
theorem witness_OperationsEndWithinTheirBound :
    let s : State := at' (List.replicate 163 (.access .ok))
    s.sized = true ∧ s.latchOk = true ∧ s.commandOk = true ∧ s.lockOwner = none ∧
      (Instr.loadEntry 0 15 (some entryA)).wf s.conf = true ∧ accepted s.conf (.loadEntry 0 15 (some entryA)) = true ∧
      (Instr.advConfig 0 0 15 (some ruleC)).wf s.conf = true ∧
      8 * s.conf.pollLimit + 2 * pageRegisters s.conf + 13 ≤ accesses s.sched := by decide +kernel
theorem witness_ABurstIsItsParts :
    accepted st.conf (.readEntry 0 15) = true ∧ st.lockOwner = none ∧ advValid st.conf 0 15 ruleC = true := by
  decide +kernel

/-- The three ways a step comes to an instruction, and the three kinds of submission. -/
theorem witness_AStepRunsTheDecodedInstruction :
    (let s : State := { st with requests := [⟨3, encode (.flushEntry 0 15)⟩], sched := [.request 5] };
      nextMove s = .request 5 ∧ s.requests[5 % s.requests.length]? = some ⟨3, encode (.flushEntry 0 15)⟩ ∧
        Sys2Proof.decode (encode (.flushEntry 0 15)) = .ok (.flushEntry 0 15) ∧
        (Instr.flushEntry 0 15).wf s.conf = true ∧
        goes (step s) (fun t => t.lockOwner == some 3 && t.op == some (.flushEntry 15)) = true) ∧
      (let s : State := { midway (.flushEntry 0 15) (.flushEntry 15) 0 0 with sched := [.access .ok] };
        s.lockOwner = some 1 ∧ nextMove s = .access .ok ∧
          s.requests.find? (fun q => q.who == 1) = some ⟨1, encode (.flushEntry 0 15)⟩ ∧
          goes (step s) (fun t => t.seqStep == 1) = true) ∧
      (let s : State :=
          { st with sched := [.request 1], requests := [⟨3, encode (.flushAll 0 0)⟩, ⟨4, encode (.readEntry 0 0)⟩] };
        2 ≤ s.requests.length ∧ nextMove s = .request 1 ∧
          s.requests[1 % s.requests.length]? = some ⟨4, encode (.readEntry 0 0)⟩ ∧
          goes (step s) (fun t => t.lockOwner == some 4) = true) ∧
      (let s : State := { latched 2 0 7 with sched := [.device] };
        s.devCmd = some ⟨2, 0, 7⟩ ∧ nextMove s = .device ∧
          Sys2Proof.decode
              ⟨.cmd, (1#1 ++ 2#3 ++ 0#2 ++ s.cmd.extractLsb' 8 2 ++ 7#8).setWidth 48, .empty⟩ =
            .ok (.flushEntryCmd 0 0 7) ∧
          goes (step s) (fun t => t.cmd == 0x2007 && !t.validAt 7) = true) ∧
      (let s : State := { at' [.submit ⟨4, encode (.flushAll 0 0)⟩] with requests := [⟨3, encode (.flushAll 0 0)⟩] };
        nextMove s = .submit ⟨4, encode (.flushAll 0 0)⟩ ∧ (∀ p ∈ s.requests, p.who ≠ 4) ∧
          goes (step s) (fun t => t.requests.map (·.who) == [3, 4]) = true) ∧
      (let s : State := { at' [.submit ⟨3, encode (.flushAll 0 0)⟩] with requests := [⟨3, encode (.flushAll 0 0)⟩] };
        (∃ p ∈ s.requests, p.who = 3) ∧ goes (step s) (fun t => t.requests.map (·.who) == [3]) = true) ∧
      isRequest st.conf (encode (.loadCmd 2 0 5)) = false ∧ isRequest st.conf ⟨.fnPlace, 0, .empty⟩ = false := by
  decide +kernel
/-- A state of the invariant with a request waiting, and one with an operation in progress; each has a next state. -/
theorem witness_EveryStepKeepsTheInvariant :
    (let s : State := { at' [.request 0] with requests := [⟨3, encode (.flushEntry 0 15)⟩] };
      s.inv = true ∧ goes (step s) (fun t => t.lockOwner == some 3) = true) ∧
      (let s : State := { midway (.flushEntry 0 15) (.flushEntry 15) 0 1 with sched := [.access .ok] };
        s.inv = true ∧ goes (step s) (fun t => t.devCmd == some ⟨2, 0, 15⟩) = true) := by decide +kernel
theorem witness_LockOwnerNoneIffIdle :
    let s : State := { at' [.request 0] with requests := [⟨3, encode (.flushEntry 0 15)⟩] }
    s.lockOk = true ∧ goes (step s) (fun t => t.fsm == .awaitingBusy) = true := by decide +kernel
theorem witness_DevCmdIffBusy :
    let s : State := { midway (.flushEntry 0 15) (.flushEntry 15) 0 1 with sched := [.access .ok] }
    s.latchOk = true ∧ goes (step s) (fun t => t.devCmd == some ⟨2, 0, 15⟩) = true ∧ (latched 5 2 15).latchOk = true ∧
      (latched 5 2 15).devCmd = some ⟨5, 2, 15⟩ := by decide +kernel
theorem witness_EveryStepKeepsTheBasicInvariant :
    let s : State := { midway (.flushEntry 0 15) (.flushEntry 15) 0 1 with sched := [.access (.landed 9)] }
    s.basic = true ∧ s.waitingOk = true ∧
      goes (step s) (fun t => t.cmd == 0xA00F && t.result == .err (.transportFailure 9)) = true := by decide +kernel
theorem witness_ADisciplinedMachineNeverStops :
    let waits (i : Instr) : State := { at' [.request 0] with requests := [⟨3, encode i⟩] }
    ((waits (.setField 0 0 16 1)).inv = true ∧ (waits (.setField 0 0 16 1)).waitingOk = true ∧
        stops (waits (.setField 0 0 16 1)) .codecPrecondition = true) ∧
      (waits (.pageImage entryA 3)).inv = true ∧ (waits (.pageImage entryA 3)).waitingOk = true ∧
      stops (waits (.pageImage entryA 3)) .noSuchPage = true := by
  decide +kernel
/-- A packet that no submission lets in is refused when it is presented. -/
theorem test_register_word_is_refused :
    stops { at' [.request 0] with requests := [⟨3, encode (.loadCmd 2 3 255)⟩] } .rawAccess = true ∧
      ({ at' [.request 0] with requests := [⟨3, encode (.cmdReserved6 0 0 0)⟩] } : State).waitingOk = false := by
  decide +kernel
/-- While the command is latched, a poll goes by. -/
theorem witness_NothingMovesUnderALatchedCommand :
    let s : State :=
      { midway (.flushEntry 0 7) (.flushEntry 7) 1 0 with
        cmd := 0xA007, devCmd := some ⟨2, 0, 7⟩, sched := [.access .ok] }
    s.inv = true ∧ goes (step s) (fun t => t.devCmd == some ⟨2, 0, 7⟩ && t.pollCnt == 1) = true := by decide +kernel

end Sys2Proof.Tests
end

/-! What one step of the machine is made of, and the latch (10_state.md R35): `dev_cmd` and `CMD.BUSY` say the same
after every change the block can undergo. -/

namespace Sys2Proof.Machine

/-! ## What a step is made of -/

/-- One change of the state while an instruction runs (R20): the device's one step, one access of the controller, one
register write, a lock taken with the buffers staged, a request turned away, a function's answer, a submission, or the
model's own notes of who presents what and of the moves that are left. -/
inductive Change (s : State) : State → Prop
  | device {t : State} (h : devComplete s = .next t) : Change s t
  | access {t : State} (ans : Answer) (h : ctlStep ans s = .next t) : Change s t
  | written {t : State} (block off : Nat) (w : Word) (h : writeReg s block off w = .next t) : Change s t
  | taken (op : Op) (e1 e2 : Entry) (free : s.lockOwner = none) : Change s { s.acquire op with e1 := e1, e2 := e2 }
  | rejected : Change s (s.deliver (.err .invalidArgument))
  | answered (v : FnValue) : Change s (s.answer v)
  | submitted (q : Submission) : Change s (s.submit q)
  | noted (caller : Nat) (turn : Turn) (sched : List Move) (drawn : Nat) :
      Change s { s with caller := caller, turn := turn, sched := sched, drawn := drawn }

/-- Any number of changes, one after another. -/
abbrev Changes : State → State → Prop := Relation.ReflTransGen Change

/-- What every change keeps, any number of them keeps. -/
theorem Changes.keep {P : State → Prop} (hP : ∀ {s t : State}, Change s t → P s → P t) {s t : State}
    (h : Changes s t) (hs : P s) : P t := by
  induction h with
  | refl => exact hs
  | tail _ hc ih => exact hP hc ih

/-! ## Register words -/

/-- What the controller writes to `CMD` is a register write (R62). -/
theorem writeCmd_changes {s t : State} {w : Word} (h : writeCmd s w = .next t) : Changes s t :=
  .single (.written s.conf.tb s.conf.cmdOff w (by simpa [writeReg] using h))

/-- What the controller writes to `EXT` is a register write (R62). -/
theorem writeExt_changes {s t : State} {w : Word} (h : writeExt s w = .next t) : Changes s t :=
  .single (.written s.conf.tb s.conf.extOff w (by simpa [writeReg, Ne.symm s.cfg.offsets.2.1] using h))

/-- A command word whose effect is what `DevComplete` does for the latched command is a step of the device, or a
register write of the controller's (R210, R211). -/
theorem commandWord_changes {op : BitVec 3} {page rsvd : BitVec 2} {index : Index} {effect : State → Out} {s t : State}
    (he : s.devCmd = some ⟨op, page, index⟩ → effect s = devComplete s)
    (h : commandWord op page rsvd index effect s = .next t) : Changes s t := by
  rcases commandWord_eq_next h with ⟨-, hd, h⟩ | ⟨-, -, h⟩
  · exact .single (.device (he hd ▸ h))
  · exact writeCmd_changes h

/-! ## Requests -/

theorem applyMove_changes {m : Move} {s t : State} (h : applyMove m s = .next t) : Changes s t := by
  cases m with
  | device => exact .single (.device h)
  | access ans => exact .single (.access ans h)
  | request k => cases h; exact .refl
  | submit q => cases h; exact .refl

theorem runMoves_changes {ms : List Move} {s t : State} (h : runMoves ms s = .next t) : Changes s t := by
  induction ms generalizing s with
  | nil => cases h; exact .refl
  | cons m ms ih =>
    rw [runMoves] at h
    split at h
    · cases h
      exact .single (.noted s.caller s.turn _ s.drawn)
    · obtain ⟨u, hu, h⟩ := andThen_eq_next h
      exact (applyMove_changes hu).trans (ih h)

theorem goOn_changes {s t : State} (h : goOn s = .next t) : Changes s t :=
  .head (.noted s.caller s.turn [] s.drawn) (runMoves_changes h)

theorem reject_changes {s t : State} (h : reject s = .next t) : Changes s t := by
  simp only [reject] at h
  split at h
  · cases h
    exact .refl
  · cases h
    exact .single .rejected

/-- A request that validation accepts runs its operation, waits, or takes the lock and stages the buffers (R230). -/
theorem perform_changes {op : Op} {stage : State → State} {s t : State}
    (hst : ∃ e1 e2, stage (s.acquire op) = { s.acquire op with e1 := e1, e2 := e2 })
    (h : perform op stage s = .next t) : Changes s t := by
  simp only [perform] at h
  split at h
  · split at h
    · exact goOn_changes h
    · cases h
      exact .refl
  split at h
  · rename_i hfree
    obtain ⟨e1, e2, e⟩ := hst
    exact .head (.taken op e1 e2 hfree) (e ▸ goOn_changes h)
  · cases h
    exact .refl

/-- A request that is performed if a check of its operands holds, and else turned away (R232). -/
theorem checked_changes {b : Bool} {op : Op} {stage : State → State} {s t : State}
    (hst : ∃ e1 e2, stage (s.acquire op) = { s.acquire op with e1 := e1, e2 := e2 })
    (h : (if b then perform op stage s else reject s) = .next t) : Changes s t := by
  split at h
  · exact perform_changes hst h
  · exact reject_changes h

theorem advMainTenure_changes {i j : Index} {es : List Entry} {s t : State}
    (h : advMainTenure i j es s = .next t) : Changes s t := by
  simp only [advMainTenure] at h
  split at h
  · exact perform_changes ⟨_, _, rfl⟩ h
  · exact perform_changes ⟨_, _, rfl⟩ h
  · exact reject_changes h

theorem advTenures_changes {i j : Index} {es : List Entry} {s t : State}
    (h : advTenures i j es s = .next t) : Changes s t := by
  simp only [advTenures] at h
  split at h
  · split at h
    · exact advMainTenure_changes h
    obtain ⟨u, hu, h⟩ := andThen_eq_next h
    refine (perform_changes ⟨_, _, rfl⟩ hu).trans ?_
    split at h
    · exact advMainTenure_changes h
    · cases h
      exact .refl
  · exact advMainTenure_changes h

theorem execAdvConfig_changes {port : BitVec 4} {i j : Index} {rule : Option Rule} {s t : State}
    (h : execAdvConfig port i j rule s = .next t) : Changes s t := by
  simp only [execAdvConfig] at h
  split at h
  · exact reject_changes h
  split at h
  · split at h
    · exact advTenures_changes h
    · exact reject_changes h
  · exact reject_changes h

/-! ## Every instruction, every step -/

/-- Everything an instruction can do, whoever presents it, is some changes one after another. -/
theorem exec_changes {i : Instr} {s t : State} (h : exec i s = .next t) : Changes s t := by
  cases i with
  | cmdStore => exact writeCmd_changes (registerWrite_eq_next h).2.2
  | extSelect => exact writeExt_changes (registerWrite_eq_next h).2.2
  | nop | flushAllCmd | flushEntryCmd | loadCmd | getNextCmd | readCmd =>
    simp only [exec, execNop, execFlushAllCmd, execFlushEntryCmd, execLoadCmd, execGetNextCmd, execReadCmd] at h
    exact commandWord_changes (fun hd => by simp [devComplete, hd]) h
  | cmdReserved6 | cmdReserved7 => cases h
  | flushAll => exact perform_changes ⟨s.e1, s.e2, rfl⟩ h
  | flushEntry | getNextEntry | readEntry | findEntry | addPort | removePort =>
    exact checked_changes ⟨s.e1, s.e2, rfl⟩ h
  | loadEntry port index entry =>
    cases entry with
    | none => exact reject_changes h
    | some e => exact checked_changes ⟨e, s.e2, rfl⟩ h
  | advConfig port => exact execAdvConfig_changes (port := port) h
  | reqReserved0 | reqReservedA | reqReservedB | reqReservedC | reqReservedD | reqReservedE | reqReservedF =>
    exact reject_changes h
  | setField =>
    simp only [exec, execSetField] at h
    split at h <;> cases h
    exact .single (.answered _)
  | getField =>
    simp only [exec, execGetField] at h
    split at h <;> cases h
    exact .single (.answered _)
  | compile =>
    simp only [exec, execCompile] at h
    split at h <;> cases h <;> exact .single (.answered _)
  | pageImage =>
    simp only [exec, execPageImage] at h
    split at h <;> cases h
    exact .single (.answered _)
  | mapIPv4 | mapIPv6 | mapTCPv4 | mapUDPv4 | mapTCPv6 | mapUDPv6 | shapeUnsupported | needsSecondSlot | decode
  | mapPrefix | place | encodeKey | encodeActions | entryOfPages | link | isSecondSlotUsed | modifyPort | cmdword =>
    cases h
    exact .single (.answered _)

theorem execWith_changes {moves : List Move} {i : Instr} {s t : State} (h : execWith moves i s = .next t) :
    Changes s t := by
  obtain ⟨u, hu, h⟩ := andThen_eq_next h
  cases h
  exact .head (.noted s.caller s.turn moves s.drawn) ((exec_changes hu).tail (.noted u.caller .port _ u.drawn))

theorem present_changes {moves : List Move} {q : Submission} {s t : State} (h : present moves q s = .next t) :
    Changes s t := by
  simp only [present] at h
  split at h
  · cases h
  split at h
  · exact .head (.noted q.who .port s.sched s.drawn) (execWith_changes h)
  · cases h

theorem deviceTurn_changes {s t : State} (h : deviceTurn s = .next t) : Changes s t := by
  simp only [deviceTurn] at h
  split at h
  · cases h
    exact .refl
  split at h
  · cases h
  · exact .head (.noted s.caller .device s.sched s.drawn) (execWith_changes h)

theorem makeMove_changes {m : Move} {s t : State} (h : makeMove m s = .next t) : Changes s t := by
  cases m with
  | device => exact deviceTurn_changes h
  | submit q => cases h; exact .single (.submitted q)
  | access ans =>
    simp only [makeMove, ownerTurn] at h
    split at h
    · split at h
      · exact present_changes h
      · cases h
        exact .refl
    · cases h
      exact .refl
  | request k =>
    simp only [makeMove, presentNth] at h
    split at h
    · exact present_changes h
    · cases h
      exact .refl

theorem dropMove_changes (s : State) : Changes s (dropMove s) := by
  simp only [dropMove]
  split
  · exact .single (.noted s.caller s.turn _ s.drawn)
  · exact .single (.noted s.caller s.turn s.sched (s.drawn + 1))

/-- Everything a step can do, whatever is presented, is some changes one after another (R20, R352). -/
theorem step_changes {s t : State} (h : step s = .next t) : Changes s t :=
  (dropMove_changes s).trans (makeMove_changes h)

/-! ## The latch -/

/-- A field read from a word and cut to its width is that slice of the word (R141). -/
theorem setWidth_getField (w : Word) (f : BitField) :
    (getField w f).setWidth f.width = w.extractLsb' f.offset f.width := by
  refine BitVec.eq_of_getLsbD_eq fun b hb => ?_
  simp [getField_getLsbD, hb]

/-- The triple `(op, page, index)` of a command word (R35, R91). -/
def latchOf (w : Word) : DevCmd := ⟨cmdOp w, cmdPage w, cmdIndex w⟩

/-- The triple, as slices of the command word. -/
theorem latchOf_eq (w : Word) : latchOf w = ⟨w.extractLsb' 12 3, w.extractLsb' 10 2, w.extractLsb' 0 8⟩ := by
  have hop : cmdOp w = w.extractLsb' 12 3 := setWidth_getField w opBits
  have hpage : cmdPage w = w.extractLsb' 10 2 := setWidth_getField w pageBits
  have hindex : cmdIndex w = w.extractLsb' 0 8 := setWidth_getField w indexBits
  rw [latchOf, hop, hpage, hindex]

/-- The invariant of the latch as one equation: the latch is determined by the command register. -/
theorem State.latchOk_iff (s : State) :
    s.latchOk = true ↔ s.devCmd = if busyFlag s.cmd then some (latchOf s.cmd) else none := by
  cases hd : s.devCmd with
  | none => simp [State.latchOk, State.busy, hd]
  | some d =>
    obtain ⟨op, page, index⟩ := d
    simp [State.latchOk, State.busy, latchOf, hd, and_assoc, eq_comm (a := DevCmd.mk op page index)]

/-- The latch's invariant speaks of `CMD` and `dev_cmd` alone. -/
theorem State.latchOk_congr {s t : State} (hc : t.cmd = s.cmd) (hd : t.devCmd = s.devCmd) (h : s.latchOk = true) :
    t.latchOk = true := by
  simpa only [State.latchOk_iff, hc, hd] using h

/-- A command that completes clears `BUSY` and empties the latch (R211). -/
theorem State.complete_latchOk (s : State) : s.complete.latchOk = true := by
  have hb : busyFlag s.complete.cmd = false := by
    rw [busyFlag_eq, State.complete_cmd, setField_getLsbD _ _ _ _ (by decide)]
    simp
  rw [State.latchOk_iff, hb]
  rfl

theorem devComplete_latchOk {s t : State} (h : devComplete s = .next t) (hs : s.latchOk = true) :
    t.latchOk = true := by
  rcases devComplete_cases h with ⟨-, rfl⟩ | ⟨d, -, h⟩
  · exact hs
  · rcases h with ⟨-, rfl⟩ | ⟨-, rfl⟩ | ⟨-, -, rfl⟩ | ⟨-, -, -, rfl⟩ | ⟨-, -, rfl⟩ | ⟨-, -, -, rfl⟩ <;>
      exact State.complete_latchOk _

/-- A write to `CMD` finds nothing latched, since it is refused while `BUSY` is 1, and latches the word it writes if
that has `BUSY` set (R210). -/
theorem writeCmd_latchOk {s t : State} {w : Word} (h : writeCmd s w = .next t) (hs : s.latchOk = true) :
    t.latchOk = true := by
  obtain ⟨hb, ⟨hw, rfl⟩ | ⟨hw, rfl⟩⟩ := writeCmd_cases h
  · have hnone : s.devCmd = none := by simpa [show busyFlag s.cmd = false from hb] using (State.latchOk_iff s).1 hs
    simp [State.latchOk_iff, hw, hnone]
  · simp [State.latchOk_iff, hw, latchOf, cmdOp, cmdPage, cmdIndex]

theorem writeReg_latchOk {s t : State} {block off : Nat} {w : Word} (h : writeReg s block off w = .next t)
    (hs : s.latchOk = true) : t.latchOk = true := by
  obtain ⟨-, h | rfl | ⟨k, rfl⟩⟩ := writeReg_cases h
  · exact writeCmd_latchOk h hs
  · exact State.latchOk_congr rfl rfl hs
  · exact State.latchOk_congr rfl rfl hs

/-- Of all that an access touches only a register write can reach `CMD` or the latch. -/
theorem Touches.latchOk {s u : State} (h : Touches s u) (hs : s.latchOk = true) : u.latchOk = true := by
  cases h with
  | register hw => exact writeReg_latchOk hw hs
  | _ => exact State.latchOk_congr rfl rfl hs

/-- Where the sequencer goes next leaves `CMD` and the latch alone; an abort undoes nothing (R310). -/
theorem Continues.latchOk {u t : State} (h : Continues u t) (hu : u.latchOk = true) : t.latchOk = true := by
  cases h <;> exact State.latchOk_congr rfl rfl hu

/-- Every change keeps the latch's invariant. -/
theorem Change.latchOk {s t : State} (h : Change s t) (hs : s.latchOk = true) : t.latchOk = true := by
  cases h with
  | device h => exact devComplete_latchOk h hs
  | access ans h =>
    obtain ⟨u, hu, ht⟩ := ctlStep_cases h
    exact ht.latchOk (hu.latchOk hs)
  | written block off w h => exact writeReg_latchOk h hs
  | taken | rejected | answered | submitted | noted => exact State.latchOk_congr rfl rfl hs

theorem step_latchOk {s t : State} (hs : s.latchOk = true) (h : step s = .next t) : t.latchOk = true :=
  (step_changes h).keep (P := fun s => s.latchOk = true) Change.latchOk hs

/-- After reset `BUSY` is 0, whatever the other bits of `CMD` hold (R41). -/
theorem reset_latchOk : State.reset.latchOk = true := by
  have hb : busyFlag State.reset.cmd = false := by
    rw [busyFlag_eq]
    exact (BitVec.getLsbD_append (x := 0#1) (y := Config.powerUpCmd) (i := 15)).trans (by simp)
  rw [State.latchOk_iff, hb]
  rfl

/-- In a state of the latch's invariant a command is latched exactly while `CMD.BUSY` is 1, and it is the triple of the
command word (R35). -/
theorem State.devCmd_of_latchOk {s : State} (hs : s.latchOk = true) :
    (s.devCmd ≠ none ↔ s.cmd.getLsbD 15 = true) ∧
      ∀ d, s.devCmd = some d → d = ⟨s.cmd.extractLsb' 12 3, s.cmd.extractLsb' 10 2, s.cmd.extractLsb' 0 8⟩ := by
  rw [State.latchOk_iff] at hs
  rw [hs, ← busyFlag_eq, ← latchOf_eq]
  cases busyFlag s.cmd with
  | true => exact ⟨by simp, fun d hd => (Option.some.inj hd).symm⟩
  | false => exact ⟨by simp, fun d hd => nomatch hd⟩

/-- Settles O54: the invariant of the latch says what R35 says, every change a step is made of keeps it, and `readReg`
never looks at `dev_cmd`. -/
theorem devCmdIffBusy : Obligations.DevCmdIffBusy :=
  ⟨fun _ => State.devCmd_of_latchOk, fun _ _ => step_latchOk, reset_latchOk, rfl, fun _ _ _ _ => rfl⟩

end Sys2Proof.Machine

/-! ## The status and cause codes of the outcomes (R120, R121, R281) -/

namespace Sys2Proof.Machine

/-- Causes 5 to 7 are unused (R121); the code looks at the kind of the cause only, so the transport's own error value
cannot push it higher (R303). -/
theorem Result.causeCode_le_four (r : Result) : r.causeCode.toNat ≤ 4 := by
  cases r with
  | ok v => simp [Result.causeCode]
  | err c => cases c <;> simp [Result.causeCode]

/-- Settles O44: one clause per constructor of the outcome, read off the tables of codes, and the bound on the cause
code of any outcome. -/
theorem statusAndCauseCodes : Obligations.StatusAndCauseCodes :=
  ⟨fun _ => ⟨rfl, rfl⟩, rfl, rfl, rfl, rfl, rfl, rfl, fun _ => ⟨rfl, rfl⟩, Result.causeCode_le_four⟩

end Sys2Proof.Machine

/-! ## The Field Codec as instructions (R140, R141) -/

namespace Sys2Proof.Machine

open Sys2Proof.Claims (answered)

/-- `answered` writes the model's own `State.answer` out field by field. -/
theorem answered_eq_answer (s : State) (v : FnValue) : answered s v = s.answer v := rfl

/-- `SET_FIELD` on a field inside the word answers `setField` of that field (R140). -/
theorem exec_setField_of_fits (word value : Word) {offset width : BitVec 5} (s : State)
    (h : offset.toNat + width.toNat ≤ 16) :
    exec (.setField word value offset width) s =
      .next (answered s (.word (setField word value ⟨offset.toNat, width.toNat, h⟩))) := by
  rw [answered_eq_answer]
  exact dif_pos h

/-- `GET_FIELD` on a field inside the word answers `getField` of that field (R141). -/
theorem exec_getField_of_fits (word : Word) {offset width : BitVec 5} (s : State)
    (h : offset.toNat + width.toNat ≤ 16) :
    exec (.getField word offset width) s =
      .next (answered s (.word (getField word ⟨offset.toNat, width.toNat, h⟩))) := by
  rw [answered_eq_answer]
  exact dif_pos h

/-- Settles O4: the answer is `setField` of the field, whose bits are `setField_getLsbD`; the example is the word that
`setField` computes. -/
theorem setFieldWritesItsBitsOnly : Obligations.SetFieldWritesItsBitsOnly := by
  refine ⟨fun word value offset width s h => ?_, fun s => ?_⟩
  · exact ⟨_, exec_setField_of_fits word value s h, setField_getLsbD word value ⟨offset.toNat, width.toNat, h⟩⟩
  · have hword : setField 0xFFFF 0x5 (bitField 4 3) = 0xFFDF := by decide
    rw [← hword]
    exact exec_setField_of_fits 0xFFFF 0x5 s (by decide)

/-- Settles O5: the answer is `getField` of the field, whose bits are `getField_getLsbD`; the example is the word that
`getField` computes. -/
theorem getFieldReadsItsBits : Obligations.GetFieldReadsItsBits := by
  refine ⟨fun word offset width s h => ?_, fun s => ?_⟩
  · exact ⟨_, exec_getField_of_fits word s h, getField_getLsbD word ⟨offset.toNat, width.toNat, h⟩⟩
  · have hword : getField 0xFFDF (bitField 4 3) = 0x5 := by decide
    rw [← hword]
    exact exec_getField_of_fits 0xFFDF s (by decide)

end Sys2Proof.Machine

/-! ## The mappers of the layout and of the protocol shapes (R154, R172, R181 to R186)

Every mapper places the rows of its table one after another. What such a run of placements does is proved once, for any
table whose rows ascend through the window; a mapper then only needs its table to be one of those. -/

namespace Sys2Proof.Claims

/-- The first string position of the field (R13). -/
def WinField.start (f : WinField) : Nat := 8 * f.L + f.s

/-- The string position just after the field (R13). -/
def WinField.stop (f : WinField) : Nat := 8 * f.L + f.s + f.w

/-- The window with the row's pattern and mask placed at its bits (R180). -/
def placeRow (W : Window) (f : WinField) : Window := place W f.L f.s f.w f.pat f.mask

/-- The window with the rows of a table placed one after another. -/
def placeRows (fs : List WinField) (W : Window) : Window := fs.foldl placeRow W

@[simp] theorem placeRows_nil (W : Window) : placeRows [] W = W := rfl

@[simp] theorem placeRows_cons (f : WinField) (fs : List WinField) (W : Window) :
    placeRows (f :: fs) W = placeRows fs (placeRow W f) := rfl

/-! ### One row -/

/-- Pattern and mask are numbers of the field's width, so that placing them cuts nothing off. -/
def WinField.Narrow (f : WinField) : Prop := f.pat < 2 ^ f.w ∧ f.mask < 2 ^ f.w

@[simp] theorem row_start {w : Nat} (L s : Nat) (f : Pair w) : (row L s f).start = 8 * L + s := rfl

@[simp] theorem row_stop {w : Nat} (L s : Nat) (f : Pair w) : (row L s f).stop = 8 * L + s + w := rfl

@[simp] theorem row_narrow {w : Nat} (L s : Nat) (f : Pair w) : (row L s f).Narrow := ⟨f.pat.isLt, f.mask.isLt⟩

/-- A row just placed is read back whole. -/
theorem extract_placeRow_self (W : Window) {f : WinField} (hin : f.stop ≤ windowBits) (hf : f.Narrow) :
    extract (placeRow W f) f.L f.s f.w = (f.pat, f.mask) := by
  obtain ⟨hpat, hmask⟩ := hf
  rw [placeRow, extract_place_self _ _ _ _ _ _ hin, Nat.mod_eq_of_lt hpat, Nat.mod_eq_of_lt hmask]

/-- A bit that the row does not cover is as before. -/
theorem placeRow_getMsbD_of_not_covers (W : Window) {f : WinField} {q : Nat} (hin : f.stop ≤ windowBits)
    (hq : q < windowBits) (hc : ¬ f.covers q) :
    (placeRow W f).v.getMsbD q = W.v.getMsbD q ∧ (placeRow W f).m.getMsbD q = W.m.getMsbD q := by
  obtain ⟨hv, hm⟩ := place_getMsbD W f.L f.s f.w f.pat f.mask q hin hq
  exact ⟨hv.trans (if_neg hc), hm.trans (if_neg hc)⟩

/-! ### A table -/

/-- The rows of the table lie inside the window, hold numbers of their width, and ascend: each begins where those
before it have ended, or later. -/
structure Ascending (fs : List WinField) : Prop where
  inside : ∀ f ∈ fs, f.stop ≤ windowBits
  narrow : ∀ f ∈ fs, f.Narrow
  ordered : fs.Pairwise fun f g => f.stop ≤ g.start

/-- A field that ends before every row of the table begins reads as before. -/
theorem extract_placeRows_of_before {f : WinField} {fs : List WinField} (hf : f.stop ≤ windowBits)
    (hin : ∀ g ∈ fs, g.stop ≤ windowBits) (hfs : ∀ g ∈ fs, f.stop ≤ g.start) (W : Window) :
    extract (placeRows fs W) f.L f.s f.w = extract W f.L f.s f.w := by
  induction fs generalizing W with
  | nil => rfl
  | cons g fs ih =>
    rw [List.forall_mem_cons] at hin hfs
    rw [placeRows_cons, ih hin.2 hfs.2]
    exact extract_place_apart W _ _ _ _ _ _ _ _ hin.1 hf (.inr hfs.1)

/-- A bit that no row of the table covers is as before. -/
theorem placeRows_getMsbD_of_not_covers {fs : List WinField} (hin : ∀ f ∈ fs, f.stop ≤ windowBits) {q : Nat}
    (hq : q < windowBits) (hc : ∀ f ∈ fs, ¬ f.covers q) (W : Window) :
    (placeRows fs W).v.getMsbD q = W.v.getMsbD q ∧ (placeRows fs W).m.getMsbD q = W.m.getMsbD q := by
  induction fs generalizing W with
  | nil => exact ⟨rfl, rfl⟩
  | cons f fs ih =>
    rw [List.forall_mem_cons] at hin hc
    obtain ⟨hv, hm⟩ := placeRow_getMsbD_of_not_covers W hin.1 hq hc.1
    obtain ⟨hvs, hms⟩ := ih hin.2 hc.2 (placeRow W f)
    exact ⟨hvs.trans hv, hms.trans hm⟩

/-- Every row of an ascending table is read back after the table is placed: the rows after it begin where it has ended. -/
theorem extract_placeRows_of_mem {fs : List WinField} (h : Ascending fs) (W : Window) :
    ∀ f ∈ fs, extract (placeRows fs W) f.L f.s f.w = (f.pat, f.mask) := by
  obtain ⟨hin, hnarrow, hord⟩ := h
  induction fs generalizing W with
  | nil => simp
  | cons f fs ih =>
    rw [List.forall_mem_cons] at hin hnarrow ⊢
    obtain ⟨hbefore, hord⟩ := List.pairwise_cons.1 hord
    refine ⟨?_, ih (placeRow W f) hin.2 hnarrow.2 hord⟩
    rw [placeRows_cons, extract_placeRows_of_before hin.1 hin.2 hbefore, extract_placeRow_self W hin.1 hnarrow.1]

/-- Placing an ascending table puts its fields, and nothing else, into the window (R172). -/
theorem Ascending.placesExactly {fs : List WinField} (h : Ascending fs) (W : Window) :
    PlacesExactly fs W (placeRows fs W) :=
  ⟨extract_placeRows_of_mem h W, fun _ hq hc => placeRows_getMsbD_of_not_covers h.inside hq hc W⟩

/-! ### The tables of the spec ascend -/

theorem macTable_ascending (f : MacFields) : Ascending (macTable f) where
  inside := by simp [macTable, windowBits]
  narrow := by simp [macTable]
  ordered := by simp [macTable]

theorem ipv4Table_ascending (h : IPv4) : Ascending (ipv4Table h) where
  inside := by simp [ipv4Table, windowBits]
  narrow := by simp [ipv4Table]
  ordered := by simp [ipv4Table]

theorem ipv6Table_ascending (h : IPv6) : Ascending (ipv6Table h) where
  inside := by simp [ipv6Table, windowBits]
  narrow := by simp [ipv6Table]
  ordered := by simp [ipv6Table]

theorem tcp4Table_ascending (h : TCP) : Ascending (tcp4Table h) where
  inside := by simp [tcp4Table, windowBits]
  narrow := by simp [tcp4Table]
  ordered := by simp [tcp4Table]

theorem tcp6Table_ascending (h : TCP) : Ascending (tcp6Table h) where
  inside := by simp [tcp6Table, windowBits]
  narrow := by simp [tcp6Table]
  ordered := by simp [tcp6Table]

theorem udp4Table_ascending (h : UDP) : Ascending (udp4Table h) where
  inside := by simp [udp4Table, windowBits]
  narrow := by simp [udp4Table]
  ordered := by simp [udp4Table]

theorem udp6Table_ascending (h : UDP) : Ascending (udp6Table h) where
  inside := by simp [udp6Table, windowBits]
  narrow := by simp [udp6Table]
  ordered := by simp [udp6Table]

/-! ### The mappers place their tables -/

theorem mapPrefix_eq_placeRows (f : MacFields) (W : Window) : mapPrefix f W = placeRows (macTable f) W := rfl

theorem mapIPv4_eq_placeRows (h : IPv4) (W : Window) : mapIPv4 h W = placeRows (ipv4Table h) W := rfl

theorem mapIPv6_eq_placeRows (h : IPv6) (W : Window) : mapIPv6 h W = placeRows (ipv6Table h) W := rfl

theorem mapTCPv4_eq_placeRows (h : TCP) (W : Window) : mapTCPv4 h W = placeRows (tcp4Table h) W := rfl

theorem mapTCPv6_eq_placeRows (h : TCP) (W : Window) : mapTCPv6 h W = placeRows (tcp6Table h) W := rfl

theorem mapUDPv4_eq_placeRows (h : UDP) (W : Window) : mapUDPv4 h W = placeRows (udp4Table h) W := rfl

theorem mapUDPv6_eq_placeRows (h : UDP) (W : Window) : mapUDPv6 h W = placeRows (udp6Table h) W := rfl

end Sys2Proof.Claims

namespace Sys2Proof.Machine

open Sys2Proof.Claims

theorem exec_mapPrefix (mac : MacFields) (W : Window) (s : State) :
    exec (.mapPrefix mac W) s = .next (answered s (.window (mapPrefix mac W))) := rfl

theorem exec_mapIPv4 (udp : BitVec 1) (l3 : IPv4) (W : Window) (s : State) :
    exec (.mapIPv4 udp l3 W) s = .next (answered s (.window (mapIPv4 l3 W))) := rfl

theorem exec_mapIPv6 (udp : BitVec 1) (l3 : IPv6) (W : Window) (s : State) :
    exec (.mapIPv6 udp l3 W) s = .next (answered s (.window (mapIPv6 l3 W))) := rfl

theorem exec_mapTCPv4 (l4 : TCP) (W : Window) (s : State) :
    exec (.mapTCPv4 l4 W) s = .next (answered s (.window (mapTCPv4 l4 W))) := rfl

theorem exec_mapTCPv6 (l4 : TCP) (W : Window) (s : State) :
    exec (.mapTCPv6 l4 W) s = .next (answered s (.window (mapTCPv6 l4 W))) := rfl

theorem exec_mapUDPv4 (l4 : UDP) (W : Window) (s : State) :
    exec (.mapUDPv4 l4 W) s = .next (answered s (.window (mapUDPv4 l4 W))) := rfl

theorem exec_mapUDPv6 (l4 : UDP) (W : Window) (s : State) :
    exec (.mapUDPv6 l4 W) s = .next (answered s (.window (mapUDPv6 l4 W))) := rfl

/-- An instruction that answers a window with an ascending table placed in it answers that table placed exactly. -/
theorem exists_answered_placesExactly {i : Instr} {s : State} {fs : List WinField} {W V : Window}
    (hexec : exec i s = .next (answered s (.window V))) (hplace : V = placeRows fs W) (hfs : Ascending fs) :
    ∃ W', exec i s = .next (answered s (.window W')) ∧ PlacesExactly fs W W' :=
  ⟨V, hexec, hplace ▸ hfs.placesExactly W⟩

/-- Settles O9: each mapper answers the window in which it has placed its table row by row, and its table ascends. -/
theorem mappersPlaceTheirFieldsOnly : Obligations.MappersPlaceTheirFieldsOnly := by
  refine fun W s => ⟨fun mac => ?mac, fun udp l3 => ?ipv4, fun udp l3 => ?ipv6, fun l4 => ?tcp4, fun l4 => ?tcp6,
    fun l4 => ?udp4, fun l4 => ?udp6⟩
  case mac =>
    exact exists_answered_placesExactly (exec_mapPrefix mac W s) (mapPrefix_eq_placeRows mac W) (macTable_ascending mac)
  case ipv4 =>
    exact exists_answered_placesExactly (exec_mapIPv4 udp l3 W s) (mapIPv4_eq_placeRows l3 W) (ipv4Table_ascending l3)
  case ipv6 =>
    exact exists_answered_placesExactly (exec_mapIPv6 udp l3 W s) (mapIPv6_eq_placeRows l3 W) (ipv6Table_ascending l3)
  case tcp4 =>
    exact exists_answered_placesExactly (exec_mapTCPv4 l4 W s) (mapTCPv4_eq_placeRows l4 W) (tcp4Table_ascending l4)
  case tcp6 =>
    exact exists_answered_placesExactly (exec_mapTCPv6 l4 W s) (mapTCPv6_eq_placeRows l4 W) (tcp6Table_ascending l4)
  case udp4 =>
    exact exists_answered_placesExactly (exec_mapUDPv4 l4 W s) (mapUDPv4_eq_placeRows l4 W) (udp4Table_ascending l4)
  case udp6 =>
    exact exists_answered_placesExactly (exec_mapUDPv6 l4 W s) (mapUDPv6_eq_placeRows l4 W) (udp6Table_ascending l4)

end Sys2Proof.Machine

/-! ## Which shapes need a second slot (R200) -/

namespace Sys2Proof.Machine

open Sys2Proof.Claims

/-- Plain IPv4-UDP is the one shape that fits a single slot. -/
theorem needsSecondSlot_eq_false_iff (shape : BitVec 2) : needsSecondSlot shape = false ↔ shape = 0b01 := by
  revert shape
  decide

theorem needsSecondSlot_of_ne {shape : BitVec 2} (h : shape ≠ 0b01) : needsSecondSlot shape = true :=
  Bool.eq_true_of_not_eq_false (mt (needsSecondSlot_eq_false_iff shape).mp h)

theorem exec_needsSecondSlot (shape : BitVec 2) (s : State) :
    exec (.needsSecondSlot shape) s = .next (answered s (.flag (needsSecondSlot shape))) := rfl

/-- Settles O14: the answer is `needsSecondSlot` of the tag, which is false of the IPv4-UDP tag alone; the formula on
the tag's two bits is the model's own. -/
theorem needsSecondSlotIsAPropertyOfTheShape : Obligations.NeedsSecondSlotIsAPropertyOfTheShape := by
  refine fun s => ⟨?ipv4Tcp, ?ipv4Udp, ?ipv6Tcp, ?ipv6Udp, fun shape => exec_needsSecondSlot shape s⟩
  case ipv4Udp => rw [exec_needsSecondSlot, (needsSecondSlot_eq_false_iff _).mpr rfl]
  case ipv4Tcp | ipv6Tcp | ipv6Udp => rw [exec_needsSecondSlot, needsSecondSlot_of_ne (by decide)]

end Sys2Proof.Machine

/-! ## Which commands the controller issues (R218, R235 to R247, R285) -/

namespace Sys2Proof.Machine

section

variable {op : BitVec 3} {page : BitVec 2} {index : Index}

theorem issue_not_mem_writePage (c : Cfg) (e : Entry) (p : Nat) : Access.issue op page index ∉ writePage c e p := by
  simp [writePage]

theorem issue_not_mem_readPage (c : Cfg) (p : Nat) : Access.issue op page index ∉ readPage c p := by
  simp [readPage]

/-- `LoadBody` issues `LOAD` only. -/
theorem op_of_issue_mem_loadBody {c : Cfg} {e : Entry} {i : Index} {k : Nat}
    (h : Access.issue op page index ∈ loadBody c e i k) : op = opLoad := by
  match k with
  | 0 | 1 | 2 => simp_all [loadBody, issue_not_mem_writePage]
  | _ + 3 => simp [loadBody] at h

/-- `ReadBody` issues `READ` only. -/
theorem op_of_issue_mem_readBody {c : Cfg} {i : Index} {k : Nat}
    (h : Access.issue op page index ∈ readBody c i k) : op = opRead := by
  match k with
  | 0 | 1 | 2 => simp_all [readBody, issue_not_mem_readPage]
  | 3 => exact absurd h (issue_not_mem_readPage c 2)
  | _ + 4 => simp [readBody] at h

/-- `GetNextBody` issues `GET_NEXT`, then what `ReadBody` issues. -/
theorem op_of_issue_mem_getNextBody {c : Cfg} {i hwIndex : Index} {k : Nat}
    (h : Access.issue op page index ∈ getNextBody c i hwIndex k) : op = opGetNext ∨ op = opRead := by
  match k with
  | 0 =>
    left
    simp_all [getNextBody]
  | 1 =>
    have hread : Access.issue op page index ∈ readBody c hwIndex 0 := by
      simp only [getNextBody] at h
      split at h <;> simpa using h
    exact .inr (op_of_issue_mem_readBody hread)
  | _ + 2 => exact .inr (op_of_issue_mem_readBody h)

/-- `AddPort` and `RemovePort` issue the commands of their search and of their load. -/
theorem op_of_issue_mem_modifyBody {c : Cfg} {e : Entry} {i hwIndex : Index} {k : Nat}
    (h : Access.issue op page index ∈ modifyBody c e i hwIndex k) : op = opLoad ∨ op = opGetNext ∨ op = opRead := by
  simp only [modifyBody] at h
  split at h
  · exact .inr (op_of_issue_mem_getNextBody h)
  split at h
  · rcases List.mem_append.mp h with h | h
    · exact .inr (op_of_issue_mem_getNextBody h)
    · exact .inl (op_of_issue_mem_loadBody h)
  · exact .inl (op_of_issue_mem_loadBody h)

theorem op_of_issue_mem_phaseBody {s : State} {o : Op} {k : Nat}
    (h : Access.issue op page index ∈ phaseBody s o k) :
    op = opFlushAll ∨ op = opFlushEntry ∨ op = opLoad ∨ op = opGetNext ∨ op = opRead := by
  cases o with
  | flushAll =>
    left
    simp_all [phaseBody]
  | flushEntry i =>
    right; left
    simp_all [phaseBody]
  | loadEntry | advCascade | advMain => exact .inr (.inr (.inl (op_of_issue_mem_loadBody h)))
  | readEntry => exact .inr (.inr (.inr (.inr (op_of_issue_mem_readBody h))))
  | getNextEntry | findEntry => exact .inr (.inr (.inr (op_of_issue_mem_getNextBody h)))
  | addPort | removePort => exact .inr (.inr (op_of_issue_mem_modifyBody h))

/-- The five opcodes that the controller issues, whatever the state. -/
theorem op_of_issue_mem_accessList {s : State} (h : Access.issue op page index ∈ accessList s) :
    op = opFlushAll ∨ op = opFlushEntry ∨ op = opLoad ∨ op = opGetNext ∨ op = opRead := by
  simp only [accessList] at h
  split at h
  · cases h
  · exact op_of_issue_mem_phaseBody (List.mem_of_ne_of_mem (by simp) h)

end

/-- Settles O25: `exec` refuses both words outright, and neither opcode is among the five that are issued. -/
theorem reservedOpcodesHaveNoMeaning : Obligations.ReservedOpcodesHaveNoMeaning := by
  refine ⟨fun page rsvd index s => ⟨rfl, rfl⟩, fun s op page index h => ?_⟩
  rcases op_of_issue_mem_accessList h with rfl | rfl | rfl | rfl | rfl <;> decide

end Sys2Proof.Machine

/-! ## The latched command in the device: `NOP` and `FLUSH_ALL` (R211 to R213) -/

namespace Sys2Proof

/-- Cutting a value to a field that can hold it changes nothing. -/
theorem and_ones_of_toNat_lt {v : Word} {w : Nat} (h : v.toNat < 2 ^ w) (hw : w ≤ 16) : v &&& ones w = v := by
  have hpow : 2 ^ w ≤ 2 ^ 16 := Nat.pow_le_pow_right (by decide) hw
  have hones : (ones w).toNat = 2 ^ w - 1 := by
    rw [ones, BitVec.toNat_ofNat, Nat.mod_eq_of_lt (by have := Nat.two_pow_pos w; omega)]
  apply BitVec.eq_of_toNat_eq
  rw [BitVec.toNat_and, hones, Nat.and_two_pow_sub_one_eq_mod, Nat.mod_eq_of_lt h]

/-- The `TAG` field can hold `EMPTY_TAG` (R106). -/
theorem Cfg.Checked.emptyTag_and_ones (c : Cfg.Checked) :
    c.val.emptyTag &&& ones c.val.rl.tag.bits.width = c.val.emptyTag := by
  obtain ⟨-, hempty, -, hwidth⟩ := c.tags
  have hfits := c.val.rl.tag.bits.fits
  have hpow : 2 ^ 8 ≤ 2 ^ c.val.rl.tag.bits.width := Nat.pow_le_pow_right (by decide) hwidth
  exact and_ones_of_toNat_lt (by omega) (by omega)

/-- `TAG` lies in page 0 of a slot. -/
theorem Cfg.Checked.tag_reg_lt (c : Cfg.Checked) : c.val.rl.tag.reg - c.val.dataLo < c.val.pageLen 0 := by
  obtain ⟨-, hlo, hhi⟩ := c.hdrPos (f := c.val.rl.tag) (by simp [Layout.hdrFields])
  simp only [Cfg.pageLen]
  omega

end Sys2Proof

namespace Sys2Proof.Machine

open Sys2Proof.Claims (deviceDone)

/-- `deviceDone` writes the model's own `State.complete` out field by field. -/
theorem complete_eq_deviceDone (s : State) : s.complete = deviceDone s := by
  rw [State.complete, clear_busy, deviceDone]

/-- In the device the command word that is latched has its effect (R211). -/
theorem commandWord_device {op : BitVec 3} {page : BitVec 2} {index : Index} {s : State} (rsvd : BitVec 2)
    (effect : State → Out) (ht : s.turn = .device) (hd : s.devCmd = some ⟨op, page, index⟩) :
    commandWord op page rsvd index effect s = effect s := by
  rw [commandWord, if_pos ht, if_pos hd]

/-- The empty slot carries `EMPTY_TAG`, so it is invalid (R34, R37). -/
theorem validWords_emptySlot (c : Cfg.Checked) : validWords c.val (emptySlot c.val).p0 = false := by
  have htag : getReg c.val c.val.rl.tag (emptySlot c.val).p0 = c.val.emptyTag := by
    rw [emptySlot, getReg_putReg_self _ _ _ _ (by simpa using c.tag_reg_lt), c.emptyTag_and_ones]
  rw [validWords, htag, bne_self_eq_false]

/-- A slot that is the empty slot is invalid. -/
theorem State.validAt_of_slot_eq_emptySlot {s : State} {i : Index} (h : s.slot i = emptySlot s.conf) :
    s.validAt i = false := by
  rw [State.validAt, h, validWords_emptySlot]

/-- In a table of empty slots every slot is the empty slot. -/
theorem State.slot_of_table_eq_replicate {s : State} {n : Nat} (h : s.table = List.replicate n (emptySlot s.conf))
    (i : Index) : s.slot i = emptySlot s.conf := by
  rw [State.slot, h, List.getD_eq_getElem?_getD, List.getElem?_getD_replicate_default_eq]

theorem exec_nop_device {page : BitVec 2} {index : Index} {s : State} (rsvd : BitVec 2) (ht : s.turn = .device)
    (hd : s.devCmd = some ⟨opNop, page, index⟩) : exec (.nop page rsvd index) s = .next (deviceDone s) := by
  calc exec (.nop page rsvd index) s
    _ = commandWord opNop page rsvd index devNop s := rfl
    _ = .next s.complete := commandWord_device rsvd devNop ht hd
    _ = .next (deviceDone s) := congrArg Host.Outcome.next (complete_eq_deviceDone s)

theorem exec_flushAllCmd_device {page : BitVec 2} {index : Index} {s : State} (rsvd : BitVec 2)
    (ht : s.turn = .device) (hd : s.devCmd = some ⟨opFlushAll, page, index⟩) :
    exec (.flushAllCmd page rsvd index) s =
      .next { deviceDone s with table := List.replicate s.conf.slots (emptySlot s.conf) } := by
  calc exec (.flushAllCmd page rsvd index) s
    _ = commandWord opFlushAll page rsvd index devFlushAll s := rfl
    _ = .next ({ s with table := List.replicate s.conf.slots (emptySlot s.conf) } : State).complete :=
      commandWord_device rsvd devFlushAll ht hd
    _ = .next { deviceDone s with table := List.replicate s.conf.slots (emptySlot s.conf) } :=
      congrArg Host.Outcome.next (complete_eq_deviceDone _)

/-- Settles O27: the new table is all empty slots, so every slot read from it is the empty slot, which is invalid. -/
theorem flushAllCommandEmptiesEverySlot : Obligations.FlushAllCommandEmptiesEverySlot := by
  refine ⟨by decide, fun page rsvd index s ht hd => ?_⟩
  refine ⟨_, exec_flushAllCmd_device rsvd ht hd, List.length_replicate, fun j _ => ?_⟩
  have hslot := State.slot_of_table_eq_replicate
    (s := { deviceDone s with table := List.replicate s.conf.slots (emptySlot s.conf) }) rfl j
  exact ⟨hslot, State.validAt_of_slot_eq_emptySlot hslot⟩

/-- Settles O26: in the device `NOP` only completes, and its opcode is not among the five that are issued. -/
theorem nopClearsBusyOnly : Obligations.NopClearsBusyOnly := by
  refine ⟨by decide, fun page rsvd index s ht hd => exec_nop_device rsvd ht hd, fun s op page index h => ?_⟩
  rcases op_of_issue_mem_accessList h with rfl | rfl | rfl | rfl | rfl <;> decide

end Sys2Proof.Machine

/-! ## Packets: `decode` and `encode` are inverse (30_encoding.md sections 2 to 8) -/

namespace Sys2Proof

/-! ### Slices of the words -/

section

variable (busy : BitVec 1) (op : BitVec 3) (page rsvd : BitVec 2) (index : Index)

@[simp] theorem cmdBits_busy : (cmdBits busy op page rsvd index).extractLsb' 15 1 = busy := by
  refine BitVec.eq_of_getLsbD_eq fun b hb => ?_
  rw [cmdBits, BitVec.getLsbD_extractLsb', commandBits_getLsbD]
  interval_cases b; simp

@[simp] theorem cmdBits_op : (cmdBits busy op page rsvd index).extractLsb' 12 3 = op := by
  refine BitVec.eq_of_getLsbD_eq fun b hb => ?_
  rw [cmdBits, BitVec.getLsbD_extractLsb', commandBits_getLsbD]
  interval_cases b <;> simp

@[simp] theorem cmdBits_page : (cmdBits busy op page rsvd index).extractLsb' 10 2 = page := by
  refine BitVec.eq_of_getLsbD_eq fun b hb => ?_
  rw [cmdBits, BitVec.getLsbD_extractLsb', commandBits_getLsbD]
  interval_cases b <;> simp

@[simp] theorem cmdBits_rsvd : (cmdBits busy op page rsvd index).extractLsb' 8 2 = rsvd := by
  refine BitVec.eq_of_getLsbD_eq fun b hb => ?_
  rw [cmdBits, BitVec.getLsbD_extractLsb', commandBits_getLsbD]
  interval_cases b <;> simp

@[simp] theorem cmdBits_index : (cmdBits busy op page rsvd index).extractLsb' 0 8 = index := by
  refine BitVec.eq_of_getLsbD_eq fun b hb => ?_
  rw [cmdBits, BitVec.getLsbD_extractLsb', commandBits_getLsbD]
  simp [hb]

end

/-- Bit `b` of a request descriptor (R115). -/
theorem reqBits_getLsbD (opsel port : BitVec 4) (index : Index) (b : Nat) :
    (reqBits opsel port index).getLsbD b =
      if b < 8 then index.getLsbD b else if b - 8 < 4 then port.getLsbD (b - 8) else opsel.getLsbD (b - 8 - 4) := by
  simp only [reqBits, BitVec.getLsbD_append]

section

variable (opsel port : BitVec 4) (index : Index)

@[simp] theorem reqBits_opsel : (reqBits opsel port index).extractLsb' 12 4 = opsel := by
  refine BitVec.eq_of_getLsbD_eq fun b hb => ?_
  rw [BitVec.getLsbD_extractLsb', reqBits_getLsbD]
  interval_cases b <;> simp

@[simp] theorem reqBits_port : (reqBits opsel port index).extractLsb' 8 4 = port := by
  refine BitVec.eq_of_getLsbD_eq fun b hb => ?_
  rw [BitVec.getLsbD_extractLsb', reqBits_getLsbD]
  interval_cases b <;> simp

@[simp] theorem reqBits_index : (reqBits opsel port index).extractLsb' 0 8 = index := by
  refine BitVec.eq_of_getLsbD_eq fun b hb => ?_
  rw [BitVec.getLsbD_extractLsb', reqBits_getLsbD]
  simp [hb]

end

/-- Every word is the request descriptor of its slices. -/
theorem word_eq_reqBits (w : Word) : w = reqBits (w.extractLsb' 12 4) (w.extractLsb' 8 4) (w.extractLsb' 0 8) := by
  refine word_ext fun b hb => ?_
  rw [reqBits_getLsbD]
  interval_cases b <;> simp

/-- Every word is the command word of its slices. -/
theorem word_eq_cmdBits (w : Word) :
    w = cmdBits (w.extractLsb' 15 1) (w.extractLsb' 12 3) (w.extractLsb' 10 2) (w.extractLsb' 8 2)
      (w.extractLsb' 0 8) := word_eq_command w

/-! ### Packets of one word or one tag -/

/-- Packets whose bits fit the word of their format, one lemma per format that has a word. -/
theorem decode_cmd_fits {bits : BitVec 48} (h : bits.toNat < 2 ^ 16) :
    decode ⟨.cmd, bits, .empty⟩ = .ok (decodeCmd (bits.setWidth 16)) := if_pos h

theorem decode_ext_fits {bits : BitVec 48} (h : bits.toNat < 2 ^ 16) :
    decode ⟨.ext, bits, .empty⟩ =
      .ok (.extSelect ((bits.setWidth 16).extractLsb' 2 14) ((bits.setWidth 16).extractLsb' 0 2)) := if_pos h

theorem decode_req_fits {bits : BitVec 48} (side : Side) (h : bits.toNat < 2 ^ 16) :
    decode ⟨.req, bits, side⟩ = .ok (decodeReq (bits.setWidth 16) side) :=
  (if_pos h).trans (by cases side <;> rfl)

theorem decode_codecSet_fits {bits : BitVec 48} (h : bits.toNat < 2 ^ 42) :
    decode ⟨.codecSet, bits, .empty⟩ =
      .ok (.setField (bits.extractLsb' 26 16) (bits.extractLsb' 10 16) (bits.extractLsb' 5 5)
        (bits.extractLsb' 0 5)) := if_pos h

theorem decode_codecGet_fits {bits : BitVec 48} (h : bits.toNat < 2 ^ 26) :
    decode ⟨.codecGet, bits, .empty⟩ =
      .ok (.getField (bits.extractLsb' 10 16) (bits.extractLsb' 5 5) (bits.extractLsb' 0 5)) := if_pos h

theorem decode_shapeL3_fits {bits : BitVec 48} (side : Side) (h : bits.toNat < 2 ^ 3) :
    decode ⟨.shapeL3, bits, side⟩ = decodeL3 (bits.setWidth 3) side :=
  (if_pos h).trans (by cases side <;> rfl)

theorem decode_shapeL4_fits {bits : BitVec 48} (side : Side) (h : bits.toNat < 2 ^ 3) :
    decode ⟨.shapeL4, bits, side⟩ = decodeL4 (bits.setWidth 3) side :=
  (if_pos h).trans (by cases side <;> rfl)

theorem decode_shapeNeeds_fits {bits : BitVec 48} (h : bits.toNat < 2 ^ 3) :
    decode ⟨.shapeNeeds, bits, .empty⟩ =
      if (bits.setWidth 3).extractLsb' 2 1 = 1#1 then .error .shapeTag
      else .ok (.needsSecondSlot ((bits.setWidth 3).extractLsb' 0 2)) := if_pos h

theorem decode_shapeCompile_fits {bits : BitVec 48} (side : Side) (h : bits.toNat < 2 ^ 3) :
    decode ⟨.shapeCompile, bits, side⟩ = decodeCompile (bits.setWidth 3) side :=
  (if_pos h).trans (by cases side <;> rfl)

theorem decode_shapeDecode_fits {bits : BitVec 48} (side : Side) (h : bits.toNat < 2 ^ 3) :
    decode ⟨.shapeDecode, bits, side⟩ = decodeEntries (bits.setWidth 3) side :=
  (if_pos h).trans (by cases side <;> rfl)

theorem setWidth_toNat_lt {n : Nat} (x : BitVec n) (hn : n ≤ 48) : (x.setWidth 48).toNat < 2 ^ n := by
  rw [BitVec.toNat_setWidth_of_le hn]
  exact x.isLt

theorem setWidth_setWidth_self {n : Nat} (x : BitVec n) (hn : n ≤ 48) : (x.setWidth 48).setWidth n = x :=
  (BitVec.setWidth_setWidth_of_le x hn).trans (BitVec.setWidth_eq x)

theorem decode_cmd (w : Word) : decode (wordPacket .cmd w) = .ok (decodeCmd w) := by
  rw [wordPacket, decode_cmd_fits (setWidth_toNat_lt w (by decide)), setWidth_setWidth_self w (by decide)]

theorem decode_ext (w : Word) :
    decode (wordPacket .ext w) = .ok (.extSelect (w.extractLsb' 2 14) (w.extractLsb' 0 2)) := by
  rw [wordPacket, decode_ext_fits (setWidth_toNat_lt w (by decide)), setWidth_setWidth_self w (by decide)]

theorem decode_req (w : Word) (side : Side) : decode (wordPacket .req w side) = .ok (decodeReq w side) := by
  rw [wordPacket, decode_req_fits side (setWidth_toNat_lt w (by decide)), setWidth_setWidth_self w (by decide)]

theorem decode_shapeL3 (tag : BitVec 3) (side : Side) : decode (tagPacket .shapeL3 tag side) = decodeL3 tag side := by
  rw [tagPacket, decode_shapeL3_fits side (setWidth_toNat_lt tag (by decide)), setWidth_setWidth_self tag (by decide)]

theorem decode_shapeL4 (tag : BitVec 3) (side : Side) : decode (tagPacket .shapeL4 tag side) = decodeL4 tag side := by
  rw [tagPacket, decode_shapeL4_fits side (setWidth_toNat_lt tag (by decide)), setWidth_setWidth_self tag (by decide)]

theorem decode_shapeNeeds (tag : BitVec 3) :
    decode (tagPacket .shapeNeeds tag) =
      if tag.extractLsb' 2 1 = 1#1 then .error .shapeTag else .ok (.needsSecondSlot (tag.extractLsb' 0 2)) := by
  rw [tagPacket, decode_shapeNeeds_fits (setWidth_toNat_lt tag (by decide)), setWidth_setWidth_self tag (by decide)]

theorem decode_shapeCompile (tag : BitVec 3) (side : Side) :
    decode (tagPacket .shapeCompile tag side) = decodeCompile tag side := by
  rw [tagPacket, decode_shapeCompile_fits side (setWidth_toNat_lt tag (by decide)),
    setWidth_setWidth_self tag (by decide)]

theorem decode_shapeDecode (tag : BitVec 3) (side : Side) :
    decode (tagPacket .shapeDecode tag side) = decodeEntries tag side := by
  rw [tagPacket, decode_shapeDecode_fits side (setWidth_toNat_lt tag (by decide)),
    setWidth_setWidth_self tag (by decide)]

/-! ### Decoding what was encoded -/

theorem decodeCmd_store (op : BitVec 3) (page rsvd : BitVec 2) (index : Index) :
    decodeCmd (cmdBits 0 op page rsvd index) = .cmdStore op page rsvd index := by
  simp [decodeCmd]

/-- A tag's version and protocol bits, read from the bits it is made of (R110). -/
theorem tag_slices (b : BitVec 1) (low : BitVec 2) :
    (b ++ low : BitVec 3).extractLsb' 2 1 = b ∧ (b ++ low : BitVec 3).extractLsb' 0 2 = low := by
  revert b low
  decide

theorem tag_low (v : BitVec 2) (udp : BitVec 1) :
    (v ++ udp : BitVec 3).extractLsb' 0 1 = udp ∧ (v ++ udp : BitVec 3).extractLsb' 1 1 = v.extractLsb' 0 1 ∧
      (v ++ udp : BitVec 3).extractLsb' 2 1 = v.extractLsb' 1 1 := by
  revert v udp
  decide

theorem decodeL3_ipv4 (udp : BitVec 1) (h : IPv4) (w : Window) :
    decodeL3 (0b00#2 ++ udp) (.ipv4 h w) = .ok (.mapIPv4 udp h w) := by
  obtain ⟨h0, h1, h2⟩ := tag_low 0b00#2 udp
  rw [decodeL3, h0, h1, h2, if_neg (by decide), if_pos (by decide)]

theorem decodeL3_ipv6 (udp : BitVec 1) (h : IPv6) (w : Window) :
    decodeL3 (0b01#2 ++ udp) (.ipv6 h w) = .ok (.mapIPv6 udp h w) := by
  obtain ⟨h0, h1, h2⟩ := tag_low 0b01#2 udp
  rw [decodeL3, h0, h1, h2, if_neg (by decide), if_neg (by decide)]

/-- The tag of a supported rule has bit 2 clear (R110). -/
theorem Rule.shape_bit2 {r : Rule} (h : r.supported = true) : r.shape.extractLsb' 2 1 = 0#1 := by
  rcases r with ⟨key, mac, _ | _ | _ | _ | _, action⟩
  case unsupported => cases h
  all_goals
    simp only [Rule.shape, Headers.shape]
    decide

theorem decodeCompile_unsupported (low : BitVec 2) (side : Side) :
    decodeCompile (1#1 ++ low) side = .ok (.shapeUnsupported low) := by
  obtain ⟨h2, hlow⟩ := tag_slices 1#1 low
  exact (if_pos h2).trans (by rw [hlow])

theorem decodeCompile_of_supported {r : Rule} (j : Index) (h : r.supported = true) :
    decodeCompile r.shape (.compileOps r j) = .ok (.compile r j) := by
  simp [decodeCompile, Rule.shape_bit2 h]

/-- Bit `b` of the bundle of `setField` (R118). -/
theorem codecSet_slices (word value : Word) (offset width : BitVec 5) :
    ((word ++ value ++ offset ++ width : BitVec 42).setWidth 48).extractLsb' 26 16 = word ∧
      ((word ++ value ++ offset ++ width : BitVec 42).setWidth 48).extractLsb' 10 16 = value ∧
      ((word ++ value ++ offset ++ width : BitVec 42).setWidth 48).extractLsb' 5 5 = offset ∧
      ((word ++ value ++ offset ++ width : BitVec 42).setWidth 48).extractLsb' 0 5 = width := by
  have bits : ∀ b, (word ++ value ++ offset ++ width : BitVec 42).getLsbD b =
      if b < 5 then width.getLsbD b else if b - 5 < 5 then offset.getLsbD (b - 5)
      else if b - 5 - 5 < 16 then value.getLsbD (b - 5 - 5) else word.getLsbD (b - 5 - 5 - 16) := by
    intro b
    simp only [BitVec.getLsbD_append]
  refine ⟨?_, ?_, ?_, ?_⟩ <;>
  · refine BitVec.eq_of_getLsbD_eq fun b hb => ?_
    rw [BitVec.getLsbD_extractLsb', BitVec.getLsbD_setWidth, bits]
    interval_cases b <;> simp

theorem codecGet_slices (word : Word) (offset width : BitVec 5) :
    ((word ++ offset ++ width : BitVec 26).setWidth 48).extractLsb' 10 16 = word ∧
      ((word ++ offset ++ width : BitVec 26).setWidth 48).extractLsb' 5 5 = offset ∧
      ((word ++ offset ++ width : BitVec 26).setWidth 48).extractLsb' 0 5 = width := by
  have bits : ∀ b, (word ++ offset ++ width : BitVec 26).getLsbD b =
      if b < 5 then width.getLsbD b else if b - 5 < 5 then offset.getLsbD (b - 5) else word.getLsbD (b - 5 - 5) := by
    intro b
    simp only [BitVec.getLsbD_append]
  refine ⟨?_, ?_, ?_⟩ <;>
  · refine BitVec.eq_of_getLsbD_eq fun b hb => ?_
    rw [BitVec.getLsbD_extractLsb', BitVec.getLsbD_setWidth, bits]
    interval_cases b <;> simp

theorem decode_codecSet (word value : Word) (offset width : BitVec 5) :
    decode (encode (.setField word value offset width)) = .ok (.setField word value offset width) := by
  obtain ⟨hword, hvalue, hoffset, hwidth⟩ := codecSet_slices word value offset width
  rw [encode, decode_codecSet_fits (setWidth_toNat_lt _ (by decide)), hword, hvalue, hoffset, hwidth]

theorem decode_codecGet (word : Word) (offset width : BitVec 5) :
    decode (encode (.getField word offset width)) = .ok (.getField word offset width) := by
  obtain ⟨hword, hoffset, hwidth⟩ := codecGet_slices word offset width
  rw [encode, decode_codecGet_fits (setWidth_toNat_lt _ (by decide)), hword, hoffset, hwidth]

theorem decode_extSelect (rsvd : BitVec 14) (subblock : BitVec 2) :
    decode (encode (.extSelect rsvd subblock)) = .ok (.extSelect rsvd subblock) := by
  have hrsvd : (rsvd ++ subblock : Word).extractLsb' 2 14 = rsvd := by
    refine BitVec.eq_of_getLsbD_eq fun b hb => ?_
    rw [BitVec.getLsbD_extractLsb']
    refine (congrArg _ (BitVec.getLsbD_append (x := rsvd) (y := subblock) (i := 2 + b))).trans ?_
    rw [if_neg (by omega)]
    simp [hb]
  have hsub : (rsvd ++ subblock : Word).extractLsb' 0 2 = subblock := by
    refine BitVec.eq_of_getLsbD_eq fun b hb => ?_
    rw [BitVec.getLsbD_extractLsb']
    refine (congrArg _ (BitVec.getLsbD_append (x := rsvd) (y := subblock) (i := 0 + b))).trans ?_
    simp [hb]
  rw [encode, decode_ext, hrsvd, hsub]

/-- Settles O1: by the instruction; each format reads back the slices that its words are made of. -/
theorem decodeOfEncodeIsTheInstruction : Obligations.DecodeOfEncodeIsTheInstruction := by
  intro c i hi
  cases i with
  | cmdStore op page rsvd index => rw [encode, decode_cmd, decodeCmd_store]
  | nop | flushAllCmd | flushEntryCmd | loadCmd | getNextCmd | readCmd | cmdReserved6 | cmdReserved7 =>
    rw [encode, decode_cmd]
    simp [decodeCmd]
  | extSelect rsvd subblock => exact decode_extSelect rsvd subblock
  | flushAll | flushEntry | loadEntry | getNextEntry | readEntry | findEntry | addPort | removePort | advConfig
  | reqReserved0 | reqReservedA | reqReservedB | reqReservedC | reqReservedD | reqReservedE | reqReservedF =>
    rw [encode, decode_req]
    simp [decodeReq, Side.entryOperand, Side.index2Operand, Side.ruleOperand]
  | setField word value offset width => exact decode_codecSet word value offset width
  | getField word offset width => exact decode_codecGet word offset width
  | mapIPv4 udp l3 w => rw [encode, decode_shapeL3, decodeL3_ipv4]
  | mapIPv6 udp l3 w => rw [encode, decode_shapeL3, decodeL3_ipv6]
  | mapTCPv4 | mapUDPv4 | mapTCPv6 | mapUDPv6 =>
    rw [encode, decode_shapeL4]
    rfl
  | shapeUnsupported low => rw [encode, decode_shapeCompile, decodeCompile_unsupported]
  | needsSecondSlot shape =>
    obtain ⟨h2, hlow⟩ := tag_slices 0#1 shape
    rw [encode, decode_shapeNeeds, h2, hlow, if_neg (by decide)]
  | compile r j => rw [encode, decode_shapeCompile, decodeCompile_of_supported j hi]
  | decode shape first second =>
    obtain ⟨h2, hlow⟩ := tag_slices 0#1 shape
    rw [encode, decode_shapeDecode, decodeEntries, h2, hlow, if_neg (by decide)]
  | mapPrefix | place | encodeKey | encodeActions | pageImage | entryOfPages | link | isSecondSlotUsed | modifyPort
  | cmdword => rfl

/-! ### Encoding what was decoded -/

/-- Cutting the bits of a packet to its word and extending them again loses nothing (R90). -/
theorem setWidth_setWidth_of_lt {n : Nat} {bits : BitVec 48} (h : bits.toNat < 2 ^ n) :
    (bits.setWidth n).setWidth 48 = bits := by
  apply BitVec.eq_of_toNat_eq
  rw [BitVec.toNat_setWidth, BitVec.toNat_setWidth, Nat.mod_eq_of_lt h, Nat.mod_eq_of_lt bits.isLt]

/-- Bit 15 and the opcode of a command word, once known, are what the word is made with (R91). -/
theorem cmdBits_eq {w : Word} {busy : BitVec 1} {op : BitVec 3} (hb : w.extractLsb' 15 1 = busy)
    (ho : w.extractLsb' 12 3 = op) :
    cmdBits busy op (w.extractLsb' 10 2) (w.extractLsb' 8 2) (w.extractLsb' 0 8) = w := by
  rw [← hb, ← ho]
  exact (word_eq_cmdBits w).symm

/-- A command word is encoded as it was decoded (R91, R92). -/
theorem encode_decodeCmd (w : Word) : encode (decodeCmd w) = wordPacket .cmd w := by
  simp only [decodeCmd]
  split
  · rename_i hb
    exact congrArg (wordPacket .cmd ·) (cmdBits_eq hb rfl)
  rename_i hb
  have hb1 : w.extractLsb' 15 1 = 1#1 := by
    generalize w.extractLsb' 15 1 = b at hb
    bv_omega
  split_ifs with h0 h1 h2 h3 h4 h5 h6
  case neg =>
    have h7 : w.extractLsb' 12 3 = 7 := by
      generalize w.extractLsb' 12 3 = op at h0 h1 h2 h3 h4 h5 h6 ⊢
      bv_omega
    exact congrArg (wordPacket .cmd ·) (cmdBits_eq hb1 h7)
  all_goals exact congrArg (wordPacket .cmd ·) (cmdBits_eq hb1 ‹_›)

/-- `i` is encoded with the given bits and, but for an unsupported tag, in the given format. -/
def KeepsBits (fmt : Format) (bits : BitVec 48) (i : Instr) : Prop :=
  (encode i).bits = bits ∧ ((∀ low, i ≠ .shapeUnsupported low) → (encode i).fmt = fmt)

theorem opsel_cases : ∀ opsel : BitVec 4,
    opsel = 0 ∨ opsel = 1 ∨ opsel = 2 ∨ opsel = 3 ∨ opsel = 4 ∨ opsel = 5 ∨ opsel = 6 ∨ opsel = 7 ∨ opsel = 8 ∨
      opsel = 9 ∨ opsel = 10 ∨ opsel = 11 ∨ opsel = 12 ∨ opsel = 13 ∨ opsel = 14 ∨ opsel = 15 := by
  decide

/-- A request descriptor is encoded as it was decoded, whatever travelled beside it (R115, R116). -/
theorem decodeReq_keepsBits (w : Word) (side : Side) : KeepsBits .req (w.setWidth 48) (decodeReq w side) := by
  rw [word_eq_reqBits w]
  rcases opsel_cases (w.extractLsb' 12 4) with h | h | h | h | h | h | h | h | h | h | h | h | h | h | h | h <;>
    simp [h, decodeReq, KeepsBits, encode, wordPacket]

/-- A 3-bit tag is its bit 2 above its two low bits (R110). -/
theorem tag_eq_append {tag : BitVec 3} {b : BitVec 1} (h : tag.extractLsb' 2 1 = b) :
    b ++ tag.extractLsb' 0 2 = tag := by
  subst h
  revert tag
  decide

theorem tag_eq_append_udp {tag : BitVec 3} {v : BitVec 2} (h : tag.extractLsb' 1 2 = v) :
    v ++ tag.extractLsb' 0 1 = tag := by
  subst h
  revert tag
  decide

/-- Bits 2 and 1 of a tag that a layer-3 mapper takes: the IP version (R110). -/
theorem tag_version {tag : BitVec 3} (h : tag.extractLsb' 2 1 ≠ 1#1) :
    tag.extractLsb' 1 2 = if tag.extractLsb' 1 1 = 0#1 then 0b00#2 else 0b01#2 := by
  revert tag
  decide

theorem decodeL3_keepsBits {tag : BitVec 3} {side : Side} {i : Instr} (h : decodeL3 tag side = .ok i) :
    KeepsBits .shapeL3 (tag.setWidth 48) i := by
  simp only [decodeL3] at h
  split at h
  · cases h
  rename_i h2
  have hver := tag_version h2
  split at h
  · rename_i h1
    rw [if_pos h1] at hver
    split at h <;> cases h
    exact ⟨congrArg (·.setWidth 48) (tag_eq_append_udp hver), fun _ => rfl⟩
  · rename_i h1
    rw [if_neg h1] at hver
    split at h <;> cases h
    exact ⟨congrArg (·.setWidth 48) (tag_eq_append_udp hver), fun _ => rfl⟩

theorem decodeL4_keepsBits {tag : BitVec 3} {side : Side} {i : Instr} (h : decodeL4 tag side = .ok i) :
    KeepsBits .shapeL4 (tag.setWidth 48) i := by
  simp only [decodeL4] at h
  split at h <;> split_ifs at h <;> cases h
  all_goals
    subst tag
    exact ⟨rfl, fun _ => rfl⟩

theorem shapeUnsupported_keepsBits {tag : BitVec 3} (fmt : Format) (h : tag.extractLsb' 2 1 = 1#1) :
    KeepsBits fmt (tag.setWidth 48) (.shapeUnsupported (tag.extractLsb' 0 2)) :=
  ⟨congrArg (·.setWidth 48) (tag_eq_append h), fun hne => absurd rfl (hne _)⟩

theorem tag_bit2_eq_zero {tag : BitVec 3} (h : tag.extractLsb' 2 1 ≠ 1#1) : tag.extractLsb' 2 1 = 0#1 := by
  revert tag
  decide

theorem decodeCompile_keepsBits {tag : BitVec 3} {side : Side} {i : Instr} (h : decodeCompile tag side = .ok i) :
    KeepsBits .shapeCompile (tag.setWidth 48) i := by
  simp only [decodeCompile] at h
  split at h
  · cases h
    exact shapeUnsupported_keepsBits _ ‹_›
  split at h
  · split at h <;> cases h
    subst tag
    exact ⟨rfl, fun _ => rfl⟩
  · cases h

theorem decodeEntries_keepsBits {tag : BitVec 3} {side : Side} {i : Instr} (h : decodeEntries tag side = .ok i) :
    KeepsBits .shapeDecode (tag.setWidth 48) i := by
  simp only [decodeEntries] at h
  split at h
  · cases h
    exact shapeUnsupported_keepsBits _ ‹_›
  rename_i h2
  split at h <;> cases h
  exact ⟨congrArg (·.setWidth 48) (tag_eq_append (tag_bit2_eq_zero h2)), fun _ => rfl⟩

/-- The bundle of `setField` is its four slices (R118). -/
theorem codecSet_bits {bits : BitVec 48} (h : bits.toNat < 2 ^ 42) :
    (bits.extractLsb' 26 16 ++ bits.extractLsb' 10 16 ++ bits.extractLsb' 5 5 ++ bits.extractLsb' 0 5 :
      BitVec 42).setWidth 48 = bits := by
  refine .trans (congrArg _ ?_) (setWidth_setWidth_of_lt h)
  refine BitVec.eq_of_getLsbD_eq fun b hb => ?_
  simp only [BitVec.getLsbD_append, BitVec.getLsbD_extractLsb', BitVec.getLsbD_setWidth]
  interval_cases b <;> simp

theorem codecGet_bits {bits : BitVec 48} (h : bits.toNat < 2 ^ 26) :
    (bits.extractLsb' 10 16 ++ bits.extractLsb' 5 5 ++ bits.extractLsb' 0 5 : BitVec 26).setWidth 48 = bits := by
  refine .trans (congrArg _ ?_) (setWidth_setWidth_of_lt h)
  refine BitVec.eq_of_getLsbD_eq fun b hb => ?_
  simp only [BitVec.getLsbD_append, BitVec.getLsbD_extractLsb', BitVec.getLsbD_setWidth]
  interval_cases b <;> simp

theorem extSelect_bits (w : Word) : (w.extractLsb' 2 14 ++ w.extractLsb' 0 2 : Word) = w := by
  refine word_ext fun b hb => ?_
  refine (BitVec.getLsbD_append (x := w.extractLsb' 2 14) (y := w.extractLsb' 0 2) (i := b)).trans ?_
  interval_cases b <;> simp

/-- A packet with no bits of its own. -/
theorem bits_eq_zero {bits : BitVec 48} (h : bits.toNat < 2 ^ 0) : (0 : BitVec 48) = bits :=
  BitVec.eq_of_toNat_eq (by simp at h ⊢; omega)

/-- What `decode` reads, it reads from a packet with no stray bits. -/
theorem decode_fits {p : Packet} {i : Instr} (h : decode p = .ok i) : p.bits.toNat < 2 ^ p.fmt.nbits := by
  by_contra hlt
  rw [decode, if_neg hlt] at h
  cases h

/-- Settles O2: by the format; each is encoded with the slices that it was decoded into. -/
theorem decodedPacketsKeepTheirBits : Obligations.DecodedPacketsKeepTheirBits := by
  intro p i h
  change KeepsBits p.fmt p.bits i
  have hfits := decode_fits h
  obtain ⟨fmt, bits, side⟩ := p
  dsimp only at hfits ⊢
  cases fmt with
  | cmd =>
    cases side <;> cases (if_pos hfits).symm.trans h
    exact ⟨by rw [encode_decodeCmd]; exact setWidth_setWidth_of_lt hfits, fun _ => by rw [encode_decodeCmd]; rfl⟩
  | ext =>
    cases side <;> cases (if_pos hfits).symm.trans h
    exact ⟨(congrArg (·.setWidth 48) (extSelect_bits _)).trans (setWidth_setWidth_of_lt hfits), fun _ => rfl⟩
  | req =>
    rw [decode_req_fits side hfits] at h
    rw [← setWidth_setWidth_of_lt hfits]
    exact Except.ok.inj h ▸ decodeReq_keepsBits _ side
  | codecSet =>
    cases side <;> cases (if_pos hfits).symm.trans h
    exact ⟨codecSet_bits hfits, fun _ => rfl⟩
  | codecGet =>
    cases side <;> cases (if_pos hfits).symm.trans h
    exact ⟨codecGet_bits hfits, fun _ => rfl⟩
  | shapeL3 =>
    rw [decode_shapeL3_fits side hfits] at h
    rw [← setWidth_setWidth_of_lt hfits]
    exact decodeL3_keepsBits h
  | shapeL4 =>
    rw [decode_shapeL4_fits side hfits] at h
    rw [← setWidth_setWidth_of_lt hfits]
    exact decodeL4_keepsBits h
  | shapeNeeds =>
    cases side
    case empty =>
      rw [decode_shapeNeeds_fits hfits] at h
      rw [← setWidth_setWidth_of_lt hfits]
      split at h <;> cases h
      exact ⟨congrArg (·.setWidth 48) (tag_eq_append (tag_bit2_eq_zero ‹_›)), fun _ => rfl⟩
    all_goals cases (if_pos hfits).symm.trans h
  | shapeCompile =>
    rw [decode_shapeCompile_fits side hfits] at h
    rw [← setWidth_setWidth_of_lt hfits]
    exact decodeCompile_keepsBits h
  | shapeDecode =>
    rw [decode_shapeDecode_fits side hfits] at h
    rw [← setWidth_setWidth_of_lt hfits]
    exact decodeEntries_keepsBits h
  | fnMapPrefix | fnPlace | fnEncodeKey | fnEncodeActions | fnPageImage | fnEntryOfPages | fnLink
  | fnIsSecondSlotUsed | fnModifyPort | fnCmdword =>
    cases side <;> cases (if_pos hfits).symm.trans h
    exact ⟨bits_eq_zero hfits, fun _ => rfl⟩

end Sys2Proof

/-! ## Words of the spec, the codec's laws, functions outside their domain -/

namespace Sys2Proof.Machine

open Sys2Proof.Claims

/-- Settles O3: the decoder computes each of them. -/
theorem wordsOfTheSpecDecode : Obligations.WordsOfTheSpecDecode := by
  refine ⟨?_, ?_, ?_, ?_, ?_, ?_, ?_, ?_, ?_, ?_, ?_⟩ <;> rfl

/-- A field of width 0 reads as 0. -/
theorem getField_of_width_zero (word : Word) {f : BitField} (h : f.width = 0) : getField word f = 0 := by
  refine word_ext fun b hb => ?_
  simp [getField_getLsbD, h]

/-- Writing a field of width 0 changes nothing. -/
theorem setField_of_width_zero (word v : Word) {f : BitField} (h : f.width = 0) : setField word v f = word := by
  refine word_ext fun b hb => ?_
  rw [setField_getLsbD _ _ _ _ hb, if_neg (by omega)]

/-- A write leaves every disjoint field (R142 L3). -/
theorem getField_setField_of_disjoint (word v : Word) {f g : BitField} (h : DisjointBits f g) :
    getField (setField word v f) g = getField word g := by
  rcases h with h | h | h | h
  · exact getField_setField_apart _ _ _ _ (.inl h)
  · exact getField_setField_apart _ _ _ _ (.inr h)
  · rw [setField_of_width_zero _ _ h]
  · rw [getField_of_width_zero _ h, getField_of_width_zero _ h]

/-- Disjoint writes commute (R142 L5): no bit belongs to both fields. -/
theorem setField_comm_of_disjoint (word v v' : Word) {f g : BitField} (h : DisjointBits f g) :
    setField (setField word v f) v' g = setField (setField word v' g) v f := by
  refine word_ext fun b hb => ?_
  simp only [setField_getLsbD _ _ _ _ hb]
  by_cases hf : f.offset ≤ b ∧ b < f.offset + f.width
  · have hg : ¬ (g.offset ≤ b ∧ b < g.offset + g.width) := by
      rcases h with h | h | h | h <;> omega
    simp only [if_pos hf, if_neg hg]
  · simp only [if_neg hf]

/-- Settles O6: laws L1, L2 and L4 are the codec's own lemmas, L3 and L5 follow bit by bit. -/
theorem codecLaws : Obligations.CodecLaws := fun w v v1 v2 f _ =>
  ⟨getField_setField_self w v f, setField_getField_self w f, getField_setField_of_disjoint w v,
    setField_setField_self w v1 v2 f, setField_comm_of_disjoint w v1 v2⟩

/-- Settles O7: each function's own check fails. -/
theorem functionsRefuseOutsideTheirDomain : Obligations.FunctionsRefuseOutsideTheirDomain := by
  refine fun s => ⟨fun word value offset width h => ⟨?_, ?_⟩, fun e => ?_⟩
  · exact dif_neg (by omega)
  · exact dif_neg (by omega)
  · have hpage : ¬ s.conf.hasPage 3 = true := by simp [s.cfg.hasPage_eq]
    exact if_neg hpage

/-! ## Placing a field in the window (R180, R13) -/

theorem exec_place_of_fits (W : Window) {L st w : Nat} (pattern mask : Nat) (s : State)
    (h : 8 * L + st + w ≤ windowBits) :
    exec (.place W L st w pattern mask) s = .next (answered s (.window (place W L st w pattern mask))) := by
  have hfits : placeFits L st w = true := decide_eq_true h
  exact congrArg (fun V => Host.Outcome.next (answered s (.window V))) (if_pos hfits)

/-- Settles O8: `place_getMsbD` gives every bit of the placed window, `extract_place_self` and `extract_place_apart`
what is read back. -/
theorem placePutsAFieldAtItsBits : Obligations.PlacePutsAFieldAtItsBits := by
  refine ⟨fun W L st w pattern mask s h => ⟨_, exec_place_of_fits W pattern mask s h, fun k hk => ?inside,
    fun q hq hout => ?outside, extract_place_self W L st w pattern mask h, fun L2 st2 w2 h2 hap => ?apart⟩,
    fun W L st w pattern mask s _ => ⟨_, rfl⟩, fun x q hq => bytesOf_getLsbD x q hq⟩
  case inside =>
    have hin : 8 * L + st ≤ 8 * L + st + k ∧ 8 * L + st + k < 8 * L + st + w := by omega
    have hk' : 8 * L + st + w - 1 - (8 * L + st + k) = w - 1 - k := by omega
    obtain ⟨hv, hm⟩ := place_getMsbD W L st w pattern mask (8 * L + st + k) h (by simp only [windowBits]; omega)
    rw [if_pos hin, hk'] at hv hm
    exact ⟨hv, hm⟩
  case outside =>
    obtain ⟨hv, hm⟩ := place_getMsbD W L st w pattern mask q h hq
    rw [if_neg (by omega)] at hv hm
    exact ⟨hv, hm⟩
  case apart => exact extract_place_apart W L st w pattern mask L2 st2 w2 h h2 hap

/-! ## Lock-step of pattern and mask (R172) -/

/-- One field placed in lock-step. -/
theorem placeAt_swap {w : Nat} (p : WinPos w) (f : Pair w) (W : Window) :
    placeAt p (swapPair f) (swapWindow W) = swapWindow (placeAt p f W) := rfl

/-- Settles O10: a mapper places its fields one after another, and each is placed in lock-step. -/
theorem patternAndMaskMoveInLockStep : Obligations.PatternAndMaskMoveInLockStep := by
  refine fun W => ⟨fun f => ?_, fun h => ?_, fun h => ?_, fun h => ?_, fun h => ?_, fun h => ?_, fun h => ?_⟩
  all_goals
    simp only [mapPrefix, mapIPv4, mapIPv6, mapTCPv4, mapTCPv6, mapUDPv4, mapUDPv6, placeTCP, placeUDP, swapMac,
      swapIPv4, swapIPv6, swapTCP, swapUDP, placeAt_swap]

end Sys2Proof.Machine

/-! ## Fields written one after another in the words of a page (R153, R156) -/

namespace Sys2Proof.Claims

open Sys2Proof.Machine

/-- The words with the fields of a table written one after another. -/
def putRegs (c : Cfg) (fs : List (FieldPos × Word)) (words : List Word) : List Word :=
  fs.foldl (fun ws p => putReg c p.1 p.2 ws) words

@[simp] theorem putRegs_nil (c : Cfg) (words : List Word) : putRegs c [] words = words := rfl

@[simp] theorem putRegs_cons (c : Cfg) (p : FieldPos × Word) (fs : List (FieldPos × Word)) (words : List Word) :
    putRegs c (p :: fs) words = putRegs c fs (putReg c p.1 p.2 words) := rfl

@[simp] theorem putRegs_length (c : Cfg) (fs : List (FieldPos × Word)) (words : List Word) :
    (putRegs c fs words).length = words.length := by
  induction fs generalizing words with
  | nil => rfl
  | cons p fs ih => rw [putRegs_cons, ih, putReg_length]

/-- The fields lie in the given number of words of one page. -/
def InWords (c : Cfg) (page n : Nat) (fs : List FieldPos) : Prop :=
  ∀ f ∈ fs, f.page = page ∧ c.dataLo ≤ f.reg ∧ f.reg < c.dataLo + n

theorem InWords.mono {c : Cfg} {page n : Nat} {fs gs : List FieldPos} (h : InWords c page n fs) (hsub : gs ⊆ fs) :
    InWords c page n gs := fun f hf => h f (hsub hf)

/-- Writing a field changes its own bits only. -/
theorem sameOutside_putReg {c : Cfg} {page : Nat} (f : FieldPos) (v : Word) (words : List Word)
    (hf : InWords c page words.length [f]) : SameOutside c [f] words (putReg c f v words) := by
  refine ⟨putReg_length _ _ _ _, fun k b hout => ?_⟩
  obtain ⟨-, hlo, -⟩ := hf f (by simp)
  specialize hout f (by simp)
  by_cases hk : k < words.length
  · rw [putReg_getD _ _ _ _ _ hk]
    split
    · rename_i hreg
      by_cases hb : b < 16
      · rw [setField_getLsbD _ _ _ _ hb, if_neg (by omega)]
      · rw [BitVec.getLsbD_of_ge _ _ (by omega), BitVec.getLsbD_of_ge _ _ (by omega)]
    · rfl
  · rw [List.getD_eq_default _ _ (by simpa using hk), List.getD_eq_default _ _ (by simpa using hk)]

theorem SameOutside.refl (c : Cfg) (fs : List FieldPos) (words : List Word) : SameOutside c fs words words :=
  ⟨rfl, fun _ _ _ => rfl⟩

theorem SameOutside.trans {c : Cfg} {fs gs hs : List FieldPos} {u v w : List Word} (h1 : SameOutside c fs u v)
    (h2 : SameOutside c gs v w) (hf : fs ⊆ hs) (hg : gs ⊆ hs) : SameOutside c hs u w :=
  ⟨h2.1.trans h1.1, fun k b hout => (h2.2 k b fun f hf' => hout f (hg hf')).trans
    (h1.2 k b fun f hf' => hout f (hf hf'))⟩

/-- Writing a table changes the bits of its fields only. -/
theorem sameOutside_putRegs {c : Cfg} {page : Nat} {fs : List (FieldPos × Word)} {words : List Word}
    (hin : InWords c page words.length (fs.map (·.1))) : SameOutside c (fs.map (·.1)) words (putRegs c fs words) := by
  induction fs generalizing words with
  | nil => exact .refl _ _ _
  | cons p fs ih =>
    have hp : InWords c page words.length [p.1] := hin.mono (by simp)
    have hfs : InWords c page (putReg c p.1 p.2 words).length (fs.map (·.1)) := by
      rw [putReg_length]
      exact hin.mono (by simp)
    exact (sameOutside_putReg p.1 p.2 words hp).trans (ih hfs) (by simp) (by simp)

/-- A field that is apart from every field written reads as before. -/
theorem getReg_putRegs_apart {c : Cfg} {page n : Nat} {fs : List (FieldPos × Word)} {g : FieldPos}
    (hin : InWords c page n (g :: fs.map (·.1))) (hap : ∀ p ∈ fs, p.1.Apart g) (words : List Word) :
    getReg c g (putRegs c fs words) = getReg c g words := by
  induction fs generalizing words with
  | nil => rfl
  | cons p fs ih =>
    obtain ⟨hgp, hglo, -⟩ := hin g (by simp)
    obtain ⟨hpp, hplo, -⟩ := hin p.1 (by simp)
    rw [List.forall_mem_cons] at hap
    rw [putRegs_cons, ih (hin.mono (by simp)) hap.2]
    exact getReg_putReg_apart _ _ _ _ _ (hpp.trans hgp.symm) hplo hglo hap.1

/-- Every field of a table without overlaps holds its value after the table is written. -/
theorem holdsFields_putRegs {c : Cfg} {page : Nat} {fs : List (FieldPos × Word)} {words : List Word}
    (hin : InWords c page words.length (fs.map (·.1))) (hap : fs.Pairwise fun p q => q.1.Apart p.1) :
    HoldsFields c fs (putRegs c fs words) := by
  induction fs generalizing words with
  | nil => simp [HoldsFields]
  | cons p fs ih =>
    obtain ⟨hp, hap⟩ := List.pairwise_cons.1 hap
    have hlen : (putReg c p.1 p.2 words).length = words.length := putReg_length _ _ _ _
    obtain ⟨-, hlo, hhi⟩ := hin p.1 (by simp)
    rw [HoldsFields, List.forall_mem_cons]
    refine ⟨?_, ih (hlen ▸ hin.mono (by simp)) hap⟩
    rw [putRegs_cons, getReg_putRegs_apart (hin.mono (by simp)) hp, getReg_putReg_self _ _ _ _ (by omega)]

/-! ### The fields of the layout -/

theorem FieldPos.Apart.symm {f g : FieldPos} (h : f.Apart g) : g.Apart f := by
  rcases h with h | h | h | h
  · exact .inl h.symm
  · exact .inr (.inl h.symm)
  · exact .inr (.inr (.inr h))
  · exact .inr (.inr (.inl h))

theorem noOverlap_iff (fs : List FieldPos) : noOverlap fs = true ↔ fs.Pairwise FieldPos.Apart := by
  induction fs with
  | nil => simp [noOverlap]
  | cons f fs ih => simp [noOverlap, ih, FieldPos.apart_iff]

/-- Header fields do not overlap; read from either end. -/
theorem hdrFields_pairwise (c : Cfg.Checked) : c.val.rl.hdrFields.Pairwise fun f g => g.Apart f :=
  ((noOverlap_iff _).1 c.hdr_noOverlap).imp FieldPos.Apart.symm

theorem actFields_pairwise (c : Cfg.Checked) : c.val.rl.actFields.Pairwise fun f g => g.Apart f :=
  ((noOverlap_iff _).1 c.act_noOverlap).imp FieldPos.Apart.symm

theorem hdrFields_inWords (c : Cfg.Checked) : InWords c.val 0 c.val.rl.nHdr c.val.rl.hdrFields :=
  fun _ hf => c.hdrPos hf

theorem actFields_inWords (c : Cfg.Checked) : InWords c.val 2 c.val.rl.nAct c.val.rl.actFields :=
  fun _ hf => c.actPos hf

/-- The key fields, followed by `TAG`, are the header fields (R101). -/
theorem keyTable_positions (l : Layout) (k : KeyFields) : (keyTable l k).map (·.1) ++ [l.tag] = l.hdrFields := rfl

/-- The rows of the action table are the action fields (R103). -/
theorem actTable_positions (l : Layout) (a : Actions) : (actTable l a).map (·.1) = l.actFields := rfl

theorem encodeKey_eq_putRegs (c : Cfg) (key : KeyFields) (e : Entry) :
    encodeKey c key e = { e with hdr := putRegs c (keyTable c.rl key) e.hdr } := rfl

theorem encodeActions_eq_putRegs (c : Cfg) (a : Actions) :
    encodeActions c a = putRegs c (actTable c.rl a) (List.replicate c.rl.nAct 0) := rfl

/-- `TAG` is apart from every key field (R101, R106). -/
theorem tag_apart_keyTable (c : Cfg.Checked) (k : KeyFields) :
    ∀ p ∈ keyTable c.val.rl k, p.1.Apart c.val.rl.tag := by
  have h := hdrFields_pairwise c
  rw [← keyTable_positions c.val.rl k, List.pairwise_append] at h
  exact fun p hp => FieldPos.Apart.symm (h.2.2 p.1 (List.mem_map_of_mem hp) c.val.rl.tag (by simp))

theorem tag_mem_hdrFields (l : Layout) : l.tag ∈ l.hdrFields := by simp [Layout.hdrFields]

/-- Writing some of the header fields, each at most once and in their order, gives each its value, cut to its width, and
changes nothing else. -/
theorem putRegs_hdr (c : Cfg.Checked) {fs : List (FieldPos × Word)} {hdr : List Word}
    (hsub : (fs.map (·.1)).Sublist c.val.rl.hdrFields) (hlen : hdr.length = c.val.rl.nHdr) :
    HoldsFields c.val fs (putRegs c.val fs hdr) ∧ SameOutside c.val (fs.map (·.1)) hdr (putRegs c.val fs hdr) := by
  have hin : InWords c.val 0 hdr.length (fs.map (·.1)) := hlen ▸ (hdrFields_inWords c).mono hsub.subset
  exact ⟨holdsFields_putRegs hin (List.pairwise_map.1 ((hdrFields_pairwise c).sublist hsub)), sameOutside_putRegs hin⟩

@[inherit_doc putRegs_hdr] theorem putRegs_act (c : Cfg.Checked) {fs : List (FieldPos × Word)} {act : List Word}
    (hsub : (fs.map (·.1)).Sublist c.val.rl.actFields) (hlen : act.length = c.val.rl.nAct) :
    HoldsFields c.val fs (putRegs c.val fs act) ∧ SameOutside c.val (fs.map (·.1)) act (putRegs c.val fs act) := by
  have hin : InWords c.val 2 act.length (fs.map (·.1)) := hlen ▸ (actFields_inWords c).mono hsub.subset
  exact ⟨holdsFields_putRegs hin (List.pairwise_map.1 ((actFields_pairwise c).sublist hsub)), sameOutside_putRegs hin⟩

theorem keyTable_sublist (l : Layout) (k : KeyFields) : ((keyTable l k).map (·.1)).Sublist l.hdrFields := by
  rw [← keyTable_positions l k]
  exact List.sublist_append_left _ _

/-- `encodeKey` leaves `TAG` as it is (R153). -/
theorem tag_encodeKey (c : Cfg.Checked) (key : KeyFields) (hdr : List Word) (hlen : hdr.length = c.val.rl.nHdr) :
    getReg c.val c.val.rl.tag (putRegs c.val (keyTable c.val.rl key) hdr) = getReg c.val c.val.rl.tag hdr := by
  have hin : InWords c.val 0 hdr.length c.val.rl.hdrFields := hlen ▸ hdrFields_inWords c
  have hsub : c.val.rl.tag :: (keyTable c.val.rl key).map (·.1) ⊆ c.val.rl.hdrFields :=
    List.cons_subset.2 ⟨tag_mem_hdrFields _, (keyTable_sublist _ _).subset⟩
  exact getReg_putRegs_apart (hin.mono hsub) (tag_apart_keyTable c key) hdr

/-- The action fields hold their values, cut to their widths, in words that are zero elsewhere (R156). -/
theorem encodeActions_act (c : Cfg.Checked) (a : Actions) :
    HoldsFields c.val (actTable c.val.rl a) (encodeActions c.val a) ∧
      SameOutside c.val ((actTable c.val.rl a).map (·.1)) (List.replicate c.val.rl.nAct 0) (encodeActions c.val a) :=
  putRegs_act c (List.Sublist.refl _) (List.length_replicate ..)

end Sys2Proof.Claims

namespace Sys2Proof.Machine

open Sys2Proof.Claims

/-- Settles O11: `encodeKey` writes the key table, whose fields overlap neither each other nor `TAG`. -/
theorem encodeKeyWritesTheKeyFieldsOnly : Obligations.EncodeKeyWritesTheKeyFieldsOnly := by
  intro key e s he
  obtain ⟨hlen, -⟩ := (Entry.wf_iff _ _).1 he
  obtain ⟨hholds, hsame⟩ := putRegs_hdr s.cfg (keyTable_sublist s.conf.rl key) hlen
  exact ⟨putRegs s.conf (keyTable s.conf.rl key) e.hdr, rfl, hholds, hsame, tag_encodeKey s.cfg key e.hdr hlen⟩

/-- Settles O12: `encodeActions` writes the action table, whose fields do not overlap, into zero words. -/
theorem encodeActionsWritesTheActionFieldsOnly : Obligations.EncodeActionsWritesTheActionFieldsOnly :=
  fun a s => ⟨encodeActions s.conf a, rfl, encodeActions_act s.cfg a⟩

end Sys2Proof.Machine

/-! ## Entries as page images (R150 to R152) -/

namespace Sys2Proof

/-- The window registers of an entry that is put together from page images are the registers of the images. -/
theorem winRegs_entryOfPages (c : Cfg) (i0 i1 i2 : List Word) :
    (entryOfPages c i0 i1 i2).winRegs = i0.drop c.rl.nHdr ++ i1 := by
  rw [Entry.winRegs, entryOfPages, List.zipWith_map, List.zipWith_self]
  simp

/-- `entryOfPages` gives back the entry whose page images it is given (R152). -/
theorem entryOfPages_pageImage {c : Cfg} {e : Entry} (h : e.wf c = true) :
    entryOfPages c (pageImage c e 0) (pageImage c e 1) (pageImage c e 2) = e := by
  obtain ⟨hhdr, -, -, -⟩ := (Entry.wf_iff c e).1 h
  have hwin : (pageImage c e 0).drop c.rl.nHdr ++ pageImage c e 1 = e.winRegs := by
    rw [pageImage, pageImage, List.drop_append, List.drop_of_length_le hhdr.le, hhdr, Nat.sub_self, List.drop_zero,
      List.nil_append, List.take_append_drop]
  have htake : (pageImage c e 0).take c.rl.nHdr = e.hdr := by
    rw [pageImage, List.take_append_of_le_length hhdr.ge, List.take_of_length_le hhdr.le]
  rw [entryOfPages, hwin, htake, map_winValue_winRegs h, map_winMask_winRegs h]
  rfl

/-- The images of the sizes of their pages are the page images of the entry they make (R151, R152). -/
theorem pageImage_entryOfPages (c : Cfg.Checked) {i0 i1 i2 : List Word} (h0 : pageWf c.val 0 i0 = true)
    (h1 : pageWf c.val 1 i1 = true) (h2 : pageWf c.val 2 i2 = true) :
    (entryOfPages c.val i0 i1 i2).wf c.val = true ∧ pageImage c.val (entryOfPages c.val i0 i1 i2) 0 = i0 ∧
      pageImage c.val (entryOfPages c.val i0 i1 i2) 1 = i1 ∧ pageImage c.val (entryOfPages c.val i0 i1 i2) 2 = i2 := by
  simp only [pageWf, beq_iff_eq, Cfg.pageLen] at h0 h1 h2
  have hcut := c.sizes.2
  have hdrop : (i0.drop c.val.rl.nHdr).length = c.val.rl.cut := by rw [List.length_drop]; omega
  refine ⟨(Entry.wf_iff _ _).2 ⟨?_, ?_, ?_, h2⟩, ?_, ?_, rfl⟩
  · simp only [entryOfPages, List.length_take]; omega
  · simp only [entryOfPages, List.length_map, List.length_append]; omega
  · simp only [entryOfPages, List.length_map, List.length_append]; omega
  · rw [pageImage, winRegs_entryOfPages, ← hdrop, List.take_left]
    exact List.take_append_drop _ _
  · rw [pageImage, winRegs_entryOfPages, ← hdrop, List.drop_left]

/-- Register `b` of the window holds its mask byte above its value byte (R96). -/
theorem winRegs_getElem? {c : Cfg} {e : Entry} (h : e.wf c = true) {b : Nat} (hb : b < c.windowBytes) :
    ∃ r, e.winRegs[b]? = some r ∧ e.wm[b]? = some (r.extractLsb' 8 8) ∧ e.wv[b]? = some (r.extractLsb' 0 8) := by
  have hlt : b < e.winRegs.length := winRegs_length h ▸ hb
  refine ⟨e.winRegs[b], List.getElem?_eq_getElem hlt, ?_, ?_⟩
  · rw [← map_winMask_winRegs h, List.getElem?_map, List.getElem?_eq_getElem hlt, Option.map_some, winMask]
    exact congrArg some (Machine.setWidth_getField _ maskBits)
  · rw [← map_winValue_winRegs h, List.getElem?_map, List.getElem?_eq_getElem hlt, Option.map_some, winValue]
    exact congrArg some (Machine.setWidth_getField _ valueBits)

end Sys2Proof

namespace Sys2Proof.Machine

open Sys2Proof.Claims

/-- Settles O13: page 0 is the header words and the window registers below the cut, page 1 the others, page 2 the action
words, and the two directions undo each other. -/
theorem pagesAndEntriesAreInverse : Obligations.PagesAndEntriesAreInverse := by
  refine ⟨fun e s he => ⟨fun p hp => ⟨?image, ?size⟩, fun k hk => ?header, fun b hb => ?window, rfl, ?back⟩,
    fun i0 i1 i2 s h0 h1 h2 => ⟨_, rfl, pageImage_entryOfPages s.cfg h0 h1 h2⟩, fun tb pollLimit mask => ⟨rfl, rfl, rfl⟩⟩
  case image => exact if_pos ((s.cfg.hasPage_eq p).2 hp)
  case size => simp [pageWf, pageImage_length s.cfg he]
  case header =>
    obtain ⟨hhdr, -⟩ := (Entry.wf_iff _ e).1 he
    exact List.getElem?_append_left (hhdr.symm ▸ hk)
  case window =>
    obtain ⟨hhdr, -⟩ := (Entry.wf_iff _ e).1 he
    have hb48 : b < s.conf.windowBytes := s.cfg.windowBytes_eq.symm ▸ hb
    obtain ⟨r, hr, hm, hv⟩ := winRegs_getElem? he hb48
    refine ⟨r, ?_, hm, hv⟩
    split
    · rename_i hcut
      rw [pageImage, List.getElem?_append_right (by omega), hhdr, Nat.add_sub_cancel_left, List.getElem?_take, if_pos hcut, hr]
    · rename_i hcut
      rw [pageImage, List.getElem?_drop, Nat.add_sub_cancel' (by omega), hr]
  case back =>
    exact congrArg (fun e' => Host.Outcome.next (answered s (.entry e'))) (entryOfPages_pageImage he)

/-! ## The Cascade Manager (R202 to R204) -/

/-- Settles O15: `isSecondSlotUsed` looks for a mask byte that is not zero, and at nothing else. -/
theorem secondSlotIsUsedIffAMaskByteIsSet : Obligations.SecondSlotIsUsedIffAMaskByteIsSet := by
  refine fun e s he => ⟨isSecondSlotUsed e, rfl, ?_, fun _ => rfl⟩
  obtain ⟨-, -, hwm, -⟩ := (Entry.wf_iff _ e).1 he
  have hlen : e.wm.length = 48 := hwm.trans s.cfg.windowBytes_eq
  rw [isSecondSlotUsed, List.any_eq_true]
  constructor
  · rintro ⟨x, hx, hne⟩
    obtain ⟨k, hk, rfl⟩ := List.getElem_of_mem hx
    exact ⟨k, hlen ▸ hk, by simpa [List.getD_eq_getElem?_getD, hk] using hne⟩
  · rintro ⟨k, hk, hne⟩
    have hk' : k < e.wm.length := hlen.symm ▸ hk
    exact ⟨e.wm[k], List.getElem_mem hk', by simpa [List.getD_eq_getElem?_getD, hk'] using hne⟩

/-- The fields that `link` writes in the first entry's action words (R202). -/
def linkFields (l : Layout) (slot2 : Index) : List (FieldPos × Word) := [(l.cont, 1), (l.nextId, slot2.setWidth 16)]

/-- The fields that `link` writes in the second entry's header words (R202, R204). -/
def continuationFields (c : Cfg) (slot2 : Index) : List (FieldPos × Word) :=
  [(c.rl.vid, slot2.setWidth 16), (c.rl.vidMask, cmpAll c c.rl.vidMask.bits.width), (c.rl.tag, c.validTag)]

theorem linkFirst_eq (c : Cfg) (e : Entry) (slot2 : Index) :
    linkFirst c e slot2 = { e with act := putRegs c (linkFields c.rl slot2) (List.replicate c.rl.nAct 0) } := rfl

theorem linkSecond_eq (c : Cfg) (e : Entry) (slot2 : Index) (a : Actions) :
    linkSecond c e slot2 a =
      { e with hdr := putRegs c (continuationFields c slot2) e.hdr, act := encodeActions c a } := rfl

theorem linkFields_act (c : Cfg.Checked) (slot2 : Index) :
    HoldsFields c.val (linkFields c.val.rl slot2)
        (putRegs c.val (linkFields c.val.rl slot2) (List.replicate c.val.rl.nAct 0)) ∧
      SameOutside c.val [c.val.rl.cont, c.val.rl.nextId] (List.replicate c.val.rl.nAct 0)
        (putRegs c.val (linkFields c.val.rl slot2) (List.replicate c.val.rl.nAct 0)) :=
  putRegs_act c (by simp [linkFields, Layout.actFields]) (List.length_replicate ..)

/-- "Compare every bit" cut to a field is all ones or 0 cut to it (R204). -/
theorem cmpAll_and_ones (c : Cfg) (n : Nat) :
    cmpAll c n &&& ones n = (if c.maskOneIsCompare then 0xFFFF else 0) &&& ones n := by
  rw [cmpAll]
  split
  · exact (BitVec.and_self).trans (BitVec.allOnes_and (x := ones n)).symm
  · rfl

theorem continuationFields_hdr (c : Cfg.Checked) (slot2 : Index) {hdr : List Word}
    (hlen : hdr.length = c.val.rl.nHdr) :
    HoldsFields c.val
        [(c.val.rl.vid, slot2.setWidth 16), (c.val.rl.vidMask, if c.val.maskOneIsCompare then 0xFFFF else 0),
          (c.val.rl.tag, c.val.validTag)] (putRegs c.val (continuationFields c.val slot2) hdr) ∧
      SameOutside c.val [c.val.rl.vid, c.val.rl.vidMask, c.val.rl.tag] hdr
        (putRegs c.val (continuationFields c.val slot2) hdr) := by
  have hsub : ((continuationFields c.val slot2).map (·.1)).Sublist c.val.rl.hdrFields :=
    .cons _ (.cons _ (.cons _ (.cons _ (.cons _ (.cons_cons _ (.cons _ (.cons_cons _ (.cons _ (.cons _ (.cons_cons _
      .slnil))))))))))
  obtain ⟨hholds, hsame⟩ := putRegs_hdr c hsub hlen
  refine ⟨?_, hsame⟩
  simp only [HoldsFields, continuationFields, List.forall_mem_cons, cmpAll_and_ones] at hholds ⊢
  exact hholds

/-- Settles O16: `link` writes two action fields, three header fields and the action table, none of which overlap. -/
theorem linkWritesTheContinuation : Obligations.LinkWritesTheContinuation := by
  intro first second slot2 a s hfirst hsecond
  obtain ⟨hlen, -⟩ := (Entry.wf_iff _ _).1 hsecond
  obtain ⟨hlink, hlinkSame⟩ := linkFields_act s.cfg slot2
  obtain ⟨hcont, hcontSame⟩ := continuationFields_hdr s.cfg slot2 hlen
  obtain ⟨hact, hactSame⟩ := encodeActions_act s.cfg a
  exact ⟨_, _, _, rfl, hlink, hlinkSame, hcont, hcontSame, hact, hactSame⟩

end Sys2Proof.Machine

/-! ## The bytes of a bit string (R13) -/

namespace Sys2Proof

/-- The number that bytes make, the first one most significant. -/
def numOf (bytes : List Byte) : Nat := bytes.foldl (fun acc b => acc * 256 + b.toNat) 0

theorem bitsOf_eq (bytes : List Byte) : bitsOf bytes = BitVec.ofNat windowBits (numOf bytes) := rfl

theorem numOf_concat (bytes : List Byte) (b : Byte) : numOf (bytes ++ [b]) = numOf bytes * 256 + b.toNat := by
  rw [numOf, List.foldl_append]
  rfl

theorem numOf_lt (bytes : List Byte) : numOf bytes < 256 ^ bytes.length := by
  induction bytes using List.reverseRecOn with
  | nil => simp [numOf]
  | append_singleton bytes b ih =>
    have hb := b.isLt
    rw [numOf_concat, List.length_append, List.length_singleton, pow_succ]
    omega

/-- Byte `L` of the number that bytes make. -/
theorem numOf_byte (bytes : List Byte) {L : Nat} (hL : L < bytes.length) :
    numOf bytes / 256 ^ (bytes.length - 1 - L) % 256 = (bytes[L]).toNat := by
  induction bytes using List.reverseRecOn with
  | nil => simp at hL
  | append_singleton bytes b ih =>
    have hb := b.isLt
    rw [List.length_append, List.length_singleton] at hL
    rw [numOf_concat, List.length_append, List.length_singleton]
    by_cases h : L < bytes.length
    · have hexp : bytes.length + 1 - 1 - L = (bytes.length - 1 - L) + 1 := by omega
      have hdiv : (numOf bytes * 256 + b.toNat) / 256 = numOf bytes := by omega
      rw [hexp, pow_succ', ← Nat.div_div_eq_div_mul, hdiv, ih h, List.getElem_append_left h]
    · have hlast : L = bytes.length := by omega
      subst hlast
      have hexp : bytes.length + 1 - 1 - bytes.length = 0 := by omega
      rw [hexp, pow_zero, Nat.div_one, List.getElem_concat_length rfl]
      omega

theorem bytesOf_getElem (x : BitVec windowBits) {L : Nat} (hL : L < (bytesOf x).length) :
    (bytesOf x)[L] = x.extractLsb' (windowBits - 8 * (L + 1)) 8 := by
  simp only [bytesOf, List.getElem_map, List.getElem_range]

/-- The bytes of the bit string of 96 bytes are those bytes (R13). -/
theorem bytesOf_bitsOf {bytes : List Byte} (h : bytes.length = 96) : bytesOf (bitsOf bytes) = bytes := by
  refine List.ext_getElem (by rw [bytesOf_length, h]) fun L h1 h2 => ?_
  have h256 : 256 = 2 ^ 8 := by norm_num
  have hbits : 8 * 96 = windowBits := rfl
  have hlt : numOf bytes < 2 ^ windowBits := by
    have hlt := numOf_lt bytes
    rwa [h, h256, ← pow_mul, hbits] at hlt
  have hL : L < 96 := h ▸ h2
  have hpow : 2 ^ (windowBits - 8 * (L + 1)) = 256 ^ (bytes.length - 1 - L) := by
    rw [h, show windowBits - 8 * (L + 1) = 8 * (96 - 1 - L) by simp only [windowBits]; omega, pow_mul, ← h256]
  apply BitVec.eq_of_toNat_eq
  rw [bytesOf_getElem, bitsOf_eq, BitVec.extractLsb'_toNat, BitVec.toNat_ofNat, Nat.mod_eq_of_lt hlt,
    Nat.shiftRight_eq_div_pow, hpow]
  exact numOf_byte bytes h2

/-- Bit strings with the same bytes are the same (R13). -/
theorem bytesOf_inj {x y : BitVec windowBits} (h : bytesOf x = bytesOf y) : x = y := by
  refine BitVec.eq_of_getMsbD_eq fun q hq => ?_
  rw [← bytesOf_getLsbD x q hq, ← bytesOf_getLsbD y q hq, h]

/-- Byte `b` is zero exactly when its eight string positions are. -/
theorem bytesOf_getD_eq_zero_iff (x : BitVec windowBits) {b : Nat} (hb : b < 96) :
    (bytesOf x).getD b 0 = 0 ↔ ∀ q, 8 * b ≤ q → q < 8 * b + 8 → x.getMsbD q = false := by
  constructor
  · intro h q h1 h2
    have hq : q < windowBits := by simp only [windowBits]; omega
    have hqb : q / 8 = b := by omega
    rw [← bytesOf_getLsbD x q hq, hqb, h]
    simp
  · intro h
    refine BitVec.eq_of_getLsbD_eq fun k hk => ?_
    have hq : 8 * b + (7 - k) < windowBits := by simp only [windowBits]; omega
    have h1 : (8 * b + (7 - k)) / 8 = b := by omega
    have h2 : 7 - (8 * b + (7 - k)) % 8 = k := by omega
    have := bytesOf_getLsbD x _ hq
    rw [h1, h2, h _ (by omega) (by omega)] at this
    simpa using this

/-- The second window of a bit string is all zero exactly when its string positions from 384 up are. -/
theorem drop_bytesOf_eq_zero_iff (x : BitVec windowBits) :
    (bytesOf x).drop 48 = List.replicate 48 0 ↔ ∀ q, 384 ≤ q → q < 768 → x.getMsbD q = false := by
  constructor
  · intro h q h1 h2
    refine (bytesOf_getD_eq_zero_iff x (b := q / 8) (by omega)).1 ?_ q (by omega) (by omega)
    have hk : q / 8 = 48 + (q / 8 - 48) := by omega
    rw [hk, List.getD_eq_getElem?_getD, ← List.getElem?_drop, h, List.getElem?_replicate]
    split <;> rfl
  · intro h
    refine List.ext_getElem (by simp) fun k h1 h2 => ?_
    have hk : k < 48 := by simpa using h2
    have hz := (bytesOf_getD_eq_zero_iff x (b := 48 + k) (by omega)).2 fun q h1 h2 => h q (by omega) (by omega)
    rw [List.getD_eq_getElem _ _ (by rw [bytesOf_length]; omega)] at hz
    rw [List.getElem_drop, List.getElem_replicate, hz]

end Sys2Proof

/-! ## The window of a rule (R160, R161) -/

namespace Sys2Proof.Claims

/-- Two ascending tables one after the other. -/
theorem Ascending.append {fs gs : List WinField} (hf : Ascending fs) (hg : Ascending gs)
    (h : ∀ f ∈ fs, ∀ g ∈ gs, f.stop ≤ g.start) : Ascending (fs ++ gs) where
  inside := List.forall_mem_append.2 ⟨hf.inside, hg.inside⟩
  narrow := List.forall_mem_append.2 ⟨hf.narrow, hg.narrow⟩
  ordered := List.pairwise_append.2 ⟨hf.ordered, hg.ordered, h⟩

/-- The rows of a rule in the order in which they are placed. -/
def ruleTable (r : Rule) : List WinField := macTable r.mac ++ headersTable r.headers

theorem placeRows_append (fs gs : List WinField) (W : Window) :
    placeRows (fs ++ gs) W = placeRows gs (placeRows fs W) := List.foldl_append

theorem mapHeaders_eq_placeRows (h : Headers) (W : Window) : mapHeaders h W = placeRows (headersTable h) W := by
  cases h <;> rfl

theorem ruleWindow_eq_placeRows (r : Rule) : ruleWindow r = placeRows (ruleTable r) ⟨0, 0⟩ := by
  rw [ruleTable, placeRows_append, ← mapHeaders_eq_placeRows]
  rfl

/-- The header fields of every shape ascend and come after the 18 bytes of the layer-2 part (R154, R187). -/
theorem headersTable_ascending (h : Headers) :
    Ascending (headersTable h) ∧ ∀ g ∈ headersTable h, 144 ≤ g.start := by
  cases h with
  | ipv4Tcp l3 l4 =>
    exact ⟨(ipv4Table_ascending l3).append (tcp4Table_ascending l4) (by simp [ipv4Table, tcp4Table]),
      by simp [headersTable, ipv4Table, tcp4Table]⟩
  | ipv4Udp l3 l4 =>
    exact ⟨(ipv4Table_ascending l3).append (udp4Table_ascending l4) (by simp [ipv4Table, udp4Table]),
      by simp [headersTable, ipv4Table, udp4Table]⟩
  | ipv6Tcp l3 l4 =>
    exact ⟨(ipv6Table_ascending l3).append (tcp6Table_ascending l4) (by simp [ipv6Table, tcp6Table]),
      by simp [headersTable, ipv6Table, tcp6Table]⟩
  | ipv6Udp l3 l4 =>
    exact ⟨(ipv6Table_ascending l3).append (udp6Table_ascending l4) (by simp [ipv6Table, udp6Table]),
      by simp [headersTable, ipv6Table, udp6Table]⟩
  | unsupported low => exact ⟨⟨by simp [headersTable], by simp [headersTable], by simp [headersTable]⟩,
      by simp [headersTable]⟩

theorem ruleTable_ascending (r : Rule) : Ascending (ruleTable r) := by
  obtain ⟨hasc, hstart⟩ := headersTable_ascending r.headers
  refine (macTable_ascending r.mac).append hasc fun f hf g hg => le_trans ?_ (hstart g hg)
  revert f
  simp [macTable]

theorem ruleWindow_placesExactly (r : Rule) : PlacesExactly (ruleTable r) ⟨0, 0⟩ (ruleWindow r) := by
  rw [ruleWindow_eq_placeRows]
  exact (ruleTable_ascending r).placesExactly _

/-- Plain IPv4-UDP ends inside the first window, so it masks nothing in the second one (R200). -/
theorem not_masksSecondWindow_of_ipv4Udp {r : Rule} {l3 : IPv4} {l4 : UDP} (h : r.headers = .ipv4Udp l3 l4) :
    ¬ MasksSecondWindow r := by
  rintro ⟨q, h1, h2, hq⟩
  have hstop : ∀ f ∈ ruleTable r, f.stop ≤ 368 := by
    simp [ruleTable, h, macTable, headersTable, ipv4Table, udp4Table]
  have hnone : ∀ f ∈ ruleTable r, ¬ f.covers q := by
    intro f hf hc
    have := hstop f hf
    obtain ⟨-, hc⟩ := hc
    simp only [WinField.stop] at this
    omega
  rw [((ruleWindow_placesExactly r).2 q h2 hnone).2] at hq
  simp at hq

end Sys2Proof.Claims

/-! ## `compile` (R160, R161) -/

namespace Sys2Proof.Machine

open Sys2Proof.Claims

/-- Only plain IPv4-UDP needs no second slot, among the supported shapes (R200). -/
theorem needsSecond_eq_false_iff {r : Rule} (h : r.supported = true) : r.needsSecond = false ↔ r.shape = 0b001 := by
  rcases r with ⟨key, mac, headers, action⟩
  cases headers with
  | unsupported => cases h
  | _ =>
    simp only [Rule.needsSecond, h, Rule.shape, Headers.shape]
    decide

/-- The second window of a rule has a mask byte set exactly when a mask bit lies there (R161, R203). -/
theorem isSecondSlotUsed_secondEntry (c : Cfg.Checked) (r : Rule) :
    isSecondSlotUsed (secondEntry c.val r) = true ↔ MasksSecondWindow r := by
  have hwm : (secondEntry c.val r).wm = (bytesOf (ruleWindow r).m).drop 48 := by
    rw [secondEntry, c.windowBytes_eq]
  have hnot : isSecondSlotUsed (secondEntry c.val r) = false ↔
      (bytesOf (ruleWindow r).m).drop 48 = List.replicate 48 0 := by
    rw [isSecondSlotUsed, hwm, List.any_eq_false, List.eq_replicate_iff]
    simp
  rw [← not_iff_not, Bool.not_eq_true, hnot, drop_bytesOf_eq_zero_iff, MasksSecondWindow]
  simp

/-- `compile` of a supported shape makes a second entry exactly when a mask bit lies in the second window: a shape that
never needs one has no field there (R161). -/
theorem needsSecond_and_used_iff (c : Cfg.Checked) {r : Rule} (h : r.supported = true) :
    (r.needsSecond && isSecondSlotUsed (secondEntry c.val r)) = true ↔ MasksSecondWindow r := by
  rw [Bool.and_eq_true, isSecondSlotUsed_secondEntry]
  refine ⟨And.right, fun hm => ⟨?_, hm⟩⟩
  by_contra hns
  rcases r with ⟨key, mac, headers, action⟩
  cases headers with
  | ipv4Udp l3 l4 => exact not_masksSecondWindow_of_ipv4Udp rfl hm
  | unsupported => cases h
  | _ =>
    have hshape := (needsSecond_eq_false_iff h).1 (Bool.eq_false_iff.2 hns)
    simp [Rule.shape, Headers.shape] at hshape

/-- What `compile` answers (R160): one entry, or, when a mask bit lies in the second window, a linked pair. -/
theorem compileRule_eq (c : Cfg.Checked) {r : Rule} (j : Index) (h : r.supported = true) :
    (MasksSecondWindow r ∧ compileRule c.val r j =
        some [linkFirst c.val (firstEntry c.val r) j, linkSecond c.val (secondEntry c.val r) j r.action]) ∨
      (¬ MasksSecondWindow r ∧
        compileRule c.val r j = some [{ firstEntry c.val r with act := encodeActions c.val r.action }]) := by
  have hiff := needsSecond_and_used_iff c h
  by_cases hm : MasksSecondWindow r
  · exact .inl ⟨hm, by rw [compileRule, if_pos h, if_pos (hiff.2 hm)]; rfl⟩
  · exact .inr ⟨hm, by rw [compileRule, if_pos h, if_neg (mt hiff.1 hm)]⟩

theorem exec_compile {r : Rule} {j : Index} {s : State} {es : List Entry} (h : compileRule s.conf r j = some es) :
    exec (.compile r j) s = .next (answered s (.entries es)) := by
  simp only [exec, execCompile, h]
  rfl

/-- The `TAG` field can hold `VALID_TAG` (R106). -/
theorem validTag_and_ones (c : Cfg.Checked) : c.val.validTag &&& ones c.val.rl.tag.bits.width = c.val.validTag := by
  obtain ⟨-, -, hvalid, hwidth⟩ := c.tags
  have hfits := c.val.rl.tag.bits.fits
  have hpow : 2 ^ 8 ≤ 2 ^ c.val.rl.tag.bits.width := Nat.pow_le_pow_right (by decide) hwidth
  exact and_ones_of_toNat_lt (by omega) (by omega)

/-- Header words that hold `VALID_TAG` are valid (R37). -/
theorem validWords_of_holds (c : Cfg.Checked) {fs : List (FieldPos × Word)} {hdr : List Word}
    (h : HoldsFields c.val fs hdr) (hmem : (c.val.rl.tag, c.val.validTag) ∈ fs) : validWords c.val hdr = true := by
  rw [validWords, h _ hmem, validTag_and_ones, bne_iff_ne]
  exact c.tags.1.symm

/-- The header words of the first entry: the rule's key and `VALID_TAG` in zero words (R160). -/
theorem firstEntry_hdr (c : Cfg) (r : Rule) :
    (firstEntry c r).hdr = putRegs c (keyTable c.rl r.key ++ [(c.rl.tag, c.validTag)]) (List.replicate c.rl.nHdr 0) :=
  rfl

theorem firstEntry_fields (c : Cfg.Checked) (r : Rule) :
    HoldsFields c.val ((c.val.rl.tag, c.val.validTag) :: keyTable c.val.rl r.key) (firstEntry c.val r).hdr ∧
      SameOutside c.val (c.val.rl.tag :: (keyTable c.val.rl r.key).map (·.1)) (List.replicate c.val.rl.nHdr 0)
        (firstEntry c.val r).hdr := by
  have hsub : ((keyTable c.val.rl r.key ++ [(c.val.rl.tag, c.val.validTag)]).map (·.1)).Sublist c.val.rl.hdrFields :=
    List.Sublist.refl _
  obtain ⟨hholds, hsame⟩ := putRegs_hdr c hsub (List.length_replicate (n := c.val.rl.nHdr) (a := (0 : Word)))
  rw [firstEntry_hdr]
  refine ⟨fun p hp => hholds p ?_, hsame.1, fun k b hout => hsame.2 k b fun f hf => hout f ?_⟩
  · simpa [or_comm] using hp
  · simpa [or_comm] using hf

/-- Settles O17: by whether a mask bit lies in the second window; the parts are those of `encodeKey`, `link` and
`encodeActions`, and the window is the rule's table placed in zeros. -/
theorem compileAnswersOneOrTwoEntries : Obligations.CompileAnswersOneOrTwoEntries := by
  intro r j s hr
  have hw := s.cfg.windowBytes_eq
  have hwf := compileRule_wf s.cfg r j
  obtain ⟨hkey, hkeySame⟩ := firstEntry_fields s.cfg r
  have hvalid : validWords s.conf (firstEntry s.conf r).hdr = true := validWords_of_holds s.cfg hkey (by simp)
  have hplaces := ruleWindow_placesExactly r
  have hwv : (firstEntry s.conf r).wv = (bytesOf (ruleWindow r).v).take 48 := by rw [firstEntry, hw]
  have hwm : (firstEntry s.conf r).wm = (bytesOf (ruleWindow r).m).take 48 := by rw [firstEntry, hw]
  obtain ⟨hact, hactSame⟩ := encodeActions_act s.cfg r.action
  rcases compileRule_eq s.cfg j hr with ⟨hm, hc⟩ | ⟨hm, hc⟩
  · have hlen : (secondEntry s.conf r).hdr.length = s.conf.rl.nHdr := List.length_replicate ..
    obtain ⟨hlink, hlinkSame⟩ := linkFields_act s.cfg j
    obtain ⟨hcont, hcontSame⟩ := continuationFields_hdr s.cfg j hlen
    refine ⟨_, some _, exec_compile hc, by simpa using hm, ?shape, ?entries, hkey, hkeySame, hplaces, hwv, hwm,
      by simp, ?second⟩
    case shape =>
      intro hshape
      have hns := (needsSecond_eq_false_iff hr).2 hshape
      simpa [hns] using (needsSecond_and_used_iff s.cfg hr).2 hm
    case entries =>
      intro e he
      refine ⟨hwf _ hc e he, ?_⟩
      rcases List.mem_pair.1 he with rfl | rfl
      · exact hvalid
      · exact validWords_of_holds s.cfg hcont (by simp)
    case second =>
      intro e he
      cases he
      refine ⟨?_, ?_, hlink, hlinkSame, hcont, hcontSame, hact, hactSame⟩
      · simp only [linkSecond_eq, secondEntry, hw]
      · simp only [linkSecond_eq, secondEntry, hw]
  · refine ⟨_, none, exec_compile hc, by simpa using hm, fun _ => rfl, ?single, hkey, hkeySame, hplaces, hwv, hwm,
      fun _ => ⟨hact, hactSame⟩, by simp⟩
    case single =>
      intro e he
      refine ⟨hwf _ hc e he, ?_⟩
      rw [List.mem_singleton.1 he]
      exact hvalid

end Sys2Proof.Machine

/-! ## `decode` of entries and the round trip (R165, R171) -/

namespace Sys2Proof.Claims

open Sys2Proof.Machine

/-- The table's fields lie in the window at their places. -/
def LiesIn (fs : List WinField) (W : Window) : Prop := ∀ f ∈ fs, extract W f.L f.s f.w = (f.pat, f.mask)

theorem liesIn_append {fs gs : List WinField} {W : Window} : LiesIn (fs ++ gs) W ↔ LiesIn fs W ∧ LiesIn gs W :=
  List.forall_mem_append

/-- A field lies at its row exactly when it is what is read there (R165). -/
theorem extract_row_iff {w : Nat} (L s : Nat) (f : Pair w) (W : Window) :
    extract W (row L s f).L (row L s f).s (row L s f).w = ((row L s f).pat, (row L s f).mask) ↔
      readAt ⟨L, s⟩ W = f := by
  have hpat : (BitVec.ofNat w (extract W L s w).1).toNat = (extract W L s w).1 :=
    Nat.mod_eq_of_lt (Nat.mod_lt _ (Nat.two_pow_pos w))
  have hmask : (BitVec.ofNat w (extract W L s w).2).toNat = (extract W L s w).2 :=
    Nat.mod_eq_of_lt (Nat.mod_lt _ (Nat.two_pow_pos w))
  obtain ⟨pat, mask⟩ := f
  simp only [row, readAt, Prod.ext_iff, Pair.mk.injEq, ← BitVec.toNat_inj, hpat, hmask]

section

variable (W : Window)

theorem liesIn_macTable (f : MacFields) : LiesIn (macTable f) W ↔ readPrefix W = f := by
  obtain ⟨da, sa, vtag, etype⟩ := f
  simp only [LiesIn, macTable, List.forall_mem_cons, extract_row_iff, readPrefix, MacFields.mk.injEq]
  simp [posDA, posSA, posVTAG, posETYPE]

theorem liesIn_ipv4Table (h : IPv4) : LiesIn (ipv4Table h) W ↔ readIPv4 W = h := by
  obtain ⟨ver, ihl, tos, totLen, ident, flagsFrag, ttl, proto, hcsum, sip, dip⟩ := h
  simp only [LiesIn, ipv4Table, List.forall_mem_cons, extract_row_iff, readIPv4, IPv4.mk.injEq]
  simp [pos4VER, pos4IHL, pos4TOS, pos4TOTLEN, pos4ID, pos4FLAGSFRAG, pos4TTL, pos4PROTO, pos4HCSUM, pos4SIP, pos4DIP]

theorem liesIn_ipv6Table (h : IPv6) : LiesIn (ipv6Table h) W ↔ readIPv6 W = h := by
  obtain ⟨ver, tc, flow, plen, nxt, hop, sip6, dip6⟩ := h
  simp only [LiesIn, ipv6Table, List.forall_mem_cons, extract_row_iff, readIPv6, IPv6.mk.injEq]
  simp [pos6VER, pos6TC, pos6FLOW, pos6PLEN, pos6NXT, pos6HOP, pos6SIP, pos6DIP]

theorem liesIn_tcp4Table (h : TCP) : LiesIn (tcp4Table h) W ↔ readTCP 38 W = h := by
  obtain ⟨sport, dport, seq, ack, offFlags, win, csum, urg⟩ := h
  simp only [LiesIn, tcp4Table, List.forall_mem_cons, extract_row_iff, readTCP, TCP.mk.injEq]
  simp [posSPORT, posDPORT, posSEQ, posACK, posOFFFLAGS, posWIN, posCSUM, posURG]

theorem liesIn_tcp6Table (h : TCP) : LiesIn (tcp6Table h) W ↔ readTCP 58 W = h := by
  obtain ⟨sport, dport, seq, ack, offFlags, win, csum, urg⟩ := h
  simp only [LiesIn, tcp6Table, List.forall_mem_cons, extract_row_iff, readTCP, TCP.mk.injEq]
  simp [posSPORT, posDPORT, posSEQ, posACK, posOFFFLAGS, posWIN, posCSUM, posURG]

theorem liesIn_udp4Table (h : UDP) : LiesIn (udp4Table h) W ↔ readUDP 38 W = h := by
  obtain ⟨sport, dport, ulen, ucsum⟩ := h
  simp only [LiesIn, udp4Table, List.forall_mem_cons, extract_row_iff, readUDP, UDP.mk.injEq]
  simp [posSPORT, posDPORT, posULEN, posUCSUM]

theorem liesIn_udp6Table (h : UDP) : LiesIn (udp6Table h) W ↔ readUDP 58 W = h := by
  obtain ⟨sport, dport, ulen, ucsum⟩ := h
  simp only [LiesIn, udp6Table, List.forall_mem_cons, extract_row_iff, readUDP, UDP.mk.injEq]
  simp [posSPORT, posDPORT, posULEN, posUCSUM]

/-- Header fields of a supported shape lie in the window exactly when they are what is read under its tag (R165). -/
theorem liesIn_headersTable {h : Headers} (hs : ∀ low, h ≠ .unsupported low) :
    LiesIn (headersTable h) W ↔ readHeaders (h.shape.setWidth 2) W = h := by
  cases h with
  | ipv4Tcp l3 l4 =>
    rw [headersTable, liesIn_append, liesIn_ipv4Table, liesIn_tcp4Table, readHeaders, Headers.shape,
      if_pos (by decide),
      Headers.ipv4Tcp.injEq]
  | ipv4Udp l3 l4 =>
    rw [headersTable, liesIn_append, liesIn_ipv4Table, liesIn_udp4Table, readHeaders, Headers.shape,
      if_neg (by decide),
      if_pos (by decide), Headers.ipv4Udp.injEq]
  | ipv6Tcp l3 l4 =>
    rw [headersTable, liesIn_append, liesIn_ipv6Table, liesIn_tcp6Table, readHeaders, Headers.shape,
      if_neg (by decide),
      if_neg (by decide), if_pos (by decide), Headers.ipv6Tcp.injEq]
  | ipv6Udp l3 l4 =>
    rw [headersTable, liesIn_append, liesIn_ipv6Table, liesIn_udp6Table, readHeaders, Headers.shape,
      if_neg (by decide),
      if_neg (by decide), if_neg (by decide), Headers.ipv6Udp.injEq]
  | unsupported low => exact absurd rfl (hs low)

end

/-- What is read under a supported tag has that tag (R110). -/
theorem readHeaders_shape (shape : BitVec 2) (W : Window) :
    (readHeaders shape W).shape = 0#1 ++ shape ∧ ∀ low, readHeaders shape W ≠ .unsupported low := by
  have hcases : ∀ shape : BitVec 2, shape = 0b00 ∨ shape = 0b01 ∨ shape = 0b10 ∨ shape = 0b11 := by decide
  rcases hcases shape with rfl | rfl | rfl | rfl
  · exact ⟨rfl, fun _ h => nomatch h⟩
  · exact ⟨rfl, fun _ h => nomatch h⟩
  · exact ⟨rfl, fun _ h => nomatch h⟩
  · exact ⟨rfl, fun _ h => nomatch h⟩

theorem setWidth_append_tag (shape : BitVec 2) : (0#1 ++ shape : BitVec 3).setWidth 2 = shape := by
  revert shape
  decide

/-- The bytes of the window of well-formed entries (R165). -/
theorem bytesOf_entriesWindow (c : Cfg.Checked) {first : Entry} {second : Option Entry} (h1 : first.wf c.val = true)
    (h2 : ∀ e, second = some e → e.wf c.val = true) :
    bytesOf (entriesWindow c.val first second).v = first.wv ++ second.elim (List.replicate 48 0) (·.wv) ∧
      bytesOf (entriesWindow c.val first second).m = first.wm ++ second.elim (List.replicate 48 0) (·.wm) := by
  have hw := c.windowBytes_eq
  obtain ⟨-, hv, hm, -⟩ := (Entry.wf_iff _ _).1 h1
  cases second with
  | none =>
    simp only [entriesWindow, Option.elim, hw]
    exact ⟨bytesOf_bitsOf (by simp [hv, hw]), bytesOf_bitsOf (by simp [hm, hw])⟩
  | some e =>
    obtain ⟨-, hv2, hm2, -⟩ := (Entry.wf_iff _ _).1 (h2 e rfl)
    exact ⟨bytesOf_bitsOf (by simp [hv, hv2, hw]), bytesOf_bitsOf (by simp [hm, hm2, hw])⟩

/-- A window is determined by its value bytes and its mask bytes. -/
theorem window_ext_bytes {W V : Window} (hv : bytesOf W.v = bytesOf V.v) (hm : bytesOf W.m = bytesOf V.m) : W = V := by
  obtain ⟨v, m⟩ := W
  obtain ⟨v', m'⟩ := V
  exact congrArg₂ Window.mk (bytesOf_inj hv) (bytesOf_inj hm)

end Sys2Proof.Claims

namespace Sys2Proof.Machine

open Sys2Proof.Claims

theorem exec_decode (shape : BitVec 2) (first : Entry) (second : Option Entry) (s : State) :
    exec (.decode shape first second) s = .next (answered s (.rule (decodeRule s.conf shape first second))) := rfl

/-- Settles O18: `decode` reads each field of the shape's tables where it lies, from the window of the entries' bytes. -/
theorem decodeReadsEveryFieldAtItsPlace : Obligations.DecodeReadsEveryFieldAtItsPlace := by
  intro shape first second s
  let W := entriesWindow s.conf first second
  obtain ⟨hshape, hsupported⟩ := readHeaders_shape shape W
  refine ⟨_, W, exec_decode shape first second s, hshape, liesIn_append.2 ⟨?mac, ?headers⟩,
    bytesOf_entriesWindow s.cfg, ?key, ?actions⟩
  case mac => exact (liesIn_macTable W _).2 rfl
  case headers =>
    refine (liesIn_headersTable W hsupported).2 ?_
    rw [hshape, setWidth_append_tag]
  case key => simp [keyTable, decodeRule, decodeKey]
  case actions => simp [actTable, decodeRule, decodeActions]

/-- The words from which each field of a table that fits is read hold the table's fields. -/
theorem getReg_of_holdsFields {c : Cfg} {fs : List (FieldPos × Word)} {words : List Word}
    (hholds : HoldsFields c fs words) (hfits : ∀ p ∈ fs, p.2 &&& ones p.1.bits.width = p.2) :
    ∀ p ∈ fs, getReg c p.1 words = p.2 := fun p hp => (hholds p hp).trans (hfits p hp)

theorem decodeKey_eq {c : Cfg} {k : KeyFields} {e : Entry}
    (h : ∀ p ∈ keyTable c.rl k, getReg c p.1 e.hdr = p.2) : decodeKey c e = k := by
  simp only [keyTable, List.forall_mem_cons] at h
  simp [decodeKey, h]

theorem decodeActions_eq {c : Cfg} {a : Actions} {act : List Word}
    (h : ∀ p ∈ actTable c.rl a, getReg c p.1 act = p.2) : decodeActions c act = a := by
  simp only [actTable, List.forall_mem_cons] at h
  simp [decodeActions, h]

theorem Rule.headers_ne_unsupported {r : Rule} (h : r.supported = true) (low : BitVec 2) :
    r.headers ≠ .unsupported low := by
  intro e
  simp [Rule.supported, e] at h

/-- Entries that hold the rule's key, window and actions decode to the rule (R171). -/
theorem decodeRule_eq {c : Cfg} {r : Rule} {first : Entry} {second : Option Entry} (hr : r.supported = true)
    (hkey : ∀ p ∈ keyTable c.rl r.key, getReg c p.1 first.hdr = p.2)
    (hact : ∀ p ∈ actTable c.rl r.action, getReg c p.1 (second.getD first).act = p.2)
    (hwin : entriesWindow c first second = ruleWindow r) :
    decodeRule c (r.shape.setWidth 2) first second = r := by
  have hlies : LiesIn (macTable r.mac ++ headersTable r.headers) (ruleWindow r) := (ruleWindow_placesExactly r).1
  obtain ⟨hmac, hheaders⟩ := liesIn_append.1 hlies
  rw [liesIn_macTable] at hmac
  rw [liesIn_headersTable _ (Rule.headers_ne_unsupported hr)] at hheaders
  simp only [decodeRule, hwin, hmac, decodeKey_eq hkey, decodeActions_eq hact]
  exact congrArg (Rule.mk r.key r.mac · r.action) hheaders

/-- Settles O19: the entries of O17 hold the rule's key and actions, and their window is the rule's; with one entry the
second half is zero, by the two premises on it. -/
theorem compileThenDecodeGivesTheRuleBack : Obligations.CompileThenDecodeGivesTheRuleBack := by
  intro r j s hr hfit hzero
  obtain ⟨hfitKey, hfitAct⟩ := hfit
  obtain ⟨first, second, hexec, hsecond, -, hvalid, hkey, -, -, hwv, hwm, hnone, hsome⟩ :=
    compileAnswersOneOrTwoEntries r j s hr
  have hwf1 : first.wf s.conf = true := (hvalid first (by simp)).1
  have hwf2 : ∀ e, second = some e → e.wf s.conf = true := fun e he => (hvalid e (by simp [he])).1
  obtain ⟨hv, hm⟩ := bytesOf_entriesWindow s.cfg hwf1 hwf2
  refine ⟨first, second, hexec, (exec_decode _ _ _ _).trans ?_⟩
  have hkey' := getReg_of_holdsFields (List.forall_mem_cons.1 hkey).2 hfitKey
  rw [decodeRule_eq hr hkey' ?act (window_ext_bytes ?values ?masks)]
  case act =>
    cases second with
    | none => exact getReg_of_holdsFields (hnone rfl).1 hfitAct
    | some e =>
      obtain ⟨-, -, -, -, -, -, hact, -⟩ := hsome e rfl
      exact getReg_of_holdsFields hact hfitAct
  case values =>
    refine hv.trans ?_
    cases second with
    | none =>
      have hv0 := (drop_bytesOf_eq_zero_iff (ruleWindow r).v).2 (hzero (by simpa using hsecond))
      rw [hwv, Option.elim, ← hv0, List.take_append_drop]
    | some e => rw [hwv, Option.elim, (hsome e rfl).1, List.take_append_drop]
  case masks =>
    refine hm.trans ?_
    cases second with
    | none =>
      have hm0 := (drop_bytesOf_eq_zero_iff (ruleWindow r).m).2 fun q h1 h2 => by
        by_contra hq
        exact absurd (hsecond.2 ⟨q, h1, h2, by simpa using hq⟩) (by simp)
      rw [hwm, Option.elim, ← hm0, List.take_append_drop]
    | some e => rw [hwm, Option.elim, (hsome e rfl).2.1, List.take_append_drop]

end Sys2Proof.Machine

/-! ## Port add and remove (R248) -/

namespace Sys2Proof.Claims

open Sys2Proof.Machine

/-- Writing a field depends on the value's low bits only (R140). -/
theorem setField_congr {word v v' : Word} {f : BitField} (h : v &&& ones f.width = v' &&& ones f.width) :
    setField word v f = setField word v' f := by
  rw [setField, setField, h]

theorem putReg_congr {c : Cfg} {f : FieldPos} {v v' : Word} (h : v &&& ones f.bits.width = v' &&& ones f.bits.width)
    (words : List Word) : putReg c f v words = putReg c f v' words := by
  simp only [putReg, setField_congr h]

/-- Writing what is read changes nothing. -/
theorem putReg_getReg_self (c : Cfg) (f : FieldPos) (words : List Word) :
    putReg c f (getReg c f words) words = words := by
  refine List.ext_getElem (by simp) fun k h1 h2 => ?_
  have hk := putReg_getD c f (getReg c f words) words k h2
  rw [List.getD_eq_getElem _ _ h1, List.getD_eq_getElem _ _ h2] at hk
  rw [hk]
  split
  · rename_i hreg
    rw [getReg, ← hreg, List.getD_eq_getElem _ _ h2, setField_getField_self]
  · rfl

/-- The last write of a field wins. -/
theorem putReg_putReg_self (c : Cfg) (f : FieldPos) (v v' : Word) (words : List Word) :
    putReg c f v' (putReg c f v words) = putReg c f v' words := by
  simp only [putReg, List.modify_modify_eq]
  congr 1
  funext w
  exact setField_setField_self w v v' f.bits

/-- Writes of two fields that share no bit commute. -/
theorem putReg_comm (c : Cfg) {f g : FieldPos} (v v' : Word) (words : List Word) (hp : f.page = g.page)
    (hf : c.dataLo ≤ f.reg) (hg : c.dataLo ≤ g.reg) (h : f.Apart g) :
    putReg c f v (putReg c g v' words) = putReg c g v' (putReg c f v words) := by
  refine List.ext_getElem (by simp) fun k h1 h2 => ?_
  have hk : k < words.length := by simpa using h1
  have hfg : k = f.reg - c.dataLo → k = g.reg - c.dataLo → DisjointBits g.bits f.bits := by
    intro e1 e2
    rcases h with h | h | h | h
    · exact absurd hp h
    · omega
    · exact .inr (.inl h)
    · exact .inl h
  rw [← List.getD_eq_getElem _ 0 h1, ← List.getD_eq_getElem _ 0 h2, putReg_getD _ _ _ _ _ (by simpa using hk),
    putReg_getD _ _ _ _ _ hk, putReg_getD _ _ _ _ _ (by simpa using hk), putReg_getD _ _ _ _ _ hk]
  split
  · split
    · rw [setField_comm_of_disjoint _ _ _ (hfg ‹_› ‹_›)]
    · rfl
  · rfl

/-- The one bit of a port in a port vector (R248). -/
def portBit (port : BitVec 4) : Word := BitVec.ofNat 16 (1 <<< port.toNat)

theorem portBit_getLsbD (port : BitVec 4) {b : Nat} (hb : b < 16) :
    (portBit port).getLsbD b = decide (b = port.toNat) := by
  rw [portBit, BitVec.getLsbD_ofNat, Nat.one_shiftLeft, Nat.testBit_two_pow]
  simp [hb, eq_comm]

/-- The mask bit that `modifyPort` leaves: "do not compare" after an add, "compare" after a remove (R204, R248). -/
def portMask (c : Cfg) (add : Bool) : Bool := if add then !c.maskOneIsCompare else c.maskOneIsCompare

/-- The pattern field after `modifyPort` (R248). -/
def portPattern (port : BitVec 4) (pv : Word) : Word := pv &&& ~~~portBit port

/-- The mask field after `modifyPort` (R248). -/
def portMasked (c : Cfg) (port : BitVec 4) (add : Bool) (pm : Word) : Word :=
  if portMask c add then pm ||| portBit port else pm &&& ~~~portBit port

theorem portPattern_getLsbD (port : BitVec 4) (pv : Word) {b : Nat} (hb : b < 16) :
    (portPattern port pv).getLsbD b = (decide (b ≠ port.toNat) && pv.getLsbD b) := by
  rw [portPattern, BitVec.getLsbD_and, BitVec.getLsbD_not, portBit_getLsbD _ hb]
  simp [hb, Bool.and_comm]

theorem portMasked_getLsbD (c : Cfg) (port : BitVec 4) (add : Bool) (pm : Word) {b : Nat} (hb : b < 16) :
    (portMasked c port add pm).getLsbD b = if b = port.toNat then portMask c add else pm.getLsbD b := by
  rw [portMasked]
  split
  · rename_i hmask
    rw [BitVec.getLsbD_or, portBit_getLsbD _ hb, hmask]
    by_cases h : b = port.toNat <;> simp [h]
  · rename_i hmask
    rw [BitVec.getLsbD_and, BitVec.getLsbD_not, portBit_getLsbD _ hb, Bool.eq_false_iff.2 hmask]
    by_cases h : b = port.toNat <;> simp [h, hb]

/-- `modifyPort` writes the two port fields of the header words (R248). -/
theorem modifyPort_eq (c : Cfg) (e : Entry) (port : BitVec 4) (add : Bool) :
    modifyPort c e port add =
      { e with hdr := putRegs c [(c.rl.pvec, portPattern port (getReg c c.rl.pvec e.hdr)),
          (c.rl.pvecMask, portMasked c port add (getReg c c.rl.pvecMask e.hdr))] e.hdr } := by
  have hmask : (if add == c.maskOneIsCompare then
        getReg c c.rl.pvecMask e.hdr &&& ~~~portBit port
      else getReg c c.rl.pvecMask e.hdr ||| portBit port) =
      portMasked c port add (getReg c c.rl.pvecMask e.hdr) := by
    rw [portMasked, portMask]
    cases add <;> cases c.maskOneIsCompare <;> rfl
  rw [← hmask]
  rfl

section

variable (c : Cfg.Checked)

theorem pvec_sublist : [c.val.rl.pvec, c.val.rl.pvecMask].Sublist c.val.rl.hdrFields :=
  .cons _ (.cons _ (.cons _ (.cons _ (.cons _ (.cons _ (.cons _ (.cons _ (.cons_cons _ (.cons_cons _ (.cons _
    .slnil))))))))))

theorem pvec_apart : c.val.rl.pvec.Apart c.val.rl.pvecMask :=
  List.pairwise_pair.1 (((noOverlap_iff _).1 c.hdr_noOverlap).sublist (pvec_sublist c))

theorem pvec_pos : c.val.rl.pvec.page = 0 ∧ c.val.dataLo ≤ c.val.rl.pvec.reg ∧
    c.val.rl.pvec.reg < c.val.dataLo + c.val.rl.nHdr := c.hdrPos ((pvec_sublist c).subset (by simp))

theorem pvecMask_pos : c.val.rl.pvecMask.page = 0 ∧ c.val.dataLo ≤ c.val.rl.pvecMask.reg ∧
    c.val.rl.pvecMask.reg < c.val.dataLo + c.val.rl.nHdr := c.hdrPos ((pvec_sublist c).subset (by simp))

/-- Pattern and mask fields after `modifyPort`, cut to their widths, and nothing else changed (R248). -/
theorem modifyPort_fields {e : Entry} (he : e.wf c.val = true) (port : BitVec 4) (add : Bool) :
    getReg c.val c.val.rl.pvec (modifyPort c.val e port add).hdr =
        portPattern port (getReg c.val c.val.rl.pvec e.hdr) &&& ones c.val.nPorts ∧
      getReg c.val c.val.rl.pvecMask (modifyPort c.val e port add).hdr =
        portMasked c.val port add (getReg c.val c.val.rl.pvecMask e.hdr) &&& ones c.val.nPorts ∧
      SameOutside c.val [c.val.rl.pvec, c.val.rl.pvecMask] e.hdr (modifyPort c.val e port add).hdr := by
  obtain ⟨hlen, -⟩ := (Entry.wf_iff _ _).1 he
  obtain ⟨-, -, hwp, hwm, -⟩ := c.widths
  have hsub : ([(c.val.rl.pvec, portPattern port (getReg c.val c.val.rl.pvec e.hdr)),
      (c.val.rl.pvecMask, portMasked c.val port add (getReg c.val c.val.rl.pvecMask e.hdr))].map (·.1)).Sublist
        c.val.rl.hdrFields := pvec_sublist c
  obtain ⟨hholds, hsame⟩ := putRegs_hdr c hsub hlen
  rw [HoldsFields, List.forall_mem_cons, List.forall_mem_cons] at hholds
  obtain ⟨hpat, hmask, -⟩ := hholds
  rw [modifyPort_eq]
  exact ⟨hpat.trans (by rw [hwp]), hmask.trans (by rw [hwm]), hsame⟩

/-- Of two changes of the same port the later one decides (R248). -/
theorem modifyPort_modifyPort {e : Entry} (he : e.wf c.val = true) (port : BitVec 4) (add add' : Bool) :
    modifyPort c.val (modifyPort c.val e port add) port add' = modifyPort c.val e port add' := by
  obtain ⟨hpat, hmask, -⟩ := modifyPort_fields c he port add
  obtain ⟨-, -, hwp, hwm, -⟩ := c.widths
  obtain ⟨hpage, hlo, -⟩ := pvec_pos c
  obtain ⟨hpage', hlo', -⟩ := pvecMask_pos c
  rw [modifyPort_eq c.val (modifyPort c.val e port add), hpat, hmask, modifyPort_eq c.val e port add,
    modifyPort_eq c.val e port add']
  simp only [putRegs_cons, putRegs_nil, Entry.mk.injEq, and_true]
  have hcutPat : (portPattern port (portPattern port (getReg c.val c.val.rl.pvec e.hdr) &&& ones c.val.nPorts)) &&&
      ones c.val.rl.pvec.bits.width =
        portPattern port (getReg c.val c.val.rl.pvec e.hdr) &&& ones c.val.rl.pvec.bits.width := by
    rw [hwp]
    refine word_ext fun b hb => ?_
    simp only [BitVec.getLsbD_and, portPattern_getLsbD _ _ hb]
    generalize (ones c.val.nPorts).getLsbD b = x
    generalize decide (b ≠ port.toNat) = y
    cases x <;> cases y <;> simp
  have hcutMask : (portMasked c.val port add' (portMasked c.val port add (getReg c.val c.val.rl.pvecMask e.hdr) &&&
      ones c.val.nPorts)) &&& ones c.val.rl.pvecMask.bits.width =
        portMasked c.val port add' (getReg c.val c.val.rl.pvecMask e.hdr) &&& ones c.val.rl.pvecMask.bits.width := by
    rw [hwm]
    refine word_ext fun b hb => ?_
    simp only [BitVec.getLsbD_and, portMasked_getLsbD _ _ _ _ hb]
    split
    · rfl
    · rw [Bool.and_assoc, Bool.and_self]
  rw [putReg_congr hcutPat, putReg_congr hcutMask,
    putReg_comm c.val _ _ _ (hpage.trans hpage'.symm) hlo hlo' (pvec_apart c), putReg_putReg_self, putReg_putReg_self]

/-- `modifyPort` of a port of the vector changes nothing exactly when the port's two bits are already what it makes
them. -/
theorem modifyPort_eq_self_iff {e : Entry} (he : e.wf c.val = true) {port : BitVec 4} (add : Bool)
    (hp : port.toNat < c.val.nPorts) :
    modifyPort c.val e port add = e ↔
      (getReg c.val c.val.rl.pvec e.hdr).getLsbD port.toNat = false ∧
        (getReg c.val c.val.rl.pvecMask e.hdr).getLsbD port.toNat = portMask c.val add := by
  have hp16 : port.toNat < 16 := port.isLt
  obtain ⟨hpat, hmask, -⟩ := modifyPort_fields c he port add
  constructor
  · intro h
    rw [h] at hpat hmask
    have h1 := congrArg (·.getLsbD port.toNat) hpat
    have h2 := congrArg (·.getLsbD port.toNat) hmask
    simp only [BitVec.getLsbD_and, portPattern_getLsbD _ _ hp16, portMasked_getLsbD _ _ _ _ hp16, ones_getLsbD, hp,
      hp16] at h1 h2
    simpa using And.intro h1 h2
  · rintro ⟨h1, h2⟩
    have hp' : portPattern port (getReg c.val c.val.rl.pvec e.hdr) = getReg c.val c.val.rl.pvec e.hdr := by
      refine word_ext fun b hb => ?_
      rw [portPattern_getLsbD _ _ hb]
      by_cases hb' : b = port.toNat
      · rw [hb', h1, Bool.and_false]
      · simp [hb']
    have hm' : portMasked c.val port add (getReg c.val c.val.rl.pvecMask e.hdr) =
        getReg c.val c.val.rl.pvecMask e.hdr := by
      refine word_ext fun b hb => ?_
      rw [portMasked_getLsbD _ _ _ _ hb]
      split
      · rw [‹b = _›, h2]
      · rfl
    rw [modifyPort_eq, hp', hm']
    simp only [putRegs_cons, putRegs_nil, putReg_getReg_self]

end

end Sys2Proof.Claims

namespace Sys2Proof.Machine

open Sys2Proof.Claims

/-- Settles O20: `modifyPort` writes the two port fields; a later change of a port decides, so that a remove after an add
is a remove, and a remove changes nothing exactly when both bits are as it makes them. -/
theorem modifyPortChangesOnePort : Obligations.ModifyPortChangesOnePort := by
  intro e port add s he
  obtain ⟨hpat, hmask, hsame⟩ := modifyPort_fields s.cfg he port add
  have hhdr : modifyPort s.conf e port add = { e with hdr := (modifyPort s.conf e port add).hdr } := rfl
  refine ⟨(modifyPort s.conf e port add).hdr, rfl, fun b hb => ⟨?_, ?_⟩, hsame, ?_, fun hp => ?_⟩
  · have hb16 : b < 16 := lt_of_lt_of_le hb s.cfg.ports_le
    rw [hpat, BitVec.getLsbD_and, portPattern_getLsbD _ _ hb16, ones_getLsbD]
    simp [hb, hb16]
  · have hb16 : b < 16 := lt_of_lt_of_le hb s.cfg.ports_le
    rw [hmask, BitVec.getLsbD_and, portMasked_getLsbD _ _ _ _ hb16, ones_getLsbD, portMask]
    simp [hb, hb16]
  · rw [← hhdr, modifyPort_modifyPort s.cfg he]
  · rw [modifyPort_modifyPort s.cfg he, modifyPort_eq_self_iff s.cfg he false hp]
    rfl

/-! ## The command word (R93) -/

/-- The formula of R93, bit by bit the parts of a command word. -/
theorem cmdword_eq_formula (op : BitVec 3) (page : BitVec 2) (index : Index) :
    cmdword op page index =
      0x8000 ||| (op.setWidth 16 <<< 12) ||| (page.setWidth 16 <<< 10) ||| index.setWidth 16 := by
  rw [cmdword_eq]
  refine word_ext fun b hb => ?_
  rw [commandBits_getLsbD]
  simp only [BitVec.getLsbD_or, BitVec.getLsbD_shiftLeft, BitVec.getLsbD_setWidth]
  interval_cases b <;> simp

/-- The operands of a command that its opcode does not use are 0, and no command names page 3 (R93, R235). -/
structure UnusedAreZero (op : BitVec 3) (page : BitVec 2) (index : Index) : Prop where
  flushAll : op = opFlushAll → page = 0 ∧ index = 0
  flushEntry : op = opFlushEntry ∨ op = opGetNext → page = 0
  page : page ≠ 3

section

variable {op : BitVec 3} {page : BitVec 2} {index : Index}

/-- `LOAD` and `READ` use all their operands. -/
theorem UnusedAreZero.of_paged (hop : op = opLoad ∨ op = opRead) (hp : page ≠ 3) : UnusedAreZero op page index where
  flushAll h := by rcases hop with rfl | rfl <;> cases h
  flushEntry h := by rcases hop with rfl | rfl <;> rcases h with h | h <;> cases h
  page := hp

/-- `FLUSH_ENTRY` and `GET_NEXT` use their index only. -/
theorem UnusedAreZero.of_unpaged (hop : op = opFlushEntry ∨ op = opGetNext) : UnusedAreZero op 0 index where
  flushAll h := by rcases hop with rfl | rfl <;> cases h
  flushEntry _ := rfl
  page := by decide

theorem unusedAreZero_loadBody {c : Cfg} {e : Entry} {i : Index} {k : Nat}
    (h : Access.issue op page index ∈ loadBody c e i k) : UnusedAreZero op page index := by
  have hop := op_of_issue_mem_loadBody h
  refine .of_paged (.inl hop) ?_
  match k with
  | 0 | 1 | 2 =>
    simp only [loadBody, List.mem_append, List.mem_cons, List.cons_append, issue_not_mem_writePage] at h
    simp_all
  | _ + 3 => simp [loadBody] at h

theorem unusedAreZero_readBody {c : Cfg} {i : Index} {k : Nat} (h : Access.issue op page index ∈ readBody c i k) :
    UnusedAreZero op page index := by
  have hop := op_of_issue_mem_readBody h
  refine .of_paged (.inr hop) ?_
  match k with
  | 0 | 1 | 2 =>
    simp only [readBody, List.mem_append, List.mem_cons, issue_not_mem_readPage] at h
    simp_all
  | 3 => exact absurd h (issue_not_mem_readPage c 2)
  | _ + 4 => simp [readBody] at h

theorem unusedAreZero_getNextBody {c : Cfg} {i hwIndex : Index} {k : Nat}
    (h : Access.issue op page index ∈ getNextBody c i hwIndex k) : UnusedAreZero op page index := by
  match k with
  | 0 =>
    simp only [getNextBody, List.mem_singleton, Access.issue.injEq] at h
    obtain ⟨rfl, rfl, rfl⟩ := h
    exact .of_unpaged (.inr rfl)
  | 1 =>
    have hread : Access.issue op page index ∈ readBody c hwIndex 0 := by
      simp only [getNextBody] at h
      split at h <;> simpa using h
    exact unusedAreZero_readBody hread
  | _ + 2 => exact unusedAreZero_readBody h

theorem unusedAreZero_modifyBody {c : Cfg} {e : Entry} {i hwIndex : Index} {k : Nat}
    (h : Access.issue op page index ∈ modifyBody c e i hwIndex k) : UnusedAreZero op page index := by
  simp only [modifyBody] at h
  split at h
  · exact unusedAreZero_getNextBody h
  split at h
  · rcases List.mem_append.mp h with h | h
    · exact unusedAreZero_getNextBody h
    · exact unusedAreZero_loadBody h
  · exact unusedAreZero_loadBody h

theorem unusedAreZero_phaseBody {s : State} {o : Op} {k : Nat} (h : Access.issue op page index ∈ phaseBody s o k) :
    UnusedAreZero op page index := by
  cases o with
  | flushAll =>
    simp only [phaseBody] at h
    split at h
    · simp only [List.mem_singleton, Access.issue.injEq] at h
      obtain ⟨rfl, rfl, rfl⟩ := h
      exact ⟨fun _ => ⟨rfl, rfl⟩, fun _ => rfl, by decide⟩
    · cases h
  | flushEntry i =>
    simp only [phaseBody] at h
    split at h
    · simp only [List.mem_singleton, Access.issue.injEq] at h
      obtain ⟨rfl, rfl, rfl⟩ := h
      exact .of_unpaged (.inl rfl)
    · cases h
  | loadEntry | advCascade | advMain => exact unusedAreZero_loadBody h
  | readEntry => exact unusedAreZero_readBody h
  | getNextEntry | findEntry => exact unusedAreZero_getNextBody h
  | addPort | removePort => exact unusedAreZero_modifyBody h

/-- What the controller issues, whatever the state, carries 0 where its opcode uses no operand (R93). -/
theorem unusedAreZero_accessList {s : State} (h : Access.issue op page index ∈ accessList s) :
    UnusedAreZero op page index := by
  simp only [accessList] at h
  split at h
  · cases h
  · exact unusedAreZero_phaseBody (List.mem_of_ne_of_mem (by simp) h)

end

theorem exec_cmdword (op : BitVec 3) (page : BitVec 2) (index : Index) (s : State) :
    exec (.cmdword op page index) s = .next (answered s (.word (cmdword op page index))) := rfl

/-- Settles O21: `cmdword` is built with the codec by definition, and agrees with the formula bit by bit. -/
theorem commandWordFormula : Obligations.CommandWordFormula := by
  refine ⟨fun op page index s => ⟨?_, cmdword_eq_formula op page index⟩, fun s op page index h => ?_, fun s => ?_⟩
  · rw [exec_cmdword, cmdword_eq_formula]
  · obtain ⟨hall, hentry, -⟩ := unusedAreZero_accessList h
    refine ⟨fun hop => ?_, hentry⟩
    obtain ⟨rfl, rfl⟩ := hall hop
    subst hop
    decide
  · rw [exec_cmdword, cmdword_eq_formula]
    rfl

/-! ## The combinational functions (R20, R42) -/

/-- A next state that answers the caller, with an answer that depends on the configuration alone. -/
theorem answers_of_eq {i : Instr} {s t : State} (v : Cfg → FnValue)
    (hexec : ∀ s' : State, s'.cfg = s.cfg → exec i s' = .next (answered s' (v s'.conf))) (h : exec i s = .next t) :
    t = answered s t.fnOut ∧ ∀ s', s'.cfg = s.cfg → exec i s' = .next (answered s' t.fnOut) := by
  rw [hexec s rfl] at h
  cases h
  refine ⟨rfl, fun s' hc => ?_⟩
  have hconf : s'.conf = s.conf := congrArg Subtype.val hc
  rw [hexec s' hc, hconf]
  rfl

/-- Settles O22: every function's arm answers a value made of its operands and the configuration, or refuses. -/
theorem functionsTouchNoStateOfTheBlock : Obligations.FunctionsTouchNoStateOfTheBlock := by
  intro i s t hi h
  cases i with
  | setField word value offset width =>
    by_cases hfit : offset.toNat + width.toNat ≤ 16
    · exact answers_of_eq (fun _ => _) (fun s' _ => exec_setField_of_fits word value s' hfit) h
    · cases (dif_neg hfit).symm.trans h
  | getField word offset width =>
    by_cases hfit : offset.toNat + width.toNat ≤ 16
    · exact answers_of_eq (fun _ => _) (fun s' _ => exec_getField_of_fits word s' hfit) h
    · cases (dif_neg hfit).symm.trans h
  | pageImage e page =>
    by_cases hpage : s.conf.hasPage page = true
    · refine answers_of_eq (fun c => .words (pageImage c e page.toNat)) (fun s' hc => if_pos ?_) h
      rwa [State.conf, hc]
    · cases (if_neg hpage).symm.trans h
  | compile r j =>
    refine answers_of_eq (fun c => (compileRule c r j).elim .invalidArgument .entries) (fun s' _ => ?_) h
    simp only [exec, execCompile]
    cases compileRule s'.conf r j <;> rfl
  | mapIPv4 | mapIPv6 | mapTCPv4 | mapUDPv4 | mapTCPv6 | mapUDPv6 | shapeUnsupported | needsSecondSlot | mapPrefix
  | place | isSecondSlotUsed | cmdword =>
    exact answers_of_eq (fun _ => _) (fun _ _ => rfl) h
  | decode shape first second => exact answers_of_eq (fun c => .rule (decodeRule c shape first second)) (fun _ _ => rfl) h
  | encodeKey key e => exact answers_of_eq (fun c => .entry (encodeKey c key e)) (fun _ _ => rfl) h
  | encodeActions a => exact answers_of_eq (fun c => .words (encodeActions c a)) (fun _ _ => rfl) h
  | entryOfPages i0 i1 i2 => exact answers_of_eq (fun c => .entry (entryOfPages c i0 i1 i2)) (fun _ _ => rfl) h
  | link first second j a =>
    exact answers_of_eq (fun c => .entries [(link c first second j a).1, (link c first second j a).2])
      (fun _ _ => rfl) h
  | modifyPort e port add => exact answers_of_eq (fun c => .entry (modifyPort c e port add)) (fun _ _ => rfl) h
  | _ => cases hi

end Sys2Proof.Machine

/-! ## Register words that the controller writes and the device executes (R66, R210 to R217) -/

namespace Sys2Proof.Machine

open Sys2Proof.Claims

/-! ### Who may present a register word -/

theorem registerWrite_raw {s : State} (write : Out) (h : s.turn = .port ∨ s.turn = .controller ∧ s.lockOwner = none) :
    registerWrite s write = .refused .rawAccess := by
  refine if_neg ?_
  rintro ⟨ht, hl⟩
  rcases h with h | ⟨-, h⟩
  · cases h.symm.trans ht
  · exact hl h

/-- Whoever is not the device presents a command word as a write (R210). -/
theorem commandWord_write {op : BitVec 3} {page rsvd : BitVec 2} {index : Index} (effect : State → Out) {s : State}
    (ht : s.turn ≠ .device) :
    commandWord op page rsvd index effect s = registerWrite s (writeCmd s (cmdBits 1 op page rsvd index)) := if_neg ht

/-- The device executes no command but the one it has latched (R211). -/
theorem commandWord_not_latched {op : BitVec 3} {page rsvd : BitVec 2} {index : Index} (effect : State → Out)
    {s : State} (ht : s.turn = .device) (hd : s.devCmd ≠ some ⟨op, page, index⟩) :
    commandWord op page rsvd index effect s = .refused .commandNotLatched := by
  rw [commandWord, if_pos ht, if_neg hd]

/-- Each of the six command words, not presented by the device, is the write of its bits (R92, R210). -/
theorem exec_commands_write {page rsvd : BitVec 2} {index : Index} {s : State} (ht : s.turn ≠ .device) :
    ∀ i ∈ [Instr.nop page rsvd index, .flushAllCmd page rsvd index, .flushEntryCmd page rsvd index,
        .loadCmd page rsvd index, .getNextCmd page rsvd index, .readCmd page rsvd index],
      ∃ op, exec i s = registerWrite s (writeCmd s (cmdBits 1 op page rsvd index)) := by
  simp only [List.forall_mem_cons]
  exact ⟨⟨_, commandWord_write devNop ht⟩, ⟨_, commandWord_write devFlushAll ht⟩,
    ⟨_, commandWord_write (devFlushEntry · index) ht⟩, ⟨_, commandWord_write (devLoad · page index) ht⟩,
    ⟨_, commandWord_write (devGetNext · index) ht⟩, ⟨_, commandWord_write (devRead · page index) ht⟩, by simp⟩

theorem writeCmd_busy {s : State} (w : Word) (hb : s.busy = true) : writeCmd s w = .refused .commandWhileBusy :=
  if_pos hb

theorem writeExt_busy {s : State} (w : Word) (hb : s.busy = true) : writeExt s w = .refused .registerWhileBusy :=
  if_pos hb

/-- A word with bit 15 clear is stored and starts nothing (R210). -/
theorem writeCmd_store {s : State} (op : BitVec 3) (page rsvd : BitVec 2) (index : Index) (hb : s.busy = false) :
    writeCmd s (cmdBits 0 op page rsvd index) = .next { s with cmd := cmdBits 0 op page rsvd index } := by
  have hflag : busyFlag (cmdBits 0 op page rsvd index) = false :=
    (busyFlag_command 0 op page rsvd index).trans rfl
  rw [writeCmd, hflag, if_neg (by simp [hb]), if_pos (by decide)]

/-- A `LOAD` or `READ` of page 3 is refused when it is written (log entry 11). -/
theorem writeCmd_page3 {s : State} {op : BitVec 3} (rsvd : BitVec 2) (index : Index) (hb : s.busy = false)
    (hop : op = opLoad ∨ op = opRead) : writeCmd s (cmdBits 1 op 3 rsvd index) = .refused .reservedPage := by
  have hpage : s.conf.hasPage 3 = false := Bool.eq_false_iff.2 (mt (s.cfg.hasPage_eq 3).1 (by simp))
  simp only [cmdBits, writeCmd, getField_op_command, getField_page_command, busyFlag_command, hb]
  have h1 : (BitVec.setWidth 16 op).setWidth 3 = op := BitVec.setWidth_setWidth_of_le op (by omega)
  have h2 : (BitVec.setWidth 16 (3 : BitVec 2)).setWidth 2 = 3 := rfl
  rw [h1, h2, hpage]
  rcases hop with rfl | rfl <;> rfl

theorem writeExt_idle {s : State} (w : Word) (hb : s.busy = false) : writeExt s w = .next { s with ext := w } :=
  if_neg (by simp [hb])

/-! ### What the device asks of a paged command -/

theorem pageAccess_outside {s : State} {i : Index} (page : BitVec 2) (k : Out) (hi : s.conf.inRange i = false) :
    pageAccess s page i k = .refused .indexOutsideTable := if_pos (by simp [hi])

theorem pageAccess_page3 {s : State} {i : Index} (k : Out) (hi : s.conf.inRange i = true) :
    pageAccess s 3 i k = .refused .reservedPage := by
  have hpage : s.conf.hasPage 3 = false := Bool.eq_false_iff.2 (mt (s.cfg.hasPage_eq 3).1 (by simp))
  rw [pageAccess, hi, hpage]
  rfl

theorem pageAccess_subblock {s : State} {i : Index} (k : Out) (hi : s.conf.inRange i = true) (he : s.ext &&& 3 ≠ 0) :
    pageAccess s 2 i k = .refused .subblock := by
  have hctx : actionContext s.ext = false := Bool.eq_false_iff.2 (mt (actionContext_iff _).1 he)
  have hpage : s.conf.hasPage 2 = true := (s.cfg.hasPage_eq 2).2 (by decide)
  rw [pageAccess, hi, hpage, hctx]
  rfl

/-- An index of the table, a page that exists, and sub-block 0 for page 2 (U5 to U7). -/
theorem pageAccess_ok {s : State} {page : BitVec 2} {i : Index} (k : Out) (hi : s.conf.inRange i = true)
    (hp : page ≠ 3) (he : page = 2 → s.ext &&& 3 = 0) : pageAccess s page i k = k := by
  have hpage : s.conf.hasPage page = true := (s.cfg.hasPage_eq page).2 hp
  have hctx : ¬ (page = 2 ∧ (!actionContext s.ext) = true) := by
    rintro ⟨h2, hc⟩
    simp [(actionContext_iff _).2 (he h2)] at hc
  rw [pageAccess, if_neg (by simp [hi]), if_neg (by simp [hpage]), if_neg hctx]

theorem devFlushEntry_outside {s : State} {i : Index} (hi : s.conf.inRange i = false) :
    devFlushEntry s i = .refused .indexOutsideTable := if_neg (by simp [hi])

theorem devGetNext_outside {s : State} {i : Index} (hi : s.conf.inRange i = false) :
    devGetNext s i = .refused .indexOutsideTable := if_neg (by simp [hi])

/-- Settles O24: who presents the word, `BUSY`, and the operands decide, in this order, and each check refuses by its own
name. -/
theorem outsideTheProtocolIsRefused : Obligations.OutsideTheProtocolIsRefused := by
  intro page rsvd index s
  refine ⟨fun h => ⟨fun op => registerWrite_raw _ h, fun i hi => ?_, fun r sub => registerWrite_raw _ h⟩,
    fun ht hl hb => ⟨fun op => ?_, fun i hi => ?_, fun r sub => ?_⟩, fun ht hl hb => ⟨?_, ?_⟩,
    fun ht hi => ⟨fun hd => ?_, fun hd => ?_, fun hd => ?_, fun hd => ?_⟩,
    fun ht hi => ⟨fun hd => ?_, fun hd => ?_, fun he => ⟨fun hd => ?_, fun hd => ?_⟩⟩, fun ht p hp hd => ?_⟩
  · have ht : s.turn ≠ .device := by
      intro ht
      rcases h with h | ⟨h, -⟩ <;> cases h.symm.trans ht
    obtain ⟨op, hop⟩ := exec_commands_write ht i hi
    rw [hop, registerWrite_raw _ h]
  · exact (registerWrite_controller _ ht hl).trans (writeCmd_busy _ hb)
  · obtain ⟨op, hop⟩ := exec_commands_write (s := s) (by simp [ht]) i hi
    rw [hop, registerWrite_controller _ ht hl, writeCmd_busy _ hb]
  · exact (registerWrite_controller _ ht hl).trans (writeExt_busy _ hb)
  · exact (commandWord_write (devLoad · 3 index) (by simp [ht])).trans
      ((registerWrite_controller _ ht hl).trans (writeCmd_page3 rsvd index hb (.inl rfl)))
  · exact (commandWord_write (devRead · 3 index) (by simp [ht])).trans
      ((registerWrite_controller _ ht hl).trans (writeCmd_page3 rsvd index hb (.inr rfl)))
  · exact (commandWord_device rsvd (devFlushEntry · index) ht hd).trans (devFlushEntry_outside hi)
  · exact (commandWord_device rsvd (devLoad · page index) ht hd).trans (pageAccess_outside page _ hi)
  · exact (commandWord_device rsvd (devGetNext · index) ht hd).trans (devGetNext_outside hi)
  · exact (commandWord_device rsvd (devRead · page index) ht hd).trans (pageAccess_outside page _ hi)
  · exact (commandWord_device rsvd (devLoad · 3 index) ht hd).trans (pageAccess_page3 _ hi)
  · exact (commandWord_device rsvd (devRead · 3 index) ht hd).trans (pageAccess_page3 _ hi)
  · exact (commandWord_device rsvd (devLoad · 2 index) ht hd).trans (pageAccess_subblock _ hi he)
  · exact (commandWord_device rsvd (devRead · 2 index) ht hd).trans (pageAccess_subblock _ hi he)
  · revert p
    simp only [List.forall_mem_cons]
    exact ⟨commandWord_not_latched devNop ht, commandWord_not_latched devFlushAll ht,
      commandWord_not_latched (devFlushEntry · index) ht, commandWord_not_latched (devLoad · page index) ht,
      commandWord_not_latched (devGetNext · index) ht, commandWord_not_latched (devRead · page index) ht, by simp⟩

/-! ### Commands in the device -/

theorem exec_flushEntryCmd_device {page : BitVec 2} {index : Index} {s : State} (rsvd : BitVec 2)
    (ht : s.turn = .device) (hd : s.devCmd = some ⟨opFlushEntry, page, index⟩) (hi : s.conf.inRange index = true) :
    exec (.flushEntryCmd page rsvd index) s =
      .next { deviceDone s with table := s.table.set (slotNo s.conf index) (emptySlot s.conf) } := by
  refine (commandWord_device rsvd (devFlushEntry · index) ht hd).trans ((if_pos hi).trans ?_)
  rw [complete_eq_deviceDone]
  rfl

theorem exec_loadCmd_device {page : BitVec 2} {index : Index} {s : State} (rsvd : BitVec 2) (ht : s.turn = .device)
    (hd : s.devCmd = some ⟨opLoad, page, index⟩) (hi : s.conf.inRange index = true) (hp : page ≠ 3)
    (he : page = 2 → s.ext &&& 3 = 0) :
    exec (.loadCmd page rsvd index) s =
      .next { deviceDone s with
        table := s.table.set (slotNo s.conf index)
          ((s.slot index).withPage page.toNat (s.data.take (s.conf.pageLen page.toNat))) } := by
  refine (commandWord_device rsvd (devLoad · page index) ht hd).trans ((pageAccess_ok _ hi hp he).trans ?_)
  rw [complete_eq_deviceDone]
  rfl

theorem exec_readCmd_device {page : BitVec 2} {index : Index} {s : State} (rsvd : BitVec 2) (ht : s.turn = .device)
    (hd : s.devCmd = some ⟨opRead, page, index⟩) (hi : s.conf.inRange index = true) (hp : page ≠ 3)
    (he : page = 2 → s.ext &&& 3 = 0) :
    exec (.readCmd page rsvd index) s =
      .next { deviceDone s with data := overlay s.data ((s.slot index).page page.toNat) } := by
  refine (commandWord_device rsvd (devRead · page index) ht hd).trans ((pageAccess_ok _ hi hp he).trans ?_)
  rw [complete_eq_deviceDone]
  rfl

/-- Replacing the index and clearing `BUSY` keeps bits 14:8 of a command word (R211, R216). -/
theorem clear_busy_setField_index (w : Word) (j : Index) :
    setField (setField w (j.setWidth 16) indexBits) 0 busyBits = (w &&& 0x7F00) ||| j.setWidth 16 := by
  refine word_ext fun b hb => ?_
  simp only [setField_getLsbD _ _ _ _ hb, BitVec.getLsbD_or, BitVec.getLsbD_and, BitVec.getLsbD_setWidth]
  interval_cases b <;> simp

theorem exec_getNextCmd_device {page : BitVec 2} {i : Index} {s : State} (rsvd : BitVec 2) (ht : s.turn = .device)
    (hd : s.devCmd = some ⟨opGetNext, page, i⟩) (hi : s.conf.inRange i = true) :
    exec (.getNextCmd page rsvd i) s =
      .next { deviceDone s with
        cmd := (s.cmd &&& 0x7F00) ||| (nextValid s i).setWidth 16,
        data := overlay s.data (s.slot (nextValid s i)).p0 } := by
  refine (commandWord_device rsvd (devGetNext · i) ht hd).trans ((if_pos hi).trans ?_)
  rw [← clear_busy_setField_index]
  rfl

/-- Settles O28: the slot written reads as written, the others as before. -/
theorem flushEntryCommandEmptiesOneSlot : Obligations.FlushEntryCommandEmptiesOneSlot := by
  intro page rsvd index s ht hd hi hs
  obtain ⟨-, hlen, -⟩ := (State.sized_iff s).1 hs
  have hself := slot_putSlot_self s (emptySlot s.conf) hlen hi
  refine ⟨_, exec_flushEntryCmd_device rsvd ht hd hi, List.length_set .., hself,
    State.validAt_of_slot_eq_emptySlot hself, fun j hj hne => ?_⟩
  exact slot_putSlot_ne s (emptySlot s.conf) hi hj hne.symm

/-- A page just replaced, and the others (R215). -/
theorem Slot.page_withPage (t : Slot) (image : List Word) {p q : Nat} (hp : p < 3) :
    (t.withPage p image).page q = if q = p then image else t.page q := by
  match p, q with
  | 0, 0 | 0, 1 | 0, 2 | 1, 0 | 1, 1 | 1, 2 | 2, 0 | 2, 1 | 2, 2 => rfl
  | 0, _ + 3 | 1, _ + 3 | 2, _ + 3 => simp [Slot.page]

/-- The `TAG` of header words lies among the registers of page 0, so what follows them makes no difference. -/
theorem validWords_take (c : Cfg.Checked) (data : List Word) :
    validWords c.val (data.take (c.val.pageLen 0)) = validWords c.val data := by
  have htag := c.tag_reg_lt
  simp only [validWords, getReg, List.getD_eq_getElem?_getD, List.getElem?_take, if_pos htag]

/-- Settles O29: `withPage` replaces one page, and only page 0 holds `TAG`. -/
theorem loadCommandStoresOnePage : Obligations.LoadCommandStoresOnePage := by
  intro page rsvd index s ht hd hi hp he hs
  obtain ⟨-, hlen, -⟩ := (State.sized_iff s).1 hs
  have hp3 : page.toNat < 3 := by
    have := page.isLt
    have : page.toNat ≠ 3 := fun h => hp (BitVec.eq_of_toNat_eq h)
    omega
  let image := s.data.take (s.conf.pageLen page.toNat)
  have hself := slot_putSlot_self s ((s.slot index).withPage page.toNat image) hlen hi
  refine ⟨_, exec_loadCmd_device rsvd ht hd hi hp he, List.length_set .., ?loaded, fun p _ hne => ?others, ?valid,
    fun j hj hne => slot_putSlot_ne s _ hi hj hne.symm⟩
  case loaded => exact (congrArg (·.page page.toNat) hself).trans ((Slot.page_withPage _ _ hp3).trans (if_pos rfl))
  case others => exact (congrArg (·.page p) hself).trans ((Slot.page_withPage _ _ hp3).trans (if_neg hne))
  case valid =>
    refine (congrArg (fun t : Slot => validWords s.conf (t.page 0)) hself).trans ?_
    rw [Slot.page_withPage _ _ hp3]
    by_cases h0 : page = 0
    · subst h0
      exact validWords_take s.cfg s.data
    · rw [if_neg h0, if_neg fun h => h0 (BitVec.eq_of_toNat_eq h.symm)]
      rfl

/-! ### The search of `GET_NEXT` -/

theorem Cfg.inRange_iff (c : Cfg) (i : Index) : c.inRange i = true ↔ c.minIndex ≤ i.toNat ∧ i.toNat ≤ c.maxIndex := by
  simp [Cfg.inRange]

/-- `k` comes after `i` in the search of `GET_NEXT`, which wraps at `MAX_INDEX` (R216). -/
def comesAfter (c : Cfg) (i k : Index) : Prop := i.toNat = c.maxIndex ∨ i.toNat < k.toNat

/-- The slots after `i` are those from the start of the search on. -/
theorem searchStart_le_iff {c : Cfg} (i : Index) {k : Index} (hk : c.inRange k = true) :
    searchStart c i ≤ k.toNat ↔ comesAfter c i k := by
  rw [Cfg.inRange_iff] at hk
  rw [searchStart, comesAfter]
  split <;> omega

/-- Either no slot after `i` is valid, and the answer is `MAX_INDEX`, or the answer is the first valid one (R216). -/
theorem nextValid_cases (s : State) {i : Index} (hi : s.conf.inRange i = true) :
    ((nextValid s i).toNat = s.conf.maxIndex ∧
        ∀ k, s.conf.inRange k = true → comesAfter s.conf i k → s.validAt k = false) ∨
      (s.conf.inRange (nextValid s i) = true ∧ s.validAt (nextValid s i) = true ∧
        comesAfter s.conf i (nextValid s i) ∧
        ∀ k, s.conf.inRange k = true → comesAfter s.conf i k → s.validAt k = true → (nextValid s i).toNat ≤ k.toNat) := by
  have hmax := s.cfg.max_le
  have hmin := s.cfg.min_le_max
  simp only [State.conf] at hi ⊢
  have hstart : s.cfg.val.minIndex ≤ searchStart s.cfg.val i := by
    have := (Cfg.inRange_iff _ _).1 hi
    rw [searchStart]
    split <;> omega
  have htoNat : ∀ n, n ≤ s.cfg.val.maxIndex → (BitVec.ofNat 8 n).toNat = n := fun n hn => by
    rw [BitVec.toNat_ofNat, Nat.mod_eq_of_lt (by omega)]
  generalize hcand : ((List.range (s.cfg.val.maxIndex + 1 - searchStart s.cfg.val i)).map
      fun k => BitVec.ofNat 8 (searchStart s.cfg.val i + k)) = candidates
  have hnext : nextValid s i = (candidates.find? s.validAt).getD (BitVec.ofNat 8 s.cfg.val.maxIndex) := by
    rw [← hcand]
    rfl
  have hmem : ∀ k, s.cfg.val.inRange k = true → comesAfter s.cfg.val i k → k ∈ candidates := by
    intro k hk hafter
    have hle := (searchStart_le_iff i hk).2 hafter
    have hk' := (Cfg.inRange_iff _ _).1 hk
    rw [← hcand, List.mem_map]
    refine ⟨k.toNat - searchStart s.cfg.val i, List.mem_range.2 (by omega), ?_⟩
    exact BitVec.eq_of_toNat_eq (by rw [htoNat _ (by omega)]; omega)
  cases hfind : candidates.find? s.validAt with
  | none =>
    rw [hnext, hfind, Option.getD_none, htoNat _ le_rfl]
    exact .inl ⟨rfl, fun k hk hafter => by simpa using List.find?_eq_none.1 hfind k (hmem k hk hafter)⟩
  | some j =>
    right
    rw [hnext, hfind, Option.getD_some]
    obtain ⟨hvalid, n, hn, hj, hbefore⟩ := List.find?_eq_some_iff_getElem.1 hfind
    have hlen : candidates.length = s.cfg.val.maxIndex + 1 - searchStart s.cfg.val i := by simp [← hcand]
    have hget : ∀ (m : Nat) (h : m < candidates.length), (candidates[m]).toNat = searchStart s.cfg.val i + m := by
      intro m h
      subst hcand
      rw [List.getElem_map, List.getElem_range, htoNat _ (by omega)]
    have hjn := hget n hn
    rw [hj] at hjn
    have hrange : s.cfg.val.inRange j = true := (Cfg.inRange_iff _ _).2 (by omega)
    refine ⟨hrange, hvalid, (searchStart_le_iff i hrange).1 (by omega), fun k hk hafter hkv => ?_⟩
    by_contra hlt
    obtain ⟨m, hm, hmk⟩ := List.getElem_of_mem (hmem k hk hafter)
    have hkm := hget m hm
    rw [hmk] at hkm
    have := hbefore m (by omega)
    rw [hmk, hkv] at this
    cases this

/-- What `GET_NEXT` answers is a slot of the table (R216). -/
theorem nextValid_inRange (s : State) {i : Index} (hi : s.conf.inRange i = true) :
    s.conf.inRange (nextValid s i) = true := by
  rcases nextValid_cases s hi with ⟨hj, -⟩ | ⟨hj, -⟩
  · have hmin : s.conf.minIndex ≤ s.conf.maxIndex := s.cfg.min_le_max
    exact (Cfg.inRange_iff _ _).2 (by omega)
  · exact hj

theorem overlay_take (data image : List Word) {n : Nat} (h : image.length = n) :
    (overlay data image).take n = image := by
  rw [overlay, ← h, List.take_left]

theorem overlay_drop (data image : List Word) {n : Nat} (h : image.length = n) :
    (overlay data image).drop n = data.drop n := by
  rw [overlay, ← h, List.drop_left]

/-- A page of a slot laid over the data bank keeps the bank's length. -/
theorem overlay_page_length {s : State} (hs : s.sized = true) (i : Index) (p : Nat) :
    (overlay s.data ((s.slot i).page p)).length = s.data.length := by
  obtain ⟨hd, -⟩ := (State.sized_iff s).1 hs
  refine overlay_length _ _ ?_
  rw [Slot.page_length (State.slot_sized hs i) p, hd]
  exact s.cfg.pageLen_le p

/-- Settles O30: `nextValid` is the first valid slot of the search or `MAX_INDEX`. -/
theorem getNextCommandFindsTheLowestHigherSlot : Obligations.GetNextCommandFindsTheLowestHigherSlot := by
  intro page rsvd i s ht hd hi hs
  have hp0 : (s.slot (nextValid s i)).p0.length = s.conf.pageLen 0 := Slot.page_length (State.slot_sized hs _) 0
  refine ⟨nextValid s i, _, exec_getNextCmd_device rsvd ht hd hi, nextValid_inRange s hi,
    overlay_page_length hs _ 0, overlay_take _ _ hp0, overlay_drop _ _ hp0, ?_⟩
  rcases nextValid_cases s hi with ⟨hmax, hnone⟩ | ⟨-, hvalid, hafter, hlow⟩
  · exact ⟨fun k hk hkv hka => absurd (hnone k hk hka) (by simp [hkv]), .inr ⟨hmax, hnone⟩⟩
  · exact ⟨fun k hk hkv hka => hlow k hk hka hkv, .inl ⟨hvalid, hafter⟩⟩

/-- Settles O31: the page is laid over the first registers of the bank. -/
theorem readCommandFetchesOnePage : Obligations.ReadCommandFetchesOnePage := by
  intro page rsvd index s ht hd hi hp he hs
  have hlen := Slot.page_length (State.slot_sized hs index) page.toNat
  exact ⟨_, exec_readCmd_device rsvd ht hd hi hp he, overlay_page_length hs index page.toNat, overlay_take _ _ hlen,
    overlay_drop _ _ hlen⟩

end Sys2Proof.Machine

/-! ## The invariant, taken apart -/

namespace Sys2Proof.Machine

/-- What `State.positionOk` says of an operation in progress, part by part (R22, R23, R25, R72, R233, R234, R244, R250). -/
structure AtPosition (s : State) (op : Op) : Prop where
  inList : s.seqStep < (accessList s).length
  phases : s.phase ≤ op.commands
  valid : op.valid s.conf = true
  issued : s.fsm = .commandIssued ↔ s.phase ≠ 0 ∧ s.seqStep = 0
  idle : s.seqStep = 0 ∨ s.busy = false
  selected : Access.select ∈ (accessList s).take s.seqStep → actionContext s.ext = true
  polls : s.pollCnt < s.conf.pollLimit
  answer : op.searches = true → s.phase = 1 → s.conf.inRange (cmdIndex s.cmd) = true
  index : op.searches = true → s.phase = 0 ∨ s.phase = 1 ∧ s.seqStep < 2 ∨ s.conf.inRange s.hwIndex = true

/-- Two conditions that are said to have the same truth value. -/
theorem beq_bool_iff (a b : Bool) : (a == b) = true ↔ (a = true ↔ b = true) := by
  cases a <;> cases b <;> simp

theorem positionOk_iff {s : State} {op : Op} (h : s.op = some op) : s.positionOk = true ↔ AtPosition s op := by
  have hissued : ((s.fsm == .commandIssued) == (s.phase != 0 && s.seqStep == 0)) = true ↔
      (s.fsm = .commandIssued ↔ s.phase ≠ 0 ∧ s.seqStep = 0) := by
    rw [beq_bool_iff]
    simp
  have hindex : (!op.searches || s.phase == 0 || (s.phase == 1 && decide (s.seqStep < 2)) ||
      s.conf.inRange s.hwIndex) = true ↔
      (op.searches = true → s.phase = 0 ∨ s.phase = 1 ∧ s.seqStep < 2 ∨ s.conf.inRange s.hwIndex = true) := by
    cases op.searches <;> simp [or_assoc]
  have hanswer : (!op.searches || s.phase != 1 || s.conf.inRange (cmdIndex s.cmd)) = true ↔
      (op.searches = true → s.phase = 1 → s.conf.inRange (cmdIndex s.cmd) = true) := by
    cases op.searches <;> simp [imp_iff_not_or]
  have hselect : (!((accessList s).take s.seqStep).contains .select || actionContext s.ext) = true ↔
      (Access.select ∈ (accessList s).take s.seqStep → actionContext s.ext = true) := by
    rw [Bool.or_eq_true, Bool.not_eq_true', ← Bool.not_eq_true, List.contains_iff_mem, ← imp_iff_not_or]
  have hidle : (s.seqStep == 0 || !s.busy) = true ↔ s.seqStep = 0 ∨ s.busy = false := by simp
  simp only [State.positionOk, h]
  rw [Bool.and_eq_true, Bool.and_eq_true, Bool.and_eq_true, Bool.and_eq_true, Bool.and_eq_true, Bool.and_eq_true,
    Bool.and_eq_true, Bool.and_eq_true, hissued, hindex, hanswer, hselect, hidle, decide_eq_true_iff,
    decide_eq_true_iff, decide_eq_true_iff]
  constructor
  · rintro ⟨⟨⟨⟨⟨⟨⟨⟨h1, h2⟩, h3⟩, h4⟩, h5⟩, h6⟩, h7⟩, h8⟩, h9⟩
    exact ⟨h1, h2, h3, h4, h5, h6, h7, h8, h9⟩
  · rintro ⟨h1, h2, h3, h4, h5, h6, h7, h8, h9⟩
    exact ⟨⟨⟨⟨⟨⟨⟨⟨h1, h2⟩, h3⟩, h4⟩, h5⟩, h6⟩, h7⟩, h8⟩, h9⟩

/-- Sizes, the latch and the command the device holds: what an operation in progress and an idle block have in common. -/
structure Sound (s : State) : Prop where
  sized : s.sized = true
  latch : s.latchOk = true
  command : s.commandOk = true

/-- An operation in progress: the block is sound and the sequencer stands in its access list. -/
structure Running (s : State) (op : Op) : Prop where
  sound : Sound s
  op_eq : s.op = some op
  owner : s.lockOwner ≠ none
  fsm : s.fsm ≠ .idle
  position : AtPosition s op

/-- No operation is in progress, and the block is sound. -/
structure Resting (s : State) : Prop where
  sound : Sound s
  op_eq : s.op = none
  owner : s.lockOwner = none
  fsm : s.fsm = .idle

theorem lockOk_iff (s : State) :
    s.lockOk = true ↔ (s.lockOwner = none ↔ s.fsm = .idle) ∧ (s.lockOwner = none ↔ s.op = none) := by
  rw [State.lockOk, Bool.and_eq_true, beq_bool_iff, beq_bool_iff]
  simp only [Option.isNone_iff_eq_none, beq_iff_eq]

theorem lockOk_of_resting {s : State} (h : Resting s) : s.lockOk = true :=
  (lockOk_iff s).2 ⟨by simp [h.owner, h.fsm], by simp [h.owner, h.op_eq]⟩

theorem lockOk_of_running {s : State} {op : Op} (h : Running s op) : s.lockOk = true :=
  (lockOk_iff s).2 ⟨by simp [h.owner, h.fsm], by simp [h.owner, h.op_eq]⟩

/-- The lock, the latch and the position are right: the invariant without the requests. -/
def Operating (s : State) : Prop := Resting s ∨ ∃ op, Running s op

/-- The invariant: the block is idle or in an operation, and the requests agree with that. -/
theorem inv_iff (s : State) :
    s.inv = true ↔ Operating s ∧ s.oneEach = true ∧ s.ownerOk = true ∧ s.cascadedOk = true := by
  simp only [State.inv, State.basic, Bool.and_eq_true, and_assoc]
  constructor
  · rintro ⟨hs, hl, h1, hlock, hc, hp, ho, hca⟩
    refine ⟨?_, h1, ho, hca⟩
    obtain ⟨hfsm, hop⟩ := (lockOk_iff s).1 hlock
    cases hopt : s.op with
    | none =>
      have hown := hop.2 hopt
      exact .inl ⟨⟨hs, hl, hc⟩, hopt, hown, hfsm.1 hown⟩
    | some op =>
      have hown : s.lockOwner ≠ none := fun h => by cases (hop.1 h).symm.trans hopt
      exact .inr ⟨op, ⟨hs, hl, hc⟩, hopt, hown, fun h => hown (hfsm.2 h), (positionOk_iff hopt).1 hp⟩
  · rintro ⟨h | ⟨op, h⟩, h1, ho, hca⟩
    · exact ⟨h.sound.sized, h.sound.latch, h1, lockOk_of_resting h, h.sound.command,
        by simp [State.positionOk, h.op_eq], ho, hca⟩
    · exact ⟨h.sound.sized, h.sound.latch, h1, lockOk_of_running h, h.sound.command,
        (positionOk_iff h.op_eq).2 h.position, ho, hca⟩

/-! ### `BUSY` and the latch -/

/-- With the latch's invariant `BUSY` is 0 exactly when nothing is latched (R35). -/
theorem busy_eq_false_iff {s : State} (h : s.latchOk = true) : s.busy = false ↔ s.devCmd = none := by
  rw [(State.latchOk_iff s).1 h, State.busy]
  cases busyFlag s.cmd <;> simp

end Sys2Proof.Machine

/-! ## What stands in an access list (R233 to R238)

After the wait of a phase come accesses that issue nothing, its front, and then the command that ends it, if any. -/

namespace Sys2Proof.Machine

@[inherit_doc loadBody] def loadFront (c : Cfg) (e : Entry) : Nat → List Access
  | 0 => .select :: writePage c e 2
  | 1 => writePage c e 1
  | 2 => writePage c e 0
  | _ => []

@[inherit_doc loadBody] def loadIssue (i : Index) : Nat → Option Access
  | 0 => some (.issue opLoad 2 i)
  | 1 => some (.issue opLoad 1 i)
  | 2 => some (.issue opLoad 0 i)
  | _ => none

@[inherit_doc readBody] def readFront (c : Cfg) : Nat → List Access
  | 0 => []
  | 1 => readPage c 0
  | 2 => readPage c 1 ++ [.select]
  | 3 => readPage c 2
  | _ => []

@[inherit_doc readBody] def readIssue (i : Index) : Nat → Option Access
  | 0 => some (.issue opRead 0 i)
  | 1 => some (.issue opRead 1 i)
  | 2 => some (.issue opRead 2 i)
  | _ => none

/-- The key registers that a search reads when the device has answered `MAX_INDEX` (R244 (a)). -/
def keyReads (c : Cfg) (hwIndex : Index) : List Access :=
  if hwIndex.toNat = c.maxIndex then [.readKey 0, .readKey 1, .readKey 2] else []

@[inherit_doc getNextBody] def getNextFront (c : Cfg) (hwIndex : Index) : Nat → List Access
  | 0 => []
  | 1 => .readCmd :: keyReads c hwIndex
  | k + 2 => readFront c (k + 1)

@[inherit_doc getNextBody] def getNextIssue (i hwIndex : Index) : Nat → Option Access
  | 0 => some (.issue opGetNext 0 i)
  | k + 1 => readIssue hwIndex k

@[inherit_doc modifyBody] def modifyFront (c : Cfg) (e : Entry) (hwIndex : Index) (k : Nat) : List Access :=
  if k < 4 then getNextFront c hwIndex k
  else if k = 4 then getNextFront c hwIndex 4 ++ loadFront c e 0
  else loadFront c e (k - 4)

@[inherit_doc modifyBody] def modifyIssue (c : Cfg) (i hwIndex : Index) (k : Nat) : Option Access :=
  if k < 4 then getNextIssue (findStart c i) hwIndex k else loadIssue i (k - 4)

/-- What a phase does between its wait and the command that ends it. -/
def phaseFront (s : State) (op : Op) (k : Nat) : List Access :=
  match op with
  | .flushAll | .flushEntry _ => []
  | .loadEntry _ | .advMain _ _ _ => loadFront s.conf s.e1 k
  | .advCascade _ _ => loadFront s.conf s.e2 k
  | .readEntry _ => readFront s.conf k
  | .getNextEntry _ | .findEntry _ => getNextFront s.conf s.hwIndex k
  | .addPort _ _ | .removePort _ _ => modifyFront s.conf s.e1 s.hwIndex k

/-- The command that ends a phase; the last phase has none. -/
def phaseIssue (s : State) (op : Op) (k : Nat) : Option Access :=
  match op with
  | .flushAll => if k = 0 then some (.issue opFlushAll 0 0) else none
  | .flushEntry i => if k = 0 then some (.issue opFlushEntry 0 i) else none
  | .loadEntry i | .advMain i _ _ | .advCascade _ i => loadIssue i k
  | .readEntry i => readIssue i k
  | .getNextEntry i => getNextIssue i s.hwIndex k
  | .findEntry i => getNextIssue (findStart s.conf i) s.hwIndex k
  | .addPort i _ | .removePort i _ => modifyIssue s.conf i s.hwIndex k

theorem loadBody_eq (c : Cfg) (e : Entry) (i : Index) (k : Nat) :
    loadBody c e i k = loadFront c e k ++ (loadIssue i k).toList := by
  match k with
  | 0 | 1 | 2 => rfl
  | _ + 3 => rfl

theorem readBody_eq (c : Cfg) (i : Index) (k : Nat) : readBody c i k = readFront c k ++ (readIssue i k).toList := by
  match k with
  | 0 | 1 => rfl
  | 2 => simp [readBody, readFront, readIssue]
  | 3 => simp [readBody, readFront, readIssue]
  | _ + 4 => rfl

theorem getNextBody_eq (c : Cfg) (i hwIndex : Index) (k : Nat) :
    getNextBody c i hwIndex k = getNextFront c hwIndex k ++ (getNextIssue i hwIndex k).toList := by
  match k with
  | 0 => rfl
  | 1 => rfl
  | k + 2 => exact readBody_eq c hwIndex (k + 1)

theorem modifyBody_eq (c : Cfg) (e : Entry) (i hwIndex : Index) (k : Nat) :
    modifyBody c e i hwIndex k = modifyFront c e hwIndex k ++ (modifyIssue c i hwIndex k).toList := by
  rw [modifyBody, modifyFront, modifyIssue]
  split
  · exact getNextBody_eq _ _ _ _
  split
  · subst k
    have hnone : (getNextIssue (findStart c i) hwIndex 4).toList = [] := rfl
    rw [getNextBody_eq, loadBody_eq, hnone, List.append_nil, List.append_assoc]
  · exact loadBody_eq _ _ _ _

/-- A phase is its front and its command. -/
theorem phaseBody_eq (s : State) (op : Op) (k : Nat) :
    phaseBody s op k = phaseFront s op k ++ (phaseIssue s op k).toList := by
  cases op with
  | flushAll | flushEntry => by_cases h : k = 0 <;> simp [phaseBody, phaseFront, phaseIssue, h]
  | loadEntry | advCascade | advMain => exact loadBody_eq _ _ _ _
  | readEntry => exact readBody_eq _ _ _
  | getNextEntry | findEntry => exact getNextBody_eq _ _ _ _
  | addPort | removePort => exact modifyBody_eq _ _ _ _ _

theorem accessList_eq {s : State} {op : Op} (h : s.op = some op) :
    accessList s = .poll :: phaseFront s op s.phase ++ (phaseIssue s op s.phase).toList := by
  rw [accessList, h]
  exact congrArg _ (phaseBody_eq s op s.phase)

/-! ### The accesses of the fronts -/

/-- The accesses of a front, each with what the block needs to make it: registers that are there, and for those of a
search its second phase and their place in it. -/
inductive Access.InFront (s : State) (op : Op) (n : Nat) : Access → Prop
  | select : InFront s op n .select
  | write {k : Nat} {v : Word} (h : k < s.conf.bankSize) : InFront s op n (.write k v)
  | read {p k : Nat} (h : k < s.conf.bankSize) : InFront s op n (.read p k)
  | readCmd (h : op.searches = true) (hp : s.phase = 1) (hn : n = 0) : InFront s op n .readCmd
  | readKey {k : Nat} (h : k < s.conf.bankSize) (ho : op.searches = true) (hp : s.phase = 1) (hn : n ≠ 0) :
    InFront s op n (.readKey k)

theorem mem_writePage {c : Cfg.Checked} {e : Entry} (he : e.wf c.val = true) {p : Nat} {a : Access}
    (h : a ∈ writePage c.val e p) : ∃ k v, k < c.val.pageLen p ∧ a = .write k v := by
  obtain ⟨k, hk, rfl⟩ := List.mem_mapIdx.1 h
  exact ⟨k, _, pageImage_length c he p ▸ hk, rfl⟩

theorem mem_readPage {c : Cfg} {p : Nat} {a : Access} (h : a ∈ readPage c p) : ∃ k < c.pageLen p, a = .read p k := by
  obtain ⟨k, hk, rfl⟩ := List.mem_map.1 h
  exact ⟨k, List.mem_range.1 hk, rfl⟩

section

variable {s : State} {op : Op} {n : Nat} {a : Access}

theorem inFront_of_mem_loadFront {e : Entry} (he : e.wf s.conf = true) {k : Nat} (h : a ∈ loadFront s.conf e k) :
    a.InFront s op n := by
  have hpage : ∀ {p}, a ∈ writePage s.conf e p → a.InFront s op n := fun {p} hm => by
    obtain ⟨k, v, hk, rfl⟩ := mem_writePage he hm
    exact .write (lt_of_lt_of_le hk (s.cfg.pageLen_le p))
  match k with
  | 0 =>
    rcases List.mem_cons.1 h with rfl | h
    · exact .select
    · exact hpage h
  | 1 => exact hpage h
  | 2 => exact hpage h
  | _ + 3 => cases h

theorem inFront_of_mem_readFront {k : Nat} (h : a ∈ readFront s.conf k) : a.InFront s op n := by
  have hpage : ∀ {p}, a ∈ readPage s.conf p → a.InFront s op n := fun {p} hm => by
    obtain ⟨k, hk, rfl⟩ := mem_readPage hm
    exact .read (lt_of_lt_of_le hk (s.cfg.pageLen_le p))
  match k with
  | 0 => cases h
  | 1 => exact hpage h
  | 2 =>
    rcases List.mem_append.1 h with h | h
    · exact hpage h
    · rw [List.mem_singleton.1 h]
      exact .select
  | 3 => exact hpage h
  | _ + 4 => cases h

/-- The bank has the three key registers (R101). -/
theorem key_lt_bankSize (c : Cfg.Checked) {k : Nat} (h : k < 3) : k < c.val.bankSize := by
  have h3 := c.sizes.1
  have h0 : c.val.rl.nHdr + c.val.rl.cut ≤ c.val.bankSize := c.pageLen_le 0
  omega

theorem inFront_getNextFront (ho : op.searches = true) {k : Nat} (hk : k = s.phase)
    (h : (getNextFront s.conf s.hwIndex k)[n]? = some a) : a.InFront s op n := by
  match k with
  | 0 => cases h
  | 1 =>
    cases n with
    | zero =>
      cases h
      exact .readCmd ho hk.symm rfl
    | succ n =>
      have hmem : a ∈ keyReads s.conf s.hwIndex := List.mem_of_getElem? h
      simp only [keyReads] at hmem
      split at hmem
      · have hkey : ∀ {k}, k < 3 → Access.InFront s op (n + 1) (.readKey k) := fun hk3 =>
          .readKey (key_lt_bankSize s.cfg hk3) ho hk.symm (by omega)
        simp only [List.mem_cons, List.not_mem_nil, or_false] at hmem
        rcases hmem with rfl | rfl | rfl
        · exact hkey (by decide)
        · exact hkey (by decide)
        · exact hkey (by decide)
      · cases hmem
  | k + 2 => exact inFront_of_mem_readFront (List.mem_of_getElem? h)

theorem inFront_modifyFront (he : s.e1.wf s.conf = true) (ho : op.searches = true)
    (h : (modifyFront s.conf s.e1 s.hwIndex s.phase)[n]? = some a) : a.InFront s op n := by
  rw [modifyFront] at h
  split at h
  · exact inFront_getNextFront ho rfl h
  split at h
  · rcases List.mem_append.1 (List.mem_of_getElem? h) with h | h
    · exact inFront_of_mem_readFront (k := 3) h
    · exact inFront_of_mem_loadFront he h
  · exact inFront_of_mem_loadFront he (List.mem_of_getElem? h)

/-- Every access of the front of the current phase can be made. -/
theorem inFront_of_getElem? (hs : s.sized = true) (h : (phaseFront s op s.phase)[n]? = some a) :
    a.InFront s op n := by
  obtain ⟨-, -, -, he1, he2⟩ := (State.sized_iff s).1 hs
  cases op with
  | flushAll | flushEntry => cases h
  | loadEntry | advMain => exact inFront_of_mem_loadFront he1 (List.mem_of_getElem? h)
  | advCascade => exact inFront_of_mem_loadFront he2 (List.mem_of_getElem? h)
  | readEntry => exact inFront_of_mem_readFront (List.mem_of_getElem? h)
  | getNextEntry | findEntry => exact inFront_getNextFront rfl rfl h
  | addPort | removePort => exact inFront_modifyFront he1 rfl h

end

/-! ### The commands that end the phases -/

/-- A command that the controller may issue at the end of phase `k` (R235, R250, U5 to U7): its opcode and page exist,
its index is one of the table, sub-block 0 has been selected for page 2, and it is not the last phase. -/
structure Issues (s : State) (op : Op) (k : Nat) (o : BitVec 3) (page : BitVec 2) (i : Index) : Prop where
  opcode : o = opFlushAll ∨ o = opFlushEntry ∨ o = opLoad ∨ o = opGetNext ∨ o = opRead
  hasPage : page ≠ 3
  inTable : o = opFlushAll ∨ s.conf.inRange i = true
  selected : page = 2 → Access.select ∈ phaseFront s op k
  more : k < op.commands
  answer : op.searches = true → k = 0 → o = opGetNext

/-- Where `FindBody` starts the search is a slot of the table (R238, decision D36). -/
theorem findStart_inRange (c : Cfg.Checked) {i : Index} (h : c.val.inRange i = true) :
    c.val.inRange (findStart c.val i) = true := by
  have hmax := c.max_le
  have hmin := c.min_le_max
  rw [Cfg.inRange_iff] at h ⊢
  rw [findStart]
  split
  · rw [BitVec.toNat_ofNat, Nat.mod_eq_of_lt (by omega)]
    omega
  · have hone : (i - 1).toNat = i.toNat - 1 := by bv_omega
    omega

section

variable {s : State} {op : Op} {a : Access}

theorem loadIssue_cases {i : Index} {k : Nat} (h : loadIssue i k = some a) :
    ∃ page, a = .issue opLoad page i ∧ page ≠ 3 ∧ k < 3 ∧ (page = 2 → k = 0) := by
  match k with
  | 0 => cases h; exact ⟨2, rfl, by decide, by decide, fun _ => rfl⟩
  | 1 => cases h; exact ⟨1, rfl, by decide, by decide, by decide⟩
  | 2 => cases h; exact ⟨0, rfl, by decide, by decide, by decide⟩
  | _ + 3 => cases h

theorem readIssue_cases {i : Index} {k : Nat} (h : readIssue i k = some a) :
    ∃ page, a = .issue opRead page i ∧ page ≠ 3 ∧ k < 3 ∧ (page = 2 → k = 2) := by
  match k with
  | 0 => cases h; exact ⟨0, rfl, by decide, by decide, by decide⟩
  | 1 => cases h; exact ⟨1, rfl, by decide, by decide, by decide⟩
  | 2 => cases h; exact ⟨2, rfl, by decide, by decide, fun _ => rfl⟩
  | _ + 3 => cases h

/-- `GetNextBody` issues `GET_NEXT` at first and then `READ`s of the slot that the device answered (R238). -/
theorem getNextIssue_cases {i hwIndex : Index} {k : Nat} (h : getNextIssue i hwIndex k = some a) :
    (k = 0 ∧ a = .issue opGetNext 0 i) ∨
      ∃ page, k ≠ 0 ∧ a = .issue opRead page hwIndex ∧ page ≠ 3 ∧ k < 4 ∧ (page = 2 → k = 3) := by
  match k with
  | 0 => cases h; exact .inl ⟨rfl, rfl⟩
  | k + 1 =>
    obtain ⟨page, rfl, h3, hk, h2⟩ := readIssue_cases h
    exact .inr ⟨page, by omega, rfl, h3, by omega, fun hp => by rw [h2 hp]⟩

theorem select_mem_loadFront (c : Cfg) (e : Entry) : Access.select ∈ loadFront c e 0 := List.mem_cons_self ..

theorem select_mem_readFront (c : Cfg) : Access.select ∈ readFront c 2 :=
  List.mem_append_right _ (List.mem_cons_self ..)

theorem issues_of_phaseIssue {k : Nat} (hv : op.valid s.conf = true)
    (hi : op.searches = true → k ≠ 0 → s.conf.inRange s.hwIndex = true) (h : phaseIssue s op k = some a) :
    ∃ o page i, a = .issue o page i ∧ Issues s op k o page i := by
  have hsearch : ∀ {i : Index}, op.searches = true → 4 ≤ op.commands → s.conf.inRange i = true →
      (∀ k < 4, phaseFront s op k = getNextFront s.conf s.hwIndex k) → getNextIssue i s.hwIndex k = some a →
      ∃ o page i, a = .issue o page i ∧ Issues s op k o page i := by
    intro i hs hc hr hfront h
    rcases getNextIssue_cases h with ⟨rfl, rfl⟩ | ⟨page, hk0, rfl, h3, hk, h2⟩
    · exact ⟨_, _, _, rfl, by simp, by decide, .inr hr, fun h2 => absurd h2 (by decide), by omega, fun _ _ => rfl⟩
    · refine ⟨_, _, _, rfl, by simp, h3, .inr (hi hs hk0), fun hp => ?_, by omega, fun _ h0 => absurd h0 hk0⟩
      rw [hfront k hk, h2 hp]
      exact select_mem_readFront s.conf
  have hload : ∀ {i : Index} {j : Nat} {e : Entry}, j + 3 ≤ op.commands → (op.searches = true → j ≠ 0) →
      s.conf.inRange i = true → loadFront s.conf e 0 ⊆ phaseFront s op j → j ≤ k → loadIssue i (k - j) = some a →
      ∃ o page i, a = .issue o page i ∧ Issues s op k o page i := by
    intro i j e hc hs hr hfront hj h
    obtain ⟨page, rfl, h3, hk, h2⟩ := loadIssue_cases h
    refine ⟨_, _, _, rfl, by simp, h3, .inr hr, fun hp => ?_, by omega, fun hs' h0 => ?_⟩
    · have hkj : k = j := by have := h2 hp; omega
      exact hkj ▸ hfront (select_mem_loadFront s.conf e)
    · exact absurd (by omega) (hs hs')
  have hmodify : ∀ {i : Index}, op.searches = true → 7 ≤ op.commands → s.conf.inRange i = true →
      (∀ k, phaseFront s op k = modifyFront s.conf s.e1 s.hwIndex k) →
      modifyIssue s.conf i s.hwIndex k = some a → ∃ o page i, a = .issue o page i ∧ Issues s op k o page i := by
    intro i hs hc hr hfront h
    rw [modifyIssue] at h
    split at h
    · exact hsearch hs (by omega) (findStart_inRange s.cfg hr) (fun k hk => (hfront k).trans (if_pos hk)) h
    · refine hload (j := 4) (e := s.e1) hc (fun _ => by decide) hr ?_ (by omega) h
      rw [hfront]
      exact List.subset_append_right _ _
  cases op with
  | flushAll =>
    simp only [phaseIssue] at h
    split at h
    · cases h
      exact ⟨_, _, _, rfl, by simp, by decide, .inl rfl, fun h2 => absurd h2 (by decide), by simp_all [Op.commands],
        nofun⟩
    · cases h
  | flushEntry i =>
    simp only [phaseIssue] at h
    split at h
    · cases h
      exact ⟨_, _, _, rfl, by simp, by decide, .inr hv, fun h2 => absurd h2 (by decide), by simp_all [Op.commands],
        nofun⟩
    · cases h
  | loadEntry i => exact hload (j := 0) (e := s.e1) le_rfl nofun hv (List.Subset.refl _) (Nat.zero_le _) h
  | advMain i _ _ => exact hload (j := 0) (e := s.e1) le_rfl nofun hv (List.Subset.refl _) (Nat.zero_le _) h
  | advCascade _ i =>
    have hi2 : s.conf.inRange i = true := (Bool.and_eq_true_iff.1 hv).2
    exact hload (j := 0) (e := s.e2) le_rfl nofun hi2 (List.Subset.refl _) (Nat.zero_le _) h
  | readEntry i =>
    obtain ⟨page, rfl, h3, hk, h2⟩ := readIssue_cases h
    refine ⟨_, _, _, rfl, by simp, h3, .inr hv, fun hp => ?_, hk, nofun⟩
    rw [h2 hp]
    exact select_mem_readFront s.conf
  | getNextEntry i => exact hsearch rfl le_rfl hv (fun _ _ => rfl) h
  | findEntry i => exact hsearch rfl le_rfl (findStart_inRange s.cfg hv) (fun _ _ => rfl) h
  | addPort i p => exact hmodify rfl le_rfl (Bool.and_eq_true_iff.1 hv).1 (fun _ => rfl) h
  | removePort i p => exact hmodify rfl le_rfl (Bool.and_eq_true_iff.1 hv).1 (fun _ => rfl) h

end

end Sys2Proof.Machine

/-! ## One access of an operation in progress (R65, R233 to R238, R310)

Each access is one equation per answer of the transport; what it needs to be made is `Makeable`, which a running operation
always has. -/

namespace Sys2Proof.Machine

/-- Where an access stands in its phase: the wait comes first, the command last. -/
theorem accessList_cases {s : State} {op : Op} (hop : s.op = some op) {n : Nat} {a : Access}
    (ha : (accessList s)[n]? = some a) :
    (n = 0 ∧ a = .poll) ∨ (∃ m, n = m + 1 ∧ (phaseFront s op s.phase)[m]? = some a) ∨
      n = (phaseFront s op s.phase).length + 1 ∧ phaseIssue s op s.phase = some a := by
  rw [accessList_eq hop] at ha
  cases n with
  | zero =>
    cases ha
    exact .inl ⟨rfl, rfl⟩
  | succ m =>
    right
    rw [List.cons_append, List.getElem?_cons_succ] at ha
    by_cases hm : m < (phaseFront s op s.phase).length
    · exact .inl ⟨m, rfl, by rwa [List.getElem?_append_left hm] at ha⟩
    · right
      rw [List.getElem?_append_right (by omega)] at ha
      obtain ⟨hlt, -⟩ := List.getElem?_eq_some_iff.1 ha
      cases hi : phaseIssue s op s.phase with
      | none => simp [hi] at hlt
      | some b =>
        simp only [hi, Option.toList_some, List.length_singleton] at hlt ha
        have hz : m - (phaseFront s op s.phase).length = 0 := by omega
        rw [hz] at ha
        exact ⟨by omega, ha⟩

/-- An access that the block can make now: reads and writes of the bank reach one of its registers, and nothing is written
while `BUSY` is 1 (R67, R76, R80, R210). -/
inductive Makeable (s : State) : Access → Prop
  | poll : Makeable s .poll
  | select (hb : s.busy = false) : Makeable s .select
  | write {k : Nat} {v : Word} (hb : s.busy = false) (hk : k < s.conf.bankSize) (hd : k < s.data.length) :
    Makeable s (.write k v)
  | read {p k : Nat} (hk : k < s.conf.bankSize) (hd : k < s.data.length) : Makeable s (.read p k)
  | readCmd : Makeable s .readCmd
  | readKey {k : Nat} (hk : k < s.conf.bankSize) (hd : k < s.data.length) : Makeable s (.readKey k)
  | issue {op : BitVec 3} {page : BitVec 2} {i : Index} (hb : s.busy = false) (ho : op ≠ 6 ∧ op ≠ 7) (hp : page ≠ 3) :
    Makeable s (.issue op page i)

/-- The state after the write of an access has reached its register; reads write nothing (R62, R64, R210). -/
def Access.written (a : Access) (s : State) : State :=
  match a with
  | .select => { s with ext := setField s.ext 0 subblockBits }
  | .write k v => { s with data := s.data.set k v }
  | .issue op page i => { s with cmd := cmdword op page i, devCmd := some ⟨op, page, i⟩ }
  | _ => s

theorem writeField_select {s : State} (hb : s.busy = false) :
    writeField s s.conf.tb s.conf.extOff subblockBits 0 = .next (Access.select.written s) := by
  rw [writeField, readReg_ext]
  exact writeReg_ext s _ hb

theorem readReg_bank {s : State} {k : Nat} (hk : k < s.conf.bankSize) (hd : k < s.data.length) :
    readReg s s.conf.tb (s.conf.dataLo + k) = some (s.data.getD k 0) := by
  rw [readReg_data s hk, List.getD_eq_getElem?_getD, List.getElem?_eq_getElem hd, Option.getD_some]

theorem ctlStep_eq {s : State} {a : Access} (ans : Answer) (ha : (accessList s)[s.seqStep]? = some a) :
    ctlStep ans s = runAccess a ans s := by
  rw [ctlStep, ha]

section

variable {s : State} {a : Access}

/-- A failed access that was lost ends the operation with no effect (R65, R310). -/
theorem runAccess_lost (a : Access) (e : TransportError) (s : State) :
    runAccess a (.lost e) s = .next (s.abort (.transportFailure e)) := by
  cases a <;> rfl

/-- A failed access whose write landed ends the operation with that write's effect (R65, R310). -/
theorem runAccess_landed (h : Makeable s a) (e : TransportError) :
    runAccess a (.landed e) s = .next ((a.written s).abort (.transportFailure e)) := by
  cases h with
  | poll | read | readCmd | readKey => rfl
  | select hb => rw [runAccess, onWrite, writeField_select hb]; rfl
  | write hb hk hd => rw [runAccess, onWrite, writeReg_data s _ hk hd hb]; rfl
  | issue hb ho hp => rw [runAccess, onWrite, writeReg_issue s _ _ _ hb ho fun _ => hp]; rfl

theorem runAccess_select (hb : s.busy = false) :
    runAccess .select .ok s = advance (Access.select.written s) := by
  rw [runAccess, onWrite, writeField_select hb]
  rfl

theorem runAccess_write {k : Nat} {v : Word} (h : Makeable s (.write k v)) :
    runAccess (.write k v) .ok s = advance ((Access.write k v).written s) := by
  obtain _ | _ | ⟨hb, hk, hd⟩ := h
  rw [runAccess, onWrite, writeReg_data s _ hk hd hb]
  rfl

theorem runAccess_issue {op : BitVec 3} {page : BitVec 2} {i : Index} (h : Makeable s (.issue op page i)) :
    runAccess (.issue op page i) .ok s = .next ((Access.issue op page i).written s).issued := by
  obtain _ | _ | _ | _ | _ | _ | ⟨hb, ho, hp⟩ := h
  rw [runAccess, onWrite, writeReg_issue s _ _ _ hb ho fun _ => hp]
  rfl

theorem runAccess_read {p k : Nat} (h : Makeable s (.read p k)) :
    runAccess (.read p k) .ok s =
      afterRead { s with e1 := s.e1.putPageReg s.conf p k (s.data.getD k 0) } p k := by
  obtain _ | _ | _ | ⟨hk, hd⟩ := h
  rw [runAccess, onRead, readReg_bank hk hd]

theorem runAccess_readKey {k : Nat} (h : Makeable s (.readKey k)) :
    runAccess (.readKey k) .ok s = afterKey s k (s.data.getD k 0) := by
  obtain _ | _ | _ | _ | _ | ⟨hk, hd⟩ := h
  rw [runAccess, onRead, readReg_bank hk hd]

theorem runAccess_readCmd (s : State) :
    runAccess .readCmd .ok s = advance { s with hwIndex := cmdIndex s.cmd } := by
  rw [runAccess, onRead, readReg_cmd]
  rfl

theorem readField_busy (s : State) :
    readField s s.conf.tb s.conf.cmdOff busyBits = some (getField s.cmd busyBits) := by
  rw [readField, readReg_cmd]
  rfl

/-- A poll that reads 0 ends the wait (R233). -/
theorem runAccess_poll_idle (hb : s.busy = false) :
    runAccess .poll .ok s = advance { s with fsm := .awaitingBusy } := by
  have hz : getField s.cmd busyBits = 0 := by simpa [State.busy, busyFlag] using hb
  rw [runAccess, pollOnce, readField_busy]
  exact if_pos hz

/-- A poll that reads 1 counts, and times out when the count reaches its limit (R25, R233). -/
theorem runAccess_poll_busy (hb : s.busy = true) :
    runAccess .poll .ok s =
      if s.conf.pollLimit ≤ s.pollCnt + 1 then
        .next (({ s with pollCnt := s.pollCnt + 1 } : State).abort .timeout)
      else .next { s with pollCnt := s.pollCnt + 1 } := by
  have hz : getField s.cmd busyBits ≠ 0 := by simpa [State.busy, busyFlag] using hb
  rw [runAccess, pollOnce, readField_busy]
  exact if_neg hz

end

/-- After a register of a page is read the operation goes on, with the entry modified at most, or answers `NotFound`. -/
theorem afterRead_eq (u : State) (p k : Nat) :
    (∃ e, (u.e1.wf u.conf = true → e.wf u.conf = true) ∧ afterRead u p k = advance { u with e1 := e }) ∨
      afterRead u p k = .next (u.abort .notFound) := by
  have hsame : ∀ {o : Out}, o = advance u →
      (∃ e, (u.e1.wf u.conf = true → e.wf u.conf = true) ∧ o = advance { u with e1 := e }) ∨
        o = .next (u.abort .notFound) := fun h => .inl ⟨u.e1, id, h⟩
  rw [afterRead]
  split
  · split
    · split
      · exact hsame rfl
      · exact .inr rfl
    · split
      · exact .inl ⟨_, modifyPort_wf _ _ _ _, rfl⟩
      · exact .inr rfl
    · split
      · exact .inl ⟨_, modifyPort_wf _ _ _ _, rfl⟩
      · exact .inr rfl
    · exact hsame rfl
  · exact hsame rfl

/-- After a key register is read the operation goes on, or answers `NotFound`. -/
theorem afterKey_eq (s : State) (k : Nat) (w : Word) :
    ∃ k1 k2 k3, afterKey s k w = advance { s with key1 := k1, key2 := k2, key3 := k3 } ∨
      afterKey s k w = .next (({ s with key1 := k1, key2 := k2, key3 := k3 } : State).abort .notFound) := by
  rw [afterKey]
  split
  · exact ⟨w, s.key2, s.key3, .inl rfl⟩
  split
  · exact ⟨s.key1, w, s.key3, .inl rfl⟩
  · refine ⟨s.key1, s.key2, w, ?_⟩
    dsimp only
    split
    · exact .inr rfl
    · exact .inl rfl

/-- The last access of an operation ends it with `Ok`, but for the first tenure of an `AdvConfig`. -/
theorem finish_eq {u : State} {op : Op} (h : u.op = some op) :
    (∃ v, finish u = .next (u.endOk v)) ∨
      ∃ i j, op = .advCascade i j ∧ finish u = .next { u.release with cascaded := u.caller :: u.cascaded } := by
  rw [finish, h]
  cases op with
  | advCascade i j => exact .inr ⟨i, j, rfl, rfl⟩
  | _ => exact .inl ⟨_, rfl⟩

theorem advance_eq (u : State) :
    advance u = if u.seqStep + 1 < (accessList u).length then .next { u with seqStep := u.seqStep + 1 }
      else finish { u with seqStep := u.seqStep + 1 } := rfl

/-! ### What a running operation can do -/

/-- In its second phase a search reads the answer's index and then the key registers (R238). -/
theorem phaseFront_one {op : Op} (s : State) (h : op.searches = true) :
    phaseFront s op 1 = .readCmd :: keyReads s.conf s.hwIndex := by
  cases op with
  | getNextEntry | findEntry | addPort | removePort => rfl
  | _ => cases h

/-- Past the reading of the answer the index that a search works with is one of the table (R244 (f), U16). -/
theorem Running.hwIndex_inRange {s : State} {op : Op} (h : Running s op) (hs : op.searches = true) (hp : s.phase ≠ 0)
    (hn : s.phase = 1 → 2 ≤ s.seqStep) : s.conf.inRange s.hwIndex = true := by
  rcases h.position.index hs with h0 | ⟨h1, h2⟩ | hr
  · exact absurd h0 hp
  · have := hn h1
    omega
  · exact hr

/-- The command at the end of a phase is one the controller may issue. -/
theorem Running.issues {s : State} {op : Op} (h : Running s op) {a : Access}
    (hn : s.seqStep = (phaseFront s op s.phase).length + 1) (hi : phaseIssue s op s.phase = some a) :
    ∃ o page i, a = .issue o page i ∧ Issues s op s.phase o page i := by
  refine issues_of_phaseIssue h.position.valid (fun hs hp => h.hwIndex_inRange hs hp fun h1 => ?_) hi
  rw [hn, h1, phaseFront_one s hs, List.length_cons]
  omega

theorem Running.makeable {s : State} {op : Op} (h : Running s op) {a : Access}
    (ha : (accessList s)[s.seqStep]? = some a) : Makeable s a := by
  obtain ⟨hd, -⟩ := (State.sized_iff s).1 h.sound.sized
  rcases accessList_cases h.op_eq ha with ⟨-, rfl⟩ | ⟨m, hm, hf⟩ | ⟨hn, hi⟩
  · exact .poll
  · have hb : s.busy = false := h.position.idle.resolve_left (by omega)
    cases inFront_of_getElem? h.sound.sized hf with
    | select => exact .select hb
    | write hk => exact .write hb hk (hd.symm ▸ hk)
    | read hk => exact .read hk (hd.symm ▸ hk)
    | readCmd => exact .readCmd
    | readKey hk => exact .readKey hk (hd.symm ▸ hk)
  · have hb : s.busy = false := h.position.idle.resolve_left (by omega)
    obtain ⟨o, page, i, rfl, hissue⟩ := h.issues hn hi
    have ho : o ≠ 6 ∧ o ≠ 7 := by
      rcases hissue.opcode with rfl | rfl | rfl | rfl | rfl <;> decide
    exact .issue hb ho hissue.hasPage

/-! ### What does not change the shape of an access list -/

/-- Where `SelectAction` stands in a list of accesses. -/
def selects (as : List Access) : List Bool := as.map (· == .select)

theorem selects_append (as bs : List Access) : selects (as ++ bs) = selects as ++ selects bs := List.map_append

theorem select_mem_take_iff (as : List Access) (n : Nat) : Access.select ∈ as.take n ↔ true ∈ (selects as).take n := by
  rw [selects, ← List.map_take, List.mem_map]
  simp

theorem selects_writePage {c : Cfg.Checked} {e : Entry} (he : e.wf c.val = true) (p : Nat) :
    selects (writePage c.val e p) = List.replicate (c.val.pageLen p) false := by
  rw [List.eq_replicate_iff]
  refine ⟨by simp [selects, writePage, pageImage_length c he], fun b hb => ?_⟩
  obtain ⟨a, ha, rfl⟩ := List.mem_map.1 hb
  obtain ⟨k, v, -, rfl⟩ := mem_writePage he ha
  rfl

theorem selects_loadFront {c : Cfg.Checked} {e e' : Entry} (he : e.wf c.val = true) (he' : e'.wf c.val = true)
    (k : Nat) : selects (loadFront c.val e k) = selects (loadFront c.val e' k) := by
  have hpage : ∀ p, selects (writePage c.val e p) = selects (writePage c.val e' p) := fun p => by
    rw [selects_writePage he, selects_writePage he']
  match k with
  | 0 => exact congrArg (true :: ·) (hpage 2)
  | 1 => exact hpage 1
  | 2 => exact hpage 0
  | _ + 3 => rfl

/-- The shape of an access list does not depend on what the staging buffers hold. -/
theorem selects_accessList {s u : State} (hcfg : u.cfg = s.cfg) (hop : u.op = s.op) (hphase : u.phase = s.phase)
    (hhw : u.hwIndex = s.hwIndex) (hs : s.sized = true) (hu : u.sized = true) :
    selects (accessList u) = selects (accessList s) := by
  have hconf : u.conf = s.conf := congrArg Subtype.val hcfg
  obtain ⟨-, -, -, hu1, hu2⟩ := (State.sized_iff u).1 hu
  obtain ⟨-, -, -, hs1, hs2⟩ := (State.sized_iff s).1 hs
  rw [hconf] at hu1 hu2
  cases hopt : s.op with
  | none => simp [accessList, hop, hopt]
  | some op =>
    have hissue : phaseIssue u op u.phase = phaseIssue s op s.phase := by
      cases op <;> simp only [phaseIssue, hconf, hphase, hhw]
    have hfront : selects (phaseFront u op u.phase) = selects (phaseFront s op s.phase) := by
      cases op with
      | flushAll | flushEntry => rfl
      | readEntry | getNextEntry | findEntry => simp only [phaseFront, hconf, hphase, hhw]
      | loadEntry | advMain =>
        simp only [phaseFront, hconf, hphase]
        exact selects_loadFront hu1 hs1 _
      | advCascade =>
        simp only [phaseFront, hconf, hphase]
        exact selects_loadFront hu2 hs2 _
      | addPort | removePort =>
        simp only [phaseFront, hconf, hphase, hhw, modifyFront]
        split
        · rfl
        split
        · rw [selects_append, selects_append, selects_loadFront hu1 hs1]
        · exact selects_loadFront hu1 hs1 _
    rw [accessList_eq (hop.trans hopt), accessList_eq hopt, hissue, selects_append, selects_append]
    exact congrArg (fun x => false :: x ++ _) hfront

end Sys2Proof.Machine

/-! ## An operation in progress goes on or ends (R231, R250, R251)

`Running.ctlStep` says what one access of a running operation leads to: the operation is still running and nearer to its
end, or it has ended in a sound block. -/

namespace Sys2Proof.Machine

open Sys2Proof.Claims (accesses)

/-! ### How far an operation is from its end -/

/-- Accesses that follow the wait of phase `k`, with the key registers of a search counted in (R236, R238). -/
def Op.bodyLen (c : Cfg) (op : Op) (k : Nat) : Nat :=
  match op with
  | .flushAll | .flushEntry _ => [1].getD k 0
  | .loadEntry _ | .advCascade _ _ | .advMain _ _ _ => [c.pageLen 2 + 2, c.pageLen 1 + 1, c.pageLen 0 + 1].getD k 0
  | .readEntry _ => [1, c.pageLen 0 + 1, c.pageLen 1 + 2, c.pageLen 2].getD k 0
  | .getNextEntry _ | .findEntry _ => [1, 5, c.pageLen 0 + 1, c.pageLen 1 + 2, c.pageLen 2].getD k 0
  | .addPort _ _ | .removePort _ _ =>
    [1, 5, c.pageLen 0 + 1, c.pageLen 1 + 2, c.pageLen 2 + (c.pageLen 2 + 2), c.pageLen 1 + 1,
      c.pageLen 0 + 1].getD k 0

section

variable (c : Cfg.Checked)

theorem loadBody_length {e : Entry} (he : e.wf c.val = true) (i : Index) (k : Nat) :
    (loadBody c.val e i k).length = [c.val.pageLen 2 + 2, c.val.pageLen 1 + 1, c.val.pageLen 0 + 1].getD k 0 := by
  have hpage : ∀ p, (writePage c.val e p).length = c.val.pageLen p := fun p => by
    rw [writePage, List.length_mapIdx, pageImage_length c he]
  match k with
  | 0 => simp [loadBody, hpage]
  | 1 => simp [loadBody, hpage]
  | 2 => simp [loadBody, hpage]
  | _ + 3 => simp [loadBody]

theorem readBody_length (i : Index) (k : Nat) :
    (readBody c.val i k).length = [1, c.val.pageLen 0 + 1, c.val.pageLen 1 + 2, c.val.pageLen 2].getD k 0 := by
  match k with
  | 0 => simp [readBody]
  | 1 => simp [readBody, readPage]
  | 2 => simp [readBody, readPage]
  | 3 => simp [readBody, readPage]
  | _ + 4 => simp [readBody]

theorem getNextBody_length_le (i hwIndex : Index) (k : Nat) :
    (getNextBody c.val i hwIndex k).length ≤
      [1, 5, c.val.pageLen 0 + 1, c.val.pageLen 1 + 2, c.val.pageLen 2].getD k 0 := by
  match k with
  | 0 => simp [getNextBody]
  | 1 =>
    simp only [getNextBody]
    split <;> simp [readBody]
  | k + 2 => exact (readBody_length c hwIndex (k + 1)).le

theorem modifyBody_length_le {e : Entry} (he : e.wf c.val = true) (i hwIndex : Index) (k : Nat) :
    (modifyBody c.val e i hwIndex k).length ≤
      [1, 5, c.val.pageLen 0 + 1, c.val.pageLen 1 + 2, c.val.pageLen 2 + (c.val.pageLen 2 + 2), c.val.pageLen 1 + 1,
        c.val.pageLen 0 + 1].getD k 0 := by
  have hnext := fun k => getNextBody_length_le c (findStart c.val i) hwIndex k
  have hload := fun k => loadBody_length c he i k
  match k with
  | 0 => exact hnext 0
  | 1 => exact hnext 1
  | 2 => exact hnext 2
  | 3 => exact hnext 3
  | 4 =>
    refine (List.length_append (as := getNextBody c.val (findStart c.val i) hwIndex 4)).le.trans ?_
    exact Nat.add_le_add (hnext 4) (hload 0).le
  | 5 => exact (hload 1).le
  | 6 => exact (hload 2).le
  | k + 7 => exact (hload (k + 3)).le

end

theorem phaseBody_length_le {s : State} (hs : s.sized = true) (op : Op) (k : Nat) :
    (phaseBody s op k).length ≤ op.bodyLen s.conf k := by
  obtain ⟨-, -, -, he1, he2⟩ := (State.sized_iff s).1 hs
  cases op with
  | flushAll | flushEntry => cases k <;> simp [phaseBody, Op.bodyLen]
  | loadEntry i => exact (loadBody_length s.cfg he1 i k).le
  | advMain i _ _ => exact (loadBody_length s.cfg he1 i k).le
  | advCascade _ i => exact (loadBody_length s.cfg he2 i k).le
  | readEntry i => exact (readBody_length s.cfg i k).le
  | getNextEntry i => exact getNextBody_length_le s.cfg i s.hwIndex k
  | findEntry i => exact getNextBody_length_le s.cfg (findStart s.conf i) s.hwIndex k
  | addPort i _ => exact modifyBody_length_le s.cfg he1 i s.hwIndex k
  | removePort i _ => exact modifyBody_length_le s.cfg he1 i s.hwIndex k

/-- The accesses of `n` phases from phase `k` on, with a full wait before each. -/
def Op.work (c : Cfg) (op : Op) : Nat → Nat → Nat
  | 0, _ => 0
  | n + 1, k => c.pollLimit + op.bodyLen c k + op.work c n (k + 1)

/-- The accesses that are left, at most. -/
def remaining (s : State) (op : Op) : Nat :=
  (if s.seqStep = 0 then s.conf.pollLimit - s.pollCnt + op.bodyLen s.conf s.phase
    else op.bodyLen s.conf s.phase + 1 - s.seqStep) +
    op.work s.conf (op.commands - s.phase) (s.phase + 1)

/-! ### The states after an access -/

/-- Who waits, who holds the lock, and the configuration stay. -/
structure SameParties (s t : State) : Prop where
  cfg : t.cfg = s.cfg
  lockOwner : t.lockOwner = s.lockOwner
  caller : t.caller = s.caller
  requests : t.requests = s.requests
  cascaded : t.cascaded = s.cascaded

theorem SameParties.refl (s : State) : SameParties s s := ⟨rfl, rfl, rfl, rfl, rfl⟩

theorem SameParties.trans {s t u : State} (h : SameParties s t) (h' : SameParties t u) : SameParties s u :=
  ⟨h'.cfg.trans h.cfg, h'.lockOwner.trans h.lockOwner, h'.caller.trans h.caller, h'.requests.trans h.requests,
    h'.cascaded.trans h.cascaded⟩

theorem SameParties.conf {s t : State} (h : SameParties s t) : t.conf = s.conf := congrArg Subtype.val h.cfg

/-- What a run of the operation `op` with `n` accesses leads to: the operation goes on and has that much less left to do,
or it delivers its outcome, or its first tenure of an `AdvConfig` is done; when it ends, the accesses that are left over
are among the moves kept. -/
inductive After (n : Nat) (s : State) (op : Op) : State → Prop
  | goes {t : State} (run : Running t op) (same : SameParties s t) (less : remaining t op + n ≤ remaining s op) :
    After n s op t
  | delivers {u : State} (r : Result) (sound : Sound u) (same : SameParties s u)
    (used : n ≤ remaining s op + accesses u.sched) : After n s op (u.release.deliver r)
  | cascades {u : State} (i j : Index) (hop : op = .advCascade i j) (sound : Sound u) (same : SameParties s u)
    (used : n ≤ remaining s op + accesses u.sched) : After n s op { u.release with cascaded := u.caller :: u.cascaded }

/-- The block stays sound when sizes, command register, latch and selector stay. -/
theorem Sound.congr {s u : State} (h : Sound s) (hcfg : u.cfg = s.cfg) (hsized : u.sized = true) (hcmd : u.cmd = s.cmd)
    (hdev : u.devCmd = s.devCmd) (hext : u.ext = s.ext) : Sound u where
  sized := hsized
  latch := State.latchOk_congr hcmd hdev h.latch
  command := by
    have hconf : u.conf = s.conf := congrArg Subtype.val hcfg
    have hcan : ∀ d, u.deviceCan d = s.deviceCan d := fun d => by simp only [State.deviceCan, hconf, hext]
    simpa only [State.commandOk, hdev, hcan] using h.command

/-- With nothing latched the selector may hold anything. -/
theorem Sound.of_idle {s u : State} (h : Sound s) (hb : s.busy = false) (hsized : u.sized = true) (hcmd : u.cmd = s.cmd)
    (hdev : u.devCmd = s.devCmd) : Sound u where
  sized := hsized
  latch := State.latchOk_congr hcmd hdev h.latch
  command := by
    rw [State.commandOk, hdev, (busy_eq_false_iff h.latch).1 hb]

/-- What an access that issues nothing leaves as it is. -/
structure Touched (s u : State) : Prop where
  same : SameParties s u
  op : u.op = s.op
  phase : u.phase = s.phase
  seqStep : u.seqStep = s.seqStep
  pollCnt : u.pollCnt = s.pollCnt
  cmd : u.cmd = s.cmd
  devCmd : u.devCmd = s.devCmd

section

variable {s u : State} {op : Op}

/-- A running operation has accesses left. -/
theorem Running.remaining_pos (h : Running s op) : 0 < remaining s op := by
  have hpolls := h.position.polls
  have hlen : s.seqStep < op.bodyLen s.conf s.phase + 1 := by
    refine h.position.inList.trans_le ?_
    rw [accessList, h.op_eq, List.length_cons]
    exact Nat.add_le_add_right (phaseBody_length_le h.sound.sized op s.phase) 1
  rw [remaining]
  split <;> omega

/-- One access is no more than a running operation has left. -/
theorem Running.one_le (h : Running s op) (n : Nat) : 1 ≤ remaining s op + n :=
  h.remaining_pos.trans_le (Nat.le_add_right _ _)

/-- The position moves on, or the operation ends. -/
theorem Running.advance_after (h : Running s op) (ht : Touched s u) (hu : Sound u) (hb : s.busy = false)
    (hfsm : u.fsm = .awaitingBusy)
    (hselect : Access.select ∈ (accessList u).take (s.seqStep + 1) → actionContext u.ext = true)
    (hindex : op.searches = true → s.phase = 0 ∨ s.phase = 1 ∧ s.seqStep + 1 < 2 ∨ s.conf.inRange u.hwIndex = true) :
    ∃ t, advance u = .next t ∧ After 1 s op t := by
  have hop : u.op = some op := ht.op.trans h.op_eq
  have hconf := ht.same.conf
  rw [advance_eq]
  by_cases hlt : u.seqStep + 1 < (accessList u).length
  · refine ⟨_, if_pos hlt, .goes (t := { u with seqStep := u.seqStep + 1 }) ?_ ?_ ?_⟩
    · refine ⟨hu.congr rfl ?_ rfl rfl rfl, hop, ?_, ?_, ?_⟩
      · exact State.sized_congr rfl rfl rfl rfl rfl hu.sized
      · exact ht.same.lockOwner.trans_ne h.owner
      · simp [hfsm]
      · refine ⟨hlt, ht.phase.trans_le h.position.phases, ?_, ?_, .inr ?_, ?_, ?_, ?_, ?_⟩
        · exact hconf ▸ h.position.valid
        · simp [hfsm]
        · exact (congrArg busyFlag ht.cmd).trans hb
        · exact ht.seqStep.symm ▸ hselect
        · exact ht.pollCnt.symm ▸ hconf.symm ▸ h.position.polls
        · intro hs hp
          have hp' : s.phase = 1 := ht.phase.symm.trans hp
          have := h.position.answer hs hp'
          rw [← hconf, ← ht.cmd] at this
          exact this
        · intro hs
          have := hindex hs
          rw [← ht.phase, ← ht.seqStep, ← hconf] at this
          exact this
    · exact ⟨ht.same.cfg, ht.same.lockOwner, ht.same.caller, ht.same.requests, ht.same.cascaded⟩
    · have hlen : u.seqStep + 1 < op.bodyLen u.conf u.phase + 1 := by
        refine hlt.trans_le ?_
        rw [accessList, hop, List.length_cons]
        exact Nat.add_le_add_right (phaseBody_length_le hu.sized op u.phase) 1
      have hpoll := h.position.polls
      simp only [remaining]
      rw [ht.phase, hconf, ht.seqStep] at *
      rw [if_neg (by omega)]
      split <;> omega
  · rw [if_neg hlt]
    rcases finish_eq (u := { u with seqStep := u.seqStep + 1 }) hop with ⟨v, hv⟩ | ⟨i, j, rfl, hc⟩
    · exact ⟨_, hv, .delivers (u := u) _ hu ht.same (h.one_le _)⟩
    · exact ⟨_, hc, .cascades (u := u) i j rfl hu ht.same (h.one_le _)⟩

/-- The position moves on after an access other than the reading of the answer, which alone changes the access list. -/
theorem Running.advance_same_after (h : Running s op) {a : Access} (ha : (accessList s)[s.seqStep]? = some a)
    (ht : Touched s u) (hu : Sound u) (hb : s.busy = false) (hfsm : u.fsm = .awaitingBusy)
    (hhw : u.hwIndex = s.hwIndex) (hctx : actionContext s.ext = true → actionContext u.ext = true)
    (hsel : a = .select → actionContext u.ext = true) (hne : a ≠ .readCmd) :
    ∃ t, advance u = .next t ∧ After 1 s op t := by
  refine h.advance_after ht hu hb hfsm (fun hmem => ?_) fun hs => ?_
  · rw [select_mem_take_iff, selects_accessList ht.same.cfg ht.op ht.phase hhw h.sound.sized hu.sized,
      ← select_mem_take_iff, List.take_add_one, ha] at hmem
    rcases List.mem_append.1 hmem with hmem | hmem
    · exact hctx (h.position.selected hmem)
    · exact hsel (by simpa [eq_comm] using hmem)
  · rw [hhw]
    rcases h.position.index hs with h0 | ⟨h1, h2⟩ | hr
    · exact .inl h0
    · right; left
      refine ⟨h1, ?_⟩
      by_contra hlt
      have hn : s.seqStep = 1 := by omega
      rw [accessList_eq h.op_eq, hn, h1, phaseFront_one s hs] at ha
      cases ha
      exact hne rfl
    · exact .inr (.inr hr)

end

/-- An operation that is past its wait is in the state of a wait that has ended (R22). -/
theorem Running.fsm_awaiting {s : State} {op : Op} (h : Running s op) (hn : s.seqStep ≠ 0) : s.fsm = .awaitingBusy := by
  have hissued := h.position.issued
  cases hf : s.fsm with
  | idle => exact absurd hf h.fsm
  | awaitingBusy => rfl
  | commandIssued => exact absurd (hissued.1 hf).2 hn

/-- A staging buffer that is well formed may replace another one. -/
theorem State.sized_of_e1 {s : State} (hs : s.sized = true) {u : State} (hcfg : u.cfg = s.cfg) (hd : u.data = s.data)
    (ht : u.table = s.table) (h1 : u.e1.wf s.conf = true) (h2 : u.e2 = s.e2) : u.sized = true := by
  have hconf : u.conf = s.conf := congrArg Subtype.val hcfg
  rw [State.sized_iff] at hs ⊢
  rw [hconf, hd, ht, h2]
  exact ⟨hs.1, hs.2.1, hs.2.2.1, h1, hs.2.2.2.2⟩

/-- At the command that ends a phase, a search past its first phase has read the answer's index. -/
theorem Running.hwIndex_at_issue {s : State} {op : Op} (h : Running s op)
    (hn : s.seqStep = (phaseFront s op s.phase).length + 1) (hs : op.searches = true) (hp : s.phase ≠ 0) :
    s.conf.inRange s.hwIndex = true := by
  refine h.hwIndex_inRange hs hp fun h1 => ?_
  rw [hn, h1, phaseFront_one s hs, List.length_cons]
  omega

/-- The field `INDEX` of a command word is the index it was built with (R93). -/
theorem cmdIndex_cmdword (o : BitVec 3) (page : BitVec 2) (i : Index) : cmdIndex (cmdword o page i) = i := by
  rw [cmdIndex, cmdword_eq, getField_index_command]
  exact BitVec.setWidth_setWidth_of_le i (by decide)

/-- A command that the controller issues is one that the device has a meaning for (U5 to U7). -/
theorem Running.issue_sound {s : State} {op : Op} (h : Running s op) {o : BitVec 3} {page : BitVec 2} {i : Index}
    (hn : s.seqStep = (phaseFront s op s.phase).length + 1) (hi : Issues s op s.phase o page i) :
    Sound ((Access.issue o page i).written s) := by
  have hb : s.busy = false := h.position.idle.resolve_left (by omega)
  have ho : o ≠ 6 ∧ o ≠ 7 := by
    rcases hi.opcode with rfl | rfl | rfl | rfl | rfl <;> decide
  have hselect : page = 2 → actionContext s.ext = true := fun h2 => by
    refine h.position.selected ?_
    rw [accessList_eq h.op_eq, hn, List.take_append_of_le_length (by simp), List.take_of_length_le (by simp)]
    exact List.mem_cons_of_mem _ (hi.selected h2)
  refine ⟨State.sized_congr rfl rfl rfl rfl rfl h.sound.sized,
    writeReg_latchOk (writeReg_issue s o page i hb ho fun _ => hi.hasPage) h.sound.latch, ?_⟩
  have hpage : ¬page = 2 ∨ actionContext s.ext = true := not_or_of_imp hselect
  have hhas : s.conf.hasPage page = true := (s.cfg.hasPage_eq page).2 hi.hasPage
  change s.deviceCan ⟨o, page, i⟩ = true
  rcases hi.inTable with rfl | hr
  · rfl
  · rcases hi.opcode with rfl | rfl | rfl | rfl | rfl <;>
      simp [State.deviceCan, hr, hhas, show ¬page = 2#2 ∨ _ from hpage, opNop, opFlushAll, opFlushEntry, opLoad, opGetNext, opRead]

/-- After a command the operation waits in its next phase. -/
theorem Running.issue_after {s : State} {op : Op} (h : Running s op) {o : BitVec 3} {page : BitVec 2} {i : Index}
    (hn : s.seqStep = (phaseFront s op s.phase).length + 1) (hi : Issues s op s.phase o page i) :
    After 1 s op ((Access.issue o page i).written s).issued := by
  have hsound := h.issue_sound hn hi
  refine .goes ⟨hsound.congr rfl (State.sized_congr rfl rfl rfl rfl rfl hsound.sized) rfl rfl rfl, h.op_eq, h.owner,
    nofun, ?_⟩ ⟨rfl, rfl, rfl, rfl, rfl⟩ ?_
  · refine ⟨?_, hi.more, h.position.valid, ?_, .inl rfl, ?_, s.cfg.poll_pos, fun hs hp => ?_, fun hs => ?_⟩
    · rw [accessList_eq (s := ((Access.issue o page i).written s).issued) h.op_eq]
      exact Nat.zero_lt_succ _
    · simp
    · simp
    · have hp0 : s.phase = 0 := Nat.succ_injective hp
      have hr : s.conf.inRange i = true := by
        refine hi.inTable.resolve_left fun h1 => ?_
        rw [hi.answer hs hp0] at h1
        exact absurd h1 (by decide)
      exact (cmdIndex_cmdword o page i).symm ▸ hr
    · by_cases hp : s.phase = 0
      · exact .inr (.inl ⟨by simp [Access.written, hp], Nat.zero_lt_two⟩)
      · exact .inr (.inr (h.hwIndex_at_issue hn hs hp))
  · have hlen : s.seqStep ≤ op.bodyLen s.conf s.phase := by
      have hin := h.position.inList
      rw [accessList, h.op_eq, List.length_cons] at hin
      exact (Nat.lt_succ_iff.1 hin).trans (phaseBody_length_le h.sound.sized op s.phase)
    have hleft : op.commands - s.phase = (op.commands - (s.phase + 1)) + 1 := by
      have := hi.more
      omega
    have hne : s.seqStep ≠ 0 := by omega
    have hafter : remaining ((Access.issue o page i).written s).issued op =
        op.work s.conf (op.commands - s.phase) (s.phase + 1) := by
      rw [hleft, Op.work]
      rfl
    rw [hafter, remaining, if_neg hne]
    omega

/-- Whether or not its answer is lost, the write of an access leaves the block sound (R65). -/
theorem Running.written_sound {s : State} {op : Op} (h : Running s op) {a : Access}
    (ha : (accessList s)[s.seqStep]? = some a) : Sound (a.written s) := by
  rcases accessList_cases h.op_eq ha with ⟨-, rfl⟩ | ⟨m, hm, hf⟩ | ⟨hn, hi⟩
  · exact h.sound
  · have hb : s.busy = false := h.position.idle.resolve_left (by omega)
    cases inFront_of_getElem? h.sound.sized hf with
    | select => exact h.sound.of_idle hb (State.sized_congr rfl rfl rfl rfl rfl h.sound.sized) rfl rfl
    | write hk =>
      exact h.sound.of_idle hb (State.sized_congr (s := s) rfl List.length_set rfl rfl rfl h.sound.sized) rfl rfl
    | read | readCmd | readKey => exact h.sound
  · obtain ⟨o, page, i, rfl, hissue⟩ := h.issues hn hi
    exact h.issue_sound hn hissue

theorem Access.written_touched (a : Access) (s : State) (ha : ∀ o page i, a ≠ .issue o page i) :
    Touched s (a.written s) := by
  cases a with
  | issue o page i => exact absurd rfl (ha o page i)
  | _ => exact ⟨⟨rfl, rfl, rfl, rfl, rfl⟩, rfl, rfl, rfl, rfl, rfl, rfl⟩

theorem Access.written_parties (a : Access) (s : State) : SameParties s (a.written s) := by
  cases a <;> exact ⟨rfl, rfl, rfl, rfl, rfl⟩

/-- A poll ends the wait, or counts towards its end (R25, R233). -/
theorem Running.poll_after {s : State} {op : Op} (h : Running s op) (hn : s.seqStep = 0)
    (ha : (accessList s)[s.seqStep]? = some .poll) :
    ∃ t, runAccess .poll .ok s = .next t ∧ After 1 s op t := by
  cases hb : s.busy with
  | false =>
    rw [runAccess_poll_idle hb]
    exact h.advance_same_after ha ⟨⟨rfl, rfl, rfl, rfl, rfl⟩, rfl, rfl, rfl, rfl, rfl, rfl⟩
      (h.sound.congr rfl (State.sized_congr rfl rfl rfl rfl rfl h.sound.sized) rfl rfl rfl) hb rfl rfl id nofun nofun
  | true =>
    have hsound : Sound { s with pollCnt := s.pollCnt + 1 } :=
      h.sound.congr rfl (State.sized_congr rfl rfl rfl rfl rfl h.sound.sized) rfl rfl rfl
    rw [runAccess_poll_busy hb]
    split
    · exact ⟨_, rfl, .delivers _ hsound ⟨rfl, rfl, rfl, rfl, rfl⟩ (h.one_le _)⟩
    · rename_i hlt
      refine ⟨_, rfl, .goes ⟨hsound, h.op_eq, h.owner, h.fsm, ?_⟩ ⟨rfl, rfl, rfl, rfl, rfl⟩ ?_⟩
      · exact { h.position with polls := not_le.1 hlt }
      · have hless : s.conf.pollLimit - (s.pollCnt + 1) < s.conf.pollLimit - s.pollCnt := by omega
        simp only [remaining, if_pos hn]
        exact Nat.add_lt_add_right (Nat.add_lt_add_right hless _) _

/-- The reading of the answer's index, which alone changes what the access list holds (R238). -/
theorem Running.readCmd_after {s : State} {op : Op} (h : Running s op) (hs : op.searches = true) (hp : s.phase = 1)
    (hn : s.seqStep = 1) (hb : s.busy = false) :
    ∃ t, runAccess .readCmd .ok s = .next t ∧ After 1 s op t := by
  rw [runAccess_readCmd]
  refine h.advance_after (u := { s with hwIndex := cmdIndex s.cmd }) ⟨⟨rfl, rfl, rfl, rfl, rfl⟩, rfl, rfl, rfl, rfl, rfl, rfl⟩
    (h.sound.congr rfl (State.sized_congr rfl rfl rfl rfl rfl h.sound.sized) rfl rfl rfl) hb
    (h.fsm_awaiting (by omega)) (fun hmem => ?_) fun _ => .inr (.inr (h.position.answer hs hp))
  rw [accessList_eq (s := { s with hwIndex := cmdIndex s.cmd }) h.op_eq, hn] at hmem
  simp [hp, phaseFront_one _ hs] at hmem

/-- Every access of a running operation leads on or ends it, whatever the transport answers. -/
theorem Running.ctlStep {s : State} {op : Op} (h : Running s op) (ans : Answer) :
    ∃ t, ctlStep ans s = .next t ∧ After 1 s op t := by
  obtain ⟨a, ha⟩ : ∃ a, (accessList s)[s.seqStep]? = some a := ⟨_, List.getElem?_eq_getElem h.position.inList⟩
  have hmake := h.makeable ha
  have hwritten := h.written_sound ha
  rw [ctlStep_eq ans ha]
  cases ans with
  | lost e => exact ⟨_, runAccess_lost a e s, .delivers _ h.sound (.refl s) (h.one_le _)⟩
  | landed e => exact ⟨_, runAccess_landed hmake e, .delivers _ hwritten (a.written_parties s) (h.one_le _)⟩
  | ok =>
    rcases accessList_cases h.op_eq ha with ⟨hn, rfl⟩ | ⟨m, hm, hf⟩ | ⟨hn, hi⟩
    · exact h.poll_after hn ha
    · have hb : s.busy = false := h.position.idle.resolve_left (by omega)
      have hfsm : s.fsm = .awaitingBusy := h.fsm_awaiting (by omega)
      have hwith : ∀ {e : Entry}, e.wf s.conf = true → Sound { s with e1 := e } := fun he =>
        h.sound.congr rfl (State.sized_of_e1 h.sound.sized rfl rfl rfl he rfl) rfl rfl rfl
      have hgo : ∀ {u : State}, Touched s u → Sound u → u.fsm = .awaitingBusy → u.hwIndex = s.hwIndex →
          u.ext = s.ext → a ≠ .select → a ≠ .readCmd → ∃ t, advance u = .next t ∧ After 1 s op t :=
        fun ht hu hf hw he h1 h2 =>
          h.advance_same_after ha ht hu hb hf hw (fun hc => he ▸ hc) (fun hc => absurd hc h1) h2
      cases inFront_of_getElem? h.sound.sized hf with
      | select =>
        rw [runAccess_select hb]
        exact h.advance_same_after ha (Access.written_touched _ s nofun) hwritten hb hfsm rfl
          (fun _ => actionContext_clear _) (fun _ => actionContext_clear _) nofun
      | write hk =>
        rw [runAccess_write hmake]
        exact hgo (Access.written_touched _ s nofun) hwritten hfsm rfl rfl nofun nofun
      | @read p k hk =>
        rw [runAccess_read hmake]
        obtain ⟨-, -, -, he1, -⟩ := (State.sized_iff s).1 h.sound.sized
        have hput := putPageReg_wf s.conf s.e1 p k (s.data.getD k 0) he1
        rcases afterRead_eq { s with e1 := s.e1.putPageReg s.conf p k (s.data.getD k 0) } p k with ⟨e, he, heq⟩ | heq
        · rw [heq]
          exact hgo ⟨⟨rfl, rfl, rfl, rfl, rfl⟩, rfl, rfl, rfl, rfl, rfl, rfl⟩ (hwith (he hput)) hfsm rfl rfl nofun nofun
        · exact ⟨_, heq, .delivers _ (hwith hput) ⟨rfl, rfl, rfl, rfl, rfl⟩ (h.one_le _)⟩
      | readCmd hs hp hm0 => exact h.readCmd_after hs hp (by omega) hb
      | @readKey k hk hs hp hm0 =>
        rw [runAccess_readKey hmake]
        obtain ⟨k1, k2, k3, heq⟩ := afterKey_eq s k (s.data.getD k 0)
        have hsound : Sound { s with key1 := k1, key2 := k2, key3 := k3 } :=
          h.sound.congr rfl (State.sized_congr rfl rfl rfl rfl rfl h.sound.sized) rfl rfl rfl
        rcases heq with heq | heq
        · rw [heq]
          exact hgo ⟨⟨rfl, rfl, rfl, rfl, rfl⟩, rfl, rfl, rfl, rfl, rfl, rfl⟩ hsound hfsm rfl rfl nofun nofun
        · exact ⟨_, heq, .delivers _ hsound ⟨rfl, rfl, rfl, rfl, rfl⟩ (h.one_le _)⟩
    · obtain ⟨o, page, i, rfl, hissue⟩ := h.issues hn hi
      exact ⟨_, runAccess_issue hmake, h.issue_after hn hissue⟩

end Sys2Proof.Machine

/-! ## The device while an operation is in progress (R211)

In a sound block the device has a meaning for what it has latched, so its step always happens and leaves the operation
where it stands. -/

namespace Sys2Proof.Machine

open Sys2Proof.Claims (accesses)

/-- Clearing `BUSY` leaves the index of the command word (R211). -/
theorem cmdIndex_clear_busy (w : Word) : cmdIndex (setField w 0 busyBits) = cmdIndex w := by
  rw [cmdIndex, cmdIndex, getField_setField_apart _ _ _ _ (.inr (by decide))]

/-- `GET_NEXT` answers in the index of the command word (R216). -/
theorem cmdIndex_setField_index (w : Word) (j : Index) : cmdIndex (setField w (j.setWidth 16) indexBits) = j := by
  rw [cmdIndex, getField_setField_self, and_ones_of_toNat_lt (w := 8) _ (by decide)]
  · exact BitVec.setWidth_setWidth_of_le j (by decide)
  · rw [BitVec.toNat_setWidth_of_le (by decide)]
    exact j.isLt

/-- What a step of the device may change (R211). -/
def State.withDevice (s : State) (cmd : Word) (data : List Word) (table : List Slot) : State :=
  { s with cmd := cmd, data := data, table := table, devCmd := none }

/-- In a sound block the device makes its step: it changes the command register, the bank and the table, empties the
latch, and an index of the table in the command register stays one. -/
theorem Sound.devComplete_next {s : State} (h : Sound s) :
    ∃ cmd data table, devComplete s = .next (s.withDevice cmd data table) ∧
      Sound (s.withDevice cmd data table) ∧
      (s.conf.inRange (cmdIndex s.cmd) = true → s.conf.inRange (cmdIndex cmd) = true) := by
  have hgo : ∀ {cmd data table}, devComplete s = .next (s.withDevice cmd data table) →
      (s.conf.inRange (cmdIndex s.cmd) = true → s.conf.inRange (cmdIndex cmd) = true) →
      ∃ cmd data table, devComplete s = .next (s.withDevice cmd data table) ∧
        Sound (s.withDevice cmd data table) ∧
        (s.conf.inRange (cmdIndex s.cmd) = true → s.conf.inRange (cmdIndex cmd) = true) := fun heq hi =>
    ⟨_, _, _, heq, ⟨(devComplete_keeps heq).2 h.sized, devComplete_latchOk heq h.latch, rfl⟩, hi⟩
  have hclear : s.conf.inRange (cmdIndex s.cmd) = true →
      s.conf.inRange (cmdIndex (setField s.cmd 0 busyBits)) = true := fun hi => (cmdIndex_clear_busy _).symm ▸ hi
  have hcan := h.command
  cases hd : s.devCmd with
  | none =>
    refine hgo (cmd := s.cmd) (data := s.data) (table := s.table) ?_ id
    have hself : s.withDevice s.cmd s.data s.table = s := by rw [State.withDevice, ← hd]
    rw [devComplete, hd, hself]
  | some d =>
    obtain ⟨o, page, i⟩ := d
    simp only [State.commandOk, hd, State.deviceCan] at hcan
    have hpage : (s.conf.inRange i && s.conf.hasPage page && (page != 2 || actionContext s.ext)) = true →
        s.conf.inRange i = true ∧ page ≠ 3 ∧ (page = 2 → s.ext &&& 3 = 0) := by
      simp only [Bool.and_eq_true, and_assoc]
      rintro ⟨hi, hp, hc⟩
      refine ⟨hi, (s.cfg.hasPage_eq page).1 hp, fun h2 => (actionContext_iff _).1 ?_⟩
      simpa [h2] using hc
    rw [devComplete, hd] at hgo ⊢
    dsimp only at hgo ⊢
    split at hcan
    · rename_i ho
      rcases ho with rfl | rfl
      · exact hgo rfl hclear
      · exact hgo rfl hclear
    split at hcan
    · rename_i ho
      rcases ho with rfl | rfl
      · exact hgo (if_pos hcan) hclear
      · refine hgo (if_pos hcan) fun hi => ?_
        rw [cmdIndex_clear_busy, cmdIndex_setField_index]
        exact nextValid_inRange s hcan
    split at hcan
    · rename_i ho
      obtain ⟨hi, hp, hc⟩ := hpage hcan
      rcases ho with rfl | rfl
      · exact hgo (pageAccess_ok _ hi hp hc) hclear
      · exact hgo (pageAccess_ok _ hi hp hc) hclear
    · cases hcan

/-- The device's step leaves a running operation where it stands. -/
theorem Running.devComplete_next {s : State} {op : Op} (h : Running s op) :
    ∃ cmd data table, devComplete s = .next (s.withDevice cmd data table) ∧
      Running (s.withDevice cmd data table) op := by
  obtain ⟨cmd, data, table, heq, hsound, hindex⟩ := h.sound.devComplete_next
  refine ⟨cmd, data, table, heq, hsound, h.op_eq, h.owner, h.fsm, ?_⟩
  exact { h.position with
    idle := .inr ((busy_eq_false_iff hsound.latch).2 rfl)
    answer := fun hs hp => hindex (h.position.answer hs hp) }

theorem Running.device {s : State} {op : Op} (h : Running s op) : ∃ t, devComplete s = .next t ∧ After 0 s op t := by
  obtain ⟨cmd, data, table, heq, hrun⟩ := h.devComplete_next
  exact ⟨_, heq, .goes hrun ⟨rfl, rfl, rfl, rfl, rfl⟩ le_rfl⟩

end Sys2Proof.Machine

/-! ## Runs of moves of a running operation (R250, R251, R352) -/

namespace Sys2Proof.Machine

open Sys2Proof.Claims (accesses)

theorem accesses_cons (m : Move) (ms : List Move) : accesses (m :: ms) = accesses [m] + accesses ms := by
  rw [accesses, List.filter_cons]
  cases m <;> simp [accesses, Nat.add_comm]

theorem Running.applyMove {s : State} {op : Op} (h : Running s op) (m : Move) :
    ∃ t, applyMove m s = .next t ∧ After (accesses [m]) s op t := by
  cases m with
  | device => exact h.device
  | access ans => exact h.ctlStep ans
  | request k => exact ⟨s, rfl, .goes h (.refl s) le_rfl⟩
  | submit q => exact ⟨s, rfl, .goes h (.refl s) le_rfl⟩

/-- An operation that went on with `n` accesses and then did what `m` more lead to has done what `n + m` lead to. -/
theorem After.after {n m : Nat} {s u t : State} {op : Op} (hs : SameParties s u)
    (hless : remaining u op + n ≤ remaining s op) (h : After m u op t) : After (n + m) s op t := by
  cases h with
  | goes run same less => exact .goes run (hs.trans same) (by omega)
  | delivers r sound same used => exact .delivers r sound (hs.trans same) (by omega)
  | cascades i j hop sound same used => exact .cascades i j hop sound (hs.trans same) (by omega)

/-- A running operation uses the moves it is given until it ends, whatever they are. -/
theorem Running.runMoves {s : State} {op : Op} (h : Running s op) (ms : List Move) (hs : s.sched = []) :
    ∃ t, runMoves ms s = .next t ∧ After (accesses ms) s op t := by
  induction ms generalizing s with
  | nil => exact ⟨s, rfl, .goes h (.refl s) le_rfl⟩
  | cons m ms ih =>
    obtain ⟨u, hu, hafter⟩ := h.applyMove m
    have husched : u.sched = [] := (applyMove_sched hu).trans hs
    rw [runMoves_cons _ _ _ h.owner, hu, andThen_next, accesses_cons]
    cases hafter with
    | goes run same less =>
      obtain ⟨t, ht, hafter⟩ := ih run husched
      exact ⟨t, ht, hafter.after same less⟩
    | @delivers v r sound same used =>
      refine ⟨_, runMoves_idle _ ms rfl husched, ?_⟩
      have hnone : v.sched = [] := husched
      rw [hnone] at used
      exact .delivers (u := { v with sched := ms }) r
        (sound.congr rfl (State.sized_congr rfl rfl rfl rfl rfl sound.sized) rfl rfl rfl) ⟨same.1, same.2, same.3, same.4, same.5⟩
        (Nat.add_le_add_right used _)
    | @cascades v i j hop sound same used =>
      refine ⟨_, runMoves_idle _ ms rfl husched, ?_⟩
      have hnone : v.sched = [] := husched
      rw [hnone] at used
      exact .cascades (u := { v with sched := ms }) i j hop
        (sound.congr rfl (State.sized_congr rfl rfl rfl rfl rfl sound.sized) rfl rfl rfl) ⟨same.1, same.2, same.3, same.4, same.5⟩
        (Nat.add_le_add_right used _)

/-- The moves that are decided are no part of what an operation does. -/
theorem Sound.withSched {s : State} (h : Sound s) (ms : List Move) : Sound { s with sched := ms } :=
  h.congr rfl (State.sized_congr rfl rfl rfl rfl rfl h.sized) rfl rfl rfl

theorem Running.withSched {s : State} {op : Op} (h : Running s op) (ms : List Move) :
    Running { s with sched := ms } op :=
  ⟨h.sound.withSched ms, h.op_eq, h.owner, h.fsm, { h.position with }⟩

/-- An operation goes on with the moves that are decided. -/
theorem Running.goOn {s : State} {op : Op} (h : Running s op) :
    ∃ t, goOn s = .next t ∧ After (accesses s.sched) s op t := by
  obtain ⟨t, ht, hafter⟩ := (h.withSched []).runMoves s.sched rfl
  have hsame : After (0 + accesses s.sched) s op t :=
    After.after (u := { s with sched := [] }) ⟨rfl, rfl, rfl, rfl, rfl⟩ le_rfl hafter
  exact ⟨t, ht, Nat.zero_add (accesses s.sched) ▸ hsame⟩

/-! ### Taking the lock -/

/-- The state in which an operation starts: the lock taken, the buffers staged (R230, R242, R285). -/
def State.started (s : State) (op : Op) (e1 e2 : Entry) : State := { s.acquire op with e1 := e1, e2 := e2 }

/-- What `Acquire` leaves is the start of the operation. -/
theorem Sound.started {s : State} (h : Sound s) {op : Op} {e1 e2 : Entry} (hv : op.valid s.conf = true)
    (h1 : e1.wf s.conf = true) (h2 : e2.wf s.conf = true) : Running (s.started op e1 e2) op := by
  have hsized : (s.started op e1 e2).sized = true := by
    obtain ⟨hd, ht, hts, -, -⟩ := (State.sized_iff s).1 h.sized
    exact (State.sized_iff _).2 ⟨hd, ht, hts, h1, h2⟩
  refine ⟨h.congr rfl hsized rfl rfl rfl, rfl, nofun, nofun, ?_, Nat.zero_le _, hv, ?_, .inl rfl, ?_, s.cfg.poll_pos,
    nofun, fun _ => .inl rfl⟩
  · rw [accessList_eq (s := s.started op e1 e2) rfl]
    exact Nat.zero_lt_succ _
  · simp [State.started]
  · simp [State.started]

/-- Who asks, waits and is half done with an `AdvConfig` is the same when the lock is taken. -/
structure StartOf (s u : State) : Prop where
  cfg : u.cfg = s.cfg
  lockOwner : u.lockOwner = some s.caller
  caller : u.caller = s.caller
  requests : u.requests = s.requests
  cascaded : u.cascaded = s.cascaded

theorem startOf_started (s : State) (op : Op) (e1 e2 : Entry) : StartOf s (s.started op e1 e2) :=
  ⟨rfl, rfl, rfl, rfl, rfl⟩

/-- A request that passes validation has no effect, or its operation, in progress or just started, goes on (R230). -/
theorem Operating.perform {s : State} (h : Operating s) {op : Op} {stage : State → State} {e1 e2 : Entry}
    (hv : op.valid s.conf = true) (h1 : e1.wf s.conf = true) (h2 : e2.wf s.conf = true)
    (hstage : stage (s.acquire op) = s.started op e1 e2) :
    ∃ t, perform op stage s = .next t ∧
      (t = s ∨ ∃ u, Running u op ∧ StartOf s u ∧ After (accesses s.sched) u op t) := by
  rw [Machine.perform]
  split
  · rename_i hown
    split
    · rename_i hop
      rcases h with h | ⟨op', h⟩
      · cases h.owner.symm.trans hown
      · cases h.op_eq.symm.trans hop
        obtain ⟨t, ht, hafter⟩ := h.goOn
        exact ⟨t, ht, .inr ⟨s, h, ⟨rfl, hown, rfl, rfl, rfl⟩, hafter⟩⟩
    · exact ⟨s, rfl, .inl rfl⟩
  split
  · have hsound : Sound s := by
      rcases h with h | ⟨op', h⟩
      · exact h.sound
      · exact h.sound
    have hrun := hsound.started hv h1 h2
    obtain ⟨t, ht, hafter⟩ := hrun.goOn
    exact ⟨t, hstage ▸ ht, .inr ⟨_, hrun, startOf_started s op e1 e2, hafter⟩⟩
  · exact ⟨s, rfl, .inl rfl⟩

end Sys2Proof.Machine

/-! ## What a requester presents (R20, R116, R230, R232) -/

namespace Sys2Proof.Machine

/-- What a request stages once it has the lock: `E1` for a `LoadEntry` (R242). -/
def stageOf : Instr → State → State
  | .loadEntry _ _ (some e) => fun t => { t with e1 := e }
  | _ => id

section

variable {i : Instr} {op : Op} {s : State}

/-- A request that passes validation is performed. -/
theorem exec_of_valid (hop : opOf i = some op) (hv : op.valid s.conf = true) :
    exec i s = perform op (stageOf i) s := by
  cases i with
  | flushAll => cases hop; rfl
  | loadEntry port index entry =>
    cases entry with
    | none => cases hop
    | some e => cases hop; exact if_pos hv
  | flushEntry | readEntry | getNextEntry | findEntry | addPort | removePort => cases hop; exact if_pos hv
  | _ => cases hop

/-- A request that does not pass validation is turned away. -/
theorem exec_of_not_valid (hop : opOf i = some op) (hv : op.valid s.conf = false) : exec i s = reject s := by
  have hnot : ¬ op.valid s.conf = true := by simp [hv]
  cases i with
  | flushAll => cases hop; cases hv
  | loadEntry port index entry =>
    cases entry with
    | none => cases hop
    | some e => cases hop; exact if_neg hnot
  | flushEntry | readEntry | getNextEntry | findEntry | addPort | removePort => cases hop; exact if_neg hnot
  | _ => cases hop

/-- The operation of a request runs for that request (R116). -/
theorem instrRuns_of_opOf (hop : opOf i = some op) : instrRuns i op = true := by
  cases i with
  | loadEntry port index entry =>
    cases entry with
    | none => cases hop
    | some e => cases hop; simp [instrRuns]
  | flushAll | flushEntry | readEntry | getNextEntry | findEntry | addPort | removePort => cases hop; simp [instrRuns]
  | _ => cases hop

theorem accepted_iff {c : Cfg} : accepted c i = true ↔ ∃ op, opOf i = some op ∧ op.valid c = true := by
  rw [accepted]
  cases opOf i <;> simp

/-- What a request stages is well formed when its operands are. -/
theorem stageOf_started (op : Op) (hwf : i.wf s.conf = true) (hs : s.sized = true) :
    ∃ e, e.wf s.conf = true ∧ stageOf i (s.acquire op) = s.started op e s.e2 := by
  obtain ⟨-, -, -, he1, -⟩ := (State.sized_iff s).1 hs
  cases i with
  | loadEntry port index entry =>
    cases entry with
    | none => exact ⟨s.e1, he1, rfl⟩
    | some e => exact ⟨e, hwf, rfl⟩
  | _ => exact ⟨s.e1, he1, rfl⟩

end

/-- What an instruction of a requester does: a function answers or refuses an operand outside its domain, the block's
registers are out of reach, and a request is turned away, performed, or one or two tenures of an `AdvConfig`. -/
inductive AtPort (i : Instr) (s : State) : Prop
  | answers (hi : isFunction i = true) (v : FnValue) (h : exec i s = .next (s.answer v))
  | refuses (r : Refusal) (hr : r.ofOperand = true) (h : exec i s = .refused r)
  | raw (hi : (encode i).fmt = .cmd ∨ (encode i).fmt = .ext) (r : Refusal) (h : exec i s = .refused r)
  | rejects (h : exec i s = reject s)
  | performs (op : Op) (hop : opOf i = some op) (hv : op.valid s.conf = true) (h : exec i s = perform op (stageOf i) s)
  | tenures (port : BitVec 4) (index index2 : Index) (r : Rule) (es : List Entry)
      (hi : i = .advConfig port index index2 (some r)) (hv : advValid s.conf index index2 r = true)
      (hes : compileRule s.conf r index2 = some es) (h : exec i s = advTenures index index2 es s)

/-- Every instruction that a requester presents is one of those. -/
theorem atPort (i : Instr) {s : State} (ht : s.turn = .port) : AtPort i s := by
  have hreq : ∀ {op}, opOf i = some op → AtPort i s := fun {op} hop => by
    cases hv : op.valid s.conf with
    | true => exact .performs op hop hv (exec_of_valid hop hv)
    | false => exact .rejects (exec_of_not_valid hop hv)
  have hreg : ∀ (write : Out), registerWrite s write = .refused .rawAccess := fun write =>
    if_neg fun hc => by cases ht.symm.trans hc.1
  have hcmd : ∀ {op page rsvd index effect}, commandWord op page rsvd index effect s = .refused .rawAccess := by
    intro op page rsvd index effect
    rw [commandWord, if_neg (by simp [ht])]
    exact hreg _
  cases i with
  | cmdStore => exact .raw (.inl rfl) _ (hreg _)
  | extSelect => exact .raw (.inr rfl) _ (hreg _)
  | nop | flushAllCmd | flushEntryCmd | loadCmd | getNextCmd | readCmd =>
    refine .raw (.inl rfl) .rawAccess ?_
    simp only [exec, execNop, execFlushAllCmd, execFlushEntryCmd, execLoadCmd, execGetNextCmd, execReadCmd]
    exact hcmd
  | cmdReserved6 | cmdReserved7 => exact .raw (.inl rfl) _ rfl
  | loadEntry port index entry =>
    cases entry with
    | none => exact .rejects rfl
    | some e => exact hreq rfl
  | flushAll | flushEntry | readEntry | getNextEntry | findEntry | addPort | removePort => exact hreq rfl
  | advConfig port index index2 rule =>
    cases rule with
    | none => exact .rejects rfl
    | some r =>
      cases hv : advValid s.conf index index2 r with
      | false => exact .rejects (if_neg (by simp [hv]))
      | true =>
        have hexec : exec (.advConfig port index index2 (some r)) s =
            match compileRule s.conf r index2 with
            | some es => advTenures index index2 es s
            | none => reject s := if_pos hv
        cases hes : compileRule s.conf r index2 with
        | none => exact .rejects (by rw [hexec, hes])
        | some es => exact .tenures port index index2 r es rfl hv hes (by rw [hexec, hes])
  | reqReserved0 | reqReservedA | reqReservedB | reqReservedC | reqReservedD | reqReservedE | reqReservedF =>
    exact .rejects rfl
  | setField word value offset width =>
    by_cases hfit : offset.toNat + width.toNat ≤ 16
    · exact .answers rfl _ (exec_setField_of_fits word value s hfit)
    · exact .refuses .codecPrecondition rfl (dif_neg hfit)
  | getField word offset width =>
    by_cases hfit : offset.toNat + width.toNat ≤ 16
    · exact .answers rfl _ (exec_getField_of_fits word s hfit)
    · exact .refuses .codecPrecondition rfl (dif_neg hfit)
  | pageImage e page =>
    by_cases hpage : s.conf.hasPage page = true
    · exact .answers rfl _ (if_pos hpage)
    · exact .refuses .noSuchPage rfl (if_neg hpage)
  | compile r j =>
    refine .answers rfl ((compileRule s.conf r j).elim .invalidArgument .entries) ?_
    simp only [exec, execCompile]
    cases compileRule s.conf r j <;> rfl
  | mapIPv4 | mapIPv6 | mapTCPv4 | mapUDPv4 | mapTCPv6 | mapUDPv6 | shapeUnsupported | needsSecondSlot | decode
  | mapPrefix | place | encodeKey | encodeActions | entryOfPages | link | isSecondSlotUsed | modifyPort | cmdword =>
    exact .answers rfl _ rfl

end Sys2Proof.Machine

/-! ### The tenures of an `AdvConfig` (R285) -/

namespace Sys2Proof.Machine

/-- A rule of a supported shape compiles to one well-formed entry, or to two of them. -/
theorem compileRule_cases (c : Cfg.Checked) {r : Rule} {j : Index} {es : List Entry}
    (h : compileRule c.val r j = some es) :
    (∃ a, es = [a] ∧ a.wf c.val = true) ∨
      ∃ a b, es = [a, b] ∧ a.wf c.val = true ∧ b.wf c.val = true ∧ r.needsSecond = true := by
  have hwf := compileRule_wf c r j es h
  rw [compileRule] at h
  split at h
  · split at h
    · rename_i hsecond
      cases h
      exact .inr ⟨_, _, rfl, hwf _ (by simp), hwf _ (by simp), (Bool.and_eq_true_iff.1 hsecond).1⟩
    · cases h
      exact .inl ⟨_, rfl, hwf _ (by simp)⟩
  · cases h

/-- What validation of an `AdvConfig` says of its operands (R285). -/
theorem advValid_iff {c : Cfg} {i j : Index} {r : Rule} :
    advValid c i j r = true ↔
      r.supported = true ∧ c.inRange i = true ∧ (r.needsSecond = true → c.inRange j = true ∧ j ≠ i) := by
  rw [advValid, Bool.and_eq_true, Bool.and_eq_true, and_assoc]
  cases r.needsSecond <;> simp

section

variable {i j : Index} {a b : Entry} {s : State}

theorem advTenures_one : advTenures i j [a] s = perform (.advMain i j false) (fun t => { t with e1 := a }) s := rfl

theorem advTenures_main (hc : s.caller ∈ s.cascaded) :
    advTenures i j [a, b] s = perform (.advMain i j true) (fun t => { t with e1 := a, e2 := b }) s :=
  if_pos (List.contains_iff_mem.2 hc)

/-- What follows the first tenure: the second one, when the first is done and further moves are decided. -/
def secondTenure (i j : Index) (a b : Entry) (t : State) : Out :=
  if t.cascaded.contains t.caller && t.lockOwner == none && !t.sched.isEmpty then
    perform (.advMain i j true) (fun u => { u with e1 := a, e2 := b }) t
  else .next t

theorem advTenures_cascade (hc : s.caller ∉ s.cascaded) :
    advTenures i j [a, b] s =
      andThen (perform (.advCascade i j) (fun t => { t with e1 := a, e2 := b }) s) (secondTenure i j a b) :=
  if_neg (mt List.contains_iff_mem.1 hc)

theorem secondTenure_of_done {t : State} (hc : t.caller ∈ t.cascaded) (hl : t.lockOwner = none) (hm : t.sched ≠ []) :
    secondTenure i j a b t = perform (.advMain i j true) (fun u => { u with e1 := a, e2 := b }) t := by
  refine if_pos ?_
  simp [hc, hl, hm]

theorem secondTenure_of_not_done {t : State} (h : t.caller ∈ t.cascaded → t.lockOwner = none → t.sched = []) :
    secondTenure i j a b t = .next t := by
  refine if_neg fun hc => ?_
  simp only [Bool.and_eq_true, List.contains_iff_mem, beq_iff_eq, Bool.not_eq_true', List.isEmpty_eq_false_iff] at hc
  exact hc.2 (h hc.1.1 hc.1.2)

end

end Sys2Proof.Machine

/-! ## The words of the block's registers, decoded (R66, R91, R210, R211) -/

namespace Sys2Proof.Machine

theorem op_cases (op : BitVec 3) :
    op = 0 ∨ op = 1 ∨ op = 2 ∨ op = 3 ∨ op = 4 ∨ op = 5 ∨ op = 6 ∨ op = 7 := by
  revert op
  decide

/-- The effect of a command in the device (R211 to R218). -/
def commandEffect (d : DevCmd) (s : State) : Out :=
  if d.op = opNop then devNop s
  else if d.op = opFlushAll then devFlushAll s
  else if d.op = opFlushEntry then devFlushEntry s d.index
  else if d.op = opLoad then devLoad s d.page d.index
  else if d.op = opGetNext then devGetNext s d.index
  else if d.op = opRead then devRead s d.page d.index
  else .refused .reservedOpcode

theorem devComplete_of_latched {s : State} {d : DevCmd} (h : s.devCmd = some d) :
    devComplete s = commandEffect d s := by
  rw [devComplete, h]
  rfl

section

variable {op : BitVec 3} {page rsvd : BitVec 2} {index : Index} {s : State}

/-- A command word of the six opcodes is decoded to the instruction that carries its effect (R92). -/
theorem exec_decodeCmd (ho : op ≠ 6 ∧ op ≠ 7) :
    exec (decodeCmd (cmdBits 1 op page rsvd index)) s =
      commandWord op page rsvd index (commandEffect ⟨op, page, index⟩) s := by
  have hdecoded : ∀ {i : Instr}, decodeCmd (cmdBits 1 op page rsvd index) = i →
      exec (decodeCmd (cmdBits 1 op page rsvd index)) s = exec i s := fun h => congrArg (exec · s) h
  rcases op_cases op with rfl | rfl | rfl | rfl | rfl | rfl | rfl | rfl
  · exact hdecoded (i := .nop page rsvd index) (by simp [decodeCmd])
  · exact hdecoded (i := .flushAllCmd page rsvd index) (by simp [decodeCmd])
  · exact hdecoded (i := .flushEntryCmd page rsvd index) (by simp [decodeCmd])
  · exact hdecoded (i := .loadCmd page rsvd index) (by simp [decodeCmd])
  · exact hdecoded (i := .getNextCmd page rsvd index) (by simp [decodeCmd])
  · exact hdecoded (i := .readCmd page rsvd index) (by simp [decodeCmd])
  · exact absurd rfl ho.1
  · exact absurd rfl ho.2

/-- Whoever is not the device presents a command word as the write of its bits (R210). -/
theorem exec_decodeCmd_write (ht : s.turn ≠ .device) (ho : op ≠ 6 ∧ op ≠ 7) :
    exec (decodeCmd (cmdBits 1 op page rsvd index)) s = registerWrite s (writeCmd s (cmdBits 1 op page rsvd index)) :=
  (exec_decodeCmd ho).trans (commandWord_write _ ht)

/-- The latched command word is executed as `DevComplete` says (R211). -/
theorem exec_decodeCmd_device (ht : s.turn = .device) (hd : s.devCmd = some ⟨op, page, index⟩) :
    exec (decodeCmd (cmdBits 1 op page rsvd index)) s = devComplete s := by
  rw [devComplete_of_latched hd]
  by_cases ho : op ≠ 6 ∧ op ≠ 7
  · exact (exec_decodeCmd ho).trans (commandWord_device rsvd _ ht hd)
  · have hop : op = 6 ∨ op = 7 := by simpa [or_iff_not_imp_left] using ho
    rcases hop with rfl | rfl
    · exact congrArg (exec · s) (show _ = Instr.cmdReserved6 page rsvd index by simp [decodeCmd])
    · exact congrArg (exec · s) (show _ = Instr.cmdReserved7 page rsvd index by simp [decodeCmd])

end

/-- The device's turn is its step, `DevComplete`, with the decided moves put aside (R20, R211). -/
theorem deviceTurn_eq {s : State} {d : DevCmd} (hd : s.devCmd = some d) :
    deviceTurn s = andThen (devComplete { s with turn := .device, sched := [] }) fun t =>
      .next { t with sched := t.sched ++ s.sched, turn := .port } := by
  have hdecode : decode (latchedPacket s d) =
      .ok (decodeCmd (cmdBits 1 d.op d.page (s.cmd.extractLsb' 8 2) d.index)) := decode_cmd _
  have hexec := exec_decodeCmd_device (rsvd := s.cmd.extractLsb' 8 2) (s := { s with turn := .device, sched := [] })
    rfl hd
  rw [deviceTurn]
  split
  · rename_i hnone
    cases hnone.symm.trans hd
  · rename_i d' hd'
    cases hd'.symm.trans hd
    rw [hdecode]
    exact congrArg (andThen · _) hexec

end Sys2Proof.Machine

/-! ## The writes of the controller (R210, R235, R236) -/

namespace Sys2Proof.Machine

open Sys2Proof.Claims

/-- An access is made only in an operation that is in progress. -/
theorem running_of_inv {s : State} {a : Access} (h : s.inv = true) (ha : (accessList s)[s.seqStep]? = some a) :
    ∃ op, Running s op := by
  rcases ((inv_iff s).1 h).1 with h | h
  · rw [accessList, h.op_eq] at ha
    cases ha
  · exact h

section

variable {page rsvd : BitVec 2} {index : Index} {s : State}

/-- `SelectAction` keeps the reserved bits of the selector and clears the sub-block (R64, R236). -/
theorem setField_subblock_eq_append (w : Word) : setField w 0 subblockBits = w.extractLsb' 2 14 ++ 0#2 := by
  refine word_ext fun b hb => ?_
  rw [setField_getLsbD _ _ _ _ hb, BitVec.getLsbD_append, BitVec.getLsbD_extractLsb']
  by_cases h2 : b < 2
  · simp [h2]
  · have hsum : 2 + (b - 2) = b := by omega
    have hlt : b - 2 < 14 := by omega
    simp [h2, hsum, hlt]

/-- A command word that the controller may write is stored and latched (R210). -/
theorem exec_decodeCmd_controller {op : BitVec 3} (ht : s.turn = .controller) (hl : s.lockOwner ≠ none)
    (hb : s.busy = false) (ho : op ≠ 6 ∧ op ≠ 7) (hp : op = opLoad ∨ op = opRead → page ≠ 3) :
    exec (decodeCmd (cmdBits 1 op page rsvd index)) s =
      .next { s with cmd := 1#1 ++ op ++ page ++ rsvd ++ index, devCmd := some ⟨op, page, index⟩ } := by
  rw [exec_decodeCmd_write (by simp [ht]) ho, registerWrite_controller _ ht hl]
  exact writeCmd_command s op page rsvd index hb ho hp

end

/-- Settles O23: the words are writes that arrive, and the writes of `Issue` and `SelectAction` are the same ones, which a
running operation can always make. -/
theorem writesAtThePortAreStoredAndLatched : Obligations.WritesAtThePortAreStoredAndLatched := by
  refine ⟨fun page rsvd index s ht hl hb => ?_, fun op page index i s hinv ha hdec => ?_, fun s hinv ha => ?_⟩
  · have hword : ∀ {op : BitVec 3} {effect : State → Out}, op ≠ 6 ∧ op ≠ 7 → (op = opLoad ∨ op = opRead → page ≠ 3) →
        commandWord op page rsvd index effect s =
          .next { s with cmd := 1#1 ++ op ++ page ++ rsvd ++ index, devCmd := some ⟨op, page, index⟩ } := by
      intro op effect ho hp
      rw [commandWord_write _ (by simp [ht]), registerWrite_controller _ ht hl]
      exact writeCmd_command s op page rsvd index hb ho hp
    refine ⟨fun op => ?_, ?_, ?_, ?_, fun hp => ?_, ?_, fun hp => ?_, fun r sub => ?_⟩
    · exact (registerWrite_controller _ ht hl).trans (writeCmd_store op page rsvd index hb)
    · exact hword (effect := devNop) (by decide) fun h => absurd h (by decide)
    · exact hword (effect := devFlushAll) (by decide) fun h => absurd h (by decide)
    · exact hword (effect := (devFlushEntry · index)) (by decide) fun h => absurd h (by decide)
    · exact hword (effect := (devLoad · page index)) (by decide) fun _ => hp
    · exact hword (effect := (devGetNext · index)) (by decide) fun h => absurd h (by decide)
    · exact hword (effect := (devRead · page index)) (by decide) fun _ => hp
    · exact (registerWrite_controller _ ht hl).trans (writeExt_idle _ hb)
  · obtain ⟨op', hrun⟩ := running_of_inv hinv ha
    have hmake := hrun.makeable ha
    obtain _ | _ | _ | _ | _ | _ | ⟨hb, ho, hp⟩ := hmake
    have hi : i = decodeCmd (cmdBits 1 op page 0 index) := Except.ok.inj (hdec.symm.trans (decode_cmd _))
    have hexec := exec_decodeCmd_controller (rsvd := 0) (index := index) (s := { s with turn := .controller }) rfl
      hrun.owner hb ho fun _ => hp
    rw [ctlStep_eq _ ha, runAccess_issue (.issue hb ho hp), hi, hexec, andThen_next, Access.written, cmdword_eq]
    rfl
  · obtain ⟨op', hrun⟩ := running_of_inv hinv ha
    obtain _ | hb := hrun.makeable ha
    have hexec : exec (.extSelect (s.ext.extractLsb' 2 14) 0) { s with turn := .controller } =
        .next { s with turn := .controller, ext := s.ext.extractLsb' 2 14 ++ 0#2 } :=
      (registerWrite_controller (s := { s with turn := .controller }) _ rfl hrun.owner).trans
        (writeExt_idle (s := { s with turn := .controller }) _ hb)
    rw [ctlStep_eq _ ha, runAccess_select hb, hexec, andThen_next, ← setField_subblock_eq_append]
    rfl

/-! ## A failing access (R65, R310) -/

/-- Settles O43: a lost access is the abort sequence, and one that landed is it after the access's own write, which a
running operation can always make. -/
theorem aFailedAccessAborts : Obligations.AFailedAccessAborts := by
  intro a err s hinv ha
  obtain ⟨op, hrun⟩ := running_of_inv hinv ha
  have hlanded : ctlStep (.landed err) s = .next (aborted (a.written s) (.transportFailure err)) := by
    rw [ctlStep_eq _ ha, runAccess_landed (hrun.makeable ha)]
    rfl
  refine ⟨?_, fun hw hs hi => ?_, fun hs => ?_, fun k v hw => ?_, fun o p i hi => ?_⟩
  · rw [ctlStep_eq _ ha, runAccess_lost]
    rfl
  · rw [hlanded]
    cases a with
    | write k v => exact absurd rfl (hw k v)
    | select => exact absurd rfl hs
    | issue o p i => exact absurd rfl (hi o p i)
    | _ => rfl
  · subst hs
    rw [hlanded, Access.written, clear_subblock]
    rfl
  · subst hw
    exact hlanded
  · subst hi
    exact hlanded

end Sys2Proof.Machine

/-! ## Requests that are turned away, wait or take the lock (R230, R232, R301) -/

namespace Sys2Proof.Machine

open Sys2Proof.Claims

theorem reject_eq {s : State} (h : s.lockOwner ≠ some s.caller) : reject s = .next (turnedAway s) := if_neg h

theorem exec_advConfig_not_valid {s : State} {port : BitVec 4} {i j : Index} {r : Rule}
    (h : advValid s.conf i j r = false) : exec (.advConfig port i j (some r)) s = reject s :=
  if_neg (by simp [h])

/-- Settles O39: each condition makes validation fail, and a request that fails it is turned away. -/
theorem invalidArgumentTouchesNothing : Obligations.InvalidArgumentTouchesNothing := by
  intro port index s hown
  have hreject : ∀ {i : Instr}, exec i s = reject s → exec i s = .next (turnedAway s) := fun h => h.trans (reject_eq hown)
  have hout : ∀ {i : Index}, ¬ (s.conf.minIndex ≤ i.toNat ∧ i.toNat ≤ s.conf.maxIndex) → s.conf.inRange i = false :=
    fun h => Bool.eq_false_iff.2 (mt (Cfg.inRange_iff _ _).1 h)
  have hadv : ∀ {index2 r}, ¬ advValid s.conf index index2 r = true →
      exec (.advConfig port index index2 (some r)) s = .next (turnedAway s) := fun h =>
    hreject (exec_advConfig_not_valid (Bool.eq_false_iff.2 h))
  refine ⟨fun i hi => ?_, fun index2 => hreject rfl, fun hr => ⟨fun i hi => ?_, fun e => ?_, fun index2 r => ?_⟩,
    fun hp => ⟨?_, ?_⟩, fun index2 r hr => hadv fun h => ?_, fun index2 r hr hj => hadv fun h => ?_, fun low => rfl,
    fun r j hr => ?_⟩
  · simp only [List.mem_cons, List.not_mem_nil, or_false] at hi
    rcases hi with rfl | rfl | rfl | rfl | rfl | rfl | rfl | rfl <;> exact hreject rfl
  · have hin := hout hr
    simp only [List.mem_cons, List.not_mem_nil, or_false] at hi
    rcases hi with rfl | rfl | rfl | rfl | rfl | rfl <;>
      exact hreject (exec_of_not_valid rfl (by simp [Op.valid, hin]))
  · cases e with
    | none => exact hreject rfl
    | some e => exact hreject (exec_of_not_valid rfl (hout hr))
  · cases r with
    | none => exact hreject rfl
    | some r =>
      refine hadv fun h => ?_
      obtain ⟨-, hi, -⟩ := advValid_iff.1 h
      exact hr ((Cfg.inRange_iff _ _).1 hi)
  · exact hreject (exec_of_not_valid rfl (by simp [Op.valid, hp]))
  · exact hreject (exec_of_not_valid rfl (by simp [Op.valid, hp]))
  · cases (advValid_iff.1 h).1.symm.trans hr
  · obtain ⟨hs, -, hsecond⟩ := advValid_iff.1 h
    have hneeds : r.needsSecond = true := by
      by_contra hn
      exact hr ((needsSecond_eq_false_iff hs).1 (Bool.eq_false_iff.2 hn))
    obtain ⟨hin, hne⟩ := hsecond hneeds
    rcases hj with hj | hj
    · exact hj ((Cfg.inRange_iff _ _).1 hin)
    · exact hne hj
  · have hc : compileRule s.conf r j = none := if_neg (by simp [hr])
    simp only [exec, execCompile, hc]
    rfl

/-- A request that passes validation waits, without effect, while another requester holds the lock. -/
theorem perform_waits {s : State} {w : Nat} (op : Op) (stage : State → State) (hw : s.lockOwner = some w)
    (hne : w ≠ s.caller) : perform op stage s = .next s := by
  rw [perform, if_neg (by simpa [hw] using hne), if_neg (by simp [hw])]

theorem advTenures_waits {s : State} {w : Nat} {i j : Index} {es : List Entry} (hw : s.lockOwner = some w)
    (hne : w ≠ s.caller) : (∃ a, es = [a]) ∨ (∃ a b, es = [a, b]) → advTenures i j es s = .next s := by
  rintro (⟨a, rfl⟩ | ⟨a, b, rfl⟩)
  · exact advTenures_one.trans (perform_waits _ _ hw hne)
  · by_cases hc : s.caller ∈ s.cascaded
    · rw [advTenures_main hc, perform_waits _ _ hw hne]
    · rw [advTenures_cascade hc, perform_waits _ _ hw hne, andThen_next, secondTenure_of_not_done]
      intro _ hn
      cases hn.symm.trans hw

/-- A request that passes validation takes the free lock in one step. -/
theorem perform_takes {s : State} (op : Op) (stage : State → State) (hl : s.lockOwner = none) :
    perform op stage s = goOn (stage (s.acquire op)) := by
  rw [perform, if_neg (by simp [hl]), if_pos hl]

theorem goOn_nil {s : State} (h : s.sched = []) : goOn s = .next s := by
  rw [goOn, h, runMoves_nil, ← h]

/-- A rule that passes validation compiles, to one entry or to two. -/
theorem exec_advConfig {s : State} {port : BitVec 4} {i j : Index} {r : Rule} (hv : advValid s.conf i j r = true) :
    ∃ es, compileRule s.conf r j = some es ∧ ((∃ a, es = [a]) ∨ ∃ a b, es = [a, b]) ∧
      exec (.advConfig port i j (some r)) s = advTenures i j es s := by
  obtain ⟨es, hes⟩ : ∃ es, compileRule s.conf r j = some es := by
    rcases compileRule_eq s.cfg j (advValid_iff.1 hv).1 with ⟨-, h⟩ | ⟨-, h⟩
    · exact ⟨_, h⟩
    · exact ⟨_, h⟩
  refine ⟨es, hes, ?_, ?_⟩
  · rcases compileRule_cases s.cfg hes with ⟨a, h, -⟩ | ⟨a, b, h, -⟩
    · exact .inl ⟨a, h⟩
    · exact .inr ⟨a, b, h⟩
  · simp only [exec, execAdvConfig, hv, if_true, hes]

/-- Settles O40: with the lock free and no move decided a request stops right after `Acquire`; with the lock held it does
nothing. -/
theorem acquireTakesTheFreeLockOrWaits : Obligations.AcquireTakesTheFreeLockOrWaits := by
  refine ⟨fun i op s hop hacc => ?_, fun port index index2 r s hv => ?_⟩
  · obtain ⟨op', hop', hvalid⟩ := accepted_iff.1 hacc
    cases hop.symm.trans hop'
    rw [exec_of_valid hop hvalid]
    refine ⟨fun hl hs => ?_, fun w hw hne => perform_waits op _ hw hne⟩
    rw [perform_takes _ _ hl]
    have hsame : stageOf i = id → ∃ e, goOn (stageOf i (s.acquire op)) = .next { acquired s op with e1 := e } ∧
        e = s.e1 := fun h => ⟨s.e1, by rw [h]; exact goOn_nil hs, rfl⟩
    cases i with
    | loadEntry port index entry =>
      cases entry with
      | none => cases hop
      | some e => exact ⟨e, goOn_nil hs, .inl ⟨port, index, rfl⟩⟩
    | _ =>
      obtain ⟨e, h, he⟩ := hsame rfl
      exact ⟨e, h, .inr ⟨he, nofun⟩⟩
  · obtain ⟨es, hes, hshape, hexec⟩ := exec_advConfig (port := port) hv
    rw [hexec]
    refine ⟨fun hl hs => ⟨es, hes, ?_⟩, fun w hw hne => advTenures_waits hw hne hshape⟩
    rcases hshape with ⟨a, rfl⟩ | ⟨a, b, rfl⟩
    · refine .inl ⟨a, rfl, ?_⟩
      rw [advTenures_one, perform_takes _ _ hl]
      exact goOn_nil hs
    · refine .inr ⟨a, b, rfl, ?_⟩
      by_cases hc : s.caller ∈ s.cascaded
      · rw [advTenures_main hc, perform_takes _ _ hl, if_pos hc]
        exact goOn_nil hs
      · have hgo : goOn (s.started (.advCascade index index2) a b) = .next (s.started (.advCascade index index2) a b) :=
          goOn_nil hs
        rw [advTenures_cascade hc, perform_takes _ _ hl, if_neg hc]
        refine (congrArg (andThen · _) hgo).trans ?_
        exact secondTenure_of_not_done fun _ _ => hs

/-- Settles O41: whatever a requester presents is an answer, a refusal, a request turned away, or one that waits. -/
theorem theLockKeepsOthersOut : Obligations.TheLockKeepsOthersOut := by
  intro i w s t hw hne ht h
  cases atPort i ht with
  | answers hi v heq => exact .inr (.inr ⟨v, (Host.Outcome.next.inj (heq.symm.trans h)).symm⟩)
  | refuses r hr heq => cases heq.symm.trans h
  | raw hi r heq => cases heq.symm.trans h
  | rejects heq =>
    rw [reject_eq (by simpa [hw] using hne)] at heq
    exact .inr (.inl (Host.Outcome.next.inj (heq.symm.trans h)).symm)
  | performs op hop hv heq =>
    rw [perform_waits op _ hw hne] at heq
    exact .inl (Host.Outcome.next.inj (heq.symm.trans h)).symm
  | tenures port index index2 r es hi hv hes heq =>
    have hshape : (∃ a, es = [a]) ∨ ∃ a b, es = [a, b] := by
      rcases compileRule_cases s.cfg hes with ⟨a, he, -⟩ | ⟨a, b, he, -⟩
      · exact .inl ⟨a, he⟩
      · exact .inr ⟨a, b, he⟩
    rw [advTenures_waits hw hne hshape] at heq
    exact .inl (Host.Outcome.next.inj (heq.symm.trans h)).symm

end Sys2Proof.Machine

/-! ## What changes leave alone (R24, R41, R330) -/

namespace Sys2Proof.Machine

/-- A register write reaches `CMD` with its latch, `EXT` or `DATA`, and nothing else (R62). -/
theorem writeReg_frame {s t : State} {block off : Nat} {w : Word} (h : writeReg s block off w = .next t) :
    ∃ cmd ext data dev, t = { s with cmd := cmd, ext := ext, data := data, devCmd := dev } := by
  obtain ⟨-, h | rfl | ⟨k, rfl⟩⟩ := writeReg_cases h
  · obtain ⟨-, ⟨-, rfl⟩ | ⟨-, rfl⟩⟩ := writeCmd_cases h
    · exact ⟨_, _, _, _, rfl⟩
    · exact ⟨_, _, _, _, rfl⟩
  · exact ⟨_, _, _, _, rfl⟩
  · exact ⟨_, _, _, _, rfl⟩

/-- A step of the device reaches `CMD` with its latch, `DATA` and the table, and nothing else (R211). -/
theorem devComplete_frame {s t : State} (h : devComplete s = .next t) :
    ∃ cmd data table dev, t = { s with cmd := cmd, data := data, table := table, devCmd := dev } := by
  rcases devComplete_cases h with ⟨-, rfl⟩ | ⟨d, -, h⟩
  · exact ⟨_, _, _, _, rfl⟩
  · rcases h with ⟨-, rfl⟩ | ⟨-, rfl⟩ | ⟨-, -, rfl⟩ | ⟨-, -, -, rfl⟩ | ⟨-, -, rfl⟩ | ⟨-, -, -, rfl⟩ <;>
      exact ⟨_, _, _, _, rfl⟩

/-- What an access touches before the position moves: registers, `E1`, the search, the wait. -/
theorem Touches.frame {s u : State} (h : Touches s u) :
    ∃ fsm polls e1 hw k1 k2 k3 cmd ext data dev, (fsm = s.fsm ∨ fsm = .awaitingBusy) ∧
      u = { s with
        fsm := fsm, pollCnt := polls, e1 := e1, hwIndex := hw, key1 := k1, key2 := k2, key3 := k3, cmd := cmd, ext := ext,
        data := data, devCmd := dev } := by
  cases h with
  | register hw =>
    obtain ⟨cmd, ext, data, dev, rfl⟩ := writeReg_frame hw
    exact ⟨_, _, _, _, _, _, _, _, _, _, _, .inl rfl, rfl⟩
  | waited => exact ⟨_, _, _, _, _, _, _, _, _, _, _, .inr rfl, rfl⟩
  | _ => exact ⟨_, _, _, _, _, _, _, _, _, _, _, .inl rfl, rfl⟩

/-! ### The lock (R24) -/

theorem State.lockOk_congr {s t : State} (hl : t.lockOwner = s.lockOwner) (hf : t.fsm = s.fsm) (ho : t.op = s.op)
    (h : s.lockOk = true) : t.lockOk = true := by
  rw [State.lockOk] at h ⊢
  rwa [hl, hf, ho]

/-- An access is made only while an operation is in progress. -/
theorem op_ne_none_of_ctlStep {s t : State} {ans : Answer} (h : ctlStep ans s = .next t) : s.op ≠ none := by
  intro hop
  rw [ctlStep, accessList, hop] at h
  cases h

/-- Every change keeps the lock and the state machine in step. -/
theorem Change.lockOk {s t : State} (h : Change s t) (hs : s.lockOk = true) : t.lockOk = true := by
  cases h with
  | device h =>
    obtain ⟨_, _, _, _, rfl⟩ := devComplete_frame h
    exact State.lockOk_congr rfl rfl rfl hs
  | written block off w h =>
    obtain ⟨_, _, _, _, rfl⟩ := writeReg_frame h
    exact State.lockOk_congr rfl rfl rfl hs
  | taken => rfl
  | rejected | answered | submitted | noted => exact State.lockOk_congr rfl rfl rfl hs
  | access ans h =>
    obtain ⟨hfsm, hop⟩ := (lockOk_iff s).1 hs
    have hopne := op_ne_none_of_ctlStep h
    have hown : s.lockOwner ≠ none := mt hop.1 hopne
    have hidle : s.fsm ≠ .idle := mt hfsm.2 hown
    obtain ⟨u, hu, ht⟩ := ctlStep_cases h
    obtain ⟨fsm, _, _, _, _, _, _, _, _, _, _, hf, rfl⟩ := hu.frame
    have hbusy : fsm ≠ .idle := by
      rcases hf with rfl | rfl
      · exact hidle
      · nofun
    cases ht with
    | aborts | ends | cascades => rfl
    | stays | moves | issues => exact (lockOk_iff _).2 ⟨by simp [hown, hbusy], by simp [hown, hopne]⟩

/-- Settles O53: every change a step is made of keeps the lock's invariant, which holds after reset. -/
theorem lockOwnerNoneIffIdle : Obligations.LockOwnerNoneIffIdle :=
  ⟨fun s h => ((lockOk_iff s).1 h).1,
    fun _ _ hs h => (step_changes h).keep (P := fun s => s.lockOk = true) Change.lockOk hs, rfl, rfl⟩

/-! ### Reset (R41, R330) -/

/-- Settles O55: the fields of `State.reset`; whatever the other bits of `CMD` hold, `BUSY` is 0. -/
theorem resetIsIdleAndNotBusy : Obligations.ResetIsIdleAndNotBusy :=
  ⟨rfl, rfl, rfl, rfl, (busy_eq_false_iff reset_latchOk).2 rfl, rfl,
    ⟨Config.tb, Config.pollExtra + 1, Config.maskOneIsCompare, rfl, Nat.succ_pos _⟩, reset_sized⟩

/-- Settles O56: after reset the block rests, and nobody waits. -/
theorem theInvariantHoldsAfterReset : Obligations.TheInvariantHoldsAfterReset :=
  ⟨(inv_iff _).2 ⟨.inl ⟨⟨reset_sized, reset_latchOk, rfl⟩, rfl, rfl, rfl⟩, rfl, rfl, rfl⟩, rfl⟩

end Sys2Proof.Machine

/-! ## What a step presents (R20, R352) -/

namespace Sys2Proof.Machine

theorem present_of_wf {s : State} {q : Submission} {i : Instr} (moves : List Move) (hd : decode q.packet = .ok i)
    (hwf : i.wf s.conf = true) :
    present moves q s = andThen (exec i { s with caller := q.who, turn := .port, sched := moves }) fun t =>
      .next { t with sched := t.sched ++ s.sched, turn := .port } := by
  rw [present, hd]
  exact if_pos hwf

theorem dropMove_cfg (s : State) : (dropMove s).cfg = s.cfg := by
  rw [dropMove]
  split <;> rfl

theorem dropMove_requests (s : State) : (dropMove s).requests = s.requests := by
  rw [dropMove]
  split <;> rfl

theorem dropMove_lockOwner (s : State) : (dropMove s).lockOwner = s.lockOwner := by
  rw [dropMove]
  split <;> rfl

theorem dropMove_devCmd (s : State) : (dropMove s).devCmd = s.devCmd := by
  rw [dropMove]
  split <;> rfl

theorem dropMove_conf (s : State) : (dropMove s).conf = s.conf := congrArg Subtype.val (dropMove_cfg s)

/-- A step in which the transport answers the owner's access. -/
theorem step_access {s : State} {w : Nat} {ans : Answer} {q : Submission} (hm : nextMove s = .access ans)
    (hl : s.lockOwner = some w) (hq : s.requests.find? (fun q => q.who == w) = some q) :
    step s = present [.access ans] q (dropMove s) := by
  rw [step, stepOnce, hm]
  simp only [makeMove, dropMove_lockOwner, hl, ownerTurn, dropMove_requests, hq]

/-- A step in which a waiting request gets its turn. -/
theorem step_request {s : State} {k : Nat} {q : Submission} (hm : nextMove s = .request k)
    (hq : s.requests[k % s.requests.length]? = some q) : step s = present [] q (dropMove s) := by
  rw [step, stepOnce, hm]
  simp only [makeMove, presentNth, dropMove_requests, hq]

theorem step_device {s : State} (hm : nextMove s = .device) : step s = deviceTurn (dropMove s) := by
  rw [step, stepOnce, hm]
  rfl

theorem step_submit {s : State} {q : Submission} (hm : nextMove s = .submit q) :
    step s = .next ((dropMove s).submit q) := by
  rw [step, stepOnce, hm]
  rfl

/-- A submission that is refused changes nothing (log entry 23). -/
theorem submit_of_not {s : State} {q : Submission}
    (h : (∃ p ∈ s.requests, p.who = q.who) ∨ isRequest s.conf q.packet = false) : s.submit q = s := by
  rcases submit_cases s q with he | ⟨hnew, hreq, -⟩
  · exact he
  · rcases h with ⟨p, hp, hw⟩ | h
    · exact absurd hw (hnew p hp)
    · cases h.symm.trans hreq

/-- A request whose requester waits for nothing comes last of those that wait (R20 (a)). -/
theorem submit_of_new {s : State} {q : Submission} (hnew : ∀ p ∈ s.requests, p.who ≠ q.who)
    (hreq : isRequest s.conf q.packet = true) : s.submit q = { s with requests := s.requests ++ [q] } := by
  have hall : (s.requests.all (fun p => p.who != q.who) && isRequest s.conf q.packet) = true := by
    rw [hreq, Bool.and_true, List.all_eq_true]
    exact fun p hp => bne_iff_ne.2 (hnew p hp)
  rw [State.submit, if_pos hall]

/-- Settles O52: the four moves, one equation of `step` each. -/
theorem aStepRunsTheDecodedInstruction : Obligations.AStepRunsTheDecodedInstruction := by
  intro i s
  refine ⟨fun w ans q hl hm hq hd hwf => ?_, fun k q hm hq hd hwf => ?_, fun d hdev hm hd => ?_, fun q hm => ⟨?_, ?_⟩⟩
  · rw [step_access hm hl hq]
    exact present_of_wf _ hd (by rwa [dropMove_conf])
  · rw [step_request hm hq]
    exact present_of_wf _ hd (by rwa [dropMove_conf])
  · have hdrop : (dropMove s).devCmd = some d := (dropMove_devCmd s).trans hdev
    have hi : i = decodeCmd (cmdBits 1 d.op d.page (s.cmd.extractLsb' 8 2) d.index) :=
      Except.ok.inj (hd.symm.trans (decode_cmd _))
    have hexec := exec_decodeCmd_device (rsvd := s.cmd.extractLsb' 8 2)
      (s := { dropMove s with turn := .device, sched := [] }) rfl hdrop
    rw [step_device hm, deviceTurn_eq hdrop, hi]
    exact congrArg (andThen · _) hexec.symm
  · intro hnew hcmd hext hd hwf
    have hreq : isRequest (dropMove s).conf q.packet = true := by
      rw [isRequest, hd, dropMove_conf]
      simp [hcmd, hext, hwf]
    rw [step_submit hm, submit_of_new (by rwa [dropMove_requests]) hreq, dropMove_requests]
  · intro h
    rw [step_submit hm, submit_of_not (by rwa [dropMove_requests, dropMove_conf])]

end Sys2Proof.Machine

/-! ## What a run of moves keeps -/

namespace Sys2Proof.Machine

open Sys2Proof.Claims (accesses)

section

variable {P : State → Prop} {s t : State}

/-- What every move keeps, a run of moves keeps; the moves it leaves are among those it was given. -/
theorem runMoves_induct {ms : List Move} (hmove : ∀ m ∈ ms, ∀ u v, u.lockOwner ≠ none → P u → applyMove m u = .next v → P v)
    (hsched : ∀ u ms', ms' ⊆ ms → P u → P { u with sched := ms' }) (h : runMoves ms s = .next t) (hs : P s) : P t := by
  induction ms generalizing s with
  | nil => cases h; exact hs
  | cons m ms ih =>
    rw [runMoves] at h
    split at h
    · cases h
      exact hsched s _ (List.Subset.refl _) hs
    · rename_i hown
      obtain ⟨u, hu, h⟩ := andThen_eq_next h
      exact ih (fun m' hm' => hmove m' (List.mem_cons_of_mem _ hm'))
        (fun u ms' hsub => hsched u ms' (List.subset_cons_of_subset _ hsub)) h
        (hmove m (List.mem_cons_self ..) s u hown hs hu)

theorem goOn_induct (hmove : ∀ m ∈ s.sched, ∀ u v, u.lockOwner ≠ none → P u → applyMove m u = .next v → P v)
    (hsched : ∀ u ms, ms ⊆ s.sched → P u → P { u with sched := ms }) (h : goOn s = .next t) (hs : P s) : P t :=
  runMoves_induct hmove hsched h (hsched s [] (List.nil_subset _) hs)

end

/-- A request that passes validation has no effect, or its operation, in progress or just started, goes on (R230). -/
theorem perform_cases {op : Op} {stage : State → State} {s t : State} {e1 e2 : Entry}
    (hstage : stage (s.acquire op) = s.started op e1 e2) (h : perform op stage s = .next t) :
    t = s ∨ ∃ u, (s.lockOwner = some s.caller ∧ s.op = some op ∧ u = s ∨
      s.lockOwner = none ∧ u = s.started op e1 e2) ∧ goOn u = .next t := by
  rw [perform] at h
  split at h
  · rename_i hown
    split at h
    · rename_i hop
      exact .inr ⟨s, .inl ⟨hown, hop, rfl⟩, h⟩
    · cases h
      exact .inl rfl
  split at h
  · rename_i hfree
    exact .inr ⟨_, .inr ⟨hfree, rfl⟩, hstage ▸ h⟩
  · cases h
    exact .inl rfl

/-- What taking the lock, and every move given, keeps, a request that is performed keeps. -/
theorem perform_induct {P : State → Prop} {op : Op} {stage : State → State} {s t : State} {e1 e2 : Entry}
    (hstage : stage (s.acquire op) = s.started op e1 e2) (htake : s.lockOwner = none → P (s.started op e1 e2))
    (hmove : ∀ m ∈ s.sched, ∀ u v, u.lockOwner ≠ none → P u → applyMove m u = .next v → P v)
    (hsched : ∀ u ms, ms ⊆ s.sched → P u → P { u with sched := ms }) (h : perform op stage s = .next t) (hs : P s) :
    P t := by
  rcases perform_cases hstage h with rfl | ⟨u, ⟨-, -, rfl⟩ | ⟨hfree, rfl⟩, hgo⟩
  · exact hs
  · exact goOn_induct hmove hsched hgo hs
  · exact goOn_induct (s := s.started op e1 e2) hmove hsched hgo (htake hfree)

/-- A property of states that whatever a requester presents keeps: an answer, a request turned away, the lock taken with
well-formed entries staged, and the moves that are decided. -/
structure KeptAtPort (s : State) (P : State → Prop) : Prop where
  answer : ∀ u v, P u → P (u.answer v)
  reject : ∀ u, P u → P (u.deliver (.err .invalidArgument))
  take : ∀ u op e1 e2, u.lockOwner = none → (e1.wf s.conf = true ∨ e1 = u.e1) → (e2.wf s.conf = true ∨ e2 = u.e2) →
    P u → P (u.started op e1 e2)
  move : ∀ m ∈ s.sched, ∀ u v, u.lockOwner ≠ none → P u → applyMove m u = .next v → P v
  sched : ∀ u ms, ms ⊆ s.sched → P u → P { u with sched := ms }

theorem stageOf_eq {i : Instr} (s : State) (op : Op) (hwf : i.wf s.conf = true) :
    ∃ e1, (e1.wf s.conf = true ∨ e1 = s.e1) ∧ stageOf i (s.acquire op) = s.started op e1 s.e2 := by
  cases i with
  | loadEntry port index entry =>
    cases entry with
    | none => exact ⟨s.e1, .inr rfl, rfl⟩
    | some e => exact ⟨e, .inl hwf, rfl⟩
  | _ => exact ⟨s.e1, .inr rfl, rfl⟩

/-- Whatever a requester presents keeps such a property. -/
theorem exec_port_induct {P : State → Prop} {i : Instr} {s t : State} (hP : KeptAtPort s P) (ht : s.turn = .port)
    (hwf : i.wf s.conf = true) (h : exec i s = .next t) (hs : P s) : P t := by
  cases atPort i ht with
  | answers hi v heq =>
    rw [← Host.Outcome.next.inj (heq.symm.trans h)]
    exact hP.answer s v hs
  | refuses r hr heq => cases heq.symm.trans h
  | raw hi r heq => cases heq.symm.trans h
  | rejects heq =>
    have hreject := heq.symm.trans h
    rw [Machine.reject] at hreject
    split at hreject
    · cases hreject
      exact hs
    · cases hreject
      exact hP.reject s hs
  | performs op hop hv heq =>
    obtain ⟨e1, he1, hstage⟩ := stageOf_eq s op hwf
    exact perform_induct hstage (fun hl => hP.take s op e1 s.e2 hl he1 (.inr rfl) hs) hP.move hP.sched
      (heq.symm.trans h) hs
  | tenures port index index2 r es hi hv hes heq =>
    have htenures := heq.symm.trans h
    rcases compileRule_cases s.cfg hes with ⟨a, rfl, ha⟩ | ⟨a, b, rfl, ha, hb, -⟩
    · rw [advTenures_one] at htenures
      exact perform_induct (e1 := a) (e2 := s.e2) rfl (fun hl => hP.take s _ a s.e2 hl (.inl ha) (.inr rfl) hs)
        hP.move hP.sched htenures hs
    · by_cases hc : s.caller ∈ s.cascaded
      · rw [advTenures_main hc] at htenures
        exact perform_induct (e1 := a) (e2 := b) rfl (fun hl => hP.take s _ a b hl (.inl ha) (.inl hb) hs)
          hP.move hP.sched htenures hs
      · rw [advTenures_cascade hc] at htenures
        obtain ⟨u, hu, hsecond⟩ := andThen_eq_next htenures
        obtain ⟨hPu, hsub⟩ : P u ∧ u.sched ⊆ s.sched := by
          refine perform_induct (P := fun u => P u ∧ u.sched ⊆ s.sched) (e1 := a) (e2 := b) rfl
            (fun hl => ⟨hP.take s _ a b hl (.inl ha) (.inl hb) hs, List.Subset.refl _⟩)
            (fun m hm u v hown hu hv => ⟨hP.move m hm u v hown hu.1 hv, ?_⟩) (fun u ms hms hu => ⟨hP.sched u ms hms hu.1, hms⟩)
            hu ⟨hs, List.Subset.refl _⟩
          rw [applyMove_sched hv]
          exact hu.2
        rw [secondTenure] at hsecond
        split at hsecond
        · exact perform_induct (e1 := a) (e2 := b) rfl (fun hl => hP.take u _ a b hl (.inl ha) (.inl hb) hPu)
            (fun m hm => hP.move m (hsub hm)) (fun v ms hms => hP.sched v ms (List.Subset.trans hms hsub)) hsecond hPu
        · cases hsecond
          exact hPu

end Sys2Proof.Machine

/-! ## The basic invariant (R8, R20, R34, R35) -/

namespace Sys2Proof.Machine

/-- No change touches the configuration, and the requests that wait are some of those that waited, or one more. -/
theorem Change.requests {s t : State} (h : Change s t) :
    t.cfg = s.cfg ∧ (t.requests.Sublist s.requests ∨ ∃ q, t.requests = (s.submit q).requests) := by
  cases h with
  | device h =>
    obtain ⟨_, _, _, _, rfl⟩ := devComplete_frame h
    exact ⟨rfl, .inl (.refl _)⟩
  | written block off w h =>
    obtain ⟨_, _, _, _, rfl⟩ := writeReg_frame h
    exact ⟨rfl, .inl (.refl _)⟩
  | access ans h =>
    obtain ⟨u, hu, ht⟩ := ctlStep_cases h
    obtain ⟨_, _, _, _, _, _, _, _, _, _, _, -, rfl⟩ := hu.frame
    cases ht with
    | aborts | ends => exact ⟨rfl, .inl List.filter_sublist⟩
    | stays | moves | issues | cascades => exact ⟨rfl, .inl (.refl _)⟩
  | taken | noted => exact ⟨rfl, .inl (.refl _)⟩
  | rejected | answered => exact ⟨rfl, .inl List.filter_sublist⟩
  | submitted q => exact ⟨rfl, .inr ⟨q, rfl⟩⟩

theorem State.oneEach_iff (s : State) : s.oneEach = true ↔ (s.requests.map (·.who)).Nodup := decide_eq_true_iff

theorem Change.oneEach {s t : State} (h : Change s t) (hs : s.oneEach = true) : t.oneEach = true := by
  rw [State.oneEach_iff] at hs ⊢
  rcases h.requests.2 with hsub | ⟨q, hq⟩
  · exact (hsub.map _).nodup hs
  · rw [hq]
    exact submit_oneEach hs

theorem Change.waitingOk {s t : State} (h : Change s t) (hs : s.waitingOk = true) : t.waitingOk = true := by
  obtain ⟨hcfg, hreq⟩ := h.requests
  rw [State.waitingOk, List.all_eq_true] at hs ⊢
  rw [State.conf, hcfg]
  rcases hreq with hsub | ⟨q, hq⟩
  · exact fun p hp => hs p (hsub.subset hp)
  · rw [hq]
    rcases submit_cases s q with he | ⟨-, hnew, he⟩
    · rwa [he]
    · rw [he]
      intro p hp
      rcases List.mem_append.1 hp with hp | hp
      · exact hs p hp
      · rw [List.mem_singleton.1 hp]
        exact hnew

theorem step_cfg {s t : State} (h : step s = .next t) : t.cfg = s.cfg :=
  (step_changes h).keep (P := fun t => t.cfg = s.cfg) (fun hc hs => hc.requests.1.trans hs) rfl

/-- Sizes are kept by whatever a requester presents. -/
theorem sized_keptAtPort (s : State) : KeptAtPort s fun u => u.cfg = s.cfg ∧ u.sized = true where
  answer := fun _ _ h => ⟨h.1, State.sized_congr rfl rfl rfl rfl rfl h.2⟩
  reject := fun _ h => ⟨h.1, State.sized_congr rfl rfl rfl rfl rfl h.2⟩
  take := fun u op e1 e2 _ h1 h2 h => by
    obtain ⟨hcfg, hsized⟩ := h
    obtain ⟨hd, ht, hts, hu1, hu2⟩ := (State.sized_iff u).1 hsized
    have hconf : u.conf = s.conf := congrArg Subtype.val hcfg
    refine ⟨hcfg, (State.sized_iff _).2 ⟨hd, ht, hts, ?_, ?_⟩⟩
    · rcases h1 with h1 | rfl
      · exact hconf.symm ▸ h1
      · exact hu1
    · rcases h2 with h2 | rfl
      · exact hconf.symm ▸ h2
      · exact hu2
  move := fun _ _ _ _ _ h hm => ⟨(applyMove_keeps hm).1.trans h.1, (applyMove_keeps hm).2 h.2⟩
  sched := fun _ _ _ h => ⟨h.1, State.sized_congr rfl rfl rfl rfl rfl h.2⟩

/-- A step is the presentation of a waiting request, the device's step, a submission, or nothing. -/
inductive StepOf (s : State) : Prop
  | presents (moves : List Move) (q : Submission) (hmoves : ∀ m ∈ moves, ∃ ans, m = .access ans) (hq : q ∈ s.requests)
      (h : step s = present moves q (dropMove s))
  | device (d : DevCmd) (hd : s.devCmd = some d) (h : step s = deviceTurn (dropMove s))
  | submits (q : Submission) (h : step s = .next ((dropMove s).submit q))
  | nothing (h : step s = .next (dropMove s))

theorem stepOf (s : State) : StepOf s := by
  cases hm : nextMove s with
  | device =>
    cases hd : s.devCmd with
    | some d => exact .device d hd (step_device hm)
    | none =>
      refine .nothing ((step_device hm).trans ?_)
      rw [deviceTurn, dropMove_devCmd, hd]
  | submit q => exact .submits q (step_submit hm)
  | access ans =>
    cases hl : s.lockOwner with
    | none =>
      refine .nothing ?_
      rw [step, stepOnce, hm]
      simp only [makeMove, dropMove_lockOwner, hl]
    | some w =>
      cases hq : s.requests.find? (fun q => q.who == w) with
      | some q =>
        exact .presents [.access ans] q (fun m hm => ⟨ans, List.mem_singleton.1 hm⟩) (List.mem_of_find?_eq_some hq)
          (step_access hm hl hq)
      | none =>
        refine .nothing ?_
        rw [step, stepOnce, hm]
        simp only [makeMove, dropMove_lockOwner, hl, ownerTurn, dropMove_requests, hq]
  | request k =>
    cases hq : s.requests[k % s.requests.length]? with
    | some q => exact .presents [] q (fun m hm => absurd hm List.not_mem_nil) (List.mem_of_getElem? hq) (step_request hm hq)
    | none =>
      refine .nothing ?_
      rw [step, stepOnce, hm]
      simp only [makeMove, presentNth, dropMove_requests, hq]

theorem dropMove_eq (s : State) : ∃ ms n, dropMove s = { s with sched := ms, drawn := n } := by
  rw [dropMove]
  split
  · exact ⟨_, _, rfl⟩
  · exact ⟨_, _, rfl⟩

/-- A presentation that is not stopped runs a well-formed instruction. -/
theorem present_eq_next {moves : List Move} {q : Submission} {s t : State} (h : present moves q s = .next t) :
    ∃ i u, decode q.packet = .ok i ∧ i.wf s.conf = true ∧
      exec i { s with caller := q.who, turn := .port, sched := moves } = .next u ∧
      t = { u with sched := u.sched ++ s.sched, turn := .port } := by
  cases hd : decode q.packet with
  | error e =>
    rw [present, hd] at h
    cases h
  | ok i =>
    by_cases hwf : i.wf s.conf = true
    · rw [present_of_wf moves hd hwf] at h
      obtain ⟨u, hu, h⟩ := andThen_eq_next h
      cases h
      exact ⟨i, u, rfl, hwf, hu, rfl⟩
    · rw [present, hd] at h
      cases (if_neg hwf).symm.trans h

theorem step_sized {s t : State} (hs : s.sized = true) (h : step s = .next t) : t.sized = true := by
  obtain ⟨ms, n, hdrop⟩ := dropMove_eq s
  have hsized : ∀ {u : State} {c tu ms' n'}, u.sized = true →
      ({ u with caller := c, turn := tu, sched := ms', drawn := n' } : State).sized = true := fun hu =>
    State.sized_congr rfl rfl rfl rfl rfl hu
  cases stepOf s with
  | presents moves q hmoves hq heq =>
    obtain ⟨i, u, -, hwf, hu, rfl⟩ := present_eq_next (heq.symm.trans h)
    have hstart : (dropMove s).sized = true := hdrop ▸ State.sized_congr (s := s) rfl rfl rfl rfl rfl hs
    have hkept := exec_port_induct (sized_keptAtPort { dropMove s with caller := q.who, turn := .port, sched := moves })
      rfl hwf hu ⟨rfl, hsized hstart⟩
    exact hsized hkept.2
  | device d hd heq =>
    rw [deviceTurn_eq ((dropMove_devCmd s).trans hd)] at heq
    obtain ⟨u, hu, hnext⟩ := andThen_eq_next (heq.symm.trans h)
    cases hnext
    have hstart : (dropMove s).sized = true := hdrop ▸ State.sized_congr (s := s) rfl rfl rfl rfl rfl hs
    exact hsized ((devComplete_keeps hu).2 (hsized hstart))
  | submits q heq =>
    cases heq.symm.trans h
    exact hdrop ▸ State.sized_congr (s := s) rfl rfl rfl rfl rfl hs
  | nothing heq =>
    cases heq.symm.trans h
    exact hdrop ▸ State.sized_congr (s := s) rfl rfl rfl rfl rfl hs

/-- Settles O57: latch, requests and configuration are kept change by change, the sizes by what is presented. -/
theorem everyStepKeepsTheBasicInvariant : Obligations.EveryStepKeepsTheBasicInvariant := by
  intro s t hs h
  simp only [State.basic, Bool.and_eq_true] at hs ⊢
  obtain ⟨⟨hsized, hlatch⟩, hone⟩ := hs
  have hchanges := step_changes h
  exact ⟨⟨⟨step_sized hsized h, step_latchOk hlatch h⟩,
    hchanges.keep (P := fun s => s.oneEach = true) Change.oneEach hone⟩, step_cfg h,
    hchanges.keep (P := fun s => s.waitingOk = true) Change.waitingOk⟩

/-! ## A latched command is left in peace (R78, R80, R347) -/

/-- `CMD`, `EXT`, `DATA`, the table and the latch stay. -/
structure Quiet (s t : State) : Prop where
  cfg : t.cfg = s.cfg
  cmd : t.cmd = s.cmd
  ext : t.ext = s.ext
  data : t.data = s.data
  table : t.table = s.table
  devCmd : t.devCmd = s.devCmd

/-- While `BUSY` is 1 no access of the controller reaches a register: there is nothing but polls and reads. -/
theorem Quiet.ctlStep {s u v : State} (hb : s.busy = true) (h : Quiet s u) {ans : Answer}
    (hv : ctlStep ans u = .next v) : Quiet s v := by
  obtain ⟨x, hx, hxv⟩ := ctlStep_cases hv
  have hquiet : Quiet s x := by
    cases hx with
    | register hw =>
      have hidle := (writeReg_cases hw).1
      rw [State.busy, h.cmd] at hidle
      cases hb.symm.trans hidle
    | _ => exact ⟨h.cfg, h.cmd, h.ext, h.data, h.table, h.devCmd⟩
  cases hxv <;> exact ⟨hquiet.cfg, hquiet.cmd, hquiet.ext, hquiet.data, hquiet.table, hquiet.devCmd⟩

/-- Whatever a requester presents, with accesses alone decided, leaves a busy block's registers in peace. -/
theorem quiet_keptAtPort {s : State} (hb : s.busy = true) (hmoves : ∀ m ∈ s.sched, ∃ ans, m = .access ans) :
    KeptAtPort s (Quiet s) where
  answer := fun _ _ h => ⟨h.cfg, h.cmd, h.ext, h.data, h.table, h.devCmd⟩
  reject := fun _ h => ⟨h.cfg, h.cmd, h.ext, h.data, h.table, h.devCmd⟩
  take := fun _ _ _ _ _ _ _ h => ⟨h.cfg, h.cmd, h.ext, h.data, h.table, h.devCmd⟩
  move := fun m hm u v _ h hv => by
    obtain ⟨ans, rfl⟩ := hmoves m hm
    exact h.ctlStep hb hv
  sched := fun _ _ _ h => ⟨h.cfg, h.cmd, h.ext, h.data, h.table, h.devCmd⟩

/-- The device's step leaves nothing latched (R211). -/
theorem devComplete_devCmd {s t : State} (h : devComplete s = .next t) : t.devCmd = none := by
  rcases devComplete_cases h with ⟨hd, rfl⟩ | ⟨d, -, h⟩
  · exact hd
  · rcases h with ⟨-, rfl⟩ | ⟨-, rfl⟩ | ⟨-, -, rfl⟩ | ⟨-, -, -, rfl⟩ | ⟨-, -, rfl⟩ | ⟨-, -, -, rfl⟩ <;> rfl

/-- Settles O60: a step of the device leaves nothing latched, and every other step finds `BUSY` 1 and writes nothing. -/
theorem nothingMovesUnderALatchedCommand : Obligations.NothingMovesUnderALatchedCommand := by
  intro d s t hinv hd h htd
  have hlatch : s.latchOk = true := by
    rcases ((inv_iff s).1 hinv).1 with h | ⟨op, h⟩
    · exact h.sound.latch
    · exact h.sound.latch
  have hbusy : s.busy = true := by
    by_contra hb
    cases ((busy_eq_false_iff hlatch).1 (Bool.eq_false_iff.2 hb)).symm.trans hd
  obtain ⟨ms, n, hdrop⟩ := dropMove_eq s
  cases stepOf s with
  | presents moves q hmoves hq heq =>
    obtain ⟨i, u, -, hwf, hu, rfl⟩ := present_eq_next (heq.symm.trans h)
    rw [hdrop] at hu hwf
    have hquiet := exec_port_induct (quiet_keptAtPort (s := { s with
      caller := q.who, turn := .port, sched := moves, drawn := n }) hbusy hmoves) rfl hwf hu ⟨rfl, rfl, rfl, rfl, rfl, rfl⟩
    exact ⟨hquiet.cmd, hquiet.ext, hquiet.data, hquiet.table⟩
  | device d' hd' heq =>
    rw [deviceTurn_eq ((dropMove_devCmd s).trans hd')] at heq
    obtain ⟨u, hu, hnext⟩ := andThen_eq_next (heq.symm.trans h)
    cases hnext
    cases (devComplete_devCmd hu).symm.trans htd
  | submits q heq =>
    cases heq.symm.trans h
    rw [hdrop]
    exact ⟨rfl, rfl, rfl, rfl⟩
  | nothing heq =>
    cases heq.symm.trans h
    rw [hdrop]
    exact ⟨rfl, rfl, rfl, rfl⟩

end Sys2Proof.Machine

/-! ## Who waits for what (R20, R24, R285) -/

namespace Sys2Proof.Machine

open Sys2Proof.Claims (accesses)

/-- The first of the requests that requester `w` has in the list asks for `i`. -/
def Waits (qs : List Submission) (w : Nat) (i : Instr) : Prop :=
  ∃ q, qs.find? (fun q => q.who == w) = some q ∧ decode q.packet = .ok i

section

variable {qs : List Submission} {w c : Nat} {i j : Instr}

theorem Waits.unique (h : Waits qs w i) (h' : Waits qs w j) : i = j := by
  obtain ⟨q, hq, hd⟩ := h
  obtain ⟨q', hq', hd'⟩ := h'
  cases hq.symm.trans hq'
  exact Except.ok.inj (hd.symm.trans hd')

/-- Taking away the requests of another requester changes nothing for `w`. -/
theorem Waits.filter (h : Waits qs w i) (hne : w ≠ c) : Waits (qs.filter fun q => q.who != c) w i := by
  obtain ⟨q, hq, hd⟩ := h
  refine ⟨q, ?_, hd⟩
  rw [List.find?_filter, ← hq]
  refine congrArg (List.find? · qs) (funext fun p => ?_)
  cases hp : p.who == w with
  | false => simp
  | true => simp [beq_iff_eq.1 hp, hne]

/-- A request that comes last changes nothing for those that wait. -/
theorem Waits.append (h : Waits qs w i) (ps : List Submission) : Waits (qs ++ ps) w i := by
  obtain ⟨q, hq, hd⟩ := h
  exact ⟨q, by rw [List.find?_append, hq, Option.some_or], hd⟩

/-- Where each requester has one request at most, a request that waits is its requester's. -/
theorem waits_of_mem {q : Submission} (hone : (qs.map (·.who)).Nodup) (hq : q ∈ qs) (hd : decode q.packet = .ok i) :
    Waits qs q.who i := by
  refine ⟨q, ?_, hd⟩
  induction qs with
  | nil => cases hq
  | cons p qs ih =>
    obtain ⟨hp, hone⟩ := List.nodup_cons.1 hone
    rcases List.mem_cons.1 hq with rfl | hq
    · simp
    · have hne : p.who ≠ q.who := fun he => hp (List.mem_map.2 ⟨q, hq, he.symm⟩)
      rw [List.find?_cons_of_neg (by simpa using hne)]
      exact ih hone hq

end

/-- The requester that holds the lock waits with the request that its operation runs for (R20, R24). -/
theorem ownerOk_iff (s : State) :
    s.ownerOk = true ↔ ∀ w op, s.lockOwner = some w → s.op = some op →
      ∃ i, Waits s.requests w i ∧ instrRuns i op = true := by
  rw [State.ownerOk]
  cases hl : s.lockOwner with
  | none => simp
  | some w =>
    cases hop : s.op with
    | none => simp
    | some op =>
      dsimp only
      cases hq : s.requests.find? (fun q => q.who == w) with
      | none => simp [Waits, hq]
      | some q =>
        dsimp only
        cases hd : decode q.packet with
        | error e => simp [Waits, hq, hd]
        | ok i => simp [Waits, hq, hd]

/-- A requester whose `AdvConfig` is half done waits with an `AdvConfig` (R285). -/
theorem cascadedOk_iff (s : State) :
    s.cascadedOk = true ↔ ∀ w ∈ s.cascaded, ∃ port i j r, Waits s.requests w (.advConfig port i j (some r)) := by
  rw [State.cascadedOk, List.all_eq_true]
  refine forall₂_congr fun w _ => ?_
  cases hq : s.requests.find? (fun q => q.who == w) with
  | none => simp [Waits, hq]
  | some q =>
    dsimp only
    have hwaits : ∀ i, Waits s.requests w i ↔ decode q.packet = .ok i := fun i => by simp [Waits, hq]
    simp only [hwaits]
    split
    · rename_i port i j r hd
      exact iff_of_true rfl ⟨port, i, j, r, hd⟩
    · rename_i hno
      refine iff_of_false (by simp) ?_
      rintro ⟨port, i, j, r, hd⟩
      exact hno port i j r hd

/-! ## The invariant under what is presented -/

theorem Resting.of_release {u : State} (h : Sound u) {r : Result} : Resting (u.release.deliver r) :=
  ⟨h.congr rfl (State.sized_congr rfl rfl rfl rfl rfl h.sized) rfl rfl rfl, rfl, rfl, rfl⟩

theorem Resting.of_cascade {u : State} (h : Sound u) :
    Resting { u.release with cascaded := u.caller :: u.cascaded } :=
  ⟨h.congr rfl (State.sized_congr rfl rfl rfl rfl rfl h.sized) rfl rfl rfl, rfl, rfl, rfl⟩

theorem nodup_filter {qs : List Submission} (h : (qs.map (·.who)).Nodup) (p : Submission → Bool) :
    ((qs.filter p).map (·.who)).Nodup := (List.filter_sublist.map _).nodup h

/-- The outcome of the caller's request takes that request and its half-done `AdvConfig` away; nobody else notices. -/
theorem cascadedOk_filter {qs : List Submission} {ws : List Nat} {c : Nat}
    (h : ∀ w ∈ ws, ∃ port i j r, Waits qs w (.advConfig port i j (some r))) :
    ∀ w ∈ ws.filter (fun w => w != c), ∃ port i j r,
      Waits (qs.filter fun q => q.who != c) w (.advConfig port i j (some r)) := by
  intro w hw
  obtain ⟨hmem, hne⟩ := List.mem_filter.1 hw
  obtain ⟨port, i, j, r, hwait⟩ := h w hmem
  exact ⟨port, i, j, r, hwait.filter (bne_iff_ne.1 hne)⟩

/-- A request that runs the first tenure of an `AdvConfig` is one (R285). -/
theorem advConfig_of_instrRuns {i : Instr} {a b : Index} (h : instrRuns i (.advCascade a b) = true) :
    ∃ port index index2 r, i = .advConfig port index index2 (some r) := by
  unfold instrRuns at h
  split at h
  case h_9 => exact ⟨_, _, _, _, rfl⟩
  all_goals simp_all

/-- Wherever a run of the caller's operation ends, the invariant holds. -/
theorem After.inv {n : Nat} {u t : State} {op : Op} {i : Instr} (h : After n u op t)
    (hown : u.lockOwner = some u.caller) (hone : u.oneEach = true) (hwait : Waits u.requests u.caller i)
    (hrun : instrRuns i op = true) (hcas : u.cascadedOk = true) : t.inv = true := by
  rw [State.oneEach_iff] at hone
  rw [cascadedOk_iff] at hcas
  cases h with
  | goes run same less =>
    refine (inv_iff _).2 ⟨.inr ⟨op, run⟩, (State.oneEach_iff _).2 (same.requests ▸ hone), (ownerOk_iff _).2 ?_,
      (cascadedOk_iff _).2 ?_⟩
    · intro w op' hw hop
      cases hop.symm.trans run.op_eq
      cases (same.lockOwner.trans hown).symm.trans hw
      exact ⟨i, same.requests ▸ hwait, hrun⟩
    · rw [same.requests, same.cascaded]
      exact hcas
  | @delivers v r sound same used =>
    refine (inv_iff _).2 ⟨.inl (.of_release sound), (State.oneEach_iff _).2 (nodup_filter (same.requests ▸ hone) _),
      (ownerOk_iff _).2 nofun, (cascadedOk_iff _).2 ?_⟩
    exact cascadedOk_filter (same.requests ▸ same.cascaded ▸ hcas)
  | @cascades v a b hop sound same used =>
    subst hop
    obtain ⟨port, index, index2, r, rfl⟩ := advConfig_of_instrRuns hrun
    refine (inv_iff _).2 ⟨.inl (.of_cascade sound), (State.oneEach_iff _).2 (same.requests ▸ hone),
      (ownerOk_iff _).2 nofun, (cascadedOk_iff _).2 fun w hw => ?_⟩
    rcases List.mem_cons.1 hw with rfl | hw
    · exact ⟨port, index, index2, r, same.requests ▸ same.caller ▸ hwait⟩
    · exact same.requests ▸ hcas w (same.cascaded ▸ hw)

/-- What follows a request that is performed: the invariant, and either its requester waits as before, or its `AdvConfig`,
if any, is not half done. -/
theorem perform_inv {s : State} (hinv : s.inv = true) {i : Instr} {op : Op} {stage : State → State} {e1 e2 : Entry}
    (hwait : Waits s.requests s.caller i) (hrun : instrRuns i op = true) (hv : op.valid s.conf = true)
    (h1 : e1.wf s.conf = true) (h2 : e2.wf s.conf = true) (hstage : stage (s.acquire op) = s.started op e1 e2) :
    ∃ t, perform op stage s = .next t ∧ t.inv = true ∧ t.cfg = s.cfg ∧ t.caller = s.caller ∧
      (Waits t.requests t.caller i ∨ t.caller ∉ t.cascaded) := by
  obtain ⟨hoper, hone, hown, hcas⟩ := (inv_iff s).1 hinv
  obtain ⟨t, ht, rfl | ⟨u, hu, start, hafter⟩⟩ := hoper.perform hv h1 h2 hstage
  · exact ⟨t, ht, hinv, rfl, rfl, .inl hwait⟩
  · have huwait : Waits u.requests u.caller i := start.requests ▸ start.caller ▸ hwait
    have huone : u.oneEach = true := (State.oneEach_iff _).2 (start.requests ▸ (State.oneEach_iff _).1 hone)
    have hucas : u.cascadedOk = true :=
      (cascadedOk_iff _).2 (start.requests ▸ start.cascaded ▸ (cascadedOk_iff _).1 hcas)
    refine ⟨t, ht, hafter.inv (start.caller ▸ start.lockOwner) huone huwait hrun hucas, ?_⟩
    cases hafter with
    | goes run same less =>
      exact ⟨same.cfg.trans start.cfg, same.caller.trans start.caller, .inl (same.requests ▸ same.caller ▸ huwait)⟩
    | @delivers v r sound same used =>
      exact ⟨same.cfg.trans start.cfg, same.caller.trans start.caller, .inr (by simp)⟩
    | @cascades v a b hop sound same used =>
      exact ⟨same.cfg.trans start.cfg, same.caller.trans start.caller, .inl (same.requests ▸ same.caller ▸ huwait)⟩

theorem advMain_valid {c : Cfg} {i j : Index} {r : Rule} (two : Bool) (h : advValid c i j r = true) :
    (Op.advMain i j two).valid c = true := (advValid_iff.1 h).2.1

theorem advCascade_valid {c : Cfg} {i j : Index} {r : Rule} (h : advValid c i j r = true)
    (hsecond : r.needsSecond = true) : (Op.advCascade i j).valid c = true := by
  obtain ⟨-, hi, hj⟩ := advValid_iff.1 h
  exact Bool.and_eq_true_iff.2 ⟨hi, (hj hsecond).1⟩

/-- An `AdvConfig` that passes validation keeps the invariant through its tenures. -/
theorem advTenures_inv {s : State} (hinv : s.inv = true) {port : BitVec 4} {i j : Index} {r : Rule} {es : List Entry}
    (hwait : Waits s.requests s.caller (.advConfig port i j (some r))) (hv : advValid s.conf i j r = true)
    (hes : compileRule s.conf r j = some es) : ∃ t, advTenures i j es s = .next t ∧ t.inv = true := by
  have hmain : ∀ two, instrRuns (.advConfig port i j (some r)) (.advMain i j two) = true := fun two => by
    simp [instrRuns]
  have hcascade : instrRuns (.advConfig port i j (some r)) (.advCascade i j) = true := by simp [instrRuns]
  have hsized : s.sized = true := by
    rcases ((inv_iff s).1 hinv).1 with h | ⟨op, h⟩
    · exact h.sound.sized
    · exact h.sound.sized
  obtain ⟨-, -, -, -, he2⟩ := (State.sized_iff s).1 hsized
  rcases compileRule_cases s.cfg hes with ⟨a, rfl, ha⟩ | ⟨a, b, rfl, ha, hb, hsecond⟩
  · obtain ⟨t, ht, htinv, -⟩ := perform_inv (e1 := a) (e2 := s.e2) (stage := fun t => { t with e1 := a }) hinv hwait
      (hmain false) (advMain_valid false hv) ha he2 rfl
    exact ⟨t, ht, htinv⟩
  · have hperform : ∀ {u : State} {op : Op}, u.inv = true → u.cfg = s.cfg → op.valid s.conf = true →
        instrRuns (.advConfig port i j (some r)) op = true →
        Waits u.requests u.caller (.advConfig port i j (some r)) →
        ∃ t, perform op (fun t => { t with e1 := a, e2 := b }) u = .next t ∧ t.inv = true ∧ t.cfg = u.cfg ∧
          t.caller = u.caller ∧ (Waits t.requests t.caller (.advConfig port i j (some r)) ∨ t.caller ∉ t.cascaded) := by
      intro u op hu hcfg hvalid hrun hw
      have hconf : u.conf = s.conf := congrArg Subtype.val hcfg
      exact perform_inv (e1 := a) (e2 := b) hu hw hrun (hconf ▸ hvalid) (hconf ▸ ha) (hconf ▸ hb) rfl
    by_cases hc : s.caller ∈ s.cascaded
    · obtain ⟨t, ht, htinv, -⟩ := hperform hinv rfl (advMain_valid true hv) (hmain true) hwait
      exact ⟨t, (advTenures_main hc).trans ht, htinv⟩
    · obtain ⟨u, hu, huinv, hcfg, -, huwait⟩ := hperform hinv rfl (advCascade_valid hv hsecond) hcascade hwait
      rw [advTenures_cascade hc, hu, andThen_next]
      by_cases hdone : u.caller ∈ u.cascaded ∧ u.lockOwner = none ∧ u.sched ≠ []
      · obtain ⟨hmem, hfree, hmoves⟩ := hdone
        rw [secondTenure_of_done hmem hfree hmoves]
        obtain ⟨t, ht, htinv, -⟩ := hperform huinv hcfg (advMain_valid true hv) (hmain true)
          (huwait.resolve_right fun hno => hno hmem)
        exact ⟨t, ht, htinv⟩
      · exact ⟨u, secondTenure_of_not_done fun h1 h2 => by
          by_contra h3
          exact hdone ⟨h1, h2, h3⟩, huinv⟩

/-- A request that an operation runs for is no function. -/
theorem isFunction_of_instrRuns {i : Instr} {op : Op} (h : instrRuns i op = true) : isFunction i = false := by
  unfold instrRuns at h
  split at h
  case h_11 => cases h
  all_goals rfl

/-- A state that differs in who waits, who was answered what, and what is noted of the moves. -/
def State.noting (s : State) (result : Result) (resultFor : Nat) (requests : List Submission) (cascaded : List Nat)
    (fnOut : FnValue) (fnFor : Nat) : State :=
  { s with
    result := result, resultFor := resultFor, requests := requests, cascaded := cascaded, fnOut := fnOut,
    fnFor := fnFor }

theorem Operating.noting {s : State} (h : Operating s) {result : Result} {resultFor : Nat} {requests : List Submission}
    {cascaded : List Nat} {fnOut : FnValue} {fnFor : Nat} :
    Operating (s.noting result resultFor requests cascaded fnOut fnFor) := by
  have hsound : Sound s → Sound (s.noting result resultFor requests cascaded fnOut fnFor) := fun h =>
    h.congr rfl (State.sized_congr rfl rfl rfl rfl rfl h.sized) rfl rfl rfl
  rcases h with h | ⟨op, h⟩
  · exact .inl ⟨hsound h.sound, h.op_eq, h.owner, h.fsm⟩
  · exact .inr ⟨op, hsound h.sound, h.op_eq, h.owner, h.fsm, { h.position with }⟩

/-- A request of the caller that is taken from the list without an operation: the invariant stays. -/
theorem inv_deliver {s : State} (hinv : s.inv = true) (hown : s.lockOwner ≠ some s.caller) (r : Result) :
    (s.deliver r).inv = true := by
  obtain ⟨hoper, hone, howner, hcas⟩ := (inv_iff s).1 hinv
  refine (inv_iff _).2 ⟨hoper.noting, (State.oneEach_iff _).2 (nodup_filter ((State.oneEach_iff _).1 hone) _),
    (ownerOk_iff _).2 fun w op hw hop => ?_, (cascadedOk_iff _).2 (cascadedOk_filter ((cascadedOk_iff _).1 hcas))⟩
  obtain ⟨i, hwait, hrun⟩ := (ownerOk_iff s).1 howner w op hw hop
  exact ⟨i, hwait.filter fun he => hown (he ▸ hw), hrun⟩

/-- A function answers a requester that neither holds the lock nor is half done with an `AdvConfig`. -/
theorem inv_answer {s : State} (hinv : s.inv = true) {i : Instr} (hwait : Waits s.requests s.caller i)
    (hfun : isFunction i = true) (v : FnValue) : (s.answer v).inv = true := by
  obtain ⟨hoper, hone, howner, hcas⟩ := (inv_iff s).1 hinv
  refine (inv_iff _).2 ⟨hoper.noting, (State.oneEach_iff _).2 (nodup_filter ((State.oneEach_iff _).1 hone) _),
    (ownerOk_iff _).2 fun w op hw hop => ?_, (cascadedOk_iff _).2 fun w hw => ?_⟩
  · obtain ⟨j, hj, hrun⟩ := (ownerOk_iff s).1 howner w op hw hop
    refine ⟨j, hj.filter fun he => ?_, hrun⟩
    subst he
    rw [hj.unique hwait] at hrun
    cases hfun.symm.trans (isFunction_of_instrRuns hrun)
  · obtain ⟨port, a, b, r, hj⟩ := (cascadedOk_iff s).1 hcas w hw
    refine ⟨port, a, b, r, hj.filter fun he => ?_⟩
    subst he
    rw [hwait.unique hj] at hfun
    cases hfun

/-- What a waiting requester presents in a state of the invariant leads to one, or is refused: an operand outside a
function's domain, or a word of the block's registers. -/
theorem exec_inv {s : State} (hinv : s.inv = true) (ht : s.turn = .port) {i : Instr}
    (hwait : Waits s.requests s.caller i) (hwf : i.wf s.conf = true) :
    (∃ t, exec i s = .next t ∧ t.inv = true) ∨
      ∃ r, exec i s = .refused r ∧ (r.ofOperand = true ∨ (encode i).fmt = .cmd ∨ (encode i).fmt = .ext) := by
  cases atPort i ht with
  | answers hi v heq => exact .inl ⟨_, heq, inv_answer hinv hwait hi v⟩
  | refuses r hr heq => exact .inr ⟨r, heq, .inl hr⟩
  | raw hi r heq => exact .inr ⟨r, heq, .inr hi⟩
  | rejects heq =>
    left
    rw [heq, Machine.reject]
    split
    · exact ⟨s, rfl, hinv⟩
    · exact ⟨_, rfl, inv_deliver hinv ‹_› _⟩
  | performs op hop hv heq =>
    have hsized : s.sized = true := by
      rcases ((inv_iff s).1 hinv).1 with h | ⟨op, h⟩
      · exact h.sound.sized
      · exact h.sound.sized
    obtain ⟨-, -, -, -, he2⟩ := (State.sized_iff s).1 hsized
    obtain ⟨e, he, hstage⟩ := stageOf_started op hwf hsized
    obtain ⟨t, ht, htinv, -⟩ := perform_inv hinv hwait (instrRuns_of_opOf hop) hv he he2 hstage
    exact .inl ⟨t, heq.trans ht, htinv⟩
  | tenures port index index2 r es hi hv hes heq =>
    subst hi
    obtain ⟨t, ht, htinv⟩ := advTenures_inv hinv hwait hv hes
    exact .inl ⟨t, heq.trans ht, htinv⟩

end Sys2Proof.Machine

/-! ## The invariant under every step -/

namespace Sys2Proof.Machine

open Sys2Proof.Claims

theorem dropMove_inv (s : State) : (dropMove s).inv = s.inv := by
  obtain ⟨ms, n, h⟩ := dropMove_eq s
  rw [h]
  rfl

/-- The presentation of a waiting request in a state of the invariant. -/
theorem present_inv {s : State} (hinv : s.inv = true) {q : Submission} (hq : q ∈ s.requests) (moves : List Move)
    {i : Instr} (hd : decode q.packet = .ok i) (hwf : i.wf s.conf = true) :
    (∃ t, present moves q s = .next t ∧ t.inv = true) ∨
      ∃ r, present moves q s = .refused r ∧ (r.ofOperand = true ∨ (encode i).fmt = .cmd ∨ (encode i).fmt = .ext) := by
  have hone := (State.oneEach_iff s).1 ((inv_iff s).1 hinv).2.1
  rw [present_of_wf moves hd hwf]
  rcases exec_inv (s := { s with caller := q.who, turn := .port, sched := moves }) hinv rfl (waits_of_mem hone hq hd) hwf
    with ⟨t, ht, htinv⟩ | ⟨r, hr, hof⟩
  · rw [ht, andThen_next]
    exact .inl ⟨_, rfl, htinv⟩
  · rw [hr, andThen_refused]
    exact .inr ⟨r, rfl, hof⟩

/-- The device's turn in a state of the invariant is its step, which it can make. -/
theorem deviceTurn_inv {s : State} (hinv : s.inv = true) {d : DevCmd} (hd : s.devCmd = some d) :
    ∃ t, deviceTurn s = .next t ∧ t.inv = true := by
  obtain ⟨hoper, hone, hown, hcas⟩ := (inv_iff s).1 hinv
  rw [deviceTurn_eq hd]
  have hsound : Sound s → Sound { s with turn := .device, sched := [] } := fun h =>
    h.congr rfl (State.sized_congr rfl rfl rfl rfl rfl h.sized) rfl rfl rfl
  rcases hoper with h | ⟨op, h⟩
  · obtain ⟨cmd, data, table, heq, hsound, -⟩ := (hsound h.sound).devComplete_next
    rw [heq, andThen_next]
    exact ⟨_, rfl, (inv_iff _).2 ⟨.inl ⟨hsound.congr rfl (State.sized_congr rfl rfl rfl rfl rfl hsound.sized) rfl rfl rfl,
      h.op_eq, h.owner, h.fsm⟩, hone, hown, hcas⟩⟩
  · have hrun : Running { s with turn := .device, sched := [] } op :=
      ⟨hsound h.sound, h.op_eq, h.owner, h.fsm, { h.position with }⟩
    obtain ⟨cmd, data, table, heq, hrun⟩ := hrun.devComplete_next
    rw [heq, andThen_next]
    exact ⟨_, rfl, (inv_iff _).2 ⟨.inr ⟨op, hrun.sound.congr rfl
      (State.sized_congr rfl rfl rfl rfl rfl hrun.sound.sized) rfl rfl rfl, hrun.op_eq, hrun.owner, hrun.fsm,
      { hrun.position with }⟩, hone, hown, hcas⟩⟩

theorem submit_inv {s : State} (hinv : s.inv = true) (q : Submission) : (s.submit q).inv = true := by
  rcases submit_cases s q with he | ⟨hnew, hreq, he⟩
  · rwa [he]
  · obtain ⟨hoper, hone, hown, hcas⟩ := (inv_iff s).1 hinv
    have hnodup := submit_oneEach (q := q) ((State.oneEach_iff s).1 hone)
    rw [he] at hnodup ⊢
    refine (inv_iff _).2 ⟨hoper.noting, (State.oneEach_iff _).2 hnodup, (ownerOk_iff _).2 fun w op hw hop => ?_,
      (cascadedOk_iff _).2 fun w hw => ?_⟩
    · obtain ⟨i, hi, hrun⟩ := (ownerOk_iff s).1 hown w op hw hop
      exact ⟨i, hi.append _, hrun⟩
    · obtain ⟨port, i, j, r, hi⟩ := (cascadedOk_iff s).1 hcas w hw
      exact ⟨port, i, j, r, hi.append _⟩

/-- Settles O58: what is presented, the device's step and a submission each keep the invariant. -/
theorem everyStepKeepsTheInvariant : Obligations.EveryStepKeepsTheInvariant := by
  intro s t hinv h
  have hdrop : (dropMove s).inv = true := (dropMove_inv s).trans hinv
  cases stepOf s with
  | presents moves q hmoves hq heq =>
    have hnext := heq.symm.trans h
    obtain ⟨i, u, hd, hwf, -, -⟩ := present_eq_next hnext
    rcases present_inv hdrop (dropMove_requests s ▸ hq) moves hd hwf with ⟨t', ht', htinv⟩ | ⟨r, hr, -⟩
    · rwa [← Host.Outcome.next.inj (ht'.symm.trans hnext)]
    · cases hr.symm.trans hnext
  | device d hd heq =>
    obtain ⟨t', ht', htinv⟩ := deviceTurn_inv hdrop ((dropMove_devCmd s).trans hd)
    rwa [← Host.Outcome.next.inj (ht'.symm.trans (heq.symm.trans h))]
  | submits q heq =>
    rw [← Host.Outcome.next.inj (heq.symm.trans h)]
    exact submit_inv hdrop q
  | nothing heq =>
    rwa [← Host.Outcome.next.inj (heq.symm.trans h)]

/-- What a requester may submit decodes to an instruction that is no word of the block's registers. -/
theorem isRequest_iff {c : Cfg} {p : Packet} :
    isRequest c p = true ↔ p.fmt ≠ .cmd ∧ p.fmt ≠ .ext ∧ ∃ i, decode p = .ok i ∧ i.wf c = true := by
  rw [isRequest]
  cases decode p <;> simp [and_assoc]

/-- Settles O59: all that waits decodes to a well-formed request, so the invariant leads to a next state or to the
refusal of an operand; the device and the submissions always go on. -/
theorem aDisciplinedMachineNeverStops : Obligations.ADisciplinedMachineNeverStops := by
  intro s hinv hwaiting
  have hdrop : (dropMove s).inv = true := (dropMove_inv s).trans hinv
  have hgoal : (∃ t, step s = .next t) ∨ ∃ r, step s = .refused r ∧ r.ofOperand = true := by
    cases stepOf s with
    | presents moves q hmoves hq heq =>
      obtain ⟨hcmd, hext, i, hd, hwf⟩ := isRequest_iff.1 (List.all_eq_true.1 hwaiting q hq)
      rw [heq]
      rcases present_inv hdrop (dropMove_requests s ▸ hq) moves hd (dropMove_conf s ▸ hwf) with
        ⟨t, ht, -⟩ | ⟨r, hr, hof | hfmt⟩
      · exact .inl ⟨t, ht⟩
      · exact .inr ⟨r, hr, hof⟩
      · exfalso
        obtain ⟨-, hkeep⟩ := decodedPacketsKeepTheirBits q.packet i hd
        by_cases hshape : ∃ low, i = .shapeUnsupported low
        · obtain ⟨low, rfl⟩ := hshape
          rcases hfmt with hfmt | hfmt <;> cases hfmt
        · have hsame := hkeep fun low he => hshape ⟨low, he⟩
          rw [hsame] at hfmt
          exact hfmt.elim hcmd hext
    | device d hd heq =>
      obtain ⟨t, ht, -⟩ := deviceTurn_inv hdrop ((dropMove_devCmd s).trans hd)
      exact .inl ⟨t, heq.trans ht⟩
    | submits q heq => exact .inl ⟨_, heq⟩
    | nothing heq => exact .inl ⟨_, heq⟩
  rcases hgoal with ⟨t, ht⟩ | ⟨r, hr, hof⟩
  · exact ⟨fun f hf => (nomatch hf.symm.trans ht), fun r hr => (nomatch hr.symm.trans ht)⟩
  · refine ⟨fun f hf => (nomatch hf.symm.trans hr), fun r' hr' => ?_⟩
    cases hr'.symm.trans hr
    exact hof

end Sys2Proof.Machine

/-! ## What an operation never touches (R20, R27, R28, R238, R240 to R247, R285) -/

namespace Sys2Proof.Machine

open Sys2Proof.Claims

section

variable {s t u v : State} {op : Op} {ans : Answer} {m : Move}

/-! ### The search registers -/

theorem search_not_mem_writePage (c : Cfg) (e : Entry) (p : Nat) :
    Access.readCmd ∉ writePage c e p ∧ ∀ k, Access.readKey k ∉ writePage c e p := by
  simp [writePage]

theorem search_not_mem_readPage (c : Cfg) (p : Nat) :
    Access.readCmd ∉ readPage c p ∧ ∀ k, Access.readKey k ∉ readPage c p := by
  simp [readPage]

theorem search_not_mem_loadBody (c : Cfg) (e : Entry) (i : Index) (k : Nat) :
    Access.readCmd ∉ loadBody c e i k ∧ ∀ n, Access.readKey n ∉ loadBody c e i k := by
  match k with
  | 0 | 1 | 2 => simp [loadBody, search_not_mem_writePage]
  | _ + 3 => simp [loadBody]

theorem search_not_mem_readBody (c : Cfg) (i : Index) (k : Nat) :
    Access.readCmd ∉ readBody c i k ∧ ∀ n, Access.readKey n ∉ readBody c i k := by
  match k with
  | 0 | 1 | 2 | 3 => simp [readBody, search_not_mem_readPage]
  | _ + 4 => simp [readBody]

/-- An operation that does not search reads neither the answer's index nor the key registers (R238). -/
theorem search_not_mem_accessList (hop : s.op = some op) (hs : op.searches = false) :
    Access.readCmd ∉ accessList s ∧ ∀ k, Access.readKey k ∉ accessList s := by
  have hbody : Access.readCmd ∉ phaseBody s op s.phase ∧ ∀ k, Access.readKey k ∉ phaseBody s op s.phase := by
    cases op with
    | flushAll | flushEntry =>
      simp only [phaseBody]
      split <;> simp
    | loadEntry | advMain | advCascade => exact search_not_mem_loadBody _ _ _ _
    | readEntry => exact search_not_mem_readBody _ _ _
    | getNextEntry | findEntry | addPort | removePort => cases hs
  simp [accessList, hop, hbody]

/-- The index and the key registers of the search are the same in both states. -/
structure SameSearch (s t : State) : Prop where
  hwIndex : t.hwIndex = s.hwIndex
  key1 : t.key1 = s.key1
  key2 : t.key2 = s.key2
  key3 : t.key3 = s.key3

theorem SameSearch.refl (s : State) : SameSearch s s := ⟨rfl, rfl, rfl, rfl⟩

theorem SameSearch.trans (h : SameSearch s t) (h' : SameSearch t u) : SameSearch s u :=
  ⟨h'.1.trans h.1, h'.2.trans h.2, h'.3.trans h.3, h'.4.trans h.4⟩

theorem ctlStep_sameSearch (hop : s.op = some op) (hs : op.searches = false) (h : ctlStep ans s = .next t) :
    SameSearch s t := by
  obtain ⟨hcmd, hkey⟩ := search_not_mem_accessList hop hs
  obtain ⟨u, hu, ht⟩ := ctlStep_cases h
  have hsame : SameSearch s u := by
    cases hu with
    | register hw =>
      obtain ⟨_, _, _, _, rfl⟩ := writeReg_frame hw
      exact ⟨rfl, rfl, rfl, rfl⟩
    | index i hi => exact absurd hi hcmd
    | key1 w k hk => exact absurd hk (hkey k)
    | key2 w k hk => exact absurd hk (hkey k)
    | key3 w k hk => exact absurd hk (hkey k)
    | _ => exact ⟨rfl, rfl, rfl, rfl⟩
  cases ht <;> exact ⟨hsame.1, hsame.2, hsame.3, hsame.4⟩

/-! ### The flushes -/

/-- The two operations that stage nothing and select nothing (R240, R241). -/
def Op.isFlush (op : Op) : Prop := op = .flushAll ∨ ∃ j, op = .flushEntry j

/-- An access of a flush is a poll or its command. -/
theorem flush_access {a : Access} (hop : s.op = some op) (hf : op.isFlush) (ha : a ∈ accessList s) :
    a = .poll ∨ ∃ o page i, a = .issue o page i := by
  rw [accessList, hop] at ha
  rcases List.mem_cons.1 ha with rfl | ha
  · exact .inl rfl
  · right
    rcases hf with rfl | ⟨j, rfl⟩
    · simp only [phaseBody] at ha
      split at ha
      · exact ⟨_, _, _, List.mem_singleton.1 ha⟩
      · cases ha
    · simp only [phaseBody] at ha
      split at ha
      · exact ⟨_, _, _, List.mem_singleton.1 ha⟩
      · cases ha

/-- What the sequencer does next leaves the staging buffers and the registers alone. -/
theorem Continues.keeps_buffers (h : Continues u t) : t.e1 = u.e1 ∧ t.ext = u.ext := by
  cases h <;> exact ⟨rfl, rfl⟩

theorem ctlStep_flush (hop : s.op = some op) (hf : op.isFlush) (h : ctlStep ans s = .next t) :
    t.e1 = s.e1 ∧ t.ext = s.ext := by
  rw [ctlStep] at h
  split at h
  case h_2 => cases h
  rename_i a ha
  rcases flush_access hop hf (List.mem_of_getElem? ha) with rfl | ⟨o, page, i, rfl⟩
  · cases ans with
    | lost e => cases h; exact ⟨rfl, rfl⟩
    | landed e => cases h; exact ⟨rfl, rfl⟩
    | ok =>
      simp only [runAccess, pollOnce] at h
      split at h
      · cases h
      split at h
      · exact (advance_cases h).keeps_buffers
      split at h
      · cases h; exact ⟨rfl, rfl⟩
      · cases h; exact ⟨rfl, rfl⟩
  · have hwrite : ∀ {u}, writeReg s s.conf.tb s.conf.cmdOff (cmdword o page i) = .next u → u.e1 = s.e1 ∧ u.ext = s.ext := by
      intro u hu
      simp only [writeReg, if_true] at hu
      obtain ⟨-, ⟨-, rfl⟩ | ⟨-, rfl⟩⟩ := writeCmd_cases hu <;> exact ⟨rfl, rfl⟩
    rcases onWrite_cases h with ⟨e, -, rfl⟩ | ⟨u, hu, ⟨e, -, rfl⟩ | ⟨-, h⟩⟩
    · exact ⟨rfl, rfl⟩
    · exact hwrite (u := u) hu
    · cases h
      exact hwrite (u := u) hu

/-! ### The frame of an operation -/

/-- What stays while the operation `op` runs from `s`, in which its requester holds the lock: the parties, the model's own
notes and `E2`; and, for operations that do not name them, the search registers, `E1` and `EXT`. While the operation is in
progress its requester waits; when it has ended its request is answered, or its first tenure of an `AdvConfig` is done. -/
structure OpFrame (s : State) (op : Op) (u : State) : Prop where
  cfg : u.cfg = s.cfg
  caller : u.caller = s.caller
  turn : u.turn = s.turn
  fnOut : u.fnOut = s.fnOut
  fnFor : u.fnFor = s.fnFor
  drawn : u.drawn = s.drawn
  e2 : u.e2 = s.e2
  held : u.lockOwner ≠ none →
    u.lockOwner = s.lockOwner ∧ u.op = some op ∧ u.requests = s.requests ∧ u.cascaded = s.cascaded
  ended : u.lockOwner = none →
    u.requests = s.requests.filter (fun q => q.who != s.caller) ∧
        u.cascaded = s.cascaded.filter (fun w => w != s.caller) ∨
      (∃ i j, op = .advCascade i j) ∧ u.requests = s.requests ∧ u.cascaded = s.caller :: s.cascaded ∧
        u.result = s.result
  result : u.lockOwner ≠ none → u.result = s.result
  search : op.searches = false → SameSearch s u
  flush : op.isFlush → u.e1 = s.e1 ∧ u.ext = s.ext

theorem OpFrame.refl (hop : s.op = some op) (hl : s.lockOwner ≠ none) : OpFrame s op s :=
  ⟨rfl, rfl, rfl, rfl, rfl, rfl, rfl, fun _ => ⟨rfl, hop, rfl, rfl⟩, fun h => absurd h hl, fun _ => rfl,
    fun _ => .refl s, fun _ => ⟨rfl, rfl⟩⟩

theorem OpFrame.withSched (h : OpFrame s op u) (ms : List Move) : OpFrame s op { u with sched := ms } :=
  ⟨h.cfg, h.caller, h.turn, h.fnOut, h.fnFor, h.drawn, h.e2, h.held, h.ended, h.result,
    fun hs => ⟨(h.search hs).1, (h.search hs).2, (h.search hs).3, (h.search hs).4⟩, h.flush⟩

theorem OpFrame.ctlStep (h : OpFrame s op u) (hown : u.lockOwner ≠ none) (hv : ctlStep ans u = .next v) :
    OpFrame s op v := by
  obtain ⟨hl, hop, hreq, hcas⟩ := h.held hown
  have hsearch : op.searches = false → SameSearch s v := fun hs =>
    (h.search hs).trans (ctlStep_sameSearch hop hs hv)
  have hflush : op.isFlush → v.e1 = s.e1 ∧ v.ext = s.ext := fun hf =>
    ⟨(ctlStep_flush hop hf hv).1.trans (h.flush hf).1, (ctlStep_flush hop hf hv).2.trans (h.flush hf).2⟩
  obtain ⟨x, hx, hxv⟩ := ctlStep_cases hv
  obtain ⟨_, _, _, _, _, _, _, _, _, _, _, -, rfl⟩ := hx.frame
  have hends : u.requests.filter (fun q => q.who != u.caller) = s.requests.filter (fun q => q.who != s.caller) ∧
      u.cascaded.filter (fun w => w != u.caller) = s.cascaded.filter (fun w => w != s.caller) := by
    rw [hreq, hcas, h.caller]
    exact ⟨rfl, rfl⟩
  cases hxv with
  | stays | moves | issues =>
    exact ⟨h.cfg, h.caller, h.turn, h.fnOut, h.fnFor, h.drawn, h.e2, fun _ => ⟨hl, hop, hreq, hcas⟩,
      fun hn => absurd hn hown, fun _ => h.result hown, hsearch, hflush⟩
  | aborts | ends =>
    exact ⟨h.cfg, h.caller, h.turn, h.fnOut, h.fnFor, h.drawn, h.e2, fun hn => absurd rfl hn, fun _ => .inl hends,
      fun hn => absurd rfl hn, hsearch, hflush⟩
  | cascades i j hij =>
    refine ⟨h.cfg, h.caller, h.turn, h.fnOut, h.fnFor, h.drawn, h.e2, fun hn => absurd rfl hn,
      fun _ => .inr ⟨⟨i, j, ?_⟩, hreq, ?_, h.result hown⟩, fun hn => absurd rfl hn, hsearch, hflush⟩
    · exact Option.some.inj (hop.symm.trans hij)
    · exact congrArg₂ _ h.caller hcas

theorem OpFrame.applyMove (h : OpFrame s op u) (hown : u.lockOwner ≠ none) (hv : applyMove m u = .next v) :
    OpFrame s op v := by
  cases m with
  | request k => cases hv; exact h
  | submit q => cases hv; exact h
  | access ans => exact h.ctlStep hown hv
  | device =>
    obtain ⟨_, _, _, _, rfl⟩ := devComplete_frame hv
    exact ⟨h.cfg, h.caller, h.turn, h.fnOut, h.fnFor, h.drawn, h.e2, h.held, h.ended, h.result,
      fun hs => ⟨(h.search hs).1, (h.search hs).2, (h.search hs).3, (h.search hs).4⟩, h.flush⟩

/-- A run of moves stays within the frame of its operation. -/
theorem goOn_frame (hop : s.op = some op) (hl : s.lockOwner ≠ none) (h : goOn s = .next t) : OpFrame s op t :=
  goOn_induct (P := OpFrame s op) (fun _ _ _ _ hown hu hv => hu.applyMove hown hv) (fun _ ms _ hu => hu.withSched ms) h
    (.refl hop hl)

/-- What a performed request leaves alone: it does nothing, or runs within the frame of its operation, in progress or just
started. -/
theorem perform_frame {stage : State → State} {e1 e2 : Entry} (hstage : stage (s.acquire op) = s.started op e1 e2)
    (h : perform op stage s = .next t) :
    t = s ∨ s.lockOwner = some s.caller ∧ OpFrame s op t ∨ s.lockOwner = none ∧ OpFrame (s.started op e1 e2) op t := by
  rcases perform_cases hstage h with rfl | ⟨u, ⟨hl, hop, rfl⟩ | ⟨hfree, rfl⟩, hgo⟩
  · exact .inl rfl
  · exact .inr (.inl ⟨hl, goOn_frame hop (by simp [hl]) hgo⟩)
  · exact .inr (.inr ⟨hfree, goOn_frame rfl nofun hgo⟩)

/-! ### Nothing of other requesters changes -/

theorem sameForOthers_refl (s : State) : SameForOthers s s := ⟨rfl, rfl, rfl, rfl, rfl, rfl, rfl, rfl⟩

theorem sameForOthers_trans (h : SameForOthers s t) (h' : SameForOthers t u) : SameForOthers s u := by
  obtain ⟨hcfg, hcaller, hturn, hout, hfor, hdrawn, hreq, hcas⟩ := h
  obtain ⟨hcfg', hcaller', hturn', hout', hfor', hdrawn', hreq', hcas'⟩ := h'
  rw [hcaller] at hreq' hcas'
  exact ⟨hcfg'.trans hcfg, hcaller'.trans hcaller, hturn'.trans hturn, hout'.trans hout, hfor'.trans hfor,
    hdrawn'.trans hdrawn, hreq'.trans hreq, hcas'.trans hcas⟩

theorem sameForOthers_started (s : State) (op : Op) (e1 e2 : Entry) : SameForOthers s (s.started op e1 e2) :=
  ⟨rfl, rfl, rfl, rfl, rfl, rfl, rfl, rfl⟩

theorem OpFrame.sameForOthers (h : OpFrame s op u) : SameForOthers s u := by
  refine ⟨h.cfg, h.caller, h.turn, h.fnOut, h.fnFor, h.drawn, ?_⟩
  by_cases hl : u.lockOwner = none
  · rcases h.ended hl with ⟨hreq, hcas⟩ | ⟨-, hreq, hcas, -⟩
    · rw [hreq, hcas]
      simp [List.filter_filter]
    · rw [hreq, hcas]
      simp
  · obtain ⟨-, -, hreq, hcas⟩ := h.held hl
    rw [hreq, hcas]
    exact ⟨rfl, rfl⟩

/-- Turning a request away touches no state of the block and nothing of other requesters. -/
theorem reject_frame (h : reject s = .next t) :
    SameForOthers s t ∧ t.e1 = s.e1 ∧ t.e2 = s.e2 ∧ t.ext = s.ext ∧ SameSearch s t := by
  rw [reject] at h
  split at h
  · cases h
    exact ⟨sameForOthers_refl s, rfl, rfl, rfl, .refl s⟩
  · cases h
    refine ⟨⟨rfl, rfl, rfl, rfl, rfl, rfl, ?_, ?_⟩, rfl, rfl, rfl, rfl, rfl, rfl, rfl⟩
    · simp [List.filter_filter]
    · simp [List.filter_filter]

/-- The frame of a tenure of an `AdvConfig`. -/
theorem perform_adv_frame {stage : State → State} {e1 e2 : Entry} (hs : op.searches = false)
    (hstage : stage (s.acquire op) = s.started op e1 e2) (h : perform op stage s = .next t) :
    SameForOthers s t ∧ SameSearch s t := by
  rcases perform_frame hstage h with rfl | ⟨-, hf⟩ | ⟨-, hf⟩
  · exact ⟨sameForOthers_refl _, .refl _⟩
  · exact ⟨hf.sameForOthers, hf.search hs⟩
  · refine ⟨sameForOthers_trans (sameForOthers_started s op e1 e2) hf.sameForOthers, ?_⟩
    exact SameSearch.trans (t := s.started op e1 e2) ⟨rfl, rfl, rfl, rfl⟩ (hf.search hs)

theorem advMainTenure_frame {i j : Index} {es : List Entry} (h : advMainTenure i j es s = .next t) :
    SameForOthers s t ∧ SameSearch s t := by
  simp only [advMainTenure] at h
  split at h
  · rename_i a b
    exact perform_adv_frame (e1 := a) (e2 := b) rfl rfl h
  · rename_i a
    exact perform_adv_frame (e1 := a) (e2 := s.e2) rfl rfl h
  · exact ⟨(reject_frame h).1, (reject_frame h).2.2.2.2⟩

theorem advTenures_frame {i j : Index} {es : List Entry} (h : advTenures i j es s = .next t) :
    SameForOthers s t ∧ SameSearch s t := by
  simp only [advTenures] at h
  split at h
  · rename_i a b
    split at h
    · exact advMainTenure_frame h
    · obtain ⟨u, hu, h⟩ := andThen_eq_next h
      obtain ⟨hothers, hsearch⟩ := perform_adv_frame (e1 := a) (e2 := b) rfl rfl hu
      split at h
      · obtain ⟨hothers', hsearch'⟩ := advMainTenure_frame h
        exact ⟨sameForOthers_trans hothers hothers', hsearch.trans hsearch'⟩
      · cases h
        exact ⟨hothers, hsearch⟩
  · exact advMainTenure_frame h

theorem execAdvConfig_frame {port : BitVec 4} {i j : Index} {rule : Option Rule}
    (h : exec (.advConfig port i j rule) s = .next t) : SameForOthers s t ∧ SameSearch s t := by
  change execAdvConfig port i j rule s = .next t at h
  have hreject : ∀ {u}, reject s = .next u → SameForOthers s u ∧ SameSearch s u := fun h =>
    ⟨(reject_frame h).1, (reject_frame h).2.2.2.2⟩
  simp only [execAdvConfig] at h
  split at h
  · exact hreject h
  split at h
  · split at h
    · exact advTenures_frame h
    · exact hreject h
  · exact hreject h

end

/-- What a request stages leaves `E2` alone, and `E1` too unless it is a `LoadEntry`. -/
theorem stageOf_started_eq {i : Instr} {op : Op} (s : State) (hop : opOf i = some op) :
    ∃ e1, stageOf i (s.acquire op) = s.started op e1 s.e2 ∧ (op.isFlush → e1 = s.e1) := by
  cases i with
  | loadEntry port index entry =>
    cases entry with
    | none => cases hop
    | some e =>
      cases hop
      exact ⟨e, rfl, by rintro (h | ⟨j, h⟩) <;> cases h⟩
  | _ => exact ⟨s.e1, rfl, fun _ => rfl⟩

/-- Settles O45: a request is turned away, waits, or stays within the frame of its operation. -/
theorem operationsKeepWhatTheyDoNotName : Obligations.OperationsKeepWhatTheyDoNotName := by
  refine fun i s t h => ⟨fun op hop => ?_, ?_⟩
  · cases hv : op.valid s.conf with
    | false =>
      rw [exec_of_not_valid hop hv] at h
      obtain ⟨hothers, he1, he2, hext, hsearch⟩ := reject_frame h
      exact ⟨hothers, he2, fun _ => ⟨hsearch.1, hsearch.2, hsearch.3, hsearch.4⟩, fun _ => ⟨he1, hext⟩⟩
    | true =>
      rw [exec_of_valid hop hv] at h
      obtain ⟨e1, hstage, hflush⟩ := stageOf_started_eq s hop
      rcases perform_frame hstage h with rfl | ⟨-, hf⟩ | ⟨-, hf⟩
      · exact ⟨sameForOthers_refl _, rfl, fun _ => ⟨rfl, rfl, rfl, rfl⟩, fun _ => ⟨rfl, rfl⟩⟩
      · exact ⟨hf.sameForOthers, hf.e2,
          fun hs => ⟨(hf.search hs).1, (hf.search hs).2, (hf.search hs).3, (hf.search hs).4⟩, hf.flush⟩
      · exact ⟨sameForOthers_trans (sameForOthers_started s op e1 s.e2) hf.sameForOthers, hf.e2,
          fun hs => ⟨(hf.search hs).1, (hf.search hs).2, (hf.search hs).3, (hf.search hs).4⟩,
          fun hfl => ⟨(hf.flush hfl).1.trans (hflush hfl), (hf.flush hfl).2⟩⟩
  · rintro ⟨port, index, index2, r, rfl⟩
    obtain ⟨hothers, hsearch⟩ := execAdvConfig_frame h
    exact ⟨hothers, hsearch.1, hsearch.2, hsearch.3, hsearch.4⟩

end Sys2Proof.Machine

/-! ## The bound of an operation (R251) -/

namespace Sys2Proof.Machine

open Sys2Proof.Claims

/-- At its start an operation has all of its phases before it. -/
theorem remaining_started (s : State) (op : Op) (e1 e2 : Entry) :
    remaining (s.started op e1 e2) op = op.work s.conf (op.commands + 1) 0 := rfl

/-- The accesses of an operation, waits included: for the four that load or read an entry, and for any. -/
theorem work_le (c : Cfg) (op : Op) :
    op.work c (op.commands + 1) 0 ≤ 8 * c.pollLimit + 2 * pageRegisters c + 13 := by
  cases op <;> simp [Op.work, Op.commands, Op.bodyLen, pageRegisters] <;> omega

theorem work_advCascade (c : Cfg) (i j : Index) :
    (Op.advCascade i j).work c 4 0 = 4 * c.pollLimit + pageRegisters c + 4 := by
  simp [Op.work, Op.bodyLen, pageRegisters]
  omega

theorem work_advMain (c : Cfg) (i j : Index) (two : Bool) :
    (Op.advMain i j two).work c 4 0 = 4 * c.pollLimit + pageRegisters c + 4 := by
  simp [Op.work, Op.bodyLen, pageRegisters]
  omega

section

variable {s t : State} {op : Op} {n : Nat}

/-- With as many accesses as it has left, an operation ends. -/
theorem After.ends (h : After n s op t) (hn : remaining s op ≤ n) : t.lockOwner = none := by
  cases h with
  | goes run same less =>
    have := run.remaining_pos
    omega
  | delivers => rfl
  | cascades => rfl

theorem After.cfg (h : After n s op t) : t.cfg = s.cfg := by
  cases h with
  | goes run same less => exact same.cfg
  | delivers r sound same used => exact same.cfg
  | cascades i j hop sound same used => exact same.cfg

/-- An operation that finds the lock free takes it and runs (R230). -/
theorem Sound.perform_free (h : Sound s) (hl : s.lockOwner = none) {stage : State → State} {e1 e2 : Entry}
    (hv : op.valid s.conf = true) (h1 : e1.wf s.conf = true) (h2 : e2.wf s.conf = true)
    (hstage : stage (s.acquire op) = s.started op e1 e2) :
    ∃ t, perform op stage s = .next t ∧ After (accesses s.sched) (s.started op e1 e2) op t := by
  obtain ⟨t, ht, hafter⟩ := (h.started hv h1 h2).goOn
  exact ⟨t, by rw [perform_takes _ _ hl, hstage, ht], hafter⟩

/-- The second tenure, given what the first one left of the bound, ends. -/
theorem secondTenure_ends (hs : Sound s) (hl : s.lockOwner = none) {i j : Index} {a b : Entry}
    (hv : (Op.advMain i j true).valid s.conf = true) (ha : a.wf s.conf = true) (hb : b.wf s.conf = true)
    (hn : 4 * s.conf.pollLimit + pageRegisters s.conf + 4 ≤ accesses s.sched) :
    ∃ t, secondTenure i j a b s = .next t ∧ t.lockOwner = none := by
  rw [secondTenure]
  split
  · obtain ⟨t, ht, hafter⟩ := hs.perform_free (stage := fun u => { u with e1 := a, e2 := b }) hl hv ha hb rfl
    refine ⟨t, ht, hafter.ends ?_⟩
    rw [remaining_started]
    exact (work_advMain s.conf i j true).le.trans hn
  · exact ⟨s, rfl, hl⟩

end

/-- Settles O50: the accesses that are left bound each tenure, and the two of an `AdvConfig` need no more than a port
operation does. -/
theorem operationsEndWithinTheirBound : Obligations.OperationsEndWithinTheirBound := by
  refine ⟨fun i s hsized hlatch hcmd hl hwf hacc hn => ?_, fun tb pollLimit mask => rfl⟩
  have hsound : Sound s := ⟨hsized, hlatch, hcmd⟩
  obtain ⟨-, -, -, -, he2⟩ := (State.sized_iff s).1 hsized
  rcases hacc with hacc | ⟨port, index, index2, r, rfl, hv⟩
  · obtain ⟨op, hop, hv⟩ := accepted_iff.1 hacc
    obtain ⟨e, he, hstage⟩ := stageOf_started op hwf hsized
    obtain ⟨t, ht, hafter⟩ := hsound.perform_free hl hv he he2 hstage
    exact ⟨t, (exec_of_valid hop hv).trans ht, hafter.ends ((work_le s.conf op).trans hn)⟩
  · obtain ⟨es, hes, -, hexec⟩ := exec_advConfig (port := port) hv
    rw [hexec]
    have hmain : ∀ two, (Op.advMain index index2 two).valid s.conf = true := fun two => advMain_valid two hv
    rcases compileRule_cases s.cfg hes with ⟨a, rfl, ha⟩ | ⟨a, b, rfl, ha, hb, hsecond⟩
    · obtain ⟨t, ht, hafter⟩ := hsound.perform_free (stage := fun u => { u with e1 := a }) hl (hmain false) ha he2 rfl
      exact ⟨t, ht, hafter.ends ((work_le s.conf _).trans hn)⟩
    · by_cases hc : s.caller ∈ s.cascaded
      · rw [advTenures_main hc]
        obtain ⟨t, ht, hafter⟩ := hsound.perform_free (stage := fun u => { u with e1 := a, e2 := b }) hl (hmain true) ha hb
          rfl
        exact ⟨t, ht, hafter.ends ((work_le s.conf _).trans hn)⟩
      · obtain ⟨u, hu, hafter⟩ := hsound.perform_free (stage := fun u => { u with e1 := a, e2 := b }) hl
          (advCascade_valid hv hsecond) ha hb rfl
        have hwork := work_advCascade s.conf index index2
        have hended := hafter.ends ((work_le s.conf _).trans hn)
        have hcfg : u.cfg = s.cfg := hafter.cfg
        have hconf : u.conf = s.conf := congrArg Subtype.val hcfg
        rw [advTenures_cascade hc, hu, andThen_next]
        cases hafter with
        | goes run same less => exact absurd hended run.owner
        | delivers v sound same used =>
          refine ⟨_, secondTenure_of_not_done fun hmem => ?_, rfl⟩
          simp at hmem
        | @cascades v i j hop sound same used =>
          rw [remaining_started] at used
          have hused : accesses s.sched ≤ 4 * s.conf.pollLimit + pageRegisters s.conf + 4 + accesses v.sched :=
            hwork ▸ used
          have hrest : Sound { v.release with cascaded := v.caller :: v.cascaded } := (Resting.of_cascade sound).sound
          refine secondTenure_ends hrest rfl (hconf ▸ hmain true) (hconf ▸ ha) (hconf ▸ hb) ?_
          rw [hconf]
          change _ ≤ accesses v.sched
          omega

end Sys2Proof.Machine

/-! ## A burst is its parts (R23, R352) -/

namespace Sys2Proof.Machine

open Sys2Proof.Claims

theorem andThen_congr {o : Out} {f g : State → Out} (h : ∀ t, o = .next t → f t = g t) : andThen o f = andThen o g := by
  cases o with
  | next t => exact h t rfl
  | fault r => rfl
  | refused r => rfl

section

variable {s t : State} {op : Op} {stage : State → State} {e1 e2 : Entry}

/-- A run of moves leaves no move decided while its operation is in progress. -/
theorem runMoves_sched_nil {ms : List Move} (hs : s.sched = []) (h : runMoves ms s = .next t) (hl : t.lockOwner ≠ none) :
    t.sched = [] := by
  induction ms generalizing s with
  | nil => cases h; exact hs
  | cons m ms ih =>
    rw [runMoves] at h
    split at h
    · cases h
      contradiction
    · obtain ⟨u, hu, h⟩ := andThen_eq_next h
      exact ih ((applyMove_sched hu).trans hs) h

/-- With the lock free, a request that is performed runs the decided moves from the start of its operation. -/
theorem perform_withMoves (hl : s.lockOwner = none)
    (hstage : ∀ ms, stage ((withMoves s ms).acquire op) = (withMoves s ms).started op e1 e2) (ms : List Move) :
    perform op stage (withMoves s ms) = runMoves ms ((withMoves s []).started op e1 e2) := by
  rw [perform_takes (s := withMoves s ms) _ _ hl, hstage]
  rfl

/-- In progress it goes on with them. -/
theorem perform_in_progress (hl : s.lockOwner = some s.caller) (hop : s.op = some op) (ms : List Move)
    (hs : s.sched = []) : perform op stage (withMoves s ms) = runMoves ms s := by
  have hself : withMoves s [] = s := by rw [withMoves, ← hs]
  rw [perform, if_pos (show (withMoves s ms).lockOwner = some (withMoves s ms).caller from hl),
    if_pos (show (withMoves s ms).op = some op from hop)]
  exact congrArg (runMoves ms) hself

/-- A performed request may be given its moves in two parts. -/
theorem perform_burst (hl : s.lockOwner = none)
    (hstage : ∀ ms, stage ((withMoves s ms).acquire op) = (withMoves s ms).started op e1 e2) (a b : List Move) :
    perform op stage (withMoves s (a ++ b)) =
      andThen (perform op stage (withMoves s a)) fun t =>
        if t.lockOwner = none then .next (withMoves t (t.sched ++ b)) else perform op stage (withMoves t b) := by
  rw [perform_withMoves hl hstage, perform_withMoves hl hstage, runMoves_append _ _ _ rfl]
  refine andThen_congr fun t ht => ?_
  by_cases hown : t.lockOwner = none
  · rw [if_pos hown, if_pos hown]
    rfl
  · have hframe : OpFrame ((withMoves s []).started op e1 e2) op t :=
      runMoves_induct (P := OpFrame _ op) (fun _ _ _ _ hown hu hv => hu.applyMove hown hv)
        (fun _ ms _ hu => hu.withSched ms) ht (.refl rfl nofun)
    obtain ⟨hlock, hop, -⟩ := hframe.held hown
    have hlock' : t.lockOwner = some t.caller := hframe.caller ▸ hlock
    rw [if_neg hown, if_neg hown, perform_in_progress hlock' hop b (runMoves_sched_nil rfl ht hown)]

end

section

variable {i j : Index} {a b : Entry} {s : State}

theorem advTenures_congr {es : List Entry} {t : State} {port : BitVec 4} {r : Rule} (hcfg : t.cfg = s.cfg)
    (hv : advValid s.conf i j r = true) (hes : compileRule s.conf r j = some es) (ms : List Move) :
    exec (.advConfig port i j (some r)) (withMoves t ms) = advTenures i j es (withMoves t ms) := by
  have hconf : (withMoves t ms).conf = s.conf := congrArg Subtype.val hcfg
  obtain ⟨es', hes', -, hexec⟩ := exec_advConfig (s := withMoves t ms) (port := port) (hconf ▸ hv)
  rw [hconf] at hes'
  cases hes'.symm.trans hes
  exact hexec

/-- The main tenure of an `AdvConfig` may be given its moves in two parts; while it is in progress its requester is half
done as before, and when it has ended it is not. -/
theorem mainTenure_burst {op : Op} {stage : State → State} {e1 e2 : Entry} (hl : s.lockOwner = none)
    (hstage : ∀ ms, stage ((withMoves s ms).acquire op) = (withMoves s ms).started op e1 e2)
    (hmain : ∀ i j, op ≠ .advCascade i j) (x y : List Move) (g : State → Out)
    (hg : ∀ t, t.cfg = s.cfg → t.caller = s.caller → t.cascaded = s.cascaded →
      g t = perform op stage (withMoves t y)) :
    perform op stage (withMoves s (x ++ y)) =
      andThen (perform op stage (withMoves s x)) fun t =>
        if t.lockOwner = none ∧ (s.caller ∉ t.cascaded ∨ y = []) then .next (withMoves t (t.sched ++ y)) else g t := by
  rw [perform_burst hl hstage]
  refine andThen_congr fun t ht => ?_
  have hframe : OpFrame ((withMoves s x).started op e1 e2) op t := by
    rw [perform_takes (s := withMoves s x) _ _ hl, hstage] at ht
    exact goOn_frame rfl nofun ht
  by_cases hown : t.lockOwner = none
  · have hnot : s.caller ∉ t.cascaded := by
      rcases hframe.ended hown with ⟨-, hcas⟩ | ⟨⟨i, j, hc⟩, -⟩
      · rw [hcas]
        simp [State.started, withMoves]
      · exact absurd hc (hmain i j)
    rw [if_pos hown, if_pos ⟨hown, .inl hnot⟩]
  · rw [if_neg hown, if_neg fun h => hown h.1, hg t hframe.cfg hframe.caller (hframe.held hown).2.2.2]

end

/-- Settles O51: a tenure may be given its moves in two parts, and between its two tenures an `AdvConfig` that has moves
left goes on with the second. -/
theorem aBurstIsItsParts : Obligations.ABurstIsItsParts := by
  refine fun i x y s hl => ⟨fun hacc => ?_, ?_⟩
  · obtain ⟨op, hop, hv⟩ := accepted_iff.1 hacc
    obtain ⟨e1, hstage⟩ : ∃ e1, ∀ ms, stageOf i ((withMoves s ms).acquire op) = (withMoves s ms).started op e1 s.e2 := by
      cases i with
      | loadEntry port index entry =>
        cases entry with
        | none => cases hop
        | some e => exact ⟨e, fun ms => rfl⟩
      | _ => exact ⟨s.e1, fun ms => rfl⟩
    have hexec : ∀ {t : State}, t.cfg = s.cfg → exec i t = perform op (stageOf i) t := fun hcfg =>
      exec_of_valid hop (by rwa [State.conf, hcfg])
    rw [hexec (t := withMoves s (x ++ y)) rfl, hexec (t := withMoves s x) rfl, perform_burst hl hstage]
    refine andThen_congr fun t ht => ?_
    by_cases hown : t.lockOwner = none
    · rw [if_pos hown, if_pos hown]
    · rw [perform_takes (s := withMoves s x) _ _ hl, hstage] at ht
      rw [if_neg hown, if_neg hown, hexec (t := withMoves t y)
        (goOn_frame (s := (withMoves s x).started op e1 s.e2) rfl nofun ht).cfg]
  · rintro ⟨port, index, index2, r, rfl, hv⟩
    obtain ⟨es, hes, -, -⟩ := exec_advConfig (port := port) hv
    have hexec : ∀ {t : State} (ms : List Move), t.cfg = s.cfg →
        exec (.advConfig port index index2 (some r)) (withMoves t ms) = advTenures index index2 es (withMoves t ms) :=
      fun ms hcfg => advTenures_congr hcfg hv hes ms
    rw [hexec _ rfl, hexec _ rfl]
    rcases compileRule_cases s.cfg hes with ⟨a, rfl, -⟩ | ⟨a, b, rfl, -⟩
    · rw [advTenures_one, advTenures_one]
      refine mainTenure_burst (e1 := a) (e2 := s.e2) hl (fun ms => rfl) (by simp) x y _ fun t hcfg _ _ => ?_
      rw [hexec _ hcfg, advTenures_one]
    · have hmain : ∀ {u : State}, u.cfg = s.cfg → u.caller ∈ u.cascaded → ∀ ms,
          exec (.advConfig port index index2 (some r)) (withMoves u ms) =
            perform (.advMain index index2 true) (fun t => { t with e1 := a, e2 := b }) (withMoves u ms) :=
        fun hcfg hmem ms => (hexec ms hcfg).trans (advTenures_main hmem)
      by_cases hc : s.caller ∈ s.cascaded
      · rw [advTenures_main (s := withMoves s (x ++ y)) hc, advTenures_main (s := withMoves s x) hc]
        refine mainTenure_burst (e1 := a) (e2 := b) hl (fun ms => rfl) (by simp) x y _ fun t hcfg hcall hcas => ?_
        exact hmain hcfg (by rwa [hcall, hcas]) y
      · rw [advTenures_cascade (s := withMoves s (x ++ y)) hc, advTenures_cascade (s := withMoves s x) hc,
          perform_burst (e1 := a) (e2 := b) hl fun ms => rfl, andThen_assoc, andThen_assoc]
        refine andThen_congr fun t ht => ?_
        rw [perform_takes (s := withMoves s x) _ _ hl] at ht
        have hframe : OpFrame ((withMoves s x).started (.advCascade index index2) a b) (.advCascade index index2) t :=
          goOn_frame rfl nofun ht
        have hcaller : t.caller = s.caller := hframe.caller
        by_cases hown : t.lockOwner = none
        · rw [if_pos hown, andThen_next]
          rcases hframe.ended hown with ⟨-, hcas⟩ | ⟨-, -, hcas, -⟩
          · have hnot : s.caller ∉ t.cascaded := by
              rw [hcas]
              simp [State.started, withMoves]
            rw [secondTenure_of_not_done (t := withMoves t (t.sched ++ y)) fun hm => absurd (hcaller ▸ hm) hnot,
              secondTenure_of_not_done (t := t) fun hm => absurd (hcaller ▸ hm) hnot, andThen_next,
              if_pos ⟨hown, .inl hnot⟩]
          · have hmem : t.caller ∈ t.cascaded := by
              rw [hcas, hcaller]
              exact List.mem_cons_self ..
            by_cases hmoves : t.sched = []
            · rw [secondTenure_of_not_done (t := t) fun _ _ => hmoves, andThen_next, hmoves, List.nil_append]
              by_cases hy : y = []
              · rw [if_pos ⟨hown, .inr hy⟩]
                exact secondTenure_of_not_done fun _ _ => hy
              · rw [if_neg (by simp [hy, hcaller ▸ hmem]), hmain hframe.cfg hmem]
                exact secondTenure_of_done hmem hown hy
            · have hself : withMoves t t.sched = t := rfl
              rw [secondTenure_of_done (t := withMoves t (t.sched ++ y)) hmem hown (by simp [withMoves, hmoves]),
                secondTenure_of_done hmem hown hmoves,
                mainTenure_burst (e1 := a) (e2 := b) hown (fun ms => rfl) (by simp) t.sched y
                  (fun u => exec (.advConfig port index index2 (some r)) (withMoves u y)) fun u hcfg hcall hcas' =>
                  hmain (hcfg.trans hframe.cfg) (by rwa [hcall, hcas']) y, hself, hcaller]
        · have hheld := hframe.held hown
          rw [if_neg hown, secondTenure_of_not_done (t := t) fun _ hn => absurd hn hown, andThen_next,
            if_neg fun h => hown h.1, hexec y hframe.cfg]
          refine (advTenures_cascade (s := withMoves t y) ?_).symm
          rw [show (withMoves t y).cascaded = s.cascaded from hheld.2.2.2, show (withMoves t y).caller = s.caller from hcaller]
          exact hc

end Sys2Proof.Machine

/-! ## A device that stays busy (R25, R219, R233, R302) -/

namespace Sys2Proof.Machine

open Sys2Proof.Claims

/-- An operation at a wait, with `BUSY` 1. -/
structure Stuck (s : State) : Prop where
  op : s.op ≠ none
  owner : s.lockOwner ≠ none
  seqStep : s.seqStep = 0
  busy : s.busy = true

theorem accessList_zero {s : State} (h : s.op ≠ none) : (accessList s)[0]? = some .poll := by
  obtain ⟨op, hop⟩ := Option.ne_none_iff_exists'.1 h
  rw [accessList, hop]
  rfl

section

variable {s : State}

theorem Stuck.ctlStep (h : Stuck s) :
    ctlStep .ok s =
      if s.conf.pollLimit ≤ s.pollCnt + 1 then .next (({ s with pollCnt := s.pollCnt + 1 } : State).abort .timeout)
      else .next { s with pollCnt := s.pollCnt + 1 } := by
  rw [ctlStep_eq (a := .poll) _ (by rw [h.seqStep, accessList_zero h.op]), runAccess_poll_busy h.busy]

theorem Stuck.withPolls (h : Stuck s) (n : Nat) : Stuck { s with pollCnt := n } := ⟨h.op, h.owner, h.seqStep, h.busy⟩

/-- Each busy poll counts one and does nothing else (R25, R233). -/
theorem Stuck.polls (h : Stuck s) (n : Nat) (hn : s.pollCnt + n < s.conf.pollLimit) :
    runMoves (List.replicate n (.access .ok)) s = .next { s with pollCnt := s.pollCnt + n } := by
  induction n generalizing s with
  | zero => rfl
  | succ n ih =>
    have hstep : applyMove (.access .ok) s = .next { s with pollCnt := s.pollCnt + 1 } :=
      h.ctlStep.trans (if_neg (by omega))
    rw [List.replicate_succ, runMoves_cons _ _ _ h.owner, hstep, andThen_next,
      ih (h.withPolls _) (show s.pollCnt + 1 + n < s.conf.pollLimit by omega)]
    exact congrArg (fun k => Host.Outcome.next { s with pollCnt := k }) (Nat.add_right_comm s.pollCnt 1 n)

/-- The poll that reaches `POLL_LIMIT` ends the operation with `Timeout` and leaves the other moves alone (R302). -/
theorem Stuck.timeout (h : Stuck s) (hs : s.sched = []) (rest : List Move) (n : Nat)
    (hn : s.pollCnt + n + 1 = s.conf.pollLimit) :
    runMoves (List.replicate (n + 1) (.access .ok) ++ rest) s =
      .next { aborted s .timeout with pollCnt := s.conf.pollLimit, sched := rest } := by
  induction n generalizing s with
  | zero =>
    have hstep : applyMove (.access .ok) s = .next (({ s with pollCnt := s.pollCnt + 1 } : State).abort .timeout) :=
      h.ctlStep.trans (if_pos (by omega))
    have hcount : s.pollCnt + 1 = s.conf.pollLimit := hn
    rw [List.replicate_one, List.singleton_append, runMoves_cons _ _ _ h.owner, hstep, andThen_next, hcount]
    exact runMoves_idle _ rest rfl hs
  | succ n ih =>
    have hstep : applyMove (.access .ok) s = .next { s with pollCnt := s.pollCnt + 1 } :=
      h.ctlStep.trans (if_neg (by omega))
    have hcount : s.pollCnt + 1 + n + 1 = s.conf.pollLimit := by omega
    rw [List.replicate_succ, List.cons_append, runMoves_cons _ _ _ h.owner, hstep, andThen_next,
      ih (h.withPolls (s.pollCnt + 1)) hs hcount]
    rfl

/-- From the start of a wait the limit is `POLL_LIMIT` polls. -/
theorem Stuck.timeout_of_zero (h : Stuck s) (hs : s.sched = []) (hp : s.pollCnt = 0) (rest : List Move) :
    runMoves (List.replicate s.conf.pollLimit (.access .ok) ++ rest) s =
      .next { aborted s .timeout with pollCnt := s.conf.pollLimit, sched := rest } := by
  obtain ⟨n, hn⟩ : ∃ n, s.conf.pollLimit = n + 1 := Nat.exists_eq_add_of_le' s.cfg.poll_pos
  have htimeout := h.timeout hs rest n (by omega)
  rwa [← hn] at htimeout

/-! ### The wait after a command -/

/-- The state right after a command is written (R235). -/
def State.commanded (s : State) (op : BitVec 3) (page : BitVec 2) (index : Index) : State :=
  { s with
    cmd := cmdword op page index, devCmd := some ⟨op, page, index⟩, fsm := .commandIssued, phase := s.phase + 1,
    seqStep := 0, pollCnt := 0 }

theorem busyFlag_cmdword (op : BitVec 3) (page : BitVec 2) (index : Index) :
    busyFlag (cmdword op page index) = true := by
  rw [cmdword_eq, busyFlag_command]
  rfl

theorem stuck_commanded (hop : s.op ≠ none) (hl : s.lockOwner ≠ none) (op : BitVec 3) (page : BitVec 2)
    (index : Index) : Stuck (s.commanded op page index) := ⟨hop, hl, rfl, busyFlag_cmdword op page index⟩

/-- `Issue` starts a new wait, whatever the one before it counted. -/
theorem applyMove_issue {op : BitVec 3} {page : BitVec 2} {index : Index}
    (ha : (accessList s)[s.seqStep]? = some (.issue op page index)) (hm : Makeable s (.issue op page index)) :
    applyMove (.access .ok) s = .next (s.commanded op page index) :=
  (ctlStep_eq _ ha).trans (runAccess_issue hm)

/-- A command that is never completed times out (R235, R302). -/
theorem issue_timeout {op : BitVec 3} {page : BitVec 2} {index : Index} (hop : s.op ≠ none) (hl : s.lockOwner ≠ none)
    (hs : s.sched = []) (ha : (accessList s)[s.seqStep]? = some (.issue op page index))
    (hm : Makeable s (.issue op page index)) (rest : List Move) :
    runMoves (.access .ok :: (List.replicate s.conf.pollLimit (.access .ok) ++ rest)) s =
      .next { aborted s .timeout with
        cmd := cmdword op page index, devCmd := some ⟨op, page, index⟩, pollCnt := s.conf.pollLimit,
        sched := rest } := by
  rw [runMoves_cons _ _ _ hl, applyMove_issue ha hm, andThen_next]
  exact (stuck_commanded hop hl op page index).timeout_of_zero hs rfl rest

/-! ### The first wait of every request -/

/-- A request that takes the lock while the device is busy, and is polled `POLL_LIMIT` times, times out. -/
theorem perform_stuck {op : Op} {stage : State → State} {e1 e2 : Entry}
    (hstage : stage (s.acquire op) = s.started op e1 e2) (hl : s.lockOwner = none) (hb : s.busy = true)
    {rest : List Move} (hs : s.sched = List.replicate s.conf.pollLimit (.access .ok) ++ rest) :
    perform op stage s =
      .next { finished s (.err .timeout) rest with
        pollCnt := s.conf.pollLimit, devCmd := s.devCmd, e1 := e1, e2 := e2 } := by
  have hstuck : Stuck { s.started op e1 e2 with sched := [] } := ⟨nofun, nofun, rfl, hb⟩
  rw [perform_takes _ _ hl, hstage, goOn, show (s.started op e1 e2).sched = s.sched from rfl, hs]
  exact hstuck.timeout_of_zero rfl rfl rest

end

/-- The access list of a flush at its start: the wait and the command. -/
theorem accessList_flush {s : State} {op : Op} {o : BitVec 3} {i : Index} (hop : s.op = some op) (hp : s.phase = 0)
    (h : phaseBody s op 0 = [.issue o 0 i]) : accessList s = [.poll, .issue o 0 i] := by
  rw [accessList, hop]
  simp only [hp, h]

/-- A poll that reads 0 ends the wait and goes on with the next access (R233). -/
theorem ctlStep_poll_idle {s : State} (hop : s.op ≠ none) (hz : s.seqStep = 0) (hb : s.busy = false)
    (hlen : 1 < (accessList s).length) : ctlStep .ok s = .next { s with fsm := .awaitingBusy, seqStep := 1 } := by
  rw [ctlStep_eq (a := .poll) _ (by rw [hz, accessList_zero hop]), runAccess_poll_idle hb, advance_eq]
  have hnext : s.seqStep + 1 < (accessList s).length := by omega
  refine (if_pos hnext).trans ?_
  rw [hz]

/-- A flush whose command is never completed (T8.1). -/
theorem flush_stuck {s : State} {op : Op} {o : BitVec 3} {i : Index} (hready : s.ready = true)
    (hbody : phaseBody (s.started op s.e1 s.e2) op 0 = [.issue o 0 i]) (ho : o ≠ 6 ∧ o ≠ 7) {rest : List Move}
    (hs : s.sched = .access .ok :: .access .ok :: (List.replicate s.conf.pollLimit (.access .ok) ++ rest)) :
    perform op id s =
      .next { finished s (.err .timeout) rest with
        pollCnt := s.conf.pollLimit, cmd := cmdword o 0 i, devCmd := some ⟨o, 0, i⟩ } := by
  simp only [State.ready, Bool.and_eq_true, Option.isNone_iff_eq_none, Bool.not_eq_true'] at hready
  obtain ⟨⟨⟨⟨-, hl⟩, -⟩, hb⟩, -⟩ := hready
  have hlist : ∀ {u : State}, u = { s.started op s.e1 s.e2 with sched := [], seqStep := u.seqStep } →
      accessList u = [.poll, .issue o 0 i] := fun hu => by
    rw [hu]
    exact accessList_flush (s := { s.started op s.e1 s.e2 with sched := [], seqStep := _ }) rfl rfl hbody
  have hpoll := ctlStep_poll_idle (s := { s.started op s.e1 s.e2 with sched := [] }) nofun rfl hb
    (by rw [hlist rfl]; exact Nat.one_lt_two)
  rw [perform_takes _ _ hl, id, goOn, show (s.acquire op).sched = s.sched from rfl, hs,
    runMoves_cons _ _ _ (show some s.caller ≠ none from nofun)]
  refine (congrArg (andThen · _) hpoll).trans ?_
  refine issue_timeout (s := { s.started op s.e1 s.e2 with sched := [], seqStep := 1 }) nofun nofun rfl ?_
    (.issue hb ho (by decide)) rest
  rw [hlist rfl]
  rfl

theorem cmdword_flushEntry (index : Index) : cmdword 2 0 index = 0xA000 ||| index.setWidth 16 := by
  rw [cmdword_eq_formula]
  exact congrArg (· ||| index.setWidth 16) (by decide)

/-- An operation in progress of a state of the invariant runs. -/
theorem running_of_inv_op {s : State} (h : s.inv = true) (hop : s.op ≠ none) : ∃ op, Running s op :=
  ((inv_iff s).1 h).1.resolve_left fun hrest => hop hrest.op_eq

/-- Settles O42: the first wait, every other one, the one after a command, and the flushes' second one. -/
theorem aStuckDeviceTimesOut : Obligations.AStuckDeviceTimesOut := by
  refine ⟨fun i rest s hacc hl hb hs => ?_, fun rest s hinv hs hop hz => ⟨fun hb => ⟨fun n hn => ?_, ?_⟩, fun hb hlen => ?_⟩,
    fun op page index rest s hinv hs ha => ?_, fun port index rest s hready hs => ⟨?_, fun hr => ?_⟩⟩
  · rcases hacc with hacc | ⟨port, index, index2, r, rfl, hv⟩
    · obtain ⟨op, hop, hv⟩ := accepted_iff.1 hacc
      obtain ⟨e1, hstage, -⟩ := stageOf_started_eq s hop
      exact ⟨e1, s.e2, (exec_of_valid hop hv).trans (perform_stuck hstage hl hb hs)⟩
    · obtain ⟨es, -, ⟨a, rfl⟩ | ⟨a, b, rfl⟩, hexec⟩ := exec_advConfig (port := port) hv
      · exact ⟨a, s.e2, hexec.trans (perform_stuck (stage := fun t => { t with e1 := a }) rfl hl hb hs)⟩
      · refine ⟨a, b, hexec.trans ?_⟩
        by_cases hc : s.caller ∈ s.cascaded
        · rw [advTenures_main hc]
          exact perform_stuck rfl hl hb hs
        · rw [advTenures_cascade hc, perform_stuck (e1 := a) (e2 := b) rfl hl hb hs, andThen_next]
          refine secondTenure_of_not_done fun hm => ?_
          simp [finished] at hm
  · obtain ⟨op, hrun⟩ := running_of_inv_op hinv hop
    exact Stuck.polls ⟨hop, hrun.owner, hz, hb⟩ n hn
  · obtain ⟨op, hrun⟩ := running_of_inv_op hinv hop
    have hpolls := hrun.position.polls
    obtain ⟨n, hn⟩ : ∃ n, s.conf.pollLimit - s.pollCnt = n + 1 := Nat.exists_eq_add_of_le' (by omega)
    rw [hn]
    exact Stuck.timeout ⟨hop, hrun.owner, hz, hb⟩ hs rest n (by omega)
  · exact ctlStep_poll_idle hop hz hb hlen
  · obtain ⟨op', hrun⟩ := running_of_inv hinv ha
    have hsome : s.op ≠ none := by simp [hrun.op_eq]
    have hmake := hrun.makeable ha
    refine ⟨fun n hn => ?_, issue_timeout hsome hrun.owner hs ha hmake rest⟩
    rw [runMoves_cons _ _ _ hrun.owner, applyMove_issue ha hmake, andThen_next]
    refine ((stuck_commanded hsome hrun.owner op page index).polls n ?_).trans ?_
    · exact (Nat.zero_add n).symm ▸ hn
    · exact congrArg (fun k => Host.Outcome.next { s.commanded op page index with pollCnt := k }) (Nat.zero_add n)
  · exact flush_stuck (op := .flushAll) hready rfl (by decide) hs
  · rw [exec_of_valid (op := .flushEntry index) rfl hr, ← cmdword_flushEntry]
    exact flush_stuck (op := .flushEntry index) hready rfl (by decide) hs

end Sys2Proof.Machine

/-! ## Runs in which nothing goes wrong, and every other run (R211, R250, R302, R310)

`Clean` follows an operation access by access, with the device completing each command at once. A prompt environment
follows it exactly. Every other environment follows it as well, only slower, until the operation fails: it may wait longer
before the device has completed, and a wait may time out or an access fail. -/

namespace Sys2Proof.Machine

open Sys2Proof.Claims

/-- A state with another count of polls. -/
def State.withPolls (s : State) (p : Nat) : State := { s with pollCnt := p }

/-- In progress with the device idle. -/
structure Settled (s : State) : Prop where
  owner : s.lockOwner ≠ none
  devCmd : s.devCmd = none
  sched : s.sched = []

/-- One access that succeeds, from a settled state to a settled state or to the end, however many polls have been counted:
`v` is the state right after it, with its command, if it is one, still latched. -/
structure CleanStep (s v w : State) : Prop where
  settled : Settled s
  access : ∀ p, ∃ q, ctlStep .ok (s.withPolls p) = .next (v.withPolls q) ∧ (p = 0 → q = 0)
  device : ∀ p, devComplete (v.withPolls p) = .next (w.withPolls p)
  latched : v.devCmd = none ∨ Stuck v

/-- `n` successful accesses lead from `s` to `t`; every table on the way satisfies `P`. -/
inductive Clean (P : List Slot → Prop) : Nat → State → State → Prop
  | refl (s : State) : Clean P 0 s s
  | step {n : Nat} {s v w t : State} (hP : P s.table) (h : CleanStep s v w) (rest : Clean P n w t) : Clean P (n + 1) s t

theorem Clean.trans {P : List Slot → Prop} {m n : Nat} {s t u : State} (h : Clean P m s t) (h' : Clean P n t u) :
    Clean P (m + n) s u := by
  induction h with
  | refl s => rwa [Nat.zero_add]
  | step hP hs rest ih =>
    rw [Nat.add_right_comm]
    exact .step hP hs (ih h')

theorem Clean.single {P : List Slot → Prop} {s v w : State} (hP : P s.table) (h : CleanStep s v w) : Clean P 1 s w :=
  .step hP h (.refl w)

/-! ### What one access and one device step leave alone -/

section

variable {s t u v w : State} {P : List Slot → Prop} {n : Nat}

theorem devComplete_of_none (h : s.devCmd = none) : devComplete s = .next s := by
  rw [devComplete, h]

/-- No access reaches the table: only the device does (R60). -/
theorem ctlStep_table {ans : Answer} (h : ctlStep ans s = .next t) : t.table = s.table := by
  obtain ⟨u, hu, ht⟩ := ctlStep_cases h
  obtain ⟨_, _, _, _, _, _, _, _, _, _, _, -, rfl⟩ := hu.frame
  cases ht <;> rfl

theorem CleanStep.next_owner (h : CleanStep s v w) : w.lockOwner = v.lockOwner := by
  obtain ⟨_, _, _, _, hw⟩ := devComplete_frame (h.device 0)
  have howner := congrArg State.lockOwner hw
  exact howner

theorem CleanStep.next_sched (h : CleanStep s v w) : v.sched = [] ∧ w.sched = [] := by
  obtain ⟨q, hq, -⟩ := h.access 0
  have hv : v.sched = [] := (applyMove_sched (m := .access .ok) hq).trans h.settled.sched
  obtain ⟨_, _, _, _, hw⟩ := devComplete_frame (h.device 0)
  have hsched := congrArg State.sched hw
  exact ⟨hv, hsched.trans hv⟩

theorem CleanStep.next_table (h : CleanStep s v w) : v.table = s.table := by
  obtain ⟨q, hq, -⟩ := h.access 0
  have htable := ctlStep_table hq
  exact htable

/-- After an access that latches nothing the device has nothing to do. -/
theorem CleanStep.same_of_idle (h : CleanStep s v w) (hd : v.devCmd = none) (p : Nat) : w.withPolls p = v.withPolls p :=
  (Host.Outcome.next.inj ((devComplete_of_none (s := v.withPolls p) hd).symm.trans (h.device p))).symm

theorem Clean.owner (h : Clean P (n + 1) s t) : s.lockOwner ≠ none := by
  cases h with
  | step hP hs rest => exact hs.settled.owner

/-! ### A prompt environment (R211) -/

theorem prompt_succ (n : Nat) : prompt (n + 1) = .device :: .access .ok :: prompt n := by
  rw [prompt, List.replicate_succ, List.flatten_cons]
  rfl

/-- A prompt environment follows the clean run to its end: between the device's step and the next access the state is the
one before the device's step. -/
theorem Clean.runMoves_prompt {x : State} (h : Clean P (n + 1) s t) (hend : t.lockOwner = none)
    (hx : devComplete x = .next (s.withPolls 0)) (hxo : x.lockOwner ≠ none) (rest : List Move) :
    runMoves (prompt (n + 1) ++ rest) x = .next { t.withPolls 0 with sched := rest } := by
  induction n generalizing s x with
  | zero =>
    cases h with
    | @step _ _ v w _ hP hs htail =>
      cases htail
      obtain ⟨q, hq, hq0⟩ := hs.access 0
      have hvo : v.lockOwner = none := hs.next_owner.symm.trans hend
      have hdev : v.devCmd = none := hs.latched.resolve_right fun hstuck => hstuck.owner hvo
      have hv : ctlStep .ok (s.withPolls 0) = .next (t.withPolls 0) := by
        rw [hq, hq0 rfl, hs.same_of_idle hdev]
      rw [prompt_succ, List.cons_append, List.cons_append, runMoves_cons _ _ _ hxo]
      refine (congrArg (andThen · _) hx).trans ?_
      rw [andThen_next, runMoves_cons (s.withPolls 0) _ _ hs.settled.owner]
      refine (congrArg (andThen · _) hv).trans ?_
      exact runMoves_idle _ rest hend hs.next_sched.2
  | succ n ih =>
    cases h with
    | @step _ _ v w _ hP hs htail =>
      obtain ⟨q, hq, hq0⟩ := hs.access 0
      have hvo : v.lockOwner ≠ none := hs.next_owner ▸ htail.owner
      rw [prompt_succ, List.cons_append, List.cons_append, runMoves_cons _ _ _ hxo]
      refine (congrArg (andThen · _) hx).trans ?_
      rw [andThen_next, runMoves_cons (s.withPolls 0) _ _ hs.settled.owner]
      refine (congrArg (andThen · _) (hq.trans (congrArg _ (congrArg _ (hq0 rfl))))).trans ?_
      exact ih htail (hs.device 0) hvo

/-- From a settled start with no polls counted. -/
theorem Clean.prompt (h : Clean P n s t) (hs : Settled s) (hp : s.pollCnt = 0) (hend : t.lockOwner = none)
    (rest : List Move) : runMoves (prompt n ++ rest) s = .next { t.withPolls 0 with sched := rest } := by
  cases n with
  | zero =>
    cases h
    exact absurd hend hs.owner
  | succ n =>
    have hself : s.withPolls 0 = s := by rw [State.withPolls, ← hp]
    exact h.runMoves_prompt hend (hself.symm ▸ devComplete_of_none hs.devCmd) hs.owner rest

/-! ### Every environment -/

/-- Where a run towards `t` stands: on the clean run, or at the wait of a command that the device has not completed. -/
inductive OnTrack (P : List Slot → Prop) (t : State) : State → Prop
  | settled {n : Nat} {s : State} (p : Nat) (h : Clean P n s t) (hs : s.sched = []) : OnTrack P t (s.withPolls p)
  | waiting {n : Nat} {v w : State} (p : Nat) (hP : P v.table) (hv : Stuck v) (hs : v.sched = [])
    (hw : ∀ p, devComplete (v.withPolls p) = .next (w.withPolls p)) (h : Clean P n w t) : OnTrack P t (v.withPolls p)

/-- An error that the environment causes: a wait timed out, or an access failed with an answer among the moves `ms`. -/
def FailsBy (ms : List Move) (c : Cause) : Prop :=
  c = .timeout ∨ ∃ e, c = .transportFailure e ∧ (Move.access (.lost e) ∈ ms ∨ Move.access (.landed e) ∈ ms)

theorem FailsBy.cons {ms : List Move} {c : Cause} (m : Move) (h : FailsBy ms c) : FailsBy (m :: ms) c := by
  rcases h with h | ⟨e, he, hmem⟩
  · exact .inl h
  · exact .inr ⟨e, he, hmem.imp (List.mem_cons_of_mem _) (List.mem_cons_of_mem _)⟩

/-- Where the moves `ms` lead a run towards `t`: it is still in progress, it has come to `t`, or it has failed; the table is
one of the clean run's. -/
inductive Reached (P : List Slot → Prop) (t : State) (ms : List Move) : State → Prop
  | goes {u : State} (hu : u.lockOwner ≠ none) (hP : P u.table) : Reached P t ms u
  | done (p : Nat) (left : List Move) (hleft : left <:+ ms) : Reached P t ms { t.withPolls p with sched := left }
  | fails {u : State} (c : Cause) (hc : FailsBy ms c) (hP : P u.table) (left : List Move) :
    Reached P t ms { u.abort c with sched := left }

theorem Reached.cons {ms : List Move} (m : Move) (h : Reached P t ms u) : Reached P t (m :: ms) u := by
  cases h with
  | goes hu hP => exact .goes hu hP
  | done p left hleft => exact .done p left (hleft.trans (List.suffix_cons m ms))
  | fails c hc hP left => exact .fails c (hc.cons m) hP left

/-- An access that could succeed can also fail, its write done or not; then the operation aborts. -/
theorem ctlStep_failed (h : ctlStep .ok s = .next v) (ans : Answer) (e : TransportError)
    (ha : ans = .lost e ∨ ans = .landed e) :
    ∃ u : State, ctlStep ans s = .next (u.abort (.transportFailure e)) ∧ u.table = s.table := by
  rw [ctlStep] at h ⊢
  split at h
  case h_2 => cases h
  rename_i a hget
  rcases ha with rfl | rfl
  · exact ⟨s, runAccess_lost a e s, rfl⟩
  · have hwrite : ∀ {write : Out} {k : State → Out}, onWrite .ok s write k = .next v →
        (∀ u, write = .next u → u.table = s.table) →
        ∃ u : State, onWrite (.landed e) s write k = .next (u.abort (.transportFailure e)) ∧ u.table = s.table := by
      intro write k hok htable
      obtain ⟨u, hu, -⟩ := andThen_eq_next hok
      exact ⟨u, by rw [onWrite, hu, andThen_next], htable u hu⟩
    have hreg : ∀ {block off w u}, writeReg s block off w = .next u → u.table = s.table := fun hw => by
      obtain ⟨_, _, _, _, rfl⟩ := writeReg_frame hw
      rfl
    cases a with
    | poll | read | readCmd | readKey => exact ⟨s, rfl, rfl⟩
    | select =>
      refine hwrite h fun u hu => ?_
      rw [writeField] at hu
      split at hu
      · exact hreg hu
      · cases hu
    | write k x => exact hwrite h fun u hu => hreg hu
    | issue o page i => exact hwrite h fun u hu => hreg hu

/-- A move keeps a run on its track, or makes it fail. -/
theorem OnTrack.applyMove {x : State} (h : OnTrack P t x) (hx : x.lockOwner ≠ none) (hend : t.lockOwner = none)
    (m : Move) :
    ∃ y, applyMove m x = .next y ∧ (OnTrack P t y ∨ ∃ (u : State) (c : Cause), y = u.abort c ∧ FailsBy [m] c ∧ P u.table) := by
  have hself : ∃ y, Host.Outcome.next (φ := Fault) (ρ := Refusal) x = .next y ∧
      (OnTrack P t y ∨ ∃ (u : State) (c : Cause), y = u.abort c ∧ FailsBy [m] c ∧ P u.table) := ⟨x, rfl, .inl h⟩
  have hfail : ∀ {v : State} (ans : Answer) (e : TransportError), ans = .lost e ∨ ans = .landed e → m = .access ans →
      ctlStep .ok x = .next v → P x.table →
      ∃ y, ctlStep ans x = .next y ∧ (OnTrack P t y ∨ ∃ (u : State) (c : Cause), y = u.abort c ∧ FailsBy [m] c ∧ P u.table) := by
    intro v ans e he hm hok hP
    obtain ⟨u, hu, htable⟩ := ctlStep_failed hok ans e he
    refine ⟨_, hu, .inr ⟨u, _, rfl, .inr ⟨e, rfl, ?_⟩, htable ▸ hP⟩⟩
    rcases he with rfl | rfl
    · exact .inl (hm ▸ List.mem_singleton_self _)
    · exact .inr (hm ▸ List.mem_singleton_self _)
  cases m with
  | request k => exact hself
  | submit q => exact hself
  | device =>
    cases h with
    | @settled n s p hclean hs =>
      cases hclean with
      | refl => exact absurd hend hx
      | step hP hstep rest =>
        rw [Machine.applyMove, devComplete_of_none (s := s.withPolls p) hstep.settled.devCmd]
        exact hself
    | @waiting n v w p hP hv hs hw hclean =>
      obtain ⟨_, _, _, _, hframe⟩ := devComplete_frame (hw p)
      have hws : w.sched = [] := (congrArg State.sched hframe).trans hs
      exact ⟨_, hw p, .inl (.settled p hclean hws)⟩
  | access ans =>
    cases h with
    | @settled n s p hclean hs =>
      cases hclean with
      | refl => exact absurd hend hx
      | @step n _ v w _ hP hstep rest =>
        obtain ⟨q, hq, -⟩ := hstep.access p
        cases ans with
        | lost e => exact hfail _ e (.inl rfl) rfl hq hP
        | landed e => exact hfail _ e (.inr rfl) rfl hq hP
        | ok =>
          refine ⟨_, hq, .inl ?_⟩
          rcases hstep.latched with hdev | hstuck
          · rw [← hstep.same_of_idle hdev]
            exact .settled q rest hstep.next_sched.2
          · exact .waiting q (hstep.next_table.symm ▸ hP) hstuck hstep.next_sched.1 hstep.device rest
    | @waiting n v w p hP hv hs hw hclean =>
      have hpoll := (hv.withPolls p).ctlStep
      obtain ⟨y, hy, hnext⟩ : ∃ y, ctlStep .ok (v.withPolls p) = .next y ∧
          (OnTrack P t y ∨ ∃ (u : State) (c : Cause), y = u.abort c ∧ FailsBy [.access ans] c ∧ P u.table) := by
        by_cases hlimit : v.conf.pollLimit ≤ p + 1
        · exact ⟨_, hpoll.trans (if_pos hlimit), .inr ⟨_, _, rfl, .inl rfl, hP⟩⟩
        · exact ⟨_, hpoll.trans (if_neg hlimit), .inl (OnTrack.waiting (v := v) (p + 1) hP hv hs hw hclean)⟩
      cases ans with
      | lost e => exact hfail _ e (.inl rfl) rfl hy hP
      | landed e => exact hfail _ e (.inr rfl) rfl hy hP
      | ok => exact ⟨y, hy, hnext⟩

theorem OnTrack.sched {x : State} (h : OnTrack P t x) : x.sched = [] := by
  cases h with
  | settled p h hs => exact hs
  | waiting p hP hv hs hw h => exact hs

/-- Whatever the moves, a run on its track stays on it, comes to its end, or fails. -/
theorem OnTrack.reached {x : State} (h : OnTrack P t x) (hend : t.lockOwner = none) (ms : List Move) :
    ∃ y, runMoves ms x = .next y ∧ Reached P t ms y := by
  induction ms generalizing x with
  | nil =>
    refine ⟨x, rfl, ?_⟩
    have hsched := h.sched
    cases h with
    | settled p hclean hs =>
      cases hclean with
      | refl =>
        have hself : t.withPolls p = { t.withPolls p with sched := [] } := by rw [← hsched]
        rw [hself]
        exact .done p [] (List.suffix_refl [])
      | step hP hstep rest => exact .goes hstep.settled.owner hP
    | waiting p hP hv hs hw hclean => exact .goes hv.owner hP
  | cons m ms ih =>
    by_cases hx : x.lockOwner = none
    · refine ⟨_, runMoves_idle x (m :: ms) hx h.sched, ?_⟩
      cases h with
      | @settled n s p hclean hs =>
        cases hclean with
        | refl => exact .done p (m :: ms) (List.suffix_refl _)
        | step hP hstep rest => exact absurd hx hstep.settled.owner
      | waiting p hP hv hs hw hclean => exact absurd hx hv.owner
    · obtain ⟨y, hy, htrack⟩ := h.applyMove hx hend m
      rw [runMoves_cons _ _ _ hx, hy, andThen_next]
      rcases htrack with htrack | ⟨u, c, rfl, hc, hP⟩
      · obtain ⟨z, hz, hreached⟩ := ih htrack
        exact ⟨z, hz, hreached.cons m⟩
      · refine ⟨_, runMoves_idle _ ms rfl ((applyMove_sched hy).trans h.sched), ?_⟩
        refine .fails c ?_ hP ms
        rcases hc with hc | ⟨e, he, hmem⟩
        · exact .inl hc
        · refine .inr ⟨e, he, ?_⟩
          simp only [List.mem_singleton] at hmem
          rcases hmem with hmem | hmem
          · exact .inl (hmem ▸ List.mem_cons_self ..)
          · exact .inr (hmem ▸ List.mem_cons_self ..)

/-- Whatever the moves, an operation that has a clean run stays on it, comes to its end, or fails. -/
theorem Clean.reached (h : Clean P n s t) (hs : s.sched = []) (hend : t.lockOwner = none) (ms : List Move) :
    ∃ y, runMoves ms s = .next y ∧ Reached P t ms y :=
  OnTrack.reached (.settled s.pollCnt h hs) hend ms

end

end Sys2Proof.Machine

/-! ## Where a clean run stands (R23, R233 to R238)

`State.mid` gives the state of an operation that holds the lock, with the device idle, by its place in the access list and
by the registers it works on; `State.script` is the access list there. Each kind of access is one step between two such
states. -/

namespace Sys2Proof.Machine

open Sys2Proof.Claims

/-- What a search keeps: the index it was answered and the key registers it read (R28, R238). -/
structure Search where
  hwIndex : Index
  key1 : Word
  key2 : Word
  key3 : Word

/-- The registers that an operation works on. -/
structure Regs where
  e1 : Entry
  search : Search
  cmd : Word
  ext : Word
  data : List Word
  table : List Slot

/-- The state machine at a step of a phase (R22). -/
def fsmAt : Nat → Nat → Fsm
  | _ + 1, 0 => .commandIssued
  | _, _ => .awaitingBusy

/-- The operation `op` of the caller of `s` at step `n` of phase `k`, with the device idle and no busy poll counted. -/
def State.mid (s : State) (op : Op) (k n : Nat) (r : Regs) : State :=
  { s with
    lockOwner := some s.caller, fsm := fsmAt k n, op := some op, phase := k, seqStep := n, pollCnt := 0, devCmd := none,
    sched := [], e1 := r.e1, hwIndex := r.search.hwIndex, key1 := r.search.key1, key2 := r.search.key2,
    key3 := r.search.key3, cmd := r.cmd, ext := r.ext, data := r.data, table := r.table }

/-- The access list of phase `k`. -/
def State.script (s : State) (op : Op) (k : Nat) (e1 : Entry) (hwIndex : Index) : List Access :=
  .poll :: phaseBody { s with e1 := e1, hwIndex := hwIndex } op k

/-- The operation has ended with an outcome. -/
def State.ended (s : State) (r : Regs) (res : Result) : State := (s.mid .flushAll 0 0 r).release.deliver res

section

variable {s : State} {op : Op} {k n : Nat} {r : Regs}

theorem settled_mid (s : State) (op : Op) (k n : Nat) (r : Regs) : Settled (s.mid op k n r) := ⟨nofun, rfl, rfl⟩

theorem accessList_mid (s : State) (op : Op) (k n : Nat) (r : Regs) (p : Nat) :
    accessList ((s.mid op k n r).withPolls p) = s.script op k r.e1 r.search.hwIndex := by
  cases op <;> rfl

theorem getElem?_of_drop {α : Type} {l as : List α} {n : Nat} {a : α} (h : l.drop n = a :: as) : l[n]? = some a := by
  have hget : (l.drop n)[0]? = l[n]? := by rw [List.getElem?_drop, Nat.add_zero]
  rw [← hget, h]
  rfl

theorem drop_succ_of_drop {α : Type} {l as : List α} {n : Nat} {a : α} (h : l.drop n = a :: as) :
    l.drop (n + 1) = as := by
  rw [← List.drop_drop, h]
  rfl

/-- The position moves on when the access list goes on. -/
theorem advance_mid {u : State} {p : Nat} (hu : { u with seqStep := u.seqStep + 1 } = (s.mid op k (n + 1) r).withPolls p)
    (h : (s.script op k r.e1 r.search.hwIndex).drop (n + 1) ≠ []) :
    advance u = .next ((s.mid op k (n + 1) r).withPolls p) := by
  have hlt : n + 1 < (s.script op k r.e1 r.search.hwIndex).length := by
    by_contra hle
    exact h (List.drop_eq_nil_of_le (by omega))
  change (if (u.seqStep + 1) < (accessList { u with seqStep := u.seqStep + 1 }).length then
    Host.Outcome.next { u with seqStep := u.seqStep + 1 } else finish { u with seqStep := u.seqStep + 1 }) = _
  have hstep : u.seqStep + 1 = n + 1 := congrArg State.seqStep hu
  rw [hu, accessList_mid, hstep, if_pos hlt]

/-- The operation ends when the access list does. -/
theorem advance_finish {u : State} {p : Nat}
    (hu : { u with seqStep := u.seqStep + 1 } = (s.mid op k (n + 1) r).withPolls p)
    (h : (s.script op k r.e1 r.search.hwIndex).drop (n + 1) = []) :
    advance u = finish ((s.mid op k (n + 1) r).withPolls p) := by
  have hlt : ¬ n + 1 < (s.script op k r.e1 r.search.hwIndex).length := by
    have hlen := congrArg List.length h
    rw [List.length_drop, List.length_nil] at hlen
    omega
  change (if (u.seqStep + 1) < (accessList { u with seqStep := u.seqStep + 1 }).length then
    Host.Outcome.next { u with seqStep := u.seqStep + 1 } else finish { u with seqStep := u.seqStep + 1 }) = _
  have hstep : u.seqStep + 1 = n + 1 := congrArg State.seqStep hu
  rw [hu, accessList_mid, hstep, if_neg hlt]

theorem ctlStep_mid {a : Access} {as : List Access} (h : (s.script op k r.e1 r.search.hwIndex).drop n = a :: as) (p : Nat) :
    ctlStep .ok ((s.mid op k n r).withPolls p) = runAccess a .ok ((s.mid op k n r).withPolls p) := by
  refine ctlStep_eq _ ?_
  rw [accessList_mid]
  exact getElem?_of_drop h

/-- An access that latches no command is a clean step. -/
theorem cleanStep_of_access {a : Access} {as : List Access} {t : State}
    (h : (s.script op k r.e1 r.search.hwIndex).drop n = a :: as) (ht : t.devCmd = none)
    (hrun : ∀ p, runAccess a .ok ((s.mid op k n r).withPolls p) = .next (t.withPolls p)) :
    CleanStep (s.mid op k n r) t t where
  settled := settled_mid s op k n r
  access p := ⟨p, (ctlStep_mid h p).trans (hrun p), id⟩
  device _ := devComplete_of_none ht
  latched := .inl ht

/-- A step within the phase. -/
theorem cleanStep_within {a : Access} {as : List Access} {r' : Regs}
    (h : (s.script op k r.e1 r.search.hwIndex).drop n = a :: as)
    (h' : (s.script op k r'.e1 r'.search.hwIndex).drop (n + 1) ≠ [])
    (hrun : ∀ p, ∃ u : State, runAccess a .ok ((s.mid op k n r).withPolls p) = advance u ∧
      { u with seqStep := u.seqStep + 1 } = (s.mid op k (n + 1) r').withPolls p) :
    CleanStep (s.mid op k n r) (s.mid op k (n + 1) r') (s.mid op k (n + 1) r') := by
  refine cleanStep_of_access h rfl fun p => ?_
  obtain ⟨u, hu, hnext⟩ := hrun p
  exact hu.trans (advance_mid hnext h')

/-- The last access of the operation. -/
theorem cleanStep_last {a : Access} {as : List Access} {r' : Regs} {t : State}
    (h : (s.script op k r.e1 r.search.hwIndex).drop n = a :: as)
    (h' : (s.script op k r'.e1 r'.search.hwIndex).drop (n + 1) = [])
    (hrun : ∀ p, ∃ u : State, runAccess a .ok ((s.mid op k n r).withPolls p) = advance u ∧
      { u with seqStep := u.seqStep + 1 } = (s.mid op k (n + 1) r').withPolls p)
    (ht : t.devCmd = none)
    (hfinish : ∀ p, finish ((s.mid op k (n + 1) r').withPolls p) = .next (t.withPolls p)) :
    CleanStep (s.mid op k n r) t t := by
  refine cleanStep_of_access h ht fun p => ?_
  obtain ⟨u, hu, hnext⟩ := hrun p
  exact (hu.trans (advance_finish hnext h')).trans (hfinish p)

/-! ### The accesses -/

variable {as : List Access}

/-- An idle poll. -/
theorem run_poll (hb : busyFlag r.cmd = false) (p : Nat) :
    ∃ u : State, runAccess .poll .ok ((s.mid op k 0 r).withPolls p) = advance u ∧
      { u with seqStep := u.seqStep + 1 } = (s.mid op k 1 r).withPolls p := by
  refine ⟨_, runAccess_poll_idle (s := (s.mid op k 0 r).withPolls p) hb, ?_⟩
  cases k <;> rfl

theorem cleanStep_poll (hb : busyFlag r.cmd = false) (h : (s.script op k r.e1 r.search.hwIndex).drop 1 ≠ []) :
    CleanStep (s.mid op k 0 r) (s.mid op k 1 r) (s.mid op k 1 r) :=
  cleanStep_within (a := .poll) rfl h (run_poll hb)

theorem cleanStep_last_poll (hb : busyFlag r.cmd = false) (h : s.script op k r.e1 r.search.hwIndex = [.poll]) {t : State}
    (ht : t.devCmd = none) (hfinish : ∀ p, finish ((s.mid op k 1 r).withPolls p) = .next (t.withPolls p)) :
    CleanStep (s.mid op k 0 r) t t :=
  cleanStep_last (n := 0) (a := .poll) (as := []) h (by rw [h]; rfl) (run_poll hb) ht hfinish

theorem cleanStep_select (hb : busyFlag r.cmd = false)
    (h : (s.script op k r.e1 r.search.hwIndex).drop (n + 1) = .select :: as) (has : as ≠ []) :
    CleanStep (s.mid op k (n + 1) r) (s.mid op k (n + 2) ⟨r.e1, r.search, r.cmd, r.ext &&& 0xFFFC, r.data, r.table⟩)
      (s.mid op k (n + 2) ⟨r.e1, r.search, r.cmd, r.ext &&& 0xFFFC, r.data, r.table⟩) := by
  refine cleanStep_within h (drop_succ_of_drop h ▸ has) fun p => ?_
  refine ⟨_, runAccess_select (s := (s.mid op k (n + 1) r).withPolls p) hb, ?_⟩
  rw [← clear_subblock]
  cases k <;> rfl

theorem cleanStep_write (hb : busyFlag r.cmd = false) {j : Nat} {v : Word}
    (h : (s.script op k r.e1 r.search.hwIndex).drop (n + 1) = .write j v :: as) (has : as ≠ []) (hj : j < s.conf.bankSize)
    (hd : j < r.data.length) :
    CleanStep (s.mid op k (n + 1) r) (s.mid op k (n + 2) ⟨r.e1, r.search, r.cmd, r.ext, r.data.set j v, r.table⟩)
      (s.mid op k (n + 2) ⟨r.e1, r.search, r.cmd, r.ext, r.data.set j v, r.table⟩) := by
  refine cleanStep_within h (drop_succ_of_drop h ▸ has) fun p => ?_
  refine ⟨_, runAccess_write (s := (s.mid op k (n + 1) r).withPolls p) (.write hb hj hd), ?_⟩
  cases k <;> rfl

/-- A register of a page is read; what follows is decided at the last one of page 2 only. -/
theorem run_read {q j : Nat} (hj : j < s.conf.bankSize) (hd : j < r.data.length) (p : Nat) :
    runAccess (.read q j) .ok ((s.mid op k n r).withPolls p) =
      afterRead ((s.mid op k n ⟨r.e1.putPageReg s.conf q j (r.data.getD j 0), r.search, r.cmd, r.ext, r.data,
        r.table⟩).withPolls p) q j :=
  runAccess_read (s := (s.mid op k n r).withPolls p) (.read hj hd)

theorem afterRead_of_ne {u : State} {q j : Nat} (h : ¬ (q = 2 ∧ j + 1 = u.conf.pageLen 2)) : afterRead u q j = advance u :=
  if_neg h

theorem cleanStep_read {q j : Nat} {e : Entry} (he : e = r.e1.putPageReg s.conf q j (r.data.getD j 0))
    (h : (s.script op k r.e1 r.search.hwIndex).drop (n + 1) = .read q j :: as)
    (h' : (s.script op k e r.search.hwIndex).drop (n + 2) ≠ []) (hj : j < s.conf.bankSize) (hd : j < r.data.length)
    (hne : ¬ (q = 2 ∧ j + 1 = s.conf.pageLen 2)) :
    CleanStep (s.mid op k (n + 1) r) (s.mid op k (n + 2) ⟨e, r.search, r.cmd, r.ext, r.data, r.table⟩)
      (s.mid op k (n + 2) ⟨e, r.search, r.cmd, r.ext, r.data, r.table⟩) := by
  subst he
  refine cleanStep_within h h' fun p => ⟨_, (run_read hj hd p).trans (afterRead_of_ne hne), ?_⟩
  cases k <;> rfl

theorem cleanStep_readCmd
    (h : (s.script op k r.e1 r.search.hwIndex).drop (n + 1) = .readCmd :: as)
    (h' : (s.script op k r.e1 (cmdIndex r.cmd)).drop (n + 2) ≠ []) :
    CleanStep (s.mid op k (n + 1) r)
      (s.mid op k (n + 2) ⟨r.e1, ⟨cmdIndex r.cmd, r.search.key1, r.search.key2, r.search.key3⟩, r.cmd, r.ext, r.data, r.table⟩)
      (s.mid op k (n + 2) ⟨r.e1, ⟨cmdIndex r.cmd, r.search.key1, r.search.key2, r.search.key3⟩, r.cmd, r.ext, r.data, r.table⟩) := by
  refine cleanStep_within h h' fun p => ⟨_, runAccess_readCmd ((s.mid op k (n + 1) r).withPolls p), ?_⟩
  cases k <;> rfl

/-! ### Commands -/

/-- The state right after a command is written (R210, R235). -/
def State.sent (s : State) (op : Op) (k : Nat) (r : Regs) (d : DevCmd) : State :=
  { s.mid op (k + 1) 0 r with cmd := cmdword d.op d.page d.index, devCmd := some d }

/-- The command register when the device has completed a command (R211). -/
def doneWord (o : BitVec 3) (page : BitVec 2) (i : Index) : Word := setField (cmdword o page i) 0 busyBits

theorem doneWord_eq (o : BitVec 3) (page : BitVec 2) (i : Index) :
    doneWord o page i = (0x8000 ||| o.setWidth 16 <<< 12 ||| page.setWidth 16 <<< 10) &&& 0x7FFF ||| i.setWidth 16 := by
  have hindex : i.setWidth 16 &&& 0x7FFF = i.setWidth 16 := by
    refine word_ext fun b hb => ?_
    rw [BitVec.getLsbD_and, BitVec.getLsbD_setWidth]
    have hlow : b < 8 → (0x7FFF : Word).getLsbD b = true := by
      revert b
      decide
    by_cases h8 : b < 8
    · rw [hlow h8, Bool.and_true]
    · rw [BitVec.getLsbD_of_ge i b (by omega), Bool.and_false, Bool.false_and]
  have hand : ∀ x y : Word, (x ||| y) &&& 0x7FFF = x &&& 0x7FFF ||| y &&& 0x7FFF := fun x y => by
    refine word_ext fun b _ => ?_
    simp only [BitVec.getLsbD_and, BitVec.getLsbD_or, Bool.and_or_distrib_right]
  rw [doneWord, clear_busy, cmdword_eq_formula, hand, hindex]

theorem busyFlag_doneWord (o : BitVec 3) (page : BitVec 2) (i : Index) : busyFlag (doneWord o page i) = false := by
  rw [busyFlag, doneWord, getField_setField_self]
  decide

theorem cmdIndex_doneWord (o : BitVec 3) (page : BitVec 2) (i : Index) : cmdIndex (doneWord o page i) = i := by
  rw [doneWord, cmdIndex_clear_busy, cmdIndex_cmdword]

/-- A command that is written, latched and completed. -/
theorem cleanStep_issue (hb : busyFlag r.cmd = false) {d : DevCmd} {r' : Regs}
    (h : (s.script op k r.e1 r.search.hwIndex).drop (n + 1) = [.issue d.op d.page d.index]) (ho : d.op ≠ 6 ∧ d.op ≠ 7)
    (hp : d.page ≠ 3)
    (hdev : ∀ p, commandEffect d ((s.sent op k r d).withPolls p) = .next ((s.mid op (k + 1) 0 r').withPolls p)) :
    CleanStep (s.mid op k (n + 1) r) (s.sent op k r d) (s.mid op (k + 1) 0 r') where
  settled := settled_mid s op k (n + 1) r
  access p := by
    refine ⟨0, (ctlStep_mid h p).trans ?_, fun _ => rfl⟩
    rw [runAccess_issue (s := (s.mid op k (n + 1) r).withPolls p) (.issue hb ho hp)]
    rfl
  device p := (devComplete_of_latched rfl).trans (hdev p)
  latched := .inr ⟨nofun, nofun, rfl, busyFlag_cmdword d.op d.page d.index⟩

end

end Sys2Proof.Machine

/-! ## What the device does with a command of a clean run (R212 to R217) -/

namespace Sys2Proof.Machine

open Sys2Proof.Claims

section

variable {s : State} {op : Op} {k n : Nat} {r : Regs}

theorem clear_busy_getNext (i j : Index) :
    setField (setField (cmdword opGetNext 0 i) (j.setWidth 16) indexBits) 0 busyBits = doneWord opGetNext 0 j := by
  rw [cmdword_eq, setField_index_command, ← cmdword_eq, doneWord]

theorem effect_flushAll (p : Nat) :
    commandEffect ⟨opFlushAll, 0, 0⟩ ((s.sent op k r ⟨opFlushAll, 0, 0⟩).withPolls p) =
      .next ((s.mid op (k + 1) 0 ⟨r.e1, r.search, doneWord opFlushAll 0 0, r.ext, r.data,
        List.replicate s.conf.slots (emptySlot s.conf)⟩).withPolls p) := rfl

theorem effect_flushEntry {i : Index} (hi : s.conf.inRange i = true) (p : Nat) :
    commandEffect ⟨opFlushEntry, 0, i⟩ ((s.sent op k r ⟨opFlushEntry, 0, i⟩).withPolls p) =
      .next ((s.mid op (k + 1) 0 ⟨r.e1, r.search, doneWord opFlushEntry 0 i, r.ext, r.data,
        r.table.set (slotNo s.conf i) (emptySlot s.conf)⟩).withPolls p) :=
  if_pos hi

theorem effect_load {q : BitVec 2} {i : Index} (hi : s.conf.inRange i = true) (hq : q ≠ 3) (he : q = 2 → r.ext &&& 3 = 0)
    {tb : List Slot} {T : Slot} (htb : r.table = tb.set (slotNo s.conf i) T) (hlen : slotNo s.conf i < tb.length)
    {image : List Word} (himage : r.data.take (s.conf.pageLen q.toNat) = image) (p : Nat) :
    commandEffect ⟨opLoad, q, i⟩ ((s.sent op k r ⟨opLoad, q, i⟩).withPolls p) =
      .next ((s.mid op (k + 1) 0 ⟨r.e1, r.search, doneWord opLoad q i, r.ext, r.data,
        tb.set (slotNo s.conf i) (T.withPage q.toNat image)⟩).withPolls p) := by
  refine (pageAccess_ok (s := (s.sent op k r ⟨opLoad, q, i⟩).withPolls p) _ hi hq he).trans ?_
  have hslot : ((s.sent op k r ⟨opLoad, q, i⟩).withPolls p).slot i = T := by
    change r.table.getD (slotNo s.conf i) (emptySlot s.conf) = T
    rw [htb, List.getD_eq_getElem?_getD, List.getElem?_set_self hlen, Option.getD_some]
  have htable : r.table.set (slotNo s.conf i) (T.withPage q.toNat image) =
      tb.set (slotNo s.conf i) (T.withPage q.toNat image) := by rw [htb, List.set_set]
  rw [hslot, ← htable, ← himage]
  rfl

theorem effect_read {q : BitVec 2} {i : Index} (hi : s.conf.inRange i = true) (hq : q ≠ 3) (he : q = 2 → r.ext &&& 3 = 0)
    {T : Slot} (hT : r.table.getD (slotNo s.conf i) (emptySlot s.conf) = T) (p : Nat) :
    commandEffect ⟨opRead, q, i⟩ ((s.sent op k r ⟨opRead, q, i⟩).withPolls p) =
      .next ((s.mid op (k + 1) 0 ⟨r.e1, r.search, doneWord opRead q i, r.ext, overlay r.data (T.page q.toNat),
        r.table⟩).withPolls p) := by
  subst hT
  exact pageAccess_ok (s := (s.sent op k r ⟨opRead, q, i⟩).withPolls p) _ hi hq he

theorem effect_getNext {i j : Index} (hi : s.conf.inRange i = true) (hj : j = nextValid s i) (htb : r.table = s.table)
    (p : Nat) :
    commandEffect ⟨opGetNext, 0, i⟩ ((s.sent op k r ⟨opGetNext, 0, i⟩).withPolls p) =
      .next ((s.mid op (k + 1) 0 ⟨r.e1, r.search, doneWord opGetNext 0 j, r.ext, overlay r.data (s.slot j).p0,
        r.table⟩).withPolls p) := by
  subst hj
  have hvalid : ((s.sent op k r ⟨opGetNext, 0, i⟩).withPolls p).validAt = s.validAt := by
    funext x
    simp only [State.validAt, State.slot, State.withPolls, State.sent, State.mid, htb]
  have hnext : nextValid ((s.sent op k r ⟨opGetNext, 0, i⟩).withPolls p) i = nextValid s i := by
    rw [nextValid, nextValid, hvalid]
    rfl
  refine (if_pos (show ((s.sent op k r ⟨opGetNext, 0, i⟩).withPolls p).conf.inRange i = true from hi)).trans ?_
  have hslot : ((s.sent op k r ⟨opGetNext, 0, i⟩).withPolls p).slot (nextValid s i) = s.slot (nextValid s i) :=
    congrArg (fun tb : List Slot => tb.getD (slotNo s.conf (nextValid s i)) (emptySlot s.conf)) htb
  rw [hnext, ← clear_busy_getNext i, hslot]
  rfl

end

/-! ## A page goes to the bank, or comes from it (R236) -/

/-- The first `m` registers of one list and the rest of another. -/
def splice (a b : List Word) (m : Nat) : List Word := a.take m ++ b.drop m

theorem splice_zero (a b : List Word) : splice a b 0 = b := by rw [splice, List.take_zero, List.nil_append, List.drop_zero]

theorem splice_length {a b : List Word} {m : Nat} (ha : m ≤ a.length) (hb : m ≤ b.length) : (splice a b m).length = b.length := by
  rw [splice, List.length_append, List.length_take, List.length_drop]
  omega

theorem splice_all {a b : List Word} {m : Nat} (ha : a.length = m) : splice a b m = overlay b a := by
  rw [splice, overlay, ← ha, List.take_length]

theorem splice_all_of_length {a b : List Word} {m : Nat} (hb : b.length = m) : splice a b m = a.take m := by
  rw [splice, List.drop_eq_nil_of_le hb.le, List.append_nil]

theorem set_splice {a b : List Word} {m : Nat} (ha : m < a.length) (hb : m < b.length) :
    (splice a b m).set m (a.getD m 0) = splice a b (m + 1) := by
  refine List.ext_getElem? fun x => ?_
  have hta : (a.take m).length = m := by rw [List.length_take]; omega
  have htb : (a.take (m + 1)).length = m + 1 := by rw [List.length_take]; omega
  have hlen := splice_length ha.le hb.le
  rw [splice] at hlen
  rw [splice, splice, List.getElem?_set]
  split
  · subst x
    rw [if_pos (by omega), List.getElem?_append_left (by omega), List.getElem?_take_of_lt (by omega),
      List.getD_eq_getElem?_getD, List.getElem?_eq_getElem ha, Option.getD_some]
  · rcases Nat.lt_or_ge x m with hx | hx
    · rw [List.getElem?_append_left (by omega), List.getElem?_append_left (by omega), List.getElem?_take_of_lt hx,
        List.getElem?_take_of_lt (by omega)]
    · rw [List.getElem?_append_right (by omega), List.getElem?_append_right (by omega), List.getElem?_drop,
        List.getElem?_drop, hta, htb]
      exact congrArg (b[·]?) (by omega)

section

variable {s : State} {op : Op} {k n : Nat} {r : Regs} {P : List Slot → Prop}

theorem Clean.snoc {t u v w : State} {m : Nat} (h : Clean P m t u) (hP : P u.table) (hs : CleanStep u v w) :
    Clean P (m + 1) t w :=
  h.trans (.single hP hs)

/-- `WritePage` (R236). -/
theorem clean_writes (hb : busyFlag r.cmd = false) {image : List Word} {tail : List Access}
    (h : (s.script op k r.e1 r.search.hwIndex).drop (n + 1) = (image.mapIdx fun j v => Access.write j v) ++ tail)
    (htail : tail ≠ []) (himage : image.length ≤ s.conf.bankSize) (hd : r.data.length = s.conf.bankSize) (hP : P r.table)
    (m : Nat) (hm : m ≤ image.length) :
    Clean P m (s.mid op k (n + 1) r)
      (s.mid op k (n + 1 + m) ⟨r.e1, r.search, r.cmd, r.ext, splice image r.data m, r.table⟩) := by
  induction m with
  | zero =>
    rw [splice_zero]
    exact .refl _
  | succ m ih =>
    have hlen : (splice image r.data m).length = r.data.length := splice_length (by omega) (by omega)
    have hdrop : (s.script op k r.e1 r.search.hwIndex).drop (n + m + 1) =
        .write m (image.getD m 0) :: ((image.mapIdx fun j v => Access.write j v) ++ tail).drop (m + 1) := by
      have hmlen : m < ((image.mapIdx fun j v => Access.write j v) ++ tail).length := by
        rw [List.length_append, List.length_mapIdx]
        omega
      rw [show n + m + 1 = n + 1 + m by omega, ← List.drop_drop, h, List.drop_eq_getElem_cons hmlen,
        List.getElem_append_left (by rw [List.length_mapIdx]; omega), List.getElem_mapIdx, List.getD_eq_getElem?_getD,
        List.getElem?_eq_getElem (by omega), Option.getD_some]
    have hrest : ((image.mapIdx fun j v => Access.write j v) ++ tail).drop (m + 1) ≠ [] := by
      rw [Ne, List.drop_eq_nil_iff, List.length_append, List.length_mapIdx]
      have := List.length_pos_iff.2 htail
      omega
    have hstep := cleanStep_write (r := ⟨r.e1, r.search, r.cmd, r.ext, splice image r.data m, r.table⟩) (n := n + m) hb hdrop hrest
      (by omega) (show m < (splice image r.data m).length by omega)
    have hset := set_splice (show m < image.length by omega) (show m < r.data.length by omega)
    rw [show n + 1 + (m + 1) = n + m + 2 by omega, ← hset]
    rw [show n + 1 + m = n + m + 1 by omega] at ih
    exact (ih (by omega)).snoc hP hstep

/-! ### The staging buffer as a slot -/

/-- Putting a register of a page into an entry is putting it into that page (R150, R151). -/
theorem putPageReg_entryOf (c : Cfg.Checked) {T : Slot} (hT : T.sized c.val = true) {q j : Nat} (hq : q < 3)
    (hj : j < c.val.pageLen q) (w : Word) :
    (entryOf c.val T).putPageReg c.val q j w = entryOf c.val (T.withPage q ((T.page q).set j w)) := by
  have h0 := Slot.page_length hT 0
  have hcut : c.val.pageLen 0 = c.val.rl.nHdr + c.val.rl.cut := rfl
  have hp0 : T.p0.length = c.val.rl.nHdr + c.val.rl.cut := h0
  have hmap : ∀ {f : Word → Byte} (l : List Word) (x : Nat), (l.map f).set x (f w) = (l.set x w).map f := fun l x =>
    List.map_set.symm
  match q with
  | 0 =>
    by_cases hlt : j < c.val.rl.nHdr
    · simp only [Entry.putPageReg, if_pos hlt, entryOf, entryOfPages, Slot.withPage, Slot.page, List.take_set,
        List.drop_set_of_lt hlt]
    · have hbeyond : (T.p0.set j w).take c.val.rl.nHdr = T.p0.take c.val.rl.nHdr := by
        rw [List.take_set, List.set_eq_of_length_le (by rw [List.length_take]; omega)]
      simp only [Entry.putPageReg, if_neg hlt, entryOf, entryOfPages, Slot.withPage, Slot.page, Entry.putWin, hmap,
        hbeyond, List.drop_set, ← List.set_append_left _ _ (show j - c.val.rl.nHdr < (T.p0.drop c.val.rl.nHdr).length by
          rw [List.length_drop]; omega)]
  | 1 =>
    simp only [Entry.putPageReg, entryOf, entryOfPages, Slot.withPage, Slot.page, Entry.putWin, hmap]
    have hlen : (T.p0.drop c.val.rl.nHdr).length = c.val.rl.cut := by rw [List.length_drop]; omega
    rw [List.set_append_right _ _ (by omega), hlen, Nat.add_sub_cancel_left]
  | 2 => rfl

/-- `ReadPage` (R236), as far as the register before the deciding one. -/
theorem clean_reads {q : Nat} {T : Slot} (hq : q < 3) (hT : T.sized s.conf = true) (he : r.e1 = entryOf s.conf T)
    {tail : Entry → List Access}
    (h : ∀ e, (s.script op k e r.search.hwIndex).drop (n + 1) = readPage s.conf q ++ tail e)
    (hd : r.data.length = s.conf.bankSize) (hP : P r.table) (m : Nat) (hm : m ≤ s.conf.pageLen q)
    (hmore : m < s.conf.pageLen q ∨ q ≠ 2 ∧ ∀ e, tail e ≠ []) :
    Clean P m (s.mid op k (n + 1) r)
      (s.mid op k (n + 1 + m) ⟨entryOf s.conf (T.withPage q (splice r.data (T.page q) m)), r.search, r.cmd, r.ext, r.data,
        r.table⟩) := by
  have hbank : s.conf.pageLen q ≤ s.conf.bankSize := s.cfg.pageLen_le q
  have hpage := Slot.page_length hT q
  induction m with
  | zero =>
    have hself : T.withPage q (T.page q) = T := by
      match q with
      | 0 | 1 | 2 => rfl
    rw [splice_zero, hself, ← he]
    exact .refl _
  | succ m ih =>
    have hlen := splice_length (show m ≤ r.data.length by omega) (show m ≤ (T.page q).length by omega)
    have hTm := Slot.withPage_sized hT q (splice r.data (T.page q) m) (by omega)
    have hpagem : (T.withPage q (splice r.data (T.page q) m)).page q = splice r.data (T.page q) m :=
      (Slot.page_withPage T _ hq).trans (if_pos rfl)
    have htwice : ∀ image, (T.withPage q (splice r.data (T.page q) m)).withPage q image = T.withPage q image := fun image => by
      match q with
      | 0 | 1 | 2 => rfl
    have hput := putPageReg_entryOf s.cfg hTm hq (show m < s.conf.pageLen q by omega) (r.data.getD m 0)
    rw [hpagem, htwice, set_splice (by omega) (by omega)] at hput
    have hreads : ∀ e, (readPage s.conf q ++ tail e).length = s.conf.pageLen q + (tail e).length := fun e => by
      rw [List.length_append, readPage, List.length_map, List.length_range]
    have hdrop : ∀ e x, (s.script op k e r.search.hwIndex).drop (n + 1 + x) = (readPage s.conf q ++ tail e).drop x :=
      fun e x => by rw [← List.drop_drop, h]
    have hhere : (s.script op k (entryOf s.conf (T.withPage q (splice r.data (T.page q) m))) r.search.hwIndex).drop (n + m + 1) =
        .read q m :: (readPage s.conf q ++ tail (entryOf s.conf (T.withPage q (splice r.data (T.page q) m)))).drop (m + 1) := by
      rw [show n + m + 1 = n + 1 + m by omega, hdrop, List.drop_eq_getElem_cons (by rw [hreads]; omega),
        List.getElem_append_left (by rw [readPage, List.length_map, List.length_range]; omega)]
      simp only [readPage, List.getElem_map, List.getElem_range]
    have hnext : (s.script op k (entryOf s.conf (T.withPage q (splice r.data (T.page q) (m + 1)))) r.search.hwIndex).drop
        (n + m + 2) ≠ [] := by
      rw [show n + m + 2 = n + 1 + (m + 1) by omega, hdrop, Ne, List.drop_eq_nil_iff, hreads]
      rcases hmore with hlt | ⟨-, htail⟩
      · omega
      · have := List.length_pos_iff.2 (htail (entryOf s.conf (T.withPage q (splice r.data (T.page q) (m + 1)))))
        omega
    have hstep := cleanStep_read (r := ⟨entryOf s.conf (T.withPage q (splice r.data (T.page q) m)), r.search, r.cmd, r.ext,
      r.data, r.table⟩) hput.symm hhere hnext (by omega) (show m < r.data.length by omega) (by
        rintro ⟨rfl, hlast⟩
        omega)
    rw [show n + 1 + (m + 1) = n + m + 2 by omega]
    rw [show n + 1 + m = n + m + 1 by omega] at ih
    exact (ih (by omega) (by omega)).snoc hP hstep

end

end Sys2Proof.Machine

/-! ## `LoadBody` and `ReadBody` in clean runs (R238, R340) -/

namespace Sys2Proof.Machine

open Sys2Proof.Claims

/-- What a slot holds while an entry is loaded into it: pages 2, 1 and 0 are replaced in this order (R340). -/
def loadStages (c : Cfg) (e : Entry) (T : Slot) : List Slot :=
  [T, { T with p2 := pageImage c e 2 }, { T with p2 := pageImage c e 2, p1 := pageImage c e 1 }, slotOf c e]

/-- The data bank after an entry has been written to it page by page. -/
def loadedBank (c : Cfg) (e : Entry) (data : List Word) : List Word :=
  throughBank data (pageImage c e 2) (pageImage c e 1) (pageImage c e 0)

/-- The data bank after a slot has been fetched into it page by page. -/
def fetchedBank (T : Slot) (data : List Word) : List Word := throughBank data T.p0 T.p1 T.p2

section

variable {s : State} {op : Op} {k n : Nat} {r : Regs} {P : List Slot → Prop} {i : Index}

theorem slotOf_sized (c : Cfg.Checked) {e : Entry} (he : e.wf c.val = true) : (slotOf c.val e).sized c.val = true := by
  rw [Slot.sized_iff]
  exact ⟨pageImage_length c he 0, pageImage_length c he 1, pageImage_length c he 2⟩

/-- A well-formed entry is the one that its pages hold (R152). -/
theorem entryOf_slotOf {c : Cfg} {e : Entry} (he : e.wf c = true) : entryOf c (slotOf c e) = e := entryOfPages_pageImage he

theorem entryOf_wf (c : Cfg.Checked) {T : Slot} (hT : T.sized c.val = true) : (entryOf c.val T).wf c.val = true := by
  rw [Slot.sized, Bool.and_eq_true, Bool.and_eq_true] at hT
  exact (pageImage_entryOfPages c hT.1.1 hT.1.2 hT.2).1

theorem bank_length_overlay {c : Cfg.Checked} {data image : List Word} {q : Nat} (hd : data.length = c.val.bankSize)
    (hi : image.length = c.val.pageLen q) : (overlay data image).length = c.val.bankSize := by
  have := c.pageLen_le q
  rw [overlay_length _ _ (by omega), hd]

theorem ext_selected (w : Word) : (w &&& 0xFFFC) &&& 3 = 0 := by
  rw [BitVec.and_assoc]
  exact BitVec.and_zero

/-- Page 2 has a register: the actions lie there (R103). -/
theorem pageLen_two_pos (c : Cfg.Checked) : 0 < c.val.pageLen 2 := by
  have hpos := c.actPos (f := c.val.rl.nextId) (by simp [Layout.actFields])
  change 0 < c.val.rl.nAct
  omega

/-! ### Loading -/

/-- A page is written and loaded (R236, R215). -/
theorem clean_loadPage {q : BitVec 2} {e : Entry} (hq : q ≠ 3) (he : e.wf s.conf = true) (hi : s.conf.inRange i = true)
    (h : (s.script op k r.e1 r.search.hwIndex).drop (n + 1) = writePage s.conf e q.toNat ++ [.issue opLoad q i])
    (hb : busyFlag r.cmd = false) (hext : q = 2 → r.ext &&& 3 = 0) (hd : r.data.length = s.conf.bankSize)
    {tb : List Slot} {T : Slot} (htb : r.table = tb.set (slotNo s.conf i) T) (hlen : slotNo s.conf i < tb.length)
    (hP : P (tb.set (slotNo s.conf i) T)) :
    Clean P (s.conf.pageLen q.toNat + 1) (s.mid op k (n + 1) r)
      (s.mid op (k + 1) 0 ⟨r.e1, r.search, doneWord opLoad q i, r.ext, overlay r.data (pageImage s.conf e q.toNat),
        tb.set (slotNo s.conf i) (T.withPage q.toNat (pageImage s.conf e q.toNat))⟩) := by
  have himage : (pageImage s.conf e q.toNat).length = s.conf.pageLen q.toNat := pageImage_length s.cfg he _
  have hbank : s.conf.pageLen q.toNat ≤ s.conf.bankSize := s.cfg.pageLen_le _
  have hwrites := clean_writes (P := P) hb h (by simp) (by omega) hd (htb ▸ hP) _ himage.ge
  rw [splice_all himage] at hwrites
  have hlast : (s.script op k r.e1 r.search.hwIndex).drop (n + s.conf.pageLen q.toNat + 1) = [.issue opLoad q i] := by
    rw [show n + s.conf.pageLen q.toNat + 1 = n + 1 + s.conf.pageLen q.toNat by omega, ← List.drop_drop, h]
    exact List.drop_left' (by rw [writePage, List.length_mapIdx, himage])
  rw [show n + 1 + s.conf.pageLen q.toNat = n + s.conf.pageLen q.toNat + 1 by omega] at hwrites
  exact hwrites.snoc (htb ▸ hP)
    (cleanStep_issue (r := ⟨r.e1, r.search, r.cmd, r.ext, overlay r.data (pageImage s.conf e q.toNat), r.table⟩)
      (d := ⟨opLoad, q, i⟩) hb hlast (show opLoad ≠ 6 ∧ opLoad ≠ 7 by decide) hq
      (effect_load (r := ⟨r.e1, r.search, r.cmd, r.ext, overlay r.data (pageImage s.conf e q.toNat), r.table⟩) hi hq hext
        htb hlen (overlay_take r.data _ himage)))

/-- The phases of `LoadBody` in the access lists of an operation, from phase `k` on, behind `n + 1` other accesses. -/
structure LoadScript (s : State) (op : Op) (k n : Nat) (e1 : Entry) (hwIndex : Index) (e : Entry) (i : Index) : Prop where
  first : (s.script op k e1 hwIndex).drop (n + 1) = loadBody s.conf e i 0
  second : s.script op (k + 1) e1 hwIndex = .poll :: loadBody s.conf e i 1
  third : s.script op (k + 2) e1 hwIndex = .poll :: loadBody s.conf e i 2
  last : s.script op (k + 3) e1 hwIndex = [.poll]

/-- `LoadBody` and the last wait: the slot holds the entry (R238, R242). -/
theorem clean_load {e : Entry} (he : e.wf s.conf = true) (hi : s.conf.inRange i = true)
    (h : LoadScript s op k n r.e1 r.search.hwIndex e i) (hb : busyFlag r.cmd = false)
    (hd : r.data.length = s.conf.bankSize) {tb : List Slot} {T : Slot} (htb : r.table = tb.set (slotNo s.conf i) T)
    (hlen : slotNo s.conf i < tb.length) (hP : ∀ T' ∈ loadStages s.conf e T, P (tb.set (slotNo s.conf i) T')) {t : State}
    (ht : t.devCmd = none)
    (hfinish : ∀ p, finish ((s.mid op (k + 3) 1 ⟨r.e1, r.search, doneWord opLoad 0 i, r.ext &&& 0xFFFC,
      loadedBank s.conf e r.data, tb.set (slotNo s.conf i) (slotOf s.conf e)⟩).withPolls p) = .next (t.withPolls p)) :
    Clean P (pageRegisters s.conf + 7) (s.mid op k (n + 1) r) t := by
  have hpage : ∀ q, (pageImage s.conf e q).length = s.conf.pageLen q := pageImage_length s.cfg he
  have hstage : P (tb.set (slotNo s.conf i) T) ∧ P (tb.set (slotNo s.conf i) (T.withPage 2 (pageImage s.conf e 2))) ∧
      P (tb.set (slotNo s.conf i) ((T.withPage 2 (pageImage s.conf e 2)).withPage 1 (pageImage s.conf e 1))) ∧
      P (tb.set (slotNo s.conf i) (slotOf s.conf e)) :=
    ⟨hP _ (by simp [loadStages]), hP _ (by simp [loadStages, Slot.withPage]), hP _ (by simp [loadStages, Slot.withPage]),
      hP _ (by simp [loadStages])⟩
  obtain ⟨hP0, hP2, hP1, hPe⟩ := hstage
  have hd2 : (overlay r.data (pageImage s.conf e 2)).length = s.conf.bankSize := bank_length_overlay (c := s.cfg) hd (hpage 2)
  have hd1 := bank_length_overlay (c := s.cfg) hd2 (hpage 1)
  have hselect := cleanStep_select (r := r) hb h.first (by simp)
  have hload2 := clean_loadPage (P := P) (n := n + 1) (q := 2)
    (r := ⟨r.e1, r.search, r.cmd, r.ext &&& 0xFFFC, r.data, r.table⟩) (by decide) he hi (drop_succ_of_drop h.first) hb
    (fun _ => ext_selected r.ext) hd htb hlen hP0
  have hpoll2 := cleanStep_poll (op := op) (k := k + 1) (r := ⟨r.e1, r.search, doneWord opLoad 2 i, r.ext &&& 0xFFFC,
    overlay r.data (pageImage s.conf e 2), tb.set (slotNo s.conf i) (T.withPage 2 (pageImage s.conf e 2))⟩)
    (busyFlag_doneWord _ _ _) (by rw [h.second]; simp [loadBody])
  have hload1 := clean_loadPage (P := P) (op := op) (k := k + 1) (n := 0) (q := 1)
    (r := ⟨r.e1, r.search, doneWord opLoad 2 i, r.ext &&& 0xFFFC, overlay r.data (pageImage s.conf e 2),
      tb.set (slotNo s.conf i) (T.withPage 2 (pageImage s.conf e 2))⟩) (by decide) he hi (by rw [h.second]; rfl)
    (busyFlag_doneWord _ _ _) (fun hq => absurd hq (by decide)) hd2 rfl hlen hP2
  have hpoll1 := cleanStep_poll (op := op) (k := k + 2) (r := ⟨r.e1, r.search, doneWord opLoad 1 i, r.ext &&& 0xFFFC,
    overlay (overlay r.data (pageImage s.conf e 2)) (pageImage s.conf e 1),
    tb.set (slotNo s.conf i) ((T.withPage 2 (pageImage s.conf e 2)).withPage 1 (pageImage s.conf e 1))⟩)
    (busyFlag_doneWord _ _ _) (by rw [h.third]; simp [loadBody])
  have hload0 := clean_loadPage (P := P) (op := op) (k := k + 2) (n := 0) (q := 0)
    (r := ⟨r.e1, r.search, doneWord opLoad 1 i, r.ext &&& 0xFFFC,
      overlay (overlay r.data (pageImage s.conf e 2)) (pageImage s.conf e 1),
      tb.set (slotNo s.conf i) ((T.withPage 2 (pageImage s.conf e 2)).withPage 1 (pageImage s.conf e 1))⟩) (by decide) he hi
    (by rw [h.third]; rfl) (busyFlag_doneWord _ _ _) (fun hq => absurd hq (by decide)) hd1 rfl hlen hP1
  have hpoll0 := cleanStep_last_poll (r := ⟨r.e1, r.search, doneWord opLoad 0 i, r.ext &&& 0xFFFC,
    loadedBank s.conf e r.data, tb.set (slotNo s.conf i) (slotOf s.conf e)⟩) (busyFlag_doneWord _ _ _) h.last ht hfinish
  have hrun := (((((Clean.single (show P r.table from htb ▸ hP0) hselect).trans hload2).snoc hP2 hpoll2).trans hload1).snoc hP1 hpoll1).trans hload0
  have hcount : pageRegisters s.conf + 7 = 1 + (s.conf.pageLen 2 + 1) + 1 + (s.conf.pageLen 1 + 1) + 1 +
      (s.conf.pageLen 0 + 1) + 1 := by
    rw [pageRegisters]
    omega
  rw [hcount]
  exact hrun.snoc hPe hpoll0

/-! ### Fetching -/

/-- A wait, and then a page is fetched, all of it (R233, R236). -/
theorem clean_fetchPage {q : Nat} (hq : q < 2) {T : Slot} (hT : T.sized s.conf = true) (he : r.e1 = entryOf s.conf T)
    (hb : busyFlag r.cmd = false) {tail : List Access}
    (h : ∀ e, s.script op k e r.search.hwIndex = .poll :: (readPage s.conf q ++ tail)) (htail : tail ≠ [])
    (hd : r.data.length = s.conf.bankSize) (hP : P r.table) {image : List Word}
    (himage : r.data.take (s.conf.pageLen q) = image) :
    Clean P (s.conf.pageLen q + 1) (s.mid op k 0 r)
        (s.mid op k (s.conf.pageLen q + 1) ⟨entryOf s.conf (T.withPage q image), r.search, r.cmd, r.ext, r.data, r.table⟩) ∧
      ∀ e, (s.script op k e r.search.hwIndex).drop (s.conf.pageLen q + 1) = tail := by
  have hdrop : ∀ e, (s.script op k e r.search.hwIndex).drop (s.conf.pageLen q + 1) = tail := fun e => by
    rw [h, List.drop_succ_cons]
    exact List.drop_left' (by rw [readPage, List.length_map, List.length_range])
  have hpoll := cleanStep_poll (s := s) (op := op) (k := k) (r := r) hb (by rw [h]; simp [htail])
  have hreads := clean_reads (P := P) (n := 0) (q := q) (by omega) hT he (fun e => by rw [h]; rfl) hd hP _ le_rfl
    (.inr ⟨by omega, fun _ => htail⟩)
  rw [splice_all_of_length (Slot.page_length hT q), himage, Nat.zero_add, Nat.add_comm 1 (s.conf.pageLen q)] at hreads
  have hrun := (Clean.single hP hpoll).trans hreads
  exact ⟨Nat.add_comm 1 (s.conf.pageLen q) ▸ hrun, hdrop⟩

/-- The last register of page 2 is read; what follows is decided there. -/
theorem cleanStep_lastRead {m : Nat} {e : Entry} (hm : s.conf.pageLen 2 = m + 1)
    (he : r.e1.putPageReg s.conf 2 m (r.data.getD m 0) = e) {as : List Access}
    (h : (s.script op k r.e1 r.search.hwIndex).drop (m + 1) = .read 2 m :: as) (hd : r.data.length = s.conf.bankSize)
    {t : State} (ht : t.devCmd = none)
    (hafter : ∀ p, afterRead ((s.mid op k (s.conf.pageLen 2) ⟨e, r.search, r.cmd, r.ext, r.data, r.table⟩).withPolls p) 2
      (s.conf.pageLen 2 - 1) = .next (t.withPolls p)) :
    CleanStep (s.mid op k (m + 1) r) t t := by
  subst he
  rw [hm, Nat.add_sub_cancel] at hafter
  have hbank : s.conf.pageLen 2 ≤ s.conf.bankSize := s.cfg.pageLen_le 2
  exact cleanStep_of_access h ht fun p => (run_read (by omega) (by omega) p).trans (hafter p)

/-- A wait, and then page 2 is fetched; what follows its last register is decided there (R236, R238). -/
theorem clean_fetchLast {T : Slot} (hT : T.sized s.conf = true) (he : r.e1 = entryOf s.conf T)
    (hb : busyFlag r.cmd = false) {tail : Entry → List Access}
    (h : ∀ e, s.script op k e r.search.hwIndex = .poll :: readPage s.conf 2 ++ tail e)
    (hd : r.data.length = s.conf.bankSize) (hP : P r.table) {image : List Word}
    (himage : r.data.take (s.conf.pageLen 2) = image) {t : State} (ht : t.devCmd = none)
    (hafter : ∀ p, afterRead ((s.mid op k (s.conf.pageLen 2) ⟨entryOf s.conf (T.withPage 2 image), r.search, r.cmd, r.ext,
      r.data, r.table⟩).withPolls p) 2 (s.conf.pageLen 2 - 1) = .next (t.withPolls p)) :
    Clean P (s.conf.pageLen 2 + 1) (s.mid op k 0 r) t := by
  obtain ⟨m, hm⟩ : ∃ m, s.conf.pageLen 2 = m + 1 := Nat.exists_eq_add_of_le' (pageLen_two_pos s.cfg)
  have hbank : s.conf.pageLen 2 ≤ s.conf.bankSize := s.cfg.pageLen_le 2
  have hpage := Slot.page_length hT 2
  have hreadPage : (readPage s.conf 2).length = m + 1 := by rw [readPage, List.length_map, List.length_range, hm]
  have hne : ∀ e, readPage s.conf 2 ++ tail e ≠ [] := fun e hnil => by
    have := congrArg List.length hnil
    rw [List.length_append, hreadPage, List.length_nil] at this
    omega
  have hpoll := cleanStep_poll (s := s) (op := op) (k := k) (r := r) hb (by rw [h]; exact hne _)
  have hreads := clean_reads (P := P) (n := 0) (q := 2) (by decide) hT he (fun e => by rw [h]; rfl) hd hP m (by omega)
    (.inl (by omega))
  have hlen := splice_length (show m ≤ r.data.length by omega) (show m ≤ (T.page 2).length by omega)
  have hput := putPageReg_entryOf s.cfg (Slot.withPage_sized hT 2 (splice r.data (T.page 2) m) (by omega))
    (q := 2) (by decide) (show m < s.conf.pageLen 2 by omega) (r.data.getD m 0)
  have hpagem : (T.withPage 2 (splice r.data (T.page 2) m)).page 2 = splice r.data (T.page 2) m := rfl
  rw [hpagem, set_splice (by omega) (by omega), ← hm, splice_all_of_length hpage, himage] at hput
  have hhere : (s.script op k (entryOf s.conf (T.withPage 2 (splice r.data (T.page 2) m))) r.search.hwIndex).drop (m + 1) =
      .read 2 m :: tail (entryOf s.conf (T.withPage 2 (splice r.data (T.page 2) m))) := by
    rw [h, List.cons_append, List.drop_succ_cons, List.drop_append_of_le_length (by omega),
      List.drop_eq_getElem_cons (by omega), List.drop_eq_nil_of_le (by omega)]
    simp only [readPage, List.getElem_map, List.getElem_range]
    rfl
  have hstep := cleanStep_lastRead (r := ⟨entryOf s.conf (T.withPage 2 (splice r.data (T.page 2) m)), r.search, r.cmd,
    r.ext, r.data, r.table⟩) hm hput hhere hd ht hafter
  rw [Nat.zero_add, Nat.add_comm 1] at hreads
  have hrun := ((Clean.single hP hpoll).trans hreads).snoc hP hstep
  rwa [show s.conf.pageLen 2 + 1 = 1 + m + 1 by omega]

/-- The phases of `ReadBody` in the access lists of an operation, from phase `k` on, behind `n + 1` other accesses; `tail`
is what follows the last register. -/
structure ReadScript (s : State) (op : Op) (k n : Nat) (hwIndex : Index) (i : Index) (tail : Entry → List Access) : Prop where
  first : ∀ e, (s.script op k e hwIndex).drop (n + 1) = readBody s.conf i 0
  second : ∀ e, s.script op (k + 1) e hwIndex = .poll :: readBody s.conf i 1
  third : ∀ e, s.script op (k + 2) e hwIndex = .poll :: readBody s.conf i 2
  last : ∀ e, s.script op (k + 3) e hwIndex = .poll :: readPage s.conf 2 ++ tail e

/-- `ReadBody`, up to what follows the last register (R238). -/
theorem clean_read (hi : s.conf.inRange i = true) {tail : Entry → List Access}
    (h : ReadScript s op k n r.search.hwIndex i tail) (he : r.e1.wf s.conf = true) (hb : busyFlag r.cmd = false)
    (hd : r.data.length = s.conf.bankSize) {T : Slot} (hT : T.sized s.conf = true)
    (hslot : r.table.getD (slotNo s.conf i) (emptySlot s.conf) = T) (hP : P r.table) {t : State} (ht : t.devCmd = none)
    (hafter : ∀ p, afterRead ((s.mid op (k + 3) (s.conf.pageLen 2) ⟨entryOf s.conf T, r.search, doneWord opRead 2 i,
      r.ext &&& 0xFFFC, fetchedBank T r.data, r.table⟩).withPolls p) 2 (s.conf.pageLen 2 - 1) = .next (t.withPolls p)) :
    Clean P (pageRegisters s.conf + 7) (s.mid op k (n + 1) r) t := by
  have hT0 := slotOf_sized s.cfg he
  have hpage : ∀ q, (T.page q).length = s.conf.pageLen q := Slot.page_length hT
  have hsized : ∀ {T' : Slot} (q : Nat), T'.sized s.conf = true → (T'.withPage q (T.page q)).sized s.conf = true :=
    fun q hT' => Slot.withPage_sized hT' q _ (hpage q)
  have hd0 : (overlay r.data (T.page 0)).length = s.conf.bankSize := bank_length_overlay (c := s.cfg) hd (hpage 0)
  have hd1 := bank_length_overlay (c := s.cfg) hd0 (hpage 1)
  have hd2 := bank_length_overlay (c := s.cfg) hd1 (hpage 2)
  have hpos : 0 < s.conf.pageLen 2 := pageLen_two_pos s.cfg
  have hbank : s.conf.pageLen 2 ≤ s.conf.bankSize := s.cfg.pageLen_le 2
  have hread0 := cleanStep_issue (r := r) (d := ⟨opRead, 0, i⟩) hb (h.first r.e1) (show opRead ≠ 6 ∧ opRead ≠ 7 by decide)
    (show (0 : BitVec 2) ≠ 3 by decide) (effect_read hi (by decide) (fun hq => absurd hq (by decide)) hslot)
  obtain ⟨hfetch0, hdrop0⟩ := clean_fetchPage (op := op) (k := k + 1) (P := P) (q := 0)
    (r := ⟨r.e1, r.search, doneWord opRead 0 i, r.ext, overlay r.data (T.page 0), r.table⟩) (by decide) hT0
    (entryOf_slotOf he).symm (busyFlag_doneWord _ _ _) h.second (by simp) hd0 hP (overlay_take _ _ (hpage 0))
  have hread1 := cleanStep_issue (op := op) (k := k + 1) (n := s.conf.pageLen 0) (d := ⟨opRead, 1, i⟩)
    (r := ⟨entryOf s.conf ((slotOf s.conf r.e1).withPage 0 (T.page 0)), r.search, doneWord opRead 0 i, r.ext,
      overlay r.data (T.page 0), r.table⟩) (busyFlag_doneWord _ _ _) (hdrop0 _) (show opRead ≠ 6 ∧ opRead ≠ 7 by decide)
    (show (1 : BitVec 2) ≠ 3 by decide) (effect_read hi (by decide) (fun hq => absurd hq (by decide)) hslot)
  obtain ⟨hfetch1, hdrop1⟩ := clean_fetchPage (op := op) (k := k + 2) (P := P) (q := 1)
    (r := ⟨entryOf s.conf ((slotOf s.conf r.e1).withPage 0 (T.page 0)), r.search, doneWord opRead 1 i, r.ext,
      overlay (overlay r.data (T.page 0)) (T.page 1), r.table⟩) (by decide) (hsized 0 hT0) rfl (busyFlag_doneWord _ _ _)
    h.third (by simp) hd1 hP (overlay_take _ _ (hpage 1))
  have hselect := cleanStep_select (op := op) (k := k + 2) (n := s.conf.pageLen 1)
    (r := ⟨entryOf s.conf (((slotOf s.conf r.e1).withPage 0 (T.page 0)).withPage 1 (T.page 1)), r.search,
      doneWord opRead 1 i, r.ext, overlay (overlay r.data (T.page 0)) (T.page 1), r.table⟩) (busyFlag_doneWord _ _ _)
    (hdrop1 _) (by simp)
  have hread2 := cleanStep_issue (op := op) (k := k + 2) (n := s.conf.pageLen 1 + 1) (d := ⟨opRead, 2, i⟩)
    (r := ⟨entryOf s.conf (((slotOf s.conf r.e1).withPage 0 (T.page 0)).withPage 1 (T.page 1)), r.search,
      doneWord opRead 1 i, r.ext &&& 0xFFFC, overlay (overlay r.data (T.page 0)) (T.page 1), r.table⟩)
    (busyFlag_doneWord _ _ _) (drop_succ_of_drop (hdrop1 _)) (show opRead ≠ 6 ∧ opRead ≠ 7 by decide)
    (show (2 : BitVec 2) ≠ 3 by decide) (effect_read hi (by decide) (fun _ => ext_selected r.ext) hslot)
  have hlast := clean_fetchLast (op := op) (k := k + 3)
    (r := ⟨entryOf s.conf (((slotOf s.conf r.e1).withPage 0 (T.page 0)).withPage 1 (T.page 1)), r.search,
      doneWord opRead 2 i, r.ext &&& 0xFFFC, fetchedBank T r.data, r.table⟩) (hsized 1 (hsized 0 hT0)) rfl
    (busyFlag_doneWord _ _ _) h.last hd2 hP (overlay_take _ _ (hpage 2)) ht hafter
  have hrun := (((((Clean.single hP hread0).trans hfetch0).snoc hP hread1).trans hfetch1).snoc hP hselect).snoc hP hread2
  have hcount : pageRegisters s.conf + 7 = 1 + (s.conf.pageLen 0 + 1) + 1 + (s.conf.pageLen 1 + 1) + 1 + 1 +
      (s.conf.pageLen 2 + 1) := by
    rw [pageRegisters]
    omega
  rw [hcount]
  exact hrun.trans hlast

end

end Sys2Proof.Machine

/-! ## The operations that do not search (R240 to R243, R285) -/

namespace Sys2Proof.Machine

open Sys2Proof.Claims

/-! ### Where an operation starts -/

/-- The lock is free, the device is idle, and all sizes are right. -/
structure Startable (s : State) : Prop where
  sized : s.sized = true
  owner : s.lockOwner = none
  devCmd : s.devCmd = none
  idle : busyFlag s.cmd = false

theorem ready_iff (s : State) : s.ready = true ↔ Startable s ∧ s.caller ∉ s.cascaded := by
  simp only [State.ready, Bool.and_eq_true, Option.isNone_iff_eq_none, Bool.not_eq_true', List.contains_eq_mem,
    decide_eq_false_iff_not, State.busy]
  exact ⟨fun ⟨⟨⟨⟨h1, h2⟩, h3⟩, h4⟩, h5⟩ => ⟨⟨h1, h2, h3, h4⟩, h5⟩, fun ⟨⟨h1, h2, h3, h4⟩, h5⟩ => ⟨⟨⟨⟨h1, h2⟩, h3⟩, h4⟩, h5⟩⟩

theorem betweenTenures_iff (s : State) : s.betweenTenures = true ↔ Startable s ∧ s.caller ∈ s.cascaded := by
  simp only [State.betweenTenures, Bool.and_eq_true, Option.isNone_iff_eq_none, Bool.not_eq_true', List.contains_eq_mem,
    decide_eq_true_iff, State.busy]
  exact ⟨fun ⟨⟨⟨⟨h1, h2⟩, h3⟩, h4⟩, h5⟩ => ⟨⟨h1, h2, h3, h4⟩, h5⟩, fun ⟨⟨h1, h2, h3, h4⟩, h5⟩ => ⟨⟨⟨⟨h1, h2⟩, h3⟩, h4⟩, h5⟩⟩

/-- A state with another cascade buffer. -/
def State.withE2 (s : State) (e2 : Entry) : State := { s with e2 := e2 }

/-- The registers of a state, with another staging buffer. -/
def State.regs (s : State) (e1 : Entry) : Regs :=
  ⟨e1, ⟨s.hwIndex, s.key1, s.key2, s.key3⟩, s.cmd, s.ext, s.data, s.table⟩

/-- The operation of the caller at its first access. -/
def State.start (s : State) (op : Op) (e1 e2 : Entry) : State := (s.withE2 e2).mid op 0 0 (s.regs e1)

section

variable {s : State} {op : Op} {stage : State → State} {e1 e2 : Entry} {P : List Slot → Prop} {i : Index}

/-- A request that may start takes the lock and uses the moves that are decided. -/
theorem Startable.perform (h : Startable s) (hstage : stage (s.acquire op) = s.started op e1 e2) :
    perform op stage s = runMoves s.sched (s.start op e1 e2) := by
  have hstart : { s.started op e1 e2 with sched := [] } = s.start op e1 e2 := by
    have hdev := h.devCmd
    obtain ⟨⟩ := s
    subst hdev
    rfl
  rw [perform_takes _ _ h.owner, hstage, goOn, hstart]
  rfl

/-- In a prompt environment it comes to the end of its clean run. -/
theorem perform_prompt {n : Nat} {t : State} (h : Startable s) (hstage : stage (s.acquire op) = s.started op e1 e2)
    (hclean : Clean P n (s.start op e1 e2) t) (hend : t.lockOwner = none) {rest : List Move}
    (hs : s.sched = prompt n ++ rest) : perform op stage s = .next { t.withPolls 0 with sched := rest } := by
  rw [h.perform hstage, hs]
  exact hclean.prompt (settled_mid _ _ _ _ _) rfl hend rest

/-- In every environment it stays on its clean run, comes to its end, or fails. -/
theorem perform_reached {n : Nat} {t : State} (h : Startable s) (hstage : stage (s.acquire op) = s.started op e1 e2)
    (hclean : Clean P n (s.start op e1 e2) t) (hend : t.lockOwner = none) :
    ∃ y, perform op stage s = .next y ∧ Reached P t s.sched y := by
  rw [h.perform hstage]
  exact hclean.reached rfl hend s.sched

theorem withE2_self (s : State) : s.withE2 s.e2 = s := rfl

/-- The first wait. -/
theorem clean_start (h : Startable s) (hscript : ((s.withE2 e2).script op 0 e1 s.hwIndex).drop 1 ≠ []) (hP : P s.table) :
    Clean P 1 (s.start op e1 e2) ((s.withE2 e2).mid op 0 1 (s.regs e1)) :=
  Clean.single (s := (s.withE2 e2).mid op 0 0 (s.regs e1)) hP (cleanStep_poll h.idle hscript)

theorem Startable.slotNo_lt (h : Startable s) (hi : s.conf.inRange i = true) : slotNo s.conf i < s.table.length :=
  Machine.slotNo_lt s ((State.sized_iff s).1 h.sized).2.1 hi

/-- A slot replaced by itself. -/
theorem Startable.set_slot (h : Startable s) (hi : s.conf.inRange i = true) :
    s.table.set (slotNo s.conf i) (s.slot i) = s.table := by
  have hlt := h.slotNo_lt hi
  rw [State.slot, List.getD_eq_getElem?_getD, List.getElem?_eq_getElem hlt, Option.getD_some, List.set_getElem_self]

/-! ### Flushing (R240, R241) -/

/-- A flush: a wait, the command, and the wait for it. -/
theorem clean_flush {d : DevCmd} {table : List Slot} (h : Startable s)
    (h0 : (s.script op 0 s.e1 s.hwIndex) = [.poll, .issue d.op d.page d.index]) (h1 : s.script op 1 s.e1 s.hwIndex = [.poll])
    (ho : d.op ≠ 6 ∧ d.op ≠ 7) (hp : d.page ≠ 3)
    (hdev : ∀ p, commandEffect d ((s.sent op 0 (s.regs s.e1) d).withPolls p) = .next ((s.mid op 1 0 ⟨s.e1,
      ⟨s.hwIndex, s.key1, s.key2, s.key3⟩, doneWord d.op d.page d.index, s.ext, s.data, table⟩).withPolls p))
    (hfinish : ∀ r p, finish ((s.mid op 1 1 r).withPolls p) = .next ((s.ended r (.ok .unit)).withPolls p))
    (hP : P s.table) (hP' : P table) :
    Clean P 3 (s.start op s.e1 s.e2) (s.ended ⟨s.e1, ⟨s.hwIndex, s.key1, s.key2, s.key3⟩,
      doneWord d.op d.page d.index, s.ext, s.data, table⟩ (.ok .unit)) := by
  have hstart := clean_start (op := op) (e1 := s.e1) (e2 := s.e2) h (by rw [withE2_self, h0]; simp) hP
  rw [withE2_self] at hstart
  have hissue := cleanStep_issue (s := s) (op := op) (k := 0) (n := 0) (r := s.regs s.e1) h.idle
    (drop_succ_of_drop (n := 0) h0) ho hp hdev
  have hlast := cleanStep_last_poll (s := s) (op := op) (k := 1) (r := ⟨s.e1, ⟨s.hwIndex, s.key1, s.key2, s.key3⟩,
    doneWord d.op d.page d.index, s.ext, s.data, table⟩) (busyFlag_doneWord _ _ _) h1 rfl (hfinish _)
  exact (hstart.snoc hP hissue).snoc hP' hlast

/-- `FlushAll` (R240). -/
theorem clean_flushAll (h : Startable s) (hP : P s.table) (hP' : P (List.replicate s.conf.slots (emptySlot s.conf))) :
    Clean P 3 (s.start .flushAll s.e1 s.e2) (s.ended ⟨s.e1, ⟨s.hwIndex, s.key1, s.key2, s.key3⟩,
      doneWord opFlushAll 0 0, s.ext, s.data, List.replicate s.conf.slots (emptySlot s.conf)⟩ (.ok .unit)) :=
  clean_flush (d := ⟨opFlushAll, 0, 0⟩) h rfl rfl (show opFlushAll ≠ 6 ∧ opFlushAll ≠ 7 by decide) (show (0 : BitVec 2) ≠ 3 by decide)
    effect_flushAll (fun _ _ => rfl) hP hP'

/-- `FlushEntry` (R241). -/
theorem clean_flushEntry (h : Startable s) (hi : s.conf.inRange i = true) (hP : P s.table)
    (hP' : P (s.table.set (slotNo s.conf i) (emptySlot s.conf))) :
    Clean P 3 (s.start (.flushEntry i) s.e1 s.e2) (s.ended ⟨s.e1, ⟨s.hwIndex, s.key1, s.key2, s.key3⟩,
      doneWord opFlushEntry 0 i, s.ext, s.data, s.table.set (slotNo s.conf i) (emptySlot s.conf)⟩ (.ok .unit)) :=
  clean_flush (d := ⟨opFlushEntry, 0, i⟩) h rfl rfl (show opFlushEntry ≠ 6 ∧ opFlushEntry ≠ 7 by decide)
    (show (0 : BitVec 2) ≠ 3 by decide) (effect_flushEntry hi) (fun _ _ => rfl) hP hP'

/-! ### Loading one entry (R242, R285) -/

/-- The registers after an entry has been loaded. -/
def State.loadedRegs (s : State) (e1 e : Entry) (i : Index) : Regs :=
  ⟨e1, ⟨s.hwIndex, s.key1, s.key2, s.key3⟩, doneWord opLoad 0 i, s.ext &&& 0xFFFC, loadedBank s.conf e s.data,
    s.table.set (slotNo s.conf i) (slotOf s.conf e)⟩

/-- An operation that is a wait and then `LoadBody`. -/
theorem clean_loadOnly {e : Entry} (h : Startable s) (he : e.wf s.conf = true) (hi : s.conf.inRange i = true)
    (hscript : ∀ k hw, (s.withE2 e2).script op k e1 hw = .poll :: loadBody s.conf e i k)
    (hP : ∀ T ∈ loadStages s.conf e (s.slot i), P (s.table.set (slotNo s.conf i) T)) {t : State} (ht : t.devCmd = none)
    (hfinish : ∀ p, finish (((s.withE2 e2).mid op 3 1 (s.loadedRegs e1 e i)).withPolls p) = .next (t.withPolls p)) :
    Clean P (pageRegisters s.conf + 8) (s.start op e1 e2) t := by
  obtain ⟨hd, -⟩ := (State.sized_iff s).1 h.sized
  have hload : LoadScript (s.withE2 e2) op 0 0 e1 s.hwIndex e i :=
    ⟨by rw [hscript]; rfl, hscript 1 _, hscript 2 _, hscript 3 _⟩
  have hrun := clean_load (s := s.withE2 e2) (r := s.regs e1) (P := P) he hi hload h.idle hd
    (h.set_slot hi).symm (h.slotNo_lt hi) hP ht hfinish
  have hPs : P s.table := h.set_slot hi ▸ hP _ (by simp [loadStages])
  have hcount : pageRegisters s.conf + 8 = 1 + (pageRegisters s.conf + 7) := by omega
  rw [hcount]
  exact (clean_start h (by rw [hscript]; simp [loadBody]) hPs).trans hrun

/-! ### Reading one entry (R243) -/

/-- The validity that `ReadEntry` reports is the slot's (R37, R243). -/
theorem validWords_entryOf (s : State) (i : Index) : validWords s.conf (entryOf s.conf (s.slot i)).hdr = s.validAt i := by
  obtain ⟨-, hlo, hhi⟩ := s.cfg.hdrPos (f := s.cfg.val.rl.tag) (by simp [Layout.hdrFields])
  have htag : s.cfg.val.rl.tag.reg - s.cfg.val.dataLo < s.cfg.val.rl.nHdr := by omega
  simp only [State.validAt, validWords, getReg, entryOf, entryOfPages, List.getD_eq_getElem?_getD, List.getElem?_take,
    if_pos htag]

/-- Past its wait an operation advances to the next access, or ends. -/
theorem advance_past {k n : Nat} {r : Regs} (p : Nat) (h : (s.script op k r.e1 r.search.hwIndex).drop (n + 2) ≠ []) :
    advance ((s.mid op k (n + 1) r).withPolls p) = .next ((s.mid op k (n + 2) r).withPolls p) :=
  advance_mid (by cases k <;> rfl) h

@[inherit_doc advance_past] theorem advance_past_end {k n : Nat} {r : Regs} (p : Nat)
    (h : (s.script op k r.e1 r.search.hwIndex).drop (n + 2) = []) :
    advance ((s.mid op k (n + 1) r).withPolls p) = finish ((s.mid op k (n + 2) r).withPolls p) :=
  advance_finish (by cases k <;> rfl) h

theorem clean_readEntry (h : Startable s) (hi : s.conf.inRange i = true) (hP : P s.table) :
    Clean P (pageRegisters s.conf + 8) (s.start (.readEntry i) s.e1 s.e2)
      (s.ended ⟨entryOf s.conf (s.slot i), ⟨s.hwIndex, s.key1, s.key2, s.key3⟩, doneWord opRead 2 i, s.ext &&& 0xFFFC,
        fetchedBank (s.slot i) s.data, s.table⟩
        (.ok (.entry (entryOf s.conf (s.slot i)) (s.validAt i)))) := by
  obtain ⟨hd, -, -, he1, -⟩ := (State.sized_iff s).1 h.sized
  obtain ⟨m, hm⟩ : ∃ m, s.conf.pageLen 2 = m + 1 := Nat.exists_eq_add_of_le' (pageLen_two_pos s.cfg)
  have hscript : ReadScript s (.readEntry i) 0 0 s.hwIndex i (fun _ => []) :=
    ⟨fun _ => rfl, fun _ => rfl, fun _ => rfl, fun _ => by rw [List.append_nil]; rfl⟩
  have hstart := clean_start (op := .readEntry i) (e1 := s.e1) (e2 := s.e2) h (by simp [State.script, phaseBody, readBody]) hP
  rw [withE2_self] at hstart
  have hrun := clean_read (r := s.regs s.e1) hi hscript he1 h.idle hd (State.slot_sized h.sized i) rfl hP
    (t := s.ended ⟨entryOf s.conf (s.slot i), ⟨s.hwIndex, s.key1, s.key2, s.key3⟩, doneWord opRead 2 i, s.ext &&& 0xFFFC,
        fetchedBank (s.slot i) s.data, s.table⟩ (.ok (.entry (entryOf s.conf (s.slot i)) (s.validAt i)))) rfl fun p => by
    have hafter : ∀ u : State, u.op = some (.readEntry i) → afterRead u 2 (s.conf.pageLen 2 - 1) = advance u :=
      fun u hu => by
        rw [afterRead, hu]
        split <;> rfl
    rw [hafter _ rfl, hm]
    refine (advance_past_end p ?_).trans ?_
    · refine (congrArg (List.drop (m + 2)) (hscript.last _)).trans (List.drop_eq_nil_of_le ?_)
      simp [readPage, hm]
    · rw [← validWords_entryOf]
      rfl
  rw [show pageRegisters s.conf + 8 = 1 + (pageRegisters s.conf + 7) by omega]
  exact hstart.trans hrun

end

end Sys2Proof.Machine

/-! ## Flush, load and read: what they do in a prompt environment, and how far they get in any other -/

namespace Sys2Proof.Machine

open Sys2Proof.Claims

theorem doneWord_flushAll : doneWord opFlushAll 0 0 = 0x1000 := by decide

theorem doneWord_flushEntry (i : Index) : doneWord opFlushEntry 0 i = 0x2000 ||| i.setWidth 16 := by
  rw [doneWord_eq]
  exact congrArg (· ||| i.setWidth 16) (by decide)

theorem doneWord_load (i : Index) : doneWord opLoad 0 i = 0x3000 ||| i.setWidth 16 := by
  rw [doneWord_eq]
  exact congrArg (· ||| i.setWidth 16) (by decide)

theorem doneWord_getNext (i : Index) : doneWord opGetNext 0 i = 0x4000 ||| i.setWidth 16 := by
  rw [doneWord_eq]
  exact congrArg (· ||| i.setWidth 16) (by decide)

theorem doneWord_read (i : Index) : doneWord opRead 2 i = 0x5800 ||| i.setWidth 16 := by
  rw [doneWord_eq]
  exact congrArg (· ||| i.setWidth 16) (by decide)

section

variable {s : State} {P : List Slot → Prop} {i : Index}

/-- `LoadEntry` (R242). -/
theorem clean_loadEntry {e : Entry} (h : Startable s) (he : e.wf s.conf = true) (hi : s.conf.inRange i = true)
    (hP : ∀ T ∈ loadStages s.conf e (s.slot i), P (s.table.set (slotNo s.conf i) T)) :
    Clean P (pageRegisters s.conf + 8) (s.start (.loadEntry i) e s.e2) (s.ended (s.loadedRegs e e i) (.ok .unit)) :=
  clean_loadOnly h he hi (fun _ _ => rfl) hP rfl fun _ => rfl

/-- Settles O32: the clean run of a flush, followed by a prompt device. -/
theorem flushesCompleteInThreeAccesses : Obligations.FlushesCompleteInThreeAccesses := by
  intro port index rest s hready hs
  have h := ((ready_iff s).1 hready).1
  refine ⟨?_, fun hi => ?_⟩
  · refine (perform_prompt h rfl (clean_flushAll (P := fun _ => True) h trivial trivial) rfl hs).trans ?_
    rw [doneWord_flushAll]
    rfl
  · refine (exec_of_valid (op := .flushEntry index) rfl hi).trans ?_
    refine (perform_prompt h rfl (clean_flushEntry (P := fun _ => True) h hi trivial trivial) rfl hs).trans ?_
    rw [doneWord_flushEntry]
    rfl

/-- Settles O33: the clean run of `LoadBody`, followed by a prompt device. -/
theorem loadEntryStoresTheEntry : Obligations.LoadEntryStoresTheEntry := by
  intro port index e rest s hready hi he hs
  have h := ((ready_iff s).1 hready).1
  refine (exec_of_valid (op := .loadEntry index) rfl hi).trans ?_
  refine (perform_prompt (e1 := e) (e2 := s.e2) h rfl (clean_loadEntry (P := fun _ => True) h he hi fun _ _ => trivial)
    rfl hs).trans ?_
  rw [State.loadedRegs, doneWord_load]
  rfl

/-- Settles O34: the clean run of `ReadBody`, followed by a prompt device. -/
theorem readEntryReturnsTheSlot : Obligations.ReadEntryReturnsTheSlot := by
  intro port index rest s hready hi hs
  have h := ((ready_iff s).1 hready).1
  refine (exec_of_valid (op := .readEntry index) rfl hi).trans ?_
  refine (perform_prompt h rfl (clean_readEntry (P := fun _ => True) h hi trivial) rfl hs).trans ?_
  rw [doneWord_read]
  rfl

/-! ### A load and then a read (R220) -/

/-- A run of an operation keeps the sizes. -/
theorem perform_sized {op : Op} {stage : State → State} {e1 e2 : Entry} {t : State} (h : Startable s)
    (hstage : stage (s.acquire op) = s.started op e1 e2) (he1 : e1.wf s.conf = true) (he2 : e2.wf s.conf = true)
    (ht : perform op stage s = .next t) : t.sized = true := by
  obtain ⟨hd, htable, htables, -, -⟩ := (State.sized_iff s).1 h.sized
  rw [h.perform hstage] at ht
  exact (runMoves_keeps ht).2 ((State.sized_iff (s.start op e1 e2)).2 ⟨hd, htable, htables, he1, he2⟩)

theorem busyFlag_flushEntry (i : Index) : busyFlag (0x2000 ||| i.setWidth 16) = false :=
  doneWord_flushEntry i ▸ busyFlag_doneWord _ _ _

theorem busyFlag_load (i : Index) : busyFlag (0x3000 ||| i.setWidth 16) = false :=
  doneWord_load i ▸ busyFlag_doneWord _ _ _

theorem notMem_filter_caller (l : List Nat) (a : Nat) : a ∉ l.filter fun w => w != a := by simp

/-- What a prompt read after an operation answers, when the caller may start again and the slot holds `T`. -/
theorem read_after {t : State} {T : Slot} (port : BitVec 4) (hconf : t.conf = s.conf) (hready : t.ready = true)
    (hi : s.conf.inRange i = true) (hslot : t.slot i = T) :
    ∃ u, exec (.readEntry port i) (withMoves t (prompt (pageRegisters s.conf + 8))) = .next u ∧
      u.result = .ok (.entry (entryOf s.conf T) (validWords s.conf T.p0)) := by
  have hread := readEntryReturnsTheSlot port i [] (withMoves t (prompt (pageRegisters s.conf + 8))) hready (hconf ▸ hi)
    (by rw [List.append_nil]; exact congrArg (fun c => prompt (pageRegisters c + 8)) hconf.symm)
  refine ⟨_, hread, ?_⟩
  change Result.ok (.entry (entryOf t.conf (t.slot i)) (validWords t.conf (t.slot i).p0)) = _
  rw [hslot, hconf]

/-- Settles O49: the load leaves the entry's pages in the slot and the caller may start again; then the read answers what
the slot holds. -/
theorem loadThenReadGivesTheEntry : Obligations.LoadThenReadGivesTheEntry := by
  intro port index e s t hready hi he
  obtain ⟨h, hcaller⟩ := (ready_iff s).1 hready
  obtain ⟨-, hlen, -, he1, he2⟩ := (State.sized_iff s).1 h.sized
  refine ⟨fun ht => ?_, fun ht => ?_⟩
  · have hload := loadEntryStoresTheEntry port index e [] (withMoves s (prompt (pageRegisters s.conf + 8))) hready hi he
      (List.append_nil _).symm
    have hsized : t.sized = true := by
      refine perform_sized (s := withMoves s (prompt (pageRegisters s.conf + 8))) (op := .loadEntry index)
        (stage := stageOf (.loadEntry port index (some e))) (e1 := e) (e2 := s.e2) ⟨h.sized, h.owner, h.devCmd, h.idle⟩ rfl he he2 ?_
      exact (exec_of_valid (s := withMoves s (prompt (pageRegisters s.conf + 8))) (op := .loadEntry index) rfl hi).symm.trans ht
    have hslot := slot_putSlot_self s (slotOf s.conf e) hlen hi
    have hteq := (Host.Outcome.next.inj (hload.symm.trans ht)).symm
    have hvalid : validWords s.conf e.hdr = validWords s.conf (slotOf s.conf e).p0 := by
      have hself := validWords_entryOf (s.putSlot index (slotOf s.conf e)) index
      rw [State.validAt, hslot] at hself
      change validWords s.conf (entryOf s.conf (slotOf s.conf e)).hdr = _ at hself
      rw [entryOf_slotOf he] at hself
      exact hself
    have hagain : t.ready = true := by
      rw [ready_iff]
      exact ⟨⟨hsized, by rw [hteq]; rfl, by rw [hteq]; rfl, by rw [hteq]; exact busyFlag_load index⟩,
        by rw [hteq]; exact notMem_filter_caller _ _⟩
    have hconf : t.conf = s.conf := by rw [hteq]; rfl
    have htslot : t.slot index = slotOf s.conf e := by rw [hteq]; exact hslot
    obtain ⟨u, hu, hresult⟩ := read_after port hconf hagain hi htslot
    exact ⟨u, hu, by rw [hresult, hvalid, entryOf_slotOf he]⟩
  · have hflush := (flushesCompleteInThreeAccesses port index [] (withMoves s (prompt 3)) hready
      (List.append_nil _).symm).2 hi
    have hsized : t.sized = true := by
      refine perform_sized (s := withMoves s (prompt 3)) (op := .flushEntry index) (stage := id) (e1 := s.e1) (e2 := s.e2)
        ⟨h.sized, h.owner, h.devCmd, h.idle⟩ rfl he1 he2 ?_
      exact (exec_of_valid (s := withMoves s (prompt 3)) (op := .flushEntry index) rfl hi).symm.trans ht
    have hslot := slot_putSlot_self s (emptySlot s.conf) hlen hi
    have hteq := (Host.Outcome.next.inj (hflush.symm.trans ht)).symm
    have hagain : t.ready = true := by
      rw [ready_iff]
      exact ⟨⟨hsized, by rw [hteq]; rfl, by rw [hteq]; rfl, by rw [hteq]; exact busyFlag_flushEntry index⟩,
        by rw [hteq]; exact notMem_filter_caller _ _⟩
    have hconf : t.conf = s.conf := by rw [hteq]; rfl
    have htslot : t.slot index = emptySlot s.conf := by rw [hteq]; exact hslot
    obtain ⟨u, hu, hresult⟩ := read_after port hconf hagain hi htslot
    exact ⟨u, hu, hresult.trans (congrArg (fun v => Result.ok (.entry _ v)) (validWords_emptySlot s.cfg))⟩

end

end Sys2Proof.Machine

/-! ## The operations that search (R238, R244 to R247) -/

namespace Sys2Proof.Machine

open Sys2Proof.Claims

/-- The access lists of an operation that searches from index `i` on; `tail` is what follows the last register read. -/
structure SearchScript (s : State) (op : Op) (i : Index) (tail : Entry → Index → List Access) : Prop where
  ask : ∀ e j, s.script op 0 e j = [.poll, .issue opGetNext 0 i]
  answer : ∀ e j, s.script op 1 e j = .poll :: .readCmd :: (keyReads s.conf j ++ [.issue opRead 0 j])
  page0 : ∀ e j, s.script op 2 e j = .poll :: readBody s.conf j 1
  page1 : ∀ e j, s.script op 3 e j = .poll :: readBody s.conf j 2
  page2 : ∀ e j, s.script op 4 e j = .poll :: readPage s.conf 2 ++ tail e j

/-- What a search has kept when the device has answered `j` (R28, R244). -/
def State.searched (s : State) (j : Index) : Search :=
  if j.toNat = s.conf.maxIndex then ⟨j, (s.slot j).p0.getD 0 0, (s.slot j).p0.getD 1 0, (s.slot j).p0.getD 2 0⟩
  else ⟨j, s.key1, s.key2, s.key3⟩

/-- The registers when the device has answered `j`, with what the search has kept so far. -/
def State.answeredRegs (s : State) (j : Index) (kept : Search) : Regs :=
  ⟨s.e1, kept, doneWord opGetNext 0 j, s.ext, overlay s.data (s.slot j).p0, s.table⟩

section

variable {s : State} {op : Op} {i j : Index} {tail : Entry → Index → List Access} {P : List Slot → Prop}

theorem searched_hwIndex (s : State) (j : Index) : (s.searched j).hwIndex = j := by
  rw [State.searched]
  split <;> rfl

/-- The question and its answer: the first four accesses of a search. -/
theorem clean_ask (h : Startable s) (hscript : SearchScript s op i tail) (hi : s.conf.inRange i = true)
    (hj : j = nextValid s i) (hP : P s.table) :
    Clean P 4 (s.start op s.e1 s.e2) (s.mid op 1 2 (s.answeredRegs j ⟨j, s.key1, s.key2, s.key3⟩)) := by
  have hstart := clean_start (op := op) (e1 := s.e1) (e2 := s.e2) h (by rw [withE2_self, hscript.ask]; simp) hP
  rw [withE2_self] at hstart
  have hissue := cleanStep_issue (s := s) (op := op) (k := 0) (n := 0) (d := ⟨opGetNext, 0, i⟩) (r := s.regs s.e1) h.idle
    (drop_succ_of_drop (n := 0) (hscript.ask _ _)) (show opGetNext ≠ 6 ∧ opGetNext ≠ 7 by decide)
    (show (0 : BitVec 2) ≠ 3 by decide) (effect_getNext hi hj rfl)
  have hpoll := cleanStep_poll (s := s) (op := op) (k := 1)
    (r := s.answeredRegs j ⟨s.hwIndex, s.key1, s.key2, s.key3⟩) (busyFlag_doneWord _ _ _) (by rw [hscript.answer]; simp)
  have hcmd := cleanStep_readCmd (s := s) (op := op) (k := 1) (n := 0)
    (r := s.answeredRegs j ⟨s.hwIndex, s.key1, s.key2, s.key3⟩) (drop_succ_of_drop (n := 0) (hscript.answer _ _))
    (by rw [hscript.answer]; simp)
  have hindex : cmdIndex (doneWord opGetNext 0 j) = j := cmdIndex_doneWord _ _ _
  have hread : (s.mid op 1 2 (s.answeredRegs j ⟨cmdIndex (doneWord opGetNext 0 j), s.key1, s.key2, s.key3⟩)) =
      s.mid op 1 2 (s.answeredRegs j ⟨j, s.key1, s.key2, s.key3⟩) := by rw [hindex]
  rw [← hread]
  exact ((hstart.snoc hP hissue).snoc hP hpoll).snoc hP hcmd

/-! ### The key registers (R244 (a)) -/

theorem keysAllZero_iff (k1 k2 k3 : Word) : keysAllZero k1 k2 k3 = true ↔ k1 = 0 ∧ k2 = 0 ∧ k3 = 0 := by
  simp [keysAllZero, and_assoc]

/-- The key registers of the answer, read from the bank, are those of its slot. -/
theorem getD_overlay_p0 (h : s.sized = true) (j : Index) {k : Nat} (hk : k < 3) :
    (overlay s.data (s.slot j).p0).getD k 0 = (s.slot j).p0.getD k 0 := by
  have h3 := s.cfg.sizes.1
  have hlen : (s.slot j).p0.length = s.cfg.val.rl.nHdr + s.cfg.val.rl.cut := Slot.page_length (State.slot_sized h j) 0
  rw [overlay, List.getD_eq_getElem?_getD, List.getElem?_append_left (by omega), ← List.getD_eq_getElem?_getD]

theorem run_readKey {k : Nat} (h : s.sized = true) (hk : k < 3) (n : Nat) (kept : Search) (p : Nat) :
    runAccess (.readKey k) .ok ((s.mid op 1 n (s.answeredRegs j kept)).withPolls p) =
      afterKey ((s.mid op 1 n (s.answeredRegs j kept)).withPolls p) k ((s.slot j).p0.getD k 0) := by
  have hbank : (overlay s.data (s.slot j).p0).length = s.conf.bankSize :=
    (overlay_page_length h j 0).trans ((State.sized_iff s).1 h).1
  have hlt : k < s.conf.bankSize := key_lt_bankSize s.cfg hk
  rw [← getD_overlay_p0 h j hk]
  exact runAccess_readKey (s := (s.mid op 1 n (s.answeredRegs j kept)).withPolls p) (.readKey hlt (hbank.symm ▸ hlt))

/-- The accesses that follow the reading of the answer. -/
theorem drop_answer (hscript : SearchScript s op i tail) (hmax : j.toNat = s.conf.maxIndex) (e : Entry) :
    (s.script op 1 e j).drop 2 = [.readKey 0, .readKey 1, .readKey 2, .issue opRead 0 j] := by
  rw [hscript.answer, keyReads, if_pos hmax]
  rfl

/-- The first two key registers are read. -/
theorem clean_keys (h : Startable s) (hscript : SearchScript s op i tail) (hmax : j.toNat = s.conf.maxIndex)
    (hP : P s.table) (k1 k2 k3 : Word) :
    Clean P 2 (s.mid op 1 2 (s.answeredRegs j ⟨j, k1, k2, k3⟩))
      (s.mid op 1 4 (s.answeredRegs j ⟨j, (s.slot j).p0.getD 0 0, (s.slot j).p0.getD 1 0, k3⟩)) := by
  have hdrop := drop_answer hscript hmax s.e1
  have hkey0 := cleanStep_within (s := s) (op := op) (k := 1) (n := 2) (r := s.answeredRegs j ⟨j, k1, k2, k3⟩)
    (r' := s.answeredRegs j ⟨j, (s.slot j).p0.getD 0 0, k2, k3⟩) hdrop (drop_succ_of_drop hdrop ▸ by simp) fun p =>
      ⟨_, run_readKey h.sized (by decide) 2 _ p, rfl⟩
  have hkey1 := cleanStep_within (s := s) (op := op) (k := 1) (n := 3)
    (r := s.answeredRegs j ⟨j, (s.slot j).p0.getD 0 0, k2, k3⟩)
    (r' := s.answeredRegs j ⟨j, (s.slot j).p0.getD 0 0, (s.slot j).p0.getD 1 0, k3⟩) (drop_succ_of_drop hdrop)
    (drop_succ_of_drop (drop_succ_of_drop hdrop) ▸ by simp) fun p => ⟨_, run_readKey h.sized (by decide) 3 _ p, rfl⟩
  exact (Clean.single (s := s.mid op 1 2 (s.answeredRegs j ⟨j, k1, k2, k3⟩)) hP hkey0).snoc hP hkey1

theorem afterKey_two (u : State) (w : Word) :
    afterKey u 2 w =
      if keysAllZero u.key1 u.key2 w then .next (({ u with key3 := w } : State).abort .notFound)
      else advance { u with key3 := w } := rfl

/-- The third key register decides: with all three zero there is nothing higher (R244). -/
theorem clean_nothing (h : Startable s) (hscript : SearchScript s op i tail) (hi : s.conf.inRange i = true)
    (hj : j = nextValid s i) (hnothing : nothingHigher s j) (hP : P s.table) :
    Clean P 7 (s.start op s.e1 s.e2) (s.ended (s.answeredRegs j (s.searched j)) (.err .notFound)) := by
  obtain ⟨hmax, hzero⟩ := hnothing
  have hkeys := clean_keys h hscript hmax hP s.key1 s.key2 s.key3
  have hdrop := drop_succ_of_drop (drop_succ_of_drop (drop_answer hscript hmax s.e1))
  have hsearched : s.searched j = ⟨j, (s.slot j).p0.getD 0 0, (s.slot j).p0.getD 1 0, (s.slot j).p0.getD 2 0⟩ := if_pos hmax
  have hkey2 : CleanStep (s.mid op 1 4 (s.answeredRegs j ⟨j, (s.slot j).p0.getD 0 0, (s.slot j).p0.getD 1 0, s.key3⟩))
      (s.ended (s.answeredRegs j (s.searched j)) (.err .notFound)) (s.ended (s.answeredRegs j (s.searched j)) (.err .notFound)) := by
    refine cleanStep_of_access hdrop rfl fun p => (run_readKey h.sized (by decide) 4 _ p).trans ?_
    rw [hsearched]
    exact (afterKey_two _ _).trans (if_pos ((keysAllZero_iff _ _ _).2 hzero))
  exact ((clean_ask h hscript hi hj hP).trans hkeys).snoc hP hkey2

/-- Otherwise the slot of the answer is fetched; `searchLead` accesses lead to its first command. -/
def searchLead (s : State) (j : Index) : Nat := if j.toNat = s.conf.maxIndex then 3 else 0

theorem clean_lead (h : Startable s) (hscript : SearchScript s op i tail) (hi : s.conf.inRange i = true)
    (hj : j = nextValid s i) (hsome : ¬ nothingHigher s j) (hP : P s.table) :
    Clean P (4 + searchLead s j) (s.start op s.e1 s.e2)
        (s.mid op 1 (searchLead s j + 1 + 1) (s.answeredRegs j (s.searched j))) ∧
      ∀ e, (s.script op 1 e j).drop (searchLead s j + 1 + 1) = [.issue opRead 0 j] := by
  have hask := clean_ask h hscript hi hj hP
  by_cases hmax : j.toNat = s.conf.maxIndex
  · have hlead : searchLead s j = 3 := if_pos hmax
    have hsearched : s.searched j = ⟨j, (s.slot j).p0.getD 0 0, (s.slot j).p0.getD 1 0, (s.slot j).p0.getD 2 0⟩ := if_pos hmax
    have hdrop := drop_succ_of_drop (drop_succ_of_drop (drop_answer hscript hmax s.e1))
    have hkeys := clean_keys h hscript hmax hP s.key1 s.key2 s.key3
    have hkey2 : CleanStep (s.mid op 1 4 (s.answeredRegs j ⟨j, (s.slot j).p0.getD 0 0, (s.slot j).p0.getD 1 0, s.key3⟩))
        (s.mid op 1 5 (s.answeredRegs j (s.searched j))) (s.mid op 1 5 (s.answeredRegs j (s.searched j))) := by
      rw [hsearched]
      refine cleanStep_within hdrop (drop_succ_of_drop hdrop ▸ by simp) fun p =>
        ⟨_, (run_readKey h.sized (by decide) 4 _ p).trans ((afterKey_two _ _).trans (if_neg ?_)), rfl⟩
      exact fun hzero => hsome ⟨hmax, (keysAllZero_iff _ _ _).1 hzero⟩
    rw [hlead]
    exact ⟨(hask.trans hkeys).snoc hP hkey2, fun e =>
      drop_succ_of_drop (drop_succ_of_drop (drop_succ_of_drop (drop_answer hscript hmax e)))⟩
  · have hlead : searchLead s j = 0 := if_neg hmax
    have hsearched : s.searched j = ⟨j, s.key1, s.key2, s.key3⟩ := if_neg hmax
    rw [hlead, hsearched]
    refine ⟨hask, fun e => ?_⟩
    rw [hscript.answer, keyReads, if_neg hmax]
    rfl

theorem overlay_overlay (data image : List Word) : overlay (overlay data image) image = overlay data image := by
  rw [overlay, overlay, List.drop_left]

/-- The registers when the slot of the answer has been fetched. -/
def State.fetchedRegs (s : State) (j : Index) : Regs :=
  ⟨entryOf s.conf (s.slot j), s.searched j, doneWord opRead 2 j, s.ext &&& 0xFFFC, fetchedBank (s.slot j) s.data, s.table⟩

/-- A search that finds a slot fetches it; what follows its last register is decided there (R244 to R247). -/
theorem clean_found (h : Startable s) (hscript : SearchScript s op i tail) (hi : s.conf.inRange i = true)
    (hj : j = nextValid s i) (hsome : ¬ nothingHigher s j) (hP : P s.table) {t : State} (ht : t.devCmd = none)
    (hafter : ∀ p, afterRead ((s.mid op 4 (s.conf.pageLen 2) (s.fetchedRegs j)).withPolls p) 2 (s.conf.pageLen 2 - 1) =
      .next (t.withPolls p)) :
    Clean P (searchAccesses s j) (s.start op s.e1 s.e2) t := by
  obtain ⟨hlead, hdrop⟩ := clean_lead h hscript hi hj hsome hP
  have hjr : s.conf.inRange j = true := hj ▸ nextValid_inRange s hi
  obtain ⟨hd, -, -, he1, -⟩ := (State.sized_iff s).1 h.sized
  have hbank : (overlay s.data (s.slot j).p0).length = s.conf.bankSize := (overlay_page_length h.sized j 0).trans hd
  have hread : ReadScript s op 1 (searchLead s j + 1) (s.searched j).hwIndex j (fun e => tail e j) := by
    rw [searched_hwIndex]
    exact ⟨hdrop, fun e => hscript.page0 e j, fun e => hscript.page1 e j, fun e => hscript.page2 e j⟩
  have hfetch := clean_read (r := s.answeredRegs j (s.searched j)) (P := P) hjr hread he1 (busyFlag_doneWord _ _ _) hbank
    (State.slot_sized h.sized j) rfl hP ht fun p => by
      have hthrough : fetchedBank (s.slot j) (overlay s.data (s.slot j).p0) = fetchedBank (s.slot j) s.data := by
        rw [fetchedBank, fetchedBank, throughBank, throughBank, overlay_overlay]
      have hregs : (⟨entryOf s.conf (s.slot j), s.searched j, doneWord opRead 2 j, s.ext &&& 0xFFFC,
          fetchedBank (s.slot j) (overlay s.data (s.slot j).p0), s.table⟩ : Regs) = s.fetchedRegs j := by
        rw [hthrough, State.fetchedRegs]
      refine Eq.trans ?_ (hafter p)
      rw [← hregs]
      rfl
  have hcount : searchAccesses s j = 4 + searchLead s j + (pageRegisters s.conf + 7) := by
    rw [searchAccesses, searchLead]
    omega
  rw [hcount]
  exact hlead.trans hfetch

end

end Sys2Proof.Machine

/-! ## `GetNextEntry` and `FindEntry` (R244, R245) -/

namespace Sys2Proof.Machine

open Sys2Proof.Claims

section

variable {s : State} {i j : Index} {P : List Slot → Prop}

/-! ### Their access lists, and what is decided at the last register -/

theorem searchScript_getNext (s : State) (i : Index) : SearchScript s (.getNextEntry i) i fun _ _ => [] where
  ask _ _ := rfl
  answer _ _ := rfl
  page0 _ _ := rfl
  page1 _ _ := rfl
  page2 _ _ := by rw [List.append_nil]; rfl

theorem searchScript_find (s : State) (i : Index) : SearchScript s (.findEntry i) (findStart s.conf i) fun _ _ => [] where
  ask _ _ := rfl
  answer _ _ := rfl
  page0 _ _ := rfl
  page1 _ _ := rfl
  page2 _ _ := by rw [List.append_nil]; rfl

theorem afterRead_getNext {u : State} (h : u.op = some (.getNextEntry i)) (q k : Nat) : afterRead u q k = advance u := by
  rw [afterRead, h]
  split <;> rfl

theorem lastRegister (u : State) : (2 : Nat) = 2 ∧ u.conf.pageLen 2 - 1 + 1 = u.conf.pageLen 2 :=
  ⟨rfl, Nat.sub_add_cancel (pageLen_two_pos u.cfg)⟩

theorem afterRead_find {u : State} (h : u.op = some (.findEntry i)) :
    afterRead u 2 (u.conf.pageLen 2 - 1) = if foundFlag u.hwIndex i then advance u else .next (u.abort .notFound) := by
  rw [afterRead, if_pos (lastRegister u), h]

theorem foundFlag_iff (j i : Index) : foundFlag j i = true ↔ j = i := by rw [foundFlag, beq_iff_eq]

/-- The last access of a search whose access list ends there. -/
theorem advance_fetched {op : Op} {start : Index} (hscript : SearchScript s op start fun _ _ => []) (p : Nat) :
    advance ((s.mid op 4 (s.conf.pageLen 2) (s.fetchedRegs j)).withPolls p) =
      finish ((s.mid op 4 (s.conf.pageLen 2 + 1) (s.fetchedRegs j)).withPolls p) := by
  obtain ⟨m, hm⟩ : ∃ m, s.conf.pageLen 2 = m + 1 := Nat.exists_eq_add_of_le' (pageLen_two_pos s.cfg)
  rw [hm]
  refine advance_past_end p ((congrArg (List.drop (m + 2)) (hscript.page2 _ _)).trans (List.drop_eq_nil_of_le ?_))
  simp [readPage, hm]

/-! ### Their clean runs -/

/-- `GetNextEntry` (R244). -/
theorem clean_getNext (h : Startable s) (hi : s.conf.inRange i = true) (hj : j = nextValid s i)
    (hsome : ¬ nothingHigher s j) (hP : P s.table) :
    Clean P (searchAccesses s j) (s.start (.getNextEntry i) s.e1 s.e2)
      (s.ended (s.fetchedRegs j) (.ok (.next j (entryOf s.conf (s.slot j))))) := by
  refine clean_found h (searchScript_getNext s i) hi hj hsome hP rfl fun p => ?_
  rw [afterRead_getNext rfl]
  refine (advance_fetched (searchScript_getNext s i) p).trans ?_
  refine congrArg Host.Outcome.next (congrArg (fun v => (s.ended (s.fetchedRegs j) (.ok (.next v _))).withPolls p) ?_)
  exact searched_hwIndex s j

/-- `FindEntry` (R245): the index must be the one asked for. -/
theorem clean_find (h : Startable s) (hi : s.conf.inRange i = true) (hj : j = nextValid s (findStart s.conf i))
    (hsome : ¬ nothingHigher s j) (hP : P s.table) :
    Clean P (searchAccesses s j) (s.start (.findEntry i) s.e1 s.e2)
      (s.ended (s.fetchedRegs j) (if j = i then .ok (.found (entryOf s.conf (s.slot j))) else .err .notFound)) := by
  refine clean_found h (searchScript_find s i) (findStart_inRange s.cfg hi) hj hsome hP rfl fun p => ?_
  have hindex : ((s.mid (.findEntry i) 4 (s.conf.pageLen 2) (s.fetchedRegs j)).withPolls p).hwIndex = j := searched_hwIndex s j
  refine (afterRead_find rfl).trans ?_
  rw [hindex]
  by_cases hji : j = i
  · rw [if_pos ((foundFlag_iff j i).2 hji), if_pos hji]
    exact advance_fetched (searchScript_find s i) p
  · rw [if_neg (mt (foundFlag_iff j i).1 hji), if_neg hji]
    rfl

/-! ### The states they end in -/

theorem ended_nothing (s : State) (j : Index) (rest : List Move) :
    { (s.ended (s.answeredRegs j (s.searched j)) (.err .notFound)).withPolls 0 with sched := rest } =
      withKeys s j { finished s (.err .notFound) rest with
        hwIndex := j, cmd := 0x4000 ||| j.setWidth 16, data := overlay s.data (s.slot j).p0 } := by
  rw [State.answeredRegs, doneWord_getNext, State.searched, withKeys]
  split <;> rfl

theorem ended_fetched (s : State) (j : Index) (res : Result) (rest : List Move) :
    { (s.ended (s.fetchedRegs j) res).withPolls 0 with sched := rest } =
      withKeys s j { finished s res rest with
        hwIndex := j, e1 := entryOf s.conf (s.slot j), cmd := 0x5800 ||| j.setWidth 16, ext := s.ext &&& 0xFFFC,
        data := throughBank s.data (s.slot j).p0 (s.slot j).p1 (s.slot j).p2 } := by
  rw [State.fetchedRegs, doneWord_read, State.searched, withKeys]
  split <;> rfl

end

/-- Settles O35: the search's clean run, followed by a prompt device. -/
theorem getNextEntryReturnsTheNextSlot : Obligations.GetNextEntryReturnsTheNextSlot := by
  intro port index j rest s hready hi hj
  have h := ((ready_iff s).1 hready).1
  refine ⟨fun hnothing hs => ?_, fun hsome hs => ?_⟩
  · refine (exec_of_valid (op := .getNextEntry index) rfl hi).trans ((perform_prompt h rfl
      (clean_nothing (P := fun _ => True) h (searchScript_getNext s index) hi hj hnothing trivial) rfl hs).trans ?_)
    rw [ended_nothing]
  · refine (exec_of_valid (op := .getNextEntry index) rfl hi).trans ((perform_prompt h rfl
      (clean_getNext (P := fun _ => True) h hi hj hsome trivial) rfl hs).trans ?_)
    rw [ended_fetched]

/-- Settles O36: as `GetNextEntry`, with the index compared at the end. -/
theorem findEntryReturnsTheExactSlot : Obligations.FindEntryReturnsTheExactSlot := by
  intro port index start j rest s hready hi hstart hj
  have h := ((ready_iff s).1 hready).1
  have hstart' : start = findStart s.conf index := hstart
  subst hstart'
  refine ⟨fun hnothing hs => ?_, fun hsome hs => ?_⟩
  · refine (exec_of_valid (op := .findEntry index) rfl hi).trans ((perform_prompt h rfl
      (clean_nothing (P := fun _ => True) h (searchScript_find s index) (findStart_inRange s.cfg hi) hj hnothing trivial) rfl
      hs).trans ?_)
    rw [ended_nothing]
  · refine (exec_of_valid (op := .findEntry index) rfl hi).trans ((perform_prompt h rfl
      (clean_find (P := fun _ => True) h hi hj hsome trivial) rfl hs).trans ?_)
    rw [ended_fetched]

end Sys2Proof.Machine

/-! ## `AddPort` and `RemovePort` (R246, R247) -/

namespace Sys2Proof.Machine

open Sys2Proof.Claims

/-- The port operation that adds or removes. -/
def portOp (add : Bool) (i : Index) (port : BitVec 4) : Op := if add then .addPort i port else .removePort i port

section

variable {s : State} {i j : Index} {add : Bool} {port : BitVec 4} {P : List Slot → Prop}

theorem searchScript_port (s : State) (add : Bool) (i : Index) (port : BitVec 4) :
    SearchScript s (portOp add i port) (findStart s.conf i) fun e _ => loadBody s.conf e i 0 := by
  cases add <;> exact ⟨fun _ _ => rfl, fun _ _ => rfl, fun _ _ => rfl, fun _ _ => rfl, fun _ _ => rfl⟩

theorem loadScript_port (s : State) (add : Bool) (i : Index) (port : BitVec 4) (e : Entry) (hw : Index) :
    LoadScript s (portOp add i port) 4 (s.conf.pageLen 2) e hw e i where
  first := by
    rw [(searchScript_port s add i port).page2, List.cons_append, List.drop_succ_cons]
    exact List.drop_left' (by rw [readPage, List.length_map, List.length_range])
  second := by cases add <;> rfl
  third := by cases add <;> rfl
  last := by cases add <;> rfl

theorem afterRead_port {u : State} (h : u.op = some (portOp add i port)) :
    afterRead u 2 (u.conf.pageLen 2 - 1) =
      if foundFlag u.hwIndex i then advance { u with e1 := modifyPort u.conf u.e1 port add }
      else .next (u.abort .notFound) := by
  rw [afterRead, if_pos (lastRegister u), h]
  cases add <;> rfl

theorem finish_port {u : State} (h : u.op = some (portOp add i port)) : finish u = .next (u.endOk .unit) := by
  rw [finish, h]
  cases add <;> rfl

/-- Another slot than the one asked for is read in full and left alone (R345). -/
theorem clean_port_other (h : Startable s) (hi : s.conf.inRange i = true) (hj : j = nextValid s (findStart s.conf i))
    (hsome : ¬ nothingHigher s j) (hne : j ≠ i) (hP : P s.table) :
    Clean P (searchAccesses s j) (s.start (portOp add i port) s.e1 s.e2) (s.ended (s.fetchedRegs j) (.err .notFound)) := by
  refine clean_found h (searchScript_port s add i port) (findStart_inRange s.cfg hi) hj hsome hP rfl fun p => ?_
  refine (afterRead_port rfl).trans (if_neg (mt (foundFlag_iff _ _).1 ?_))
  exact (searched_hwIndex s j).trans_ne hne

/-- The registers when the slot asked for has been fetched and its entry modified. -/
def State.modifiedRegs (s : State) (j : Index) (port : BitVec 4) (add : Bool) : Regs :=
  ⟨modifyPort s.conf (entryOf s.conf (s.slot j)) port add, s.searched j, doneWord opRead 2 j, s.ext &&& 0xFFFC,
    fetchedBank (s.slot j) s.data, s.table⟩

/-- The registers when the modified entry has been loaded back. -/
def State.portRegs (s : State) (i : Index) (e : Entry) : Regs :=
  ⟨e, s.searched i, doneWord opLoad 0 i, (s.ext &&& 0xFFFC) &&& 0xFFFC, loadedBank s.conf e (fetchedBank (s.slot i) s.data),
    s.table.set (slotNo s.conf i) (slotOf s.conf e)⟩

/-- The slot asked for is read, modified and loaded back (R246, R247). -/
theorem clean_port_found {e : Entry} (h : Startable s) (hi : s.conf.inRange i = true)
    (hj : i = nextValid s (findStart s.conf i)) (hsome : ¬ nothingHigher s i)
    (he : e = modifyPort s.conf (entryOf s.conf (s.slot i)) port add)
    (hP : ∀ T ∈ loadStages s.conf e (s.slot i), P (s.table.set (slotNo s.conf i) T)) :
    Clean P (searchAccesses s i + pageRegisters s.conf + 7) (s.start (portOp add i port) s.e1 s.e2)
      (s.ended (s.portRegs i e) (.ok .unit)) := by
  obtain ⟨m, hm⟩ : ∃ m, s.conf.pageLen 2 = m + 1 := Nat.exists_eq_add_of_le' (pageLen_two_pos s.cfg)
  obtain ⟨hd, -⟩ := (State.sized_iff s).1 h.sized
  have hT := State.slot_sized h.sized i
  have hwf : e.wf s.conf = true := he ▸ modifyPort_wf _ _ _ _ (entryOf_wf s.cfg hT)
  have hPs : P s.table := h.set_slot hi ▸ hP _ (by simp [loadStages])
  have hload := loadScript_port s add i port e (s.searched i).hwIndex
  have hread : Clean P (searchAccesses s i) (s.start (portOp add i port) s.e1 s.e2)
      (s.mid (portOp add i port) 4 (s.conf.pageLen 2 + 1) (s.modifiedRegs i port add)) := by
    refine clean_found h (searchScript_port s add i port) (findStart_inRange s.cfg hi) hj hsome hPs rfl fun p => ?_
    refine (afterRead_port rfl).trans ((if_pos ((foundFlag_iff _ _).2 (searched_hwIndex s i))).trans ?_)
    rw [hm] at hload ⊢
    refine advance_past (r := s.modifiedRegs i port add) p ?_
    rw [he] at hload
    exact ne_of_eq_of_ne hload.first (by simp [loadBody])
  have hbank : (fetchedBank (s.slot i) s.data).length = s.conf.bankSize :=
    bank_length_overlay (c := s.cfg) (bank_length_overlay (c := s.cfg) (bank_length_overlay (c := s.cfg) hd
      (Slot.page_length hT 0)) (Slot.page_length hT 1)) (Slot.page_length hT 2)
  have hstore : Clean P (pageRegisters s.conf + 7)
      (s.mid (portOp add i port) 4 (s.conf.pageLen 2 + 1) (s.modifiedRegs i port add)) (s.ended (s.portRegs i e) (.ok .unit)) := by
    subst he
    exact clean_load (r := s.modifiedRegs i port add) hwf hi hload (busyFlag_doneWord _ _ _) hbank (h.set_slot hi).symm
      (h.slotNo_lt hi) hP rfl fun _ => finish_port rfl
  rw [Nat.add_assoc]
  exact hread.trans hstore

theorem ended_port (s : State) (i : Index) (e : Entry) (rest : List Move) :
    { (s.ended (s.portRegs i e) (.ok .unit)).withPolls 0 with sched := rest } =
      withKeys s i { finished s (.ok .unit) rest with
        hwIndex := i, e1 := e, cmd := 0x3000 ||| i.setWidth 16, ext := s.ext &&& 0xFFFC,
        table := s.table.set (slotNo s.conf i) (slotOf s.conf e),
        data := throughBank (throughBank s.data (s.slot i).p0 (s.slot i).p1 (s.slot i).p2)
          (pageImage s.conf e 2) (pageImage s.conf e 1) (pageImage s.conf e 0) } := by
  have hext : (s.ext &&& 0xFFFC) &&& 0xFFFC = s.ext &&& 0xFFFC := by rw [BitVec.and_assoc, BitVec.and_self]
  rw [State.portRegs, doneWord_load, hext, State.searched, withKeys]
  split <;> rfl

/-- A port request that passes validation. -/
theorem exec_port (s : State) (add : Bool) (hi : s.conf.inRange i = true) (hport : port.toNat < s.conf.nPorts) :
    exec (if add then .addPort port i else .removePort port i) s = perform (portOp add i port) id s := by
  have hv : (s.conf.inRange i && decide (port.toNat < s.conf.nPorts)) = true := by simp [hi, hport]
  cases add with
  | false => exact exec_of_valid (op := .removePort i port) rfl hv
  | true => exact exec_of_valid (op := .addPort i port) rfl hv

end

/-- Settles O37: the search's clean run, and then, for the slot asked for, that of `LoadBody`. -/
theorem portOperationsModifyTheExactSlot : Obligations.PortOperationsModifyTheExactSlot := by
  intro port index start j add rest i s hready hi hport hinstr hstart hj
  have h := ((ready_iff s).1 hready).1
  have hstart' : start = findStart s.conf index := hstart
  subst hstart' hinstr
  have hexec := exec_port s add hi hport
  refine ⟨fun hnothing hs => ?_, fun hsome hne hs => ?_, fun hsome hji hs e he => ?_⟩
  · refine hexec.trans ((perform_prompt h rfl (clean_nothing (P := fun _ => True) h (searchScript_port s add index port)
      (findStart_inRange s.cfg hi) hj hnothing trivial) rfl hs).trans ?_)
    rw [ended_nothing]
  · refine hexec.trans ((perform_prompt h rfl (clean_port_other (P := fun _ => True) h hi hj hsome hne trivial) rfl
      hs).trans ?_)
    rw [ended_fetched]
  · subst hji
    refine hexec.trans ((perform_prompt h rfl (clean_port_found (P := fun _ => True) h hi hj hsome he fun _ _ => trivial) rfl
      hs).trans ?_)
    rw [ended_port]

end Sys2Proof.Machine

/-! ## `AdvConfig` (R285) -/

namespace Sys2Proof.Machine

open Sys2Proof.Claims

section

variable {s : State} {i j : Index} {a b e2 : Entry} {two : Bool} {P : List Slot → Prop}

/-- The tenure that loads the rule's own slot. -/
theorem clean_advMain (h : Startable s) (ha : a.wf s.conf = true) (hi : s.conf.inRange i = true)
    (hP : ∀ T ∈ loadStages s.conf a (s.slot i), P (s.table.set (slotNo s.conf i) T)) :
    Clean P (pageRegisters s.conf + 8) (s.start (.advMain i j two) a e2)
      ((s.withE2 e2).ended (s.loadedRegs a a i) (.ok (.slotsUsed (if two then 2 else 1)))) :=
  clean_loadOnly h ha hi (fun _ _ => rfl) hP rfl fun _ => rfl

/-- The state between the two tenures: the cascade slot `j` holds `b`, the lock is free, and no outcome is delivered. -/
def State.halfDone (s : State) (a b : Entry) (j : Index) : State :=
  { ((s.withE2 b).mid .flushAll 0 0 (s.loadedRegs a b j)).release with cascaded := s.caller :: s.cascaded }

/-- The tenure that loads the cascade slot. -/
theorem clean_advCascade (h : Startable s) (hb : b.wf s.conf = true) (hj : s.conf.inRange j = true)
    (hP : ∀ T ∈ loadStages s.conf b (s.slot j), P (s.table.set (slotNo s.conf j) T)) :
    Clean P (pageRegisters s.conf + 8) (s.start (.advCascade i j) a b) (s.halfDone a b j) :=
  clean_loadOnly h hb hj (fun _ _ => rfl) hP rfl fun _ => rfl

/-- Between the tenures the caller may start again. -/
theorem startable_halfDone (h : Startable s) (ha : a.wf s.conf = true) (hb : b.wf s.conf = true) (p : Nat)
    (ms : List Move) : Startable { (s.halfDone a b j).withPolls p with sched := ms } := by
  obtain ⟨hd, htable, htables, -, -⟩ := (State.sized_iff s).1 h.sized
  have hlen : (loadedBank s.conf b s.data).length = s.conf.bankSize :=
    bank_length_overlay (c := s.cfg) (bank_length_overlay (c := s.cfg) (bank_length_overlay (c := s.cfg) hd
      (pageImage_length s.cfg hb 2)) (pageImage_length s.cfg hb 1)) (pageImage_length s.cfg hb 0)
  have hsized := State.putSlot_sized h.sized j (slotOf s.conf b) (slotOf_sized s.cfg hb)
  obtain ⟨-, htable', htables', -, -⟩ := (State.sized_iff _).1 hsized
  exact ⟨(State.sized_iff _).2 ⟨hlen, htable', htables', ha, hb⟩, rfl, rfl, busyFlag_doneWord _ _ _⟩

/-- The tenure of the rule's own slot in a prompt environment. -/
theorem perform_advMain {stage : State → State} (h : Startable s)
    (hstage : stage (s.acquire (.advMain i j two)) = s.started (.advMain i j two) a e2) (ha : a.wf s.conf = true)
    (hi : s.conf.inRange i = true) {rest : List Move} (hs : s.sched = prompt (pageRegisters s.conf + 8) ++ rest) :
    perform (.advMain i j two) stage s =
      .next { finished s (.ok (.slotsUsed (if two then 2 else 1))) rest with
        e1 := a, e2 := e2, cmd := 0x3000 ||| i.setWidth 16, ext := s.ext &&& 0xFFFC,
        table := s.table.set (slotNo s.conf i) (slotOf s.conf a),
        data := throughBank s.data (pageImage s.conf a 2) (pageImage s.conf a 1) (pageImage s.conf a 0) } := by
  refine (perform_prompt h hstage (clean_advMain (P := fun _ => True) h ha hi fun _ _ => trivial) rfl hs).trans ?_
  rw [State.loadedRegs, doneWord_load]
  rfl

/-- The tenure of the cascade slot in a prompt environment. -/
theorem perform_advCascade {stage : State → State} (h : Startable s)
    (hstage : stage (s.acquire (.advCascade i j)) = s.started (.advCascade i j) a b) (hb : b.wf s.conf = true)
    (hj : s.conf.inRange j = true) {rest : List Move} (hs : s.sched = prompt (pageRegisters s.conf + 8) ++ rest) :
    perform (.advCascade i j) stage s = .next { (s.halfDone a b j).withPolls 0 with sched := rest } :=
  perform_prompt h hstage (clean_advCascade (P := fun _ => True) h hb hj fun _ _ => trivial) rfl hs

/-- The outcome of the second tenure, in terms of the state of the first. -/
theorem finished_halfDone (s : State) (a b : Entry) (i j : Index) (rest : List Move) :
    { finished { (s.halfDone a b j).withPolls 0 with sched := prompt (pageRegisters s.conf + 8) ++ rest }
        (.ok (.slotsUsed 2)) rest with
      e1 := a, e2 := b, cmd := 0x3000 ||| i.setWidth 16, ext := (s.ext &&& 0xFFFC) &&& 0xFFFC,
      table := (s.table.set (slotNo s.conf j) (slotOf s.conf b)).set (slotNo s.conf i) (slotOf s.conf a),
      data := throughBank (loadedBank s.conf b s.data) (pageImage s.conf a 2) (pageImage s.conf a 1)
        (pageImage s.conf a 0) } =
    { finished s (.ok (.slotsUsed 2)) rest with
      e1 := a, e2 := b, cmd := 0x3000 ||| i.setWidth 16, ext := s.ext &&& 0xFFFC,
      table := (s.table.set (slotNo s.conf j) (slotOf s.conf b)).set (slotNo s.conf i) (slotOf s.conf a),
      data := throughBank
        (throughBank s.data (pageImage s.conf b 2) (pageImage s.conf b 1) (pageImage s.conf b 0))
        (pageImage s.conf a 2) (pageImage s.conf a 1) (pageImage s.conf a 0) } := by
  have hext : (s.ext &&& 0xFFFC) &&& 0xFFFC = s.ext &&& 0xFFFC := by rw [BitVec.and_assoc, BitVec.and_self]
  have hfilter : (s.caller :: s.cascaded).filter (fun w => w != s.caller) = s.cascaded.filter fun w => w != s.caller := by
    simp
  rw [hext]
  simp only [finished, ← hfilter]
  rfl

theorem prompt_ne_nil (n : Nat) (rest : List Move) : prompt (n + 1) ++ rest ≠ [] := by
  rw [prompt_succ]
  exact List.cons_ne_nil _ _

/-! ### The rule and its entries -/

theorem exec_adv {port : BitVec 4} {r : Rule} {es : List Entry} (hv : advValid s.conf i j r = true)
    (hes : compileRule s.conf r j = some es) : exec (.advConfig port i j (some r)) s = advTenures i j es s := by
  simp only [exec, execAdvConfig, hv, if_true, hes]

theorem adv_inRange {c : Cfg} {r : Rule} (hv : advValid c i j r = true) : c.inRange i = true := (advValid_iff.1 hv).2.1

theorem compiled_one {c : Cfg.Checked} {r : Rule} (hes : compileRule c.val r j = some [a]) : a.wf c.val = true :=
  compileRule_wf c r j [a] hes a (by simp)

/-- Two entries are well formed, and they come with a second index that validation has accepted. -/
theorem compiled_two {c : Cfg.Checked} {r : Rule} (hv : advValid c.val i j r = true)
    (hes : compileRule c.val r j = some [a, b]) :
    a.wf c.val = true ∧ b.wf c.val = true ∧ c.val.inRange j = true ∧ j ≠ i := by
  rcases compileRule_cases c hes with ⟨a', hlist, -⟩ | ⟨a', b', hlist, ha, hb, hsecond⟩
  · cases hlist
  · cases hlist
    exact ⟨ha, hb, (advValid_iff.1 hv).2.2 hsecond⟩

end

/-- Settles O38: each tenure is a clean run of `LoadBody`; the second one starts from the state that the first one left. -/
theorem advConfigLoadsTheCascadeSlotFirst : Obligations.AdvConfigLoadsTheCascadeSlotFirst := by
  refine ⟨fun port index index2 r rest s hready hv => ⟨fun e hes hs => ?_, fun a b hes => ⟨fun hs => ?_, fun hs => ?_⟩⟩,
    fun port index index2 r a b rest s hbetween hv hes hs => ?_⟩
  all_goals
    have hi : s.conf.inRange index = true := adv_inRange hv
    rw [exec_adv hv hes]
  · have h := ((ready_iff s).1 hready).1
    exact perform_advMain (two := false) (stage := fun t => { t with e1 := e }) (e2 := s.e2) h rfl (compiled_one hes) hi hs
  · obtain ⟨h, hcaller⟩ := (ready_iff s).1 hready
    obtain ⟨ha, hb, hj, -⟩ := compiled_two (c := s.cfg) hv hes
    have hfirst := perform_advCascade (i := index) (stage := fun t => { t with e1 := a, e2 := b }) h rfl hb hj (hs.trans (List.append_nil _).symm)
    refine ⟨{ (s.halfDone a b index2).withPolls 0 with sched := [] }, ?_, rfl, rfl, rfl, rfl, rfl⟩
    rw [advTenures_cascade hcaller]
    refine (congrArg (andThen · _) hfirst).trans ?_
    rw [andThen_next, secondTenure_of_not_done fun _ _ => rfl]
  · obtain ⟨h, hcaller⟩ := (ready_iff s).1 hready
    obtain ⟨ha, hb, hj, -⟩ := compiled_two (c := s.cfg) hv hes
    have hfirst := perform_advCascade (i := index) (stage := fun t => { t with e1 := a, e2 := b }) h rfl hb hj hs
    rw [advTenures_cascade hcaller]
    refine (congrArg (andThen · _) hfirst).trans ?_
    rw [andThen_next, secondTenure_of_done (List.mem_cons_self ..) rfl (prompt_ne_nil _ _), ← finished_halfDone]
    exact perform_advMain (two := true) (startable_halfDone h ha hb 0 _) rfl ha hi rfl
  · obtain ⟨h, hcaller⟩ := (betweenTenures_iff s).1 hbetween
    obtain ⟨ha, hb, hj, -⟩ := compiled_two (c := s.cfg) hv hes
    rw [advTenures_main hcaller]
    exact perform_advMain (two := true) (e2 := b) h rfl ha hi hs

end Sys2Proof.Machine

/-! ## However far an operation gets (R310, R311, R340, R341) -/

namespace Sys2Proof.Machine

open Sys2Proof.Claims

section

variable {s t y : State} {P : List Slot → Prop} {op : Op} {stage : State → State} {e1 e2 : Entry} {i j : Index}

/-- Wherever a run stands, its table is one of the clean run's. -/
theorem Reached.table {ms : List Move} (h : Reached P t ms y) (ht : P t.table) : P y.table := by
  cases h with
  | goes hu hP => exact hP
  | done p left hleft => exact ht
  | fails c hc hP left => exact hP

/-- A run of an operation keeps the configuration. -/
theorem perform_conf (h : Startable s) (hstage : stage (s.acquire op) = s.started op e1 e2)
    (ht : perform op stage s = .next t) : t.conf = s.conf := by
  rw [h.perform hstage] at ht
  exact congrArg Subtype.val (runMoves_keeps ht).1

/-- However far an operation gets, its table is one of its clean run's. -/
theorem perform_table {n : Nat} (h : Startable s) (hstage : stage (s.acquire op) = s.started op e1 e2)
    (hclean : Clean P n (s.start op e1 e2) t) (hend : t.lockOwner = none) (ht : P t.table) :
    ∃ y, perform op stage s = .next y ∧ P y.table := by
  obtain ⟨y, hy, hreached⟩ := perform_reached h hstage hclean hend
  exact ⟨y, hy, hreached.table ht⟩

/-- The table holds one of the stages of a load in slot `i`. -/
def LoadingAt (s : State) (e : Entry) (i : Index) (table : List Slot) : Prop :=
  ∃ T ∈ loadStages s.conf e (s.slot i), table = s.table.set (slotNo s.conf i) T

theorem loadingAt_of_mem {e : Entry} {T : Slot} (h : T ∈ loadStages s.conf e (s.slot i)) :
    LoadingAt s e i (s.table.set (slotNo s.conf i) T) := ⟨T, h, rfl⟩

theorem loadingAt_slotOf (s : State) (e : Entry) (i : Index) :
    LoadingAt s e i (s.table.set (slotNo s.conf i) (slotOf s.conf e)) := loadingAt_of_mem (by simp [loadStages])

/-- What the slots of such a table hold. -/
theorem slot_of_table (h : Startable s) (hi : s.conf.inRange i = true) {T : Slot} (hconf : t.conf = s.conf)
    (ht : t.table = s.table.set (slotNo s.conf i) T) : t.slot i = T := by
  have hself := slot_putSlot_self s T ((State.sized_iff s).1 h.sized).2.1 hi
  rw [State.slot, hconf, ht]
  exact hself

theorem slot_of_table_ne (hi : s.conf.inRange i = true) {T : Slot} (hconf : t.conf = s.conf)
    (ht : t.table = s.table.set (slotNo s.conf i) T) (hj : s.conf.inRange j = true) (hne : i ≠ j) : t.slot j = s.slot j := by
  have hother := slot_putSlot_ne s T hi hj hne
  rw [State.slot, hconf, ht]
  exact hother

end

/-- Settles O46: page 0, which holds `TAG`, is loaded last. -/
theorem aSlotIsNeverValidHalfWritten : Obligations.ASlotIsNeverValidHalfWritten := by
  intro port index e s hready hi he
  have h := ((ready_iff s).1 hready).1
  have hstage : stageOf (.loadEntry port index (some e)) (s.acquire (.loadEntry index)) = s.started (.loadEntry index) e s.e2 := rfl
  obtain ⟨t, ht, T, hT, htable⟩ := perform_table h hstage
    (clean_loadEntry h he hi fun T hT => loadingAt_of_mem hT) rfl (loadingAt_slotOf s e index)
  have hconf : t.conf = s.conf := perform_conf h hstage ht
  have hslot := slot_of_table h hi hconf htable
  refine ⟨t, (exec_of_valid (op := .loadEntry index) rfl hi).trans ht, ⟨T, hT, htable⟩, fun hinvalid => ?_⟩
  rw [State.validAt, hconf, hslot]
  simp only [loadStages, List.mem_cons, List.not_mem_nil, or_false] at hT
  rcases hT with rfl | rfl | rfl | rfl
  · exact .inl hinvalid
  · exact .inl hinvalid
  · exact .inl hinvalid
  · exact .inr rfl

/-! ### The other operations -/

section

variable {s : State} {i : Index} {port : BitVec 4} {add : Bool}

/-- `modifyPort` changes header words only, so the pages 1 and 2 that are loaded back are those of the slot (R248). -/
theorem loadStages_modifyPort (s : State) (h : s.sized = true) (i : Index) (port : BitVec 4) (add : Bool) {T : Slot}
    (hT : T ∈ loadStages s.conf (modifyPort s.conf (entryOf s.conf (s.slot i)) port add) (s.slot i)) :
    T = s.slot i ∨ T = slotOf s.conf (modifyPort s.conf (entryOf s.conf (s.slot i)) port add) := by
  have hslot := State.slot_sized h i
  rw [Slot.sized, Bool.and_eq_true, Bool.and_eq_true] at hslot
  obtain ⟨-, -, hpage1, hpage2⟩ := pageImage_entryOfPages s.cfg hslot.1.1 hslot.1.2 hslot.2
  have h1 : pageImage s.conf (modifyPort s.conf (entryOf s.conf (s.slot i)) port add) 1 = (s.slot i).p1 := hpage1
  have h2 : pageImage s.conf (modifyPort s.conf (entryOf s.conf (s.slot i)) port add) 2 = (s.slot i).p2 := hpage2
  simp only [loadStages, List.mem_cons, List.not_mem_nil, or_false] at hT
  rw [h1, h2] at hT
  rcases hT with hT | hT | hT | hT
  · exact .inl hT
  · exact .inl hT
  · exact .inl hT
  · exact .inr hT

/-- However far a port operation gets, its slot is as before or holds the modified entry. -/
theorem perform_port_table (h : Startable s) (hi : s.conf.inRange i = true) :
    ∃ t, perform (portOp add i port) id s = .next t ∧
      (t.table = s.table ∨ t.table = s.table.set (slotNo s.conf i)
        (slotOf s.conf (modifyPort s.conf (entryOf s.conf (s.slot i)) port add))) := by
  have hstart := findStart_inRange s.cfg hi
  by_cases hnothing : nothingHigher s (nextValid s (findStart s.conf i))
  · exact perform_table (P := fun table => table = s.table ∨ table = s.table.set (slotNo s.conf i)
        (slotOf s.conf (modifyPort s.conf (entryOf s.conf (s.slot i)) port add))) h rfl
      (clean_nothing h (searchScript_port s add i port) hstart rfl hnothing (.inl rfl)) rfl (.inl rfl)
  by_cases hfound : nextValid s (findStart s.conf i) = i
  · refine perform_table (P := fun table => table = s.table ∨ table = s.table.set (slotNo s.conf i)
        (slotOf s.conf (modifyPort s.conf (entryOf s.conf (s.slot i)) port add))) h rfl
      (clean_port_found h hi hfound.symm (hfound ▸ hnothing) rfl fun T hT => ?_) rfl (.inr rfl)
    rcases loadStages_modifyPort s h.sized i port add hT with rfl | rfl
    · exact .inl (h.set_slot hi)
    · exact .inr rfl
  · exact perform_table (P := fun table => table = s.table ∨ table = s.table.set (slotNo s.conf i)
        (slotOf s.conf (modifyPort s.conf (entryOf s.conf (s.slot i)) port add))) h rfl
      (clean_port_other h hi rfl hnothing hfound (.inl rfl)) rfl (.inl rfl)

/-- The three operations that read leave the table as it is. -/
theorem perform_reading_table (h : Startable s) (hi : s.conf.inRange i = true) {op : Op}
    (hop : op ∈ [.readEntry i, .getNextEntry i, .findEntry i]) : ∃ t, perform op id s = .next t ∧ t.table = s.table := by
  have hsearch : ∀ {op start}, SearchScript s op start (fun _ _ => []) → s.conf.inRange start = true →
      nothingHigher s (nextValid s start) → ∃ t, perform op id s = .next t ∧ t.table = s.table :=
    fun {op start} hscript hstart hnothing => perform_table (P := (· = s.table)) h rfl
      (clean_nothing h hscript hstart rfl hnothing rfl) rfl rfl
  simp only [List.mem_cons, List.not_mem_nil, or_false] at hop
  rcases hop with rfl | rfl | rfl
  · exact perform_table (P := (· = s.table)) h rfl (clean_readEntry h hi rfl) rfl rfl
  · by_cases hnothing : nothingHigher s (nextValid s i)
    · exact hsearch (searchScript_getNext s i) hi hnothing
    · exact perform_table (P := (· = s.table)) h rfl (clean_getNext h hi rfl hnothing rfl) rfl rfl
  · by_cases hnothing : nothingHigher s (nextValid s (findStart s.conf i))
    · exact hsearch (searchScript_find s i) (findStart_inRange s.cfg hi) hnothing
    · exact perform_table (P := (· = s.table)) h rfl (clean_find h hi rfl hnothing rfl) rfl rfl

end

/-! ### `AdvConfig` with two entries -/

section

variable {s : State} {i j : Index} {a b : Entry}

/-- The state between the tenures, with the polls counted so far and the moves left. -/
def State.between (s : State) (a b : Entry) (j : Index) (p : Nat) (left : List Move) : State :=
  { (s.halfDone a b j).withPolls p with sched := left }

/-- Where an `AdvConfig` of two entries stands: its first tenure is in progress, has failed, or has ended with no move left;
or its second one has followed. -/
inductive TwoTenures (s : State) (i j : Index) (a b : Entry) : State → Prop
  | first {t : State} (howner : t.lockOwner ≠ none) (htable : LoadingAt s b j t.table) : TwoTenures s i j a b t
  | failed {u : State} (c : Cause) (hc : FailsBy s.sched c) (htable : LoadingAt s b j u.table) (left : List Move) :
    TwoTenures s i j a b { u.abort c with sched := left }
  | between (p : Nat) : TwoTenures s i j a b (s.between a b j p [])
  | second {t : State} (p : Nat) (left : List Move) (hleft : left <:+ s.sched)
    (hreached : Reached (LoadingAt (s.between a b j p left) a i)
      (((s.between a b j p left).withE2 b).ended ((s.between a b j p left).loadedRegs a a i) (.ok (.slotsUsed 2))) left t) :
    TwoTenures s i j a b t

/-- An `AdvConfig` of two entries, started anew, stands in one of those places. -/
theorem advTenures_two (h : Startable s) (hcaller : s.caller ∉ s.cascaded) (ha : a.wf s.conf = true)
    (hb : b.wf s.conf = true) (hi : s.conf.inRange i = true) (hj : s.conf.inRange j = true) :
    ∃ t, advTenures i j [a, b] s = .next t ∧ t.conf = s.conf ∧ TwoTenures s i j a b t := by
  obtain ⟨u, hu, hreached⟩ := perform_reached (stage := fun t => { t with e1 := a, e2 := b }) h rfl
    (clean_advCascade (i := i) (a := a) (P := LoadingAt s b j) h hb hj fun T hT => loadingAt_of_mem hT) rfl
  have hconf : u.conf = s.conf := perform_conf (stage := fun t => { t with e1 := a, e2 := b }) h rfl hu
  rw [advTenures_cascade hcaller, hu, andThen_next]
  cases hreached with
  | goes howner htable =>
    exact ⟨u, secondTenure_of_not_done fun _ hnone => absurd hnone howner, hconf, .first howner htable⟩
  | @fails v c hc htable left =>
    refine ⟨_, secondTenure_of_not_done fun hmem => ?_, hconf, .failed c hc htable left⟩
    exact absurd hmem (by simp [State.abort, State.deliver])
  | done p left hleft =>
    by_cases hnil : left = []
    · subst hnil
      exact ⟨_, secondTenure_of_not_done fun _ _ => rfl, hconf, .between p⟩
    · have hbetween : Startable (s.between a b j p left) := startable_halfDone h ha hb p left
      have hsecond : secondTenure i j a b (s.between a b j p left) = _ :=
        secondTenure_of_done (List.mem_cons_self ..) rfl hnil
      obtain ⟨t, ht, hreached⟩ := perform_reached (stage := fun t => { t with e1 := a, e2 := b }) hbetween rfl
        (clean_advMain (j := j) (two := true) (e2 := b) (P := LoadingAt (s.between a b j p left) a i) hbetween ha hi
          fun T hT => loadingAt_of_mem hT) rfl
      have hconf' : t.conf = (s.between a b j p left).conf :=
        perform_conf (stage := fun t => { t with e1 := a, e2 := b }) hbetween rfl ht
      exact ⟨t, hsecond.trans ht, hconf', .second p left hleft hreached⟩

/-- Between the tenures the cascade slot is complete and every other slot is as before. -/
theorem slot_between (h : Startable s) (hj : s.conf.inRange j = true) (p : Nat) (left : List Move) :
    (s.between a b j p left).slot j = slotOf s.conf b ∧
      ∀ x, s.conf.inRange x = true → x ≠ j → (s.between a b j p left).slot x = s.slot x :=
  ⟨slot_of_table h hj rfl rfl, fun _ hx hne => slot_of_table_ne hj rfl rfl hx hne.symm⟩

/-- Two slots at most are touched, and the rule's own only when the cascade slot is complete. -/
theorem TwoTenures.slots {t : State} (ht : TwoTenures s i j a b t) (h : Startable s) (hconf : t.conf = s.conf)
    (hi : s.conf.inRange i = true) (hj : s.conf.inRange j = true) (hne : j ≠ i) :
    (∀ x, s.conf.inRange x = true → x ≠ i → x ≠ j → t.slot x = s.slot x) ∧
      (t.slot i = s.slot i ∨ t.slot j = slotOf s.conf b) := by
  have hcascade : ∀ {u : State}, u.conf = s.conf → LoadingAt s b j u.table →
      (∀ x, s.conf.inRange x = true → x ≠ i → x ≠ j → u.slot x = s.slot x) ∧
        (u.slot i = s.slot i ∨ u.slot j = slotOf s.conf b) := fun hu hloading => by
    obtain ⟨T, -, htable⟩ := hloading
    exact ⟨fun x hx _ hxj => slot_of_table_ne hj hu htable hx hxj.symm, .inl (slot_of_table_ne hj hu htable hi hne)⟩
  cases ht with
  | first howner htable => exact hcascade hconf htable
  | failed c hc htable left => exact hcascade hconf htable
  | between p =>
    obtain ⟨hself, hother⟩ := slot_between (a := a) (b := b) h hj p []
    exact ⟨fun x hx _ hxj => hother x hx hxj, .inr hself⟩
  | second p left hleft hreached =>
    obtain ⟨hself, hother⟩ := slot_between (a := a) (b := b) h hj p left
    obtain ⟨T, -, htable⟩ := hreached.table (loadingAt_slotOf _ _ _)
    have hsame : ∀ x, s.conf.inRange x = true → x ≠ i → t.slot x = (s.between a b j p left).slot x := fun x hx hxi =>
      slot_of_table_ne (s := s.between a b j p left) hi hconf htable hx hxi.symm
    exact ⟨fun x hx hxi hxj => (hsame x hx hxi).trans (hother x hx hxj), .inr ((hsame j hj hne).trans hself)⟩

end

/-- Settles O47: every table on the way of an operation is one of its clean run's. -/
theorem partialEffectsOnTheTable : Obligations.PartialEffectsOnTheTable := by
  intro port index s hready
  obtain ⟨h, hcaller⟩ := (ready_iff s).1 hready
  refine ⟨?_, fun hi => ⟨?_, fun instr hinstr => ?_, fun hport add => ?_, fun index2 r hv => ?_⟩⟩
  · exact perform_table (stage := id)
      (P := fun table => table = s.table ∨ table = List.replicate s.conf.slots (emptySlot s.conf)) h rfl
      (clean_flushAll h (.inl rfl) (.inr rfl)) rfl (.inr rfl)
  · obtain ⟨t, ht, htable⟩ := perform_table (stage := id)
      (P := fun table => table = s.table ∨ table = s.table.set (slotNo s.conf index) (emptySlot s.conf)) h rfl
      (clean_flushEntry h hi (.inl rfl) (.inr rfl)) rfl (.inr rfl)
    exact ⟨t, (exec_of_valid (op := .flushEntry index) rfl hi).trans ht, htable⟩
  · simp only [List.mem_cons, List.not_mem_nil, or_false] at hinstr
    rcases hinstr with rfl | rfl | rfl
    · obtain ⟨t, ht, htable⟩ := perform_reading_table (op := .readEntry index) h hi (by simp)
      exact ⟨t, (exec_of_valid (op := .readEntry index) rfl hi).trans ht, htable⟩
    · obtain ⟨t, ht, htable⟩ := perform_reading_table (op := .getNextEntry index) h hi (by simp)
      exact ⟨t, (exec_of_valid (op := .getNextEntry index) rfl hi).trans ht, htable⟩
    · obtain ⟨t, ht, htable⟩ := perform_reading_table (op := .findEntry index) h hi (by simp)
      exact ⟨t, (exec_of_valid (op := .findEntry index) rfl hi).trans ht, htable⟩
  · rw [exec_port s add hi hport]
    exact perform_port_table h hi
  · obtain ⟨es, hes, ⟨a, rfl⟩ | ⟨a, b, rfl⟩, -⟩ := exec_advConfig (port := port) hv
    · obtain ⟨t, ht, T, -, htable⟩ := perform_table (stage := fun t => { t with e1 := a }) (P := LoadingAt s a index) h rfl
        (clean_advMain (j := index2) (two := false) (e2 := s.e2) h (compiled_one hes) hi fun T hT => loadingAt_of_mem hT) rfl
        (loadingAt_slotOf s a index)
      have hconf : t.conf = s.conf := perform_conf (stage := fun t => { t with e1 := a }) (e2 := s.e2) h rfl ht
      exact ⟨t, [a], (exec_adv hv hes).trans ht, hes,
        fun x hx hne _ => slot_of_table_ne hi hconf htable hx hne.symm, fun _ _ hlist => by cases hlist⟩
    · obtain ⟨ha, hb, hj, hne⟩ := compiled_two (c := s.cfg) hv hes
      obtain ⟨t, ht, hconf, htwo⟩ := advTenures_two h hcaller ha hb hi hj
      obtain ⟨hother, hown⟩ := htwo.slots h hconf hi hj hne
      refine ⟨t, [a, b], (exec_adv hv hes).trans ht, hes, fun x hx hxi hxj => hother x hx hxi ?_, fun a' b' hlist hchanged => ?_⟩
      · exact hxj.resolve_right (by simp)
      · cases hlist
        exact hown.resolve_left hchanged

end Sys2Proof.Machine

/-! ## Outcomes tell the truth (R120, R302, R303, R310) -/

namespace Sys2Proof.Machine

open Sys2Proof.Claims

section

variable {s y t : State} {i j : Index} {a b e1 e2 : Entry} {op : Op} {stage : State → State}

theorem FailsBy.of_suffix {ms left : List Move} {c : Cause} (h : FailsBy left c) (hleft : left <:+ ms) : FailsBy ms c := by
  rcases h with h | ⟨e, he, hmem⟩
  · exact .inl h
  · exact .inr ⟨e, he, hmem.imp (fun hm => hleft.subset hm) (fun hm => hleft.subset hm)⟩

theorem FailsBy.failed {c : Cause} (h : FailsBy s.sched c) (hy : y.result = .err c) : Failed s y := by
  rcases h with rfl | ⟨e, rfl, hmem⟩
  · exact .inl hy
  · exact .inr ⟨e, hy, hmem⟩

/-- When a run that has a clean run to `t` has ended, it has ended as `t` says, or it has failed. -/
theorem perform_tells {n : Nat} (Q : State → Prop) (h : Startable s)
    (hstage : stage (s.acquire op) = s.started op e1 e2) (hclean : Clean (fun _ => True) n (s.start op e1 e2) t)
    (hend : t.lockOwner = none) (hQ : ∀ p left, Q { t.withPolls p with sched := left })
    (hy : perform op stage s = .next y) (howner : y.lockOwner = none) : Q y ∨ Failed s y := by
  obtain ⟨y', hy', hreached⟩ := perform_reached h hstage hclean hend
  cases hy'.symm.trans hy
  cases hreached with
  | goes hu => exact absurd howner hu
  | done p left => exact .inl (hQ p left)
  | fails c hc hP left => exact .inr (hc.failed rfl)

/-- A search that finds nothing says so. -/
theorem search_tells_nothing {start : Index} {tail : Entry → Index → List Access} (h : Startable s)
    (hscript : SearchScript s op start tail) (hi : s.conf.inRange start = true) (hnothing : nothingHigher s (nextValid s start))
    (hy : perform op id s = .next y) (howner : y.lockOwner = none) : y.result = .err .notFound ∨ Failed s y :=
  perform_tells (fun y => y.result = .err .notFound) h rfl
    (clean_nothing h hscript hi rfl hnothing trivial) rfl (fun _ _ => rfl) hy howner

/-- `GetNextEntry` (R244). -/
theorem getNext_tells (h : Startable s) (hi : s.conf.inRange i = true) (hy : perform (.getNextEntry i) id s = .next y)
    (howner : y.lockOwner = none) :
    (nothingHigher s (nextValid s i) ∧ y.result = .err .notFound) ∨
      (¬ nothingHigher s (nextValid s i) ∧
        y.result = .ok (.next (nextValid s i) (entryOf s.conf (s.slot (nextValid s i))))) ∨ Failed s y := by
  by_cases hnothing : nothingHigher s (nextValid s i)
  · have := search_tells_nothing h (searchScript_getNext s i) hi hnothing hy howner
    tauto
  · have := perform_tells (fun y => y.result = .ok (.next (nextValid s i) (entryOf s.conf (s.slot (nextValid s i))))) h rfl
      (clean_getNext h hi rfl hnothing trivial) rfl (fun _ _ => rfl) hy howner
    tauto

/-- `FindEntry` (R245). -/
theorem find_tells (h : Startable s) (hi : s.conf.inRange i = true) (hj : j = nextValid s (findStart s.conf i))
    (hy : perform (.findEntry i) id s = .next y) (howner : y.lockOwner = none) :
    ((nothingHigher s j ∨ j ≠ i) ∧ y.result = .err .notFound) ∨
      (¬ nothingHigher s j ∧ j = i ∧ y.result = .ok (.found (entryOf s.conf (s.slot i)))) ∨ Failed s y := by
  subst hj
  by_cases hnothing : nothingHigher s (nextValid s (findStart s.conf i))
  · have := search_tells_nothing h (searchScript_find s i) (findStart_inRange s.cfg hi) hnothing hy howner
    tauto
  · have htells := perform_tells (fun y => y.result = if nextValid s (findStart s.conf i) = i then
        .ok (.found (entryOf s.conf (s.slot (nextValid s (findStart s.conf i))))) else .err .notFound) h rfl
      (clean_find h hi rfl hnothing trivial) rfl (fun _ _ => rfl) hy howner
    by_cases hji : nextValid s (findStart s.conf i) = i
    · simp only [hji, if_true] at htells hnothing ⊢
      tauto
    · rw [if_neg hji] at htells
      tauto

/-- `AddPort` and `RemovePort` (R246, R247). -/
theorem port_tells {port : BitVec 4} {add : Bool} (h : Startable s) (hi : s.conf.inRange i = true)
    (hj : j = nextValid s (findStart s.conf i)) (hy : perform (portOp add i port) id s = .next y)
    (howner : y.lockOwner = none) :
    ((nothingHigher s j ∨ j ≠ i) ∧ y.result = .err .notFound) ∨
      (¬ nothingHigher s j ∧ j = i ∧ y.result = .ok .unit ∧
        y.slot i = slotOf s.conf (modifyPort s.conf (entryOf s.conf (s.slot i)) port add)) ∨ Failed s y := by
  subst hj
  by_cases hnothing : nothingHigher s (nextValid s (findStart s.conf i))
  · have := search_tells_nothing h (searchScript_port s add i port) (findStart_inRange s.cfg hi) hnothing hy howner
    tauto
  by_cases hji : nextValid s (findStart s.conf i) = i
  · have := perform_tells (fun y => y.result = .ok .unit ∧
        y.slot i = slotOf s.conf (modifyPort s.conf (entryOf s.conf (s.slot i)) port add)) h rfl
      (clean_port_found h hi hji.symm (hji ▸ hnothing) rfl fun _ _ => trivial) rfl
      (fun _ _ => ⟨rfl, slot_of_table h hi rfl rfl⟩) hy howner
    tauto
  · have := perform_tells (fun y => y.result = .err .notFound) h rfl
      (clean_port_other h hi rfl hnothing hji trivial) rfl (fun _ _ => rfl) hy howner
    tauto

/-- A tenure that loads the rule's own slot (R285). -/
theorem advMain_tells {two : Bool} (h : Startable s) (ha : a.wf s.conf = true) (hi : s.conf.inRange i = true)
    (hstage : stage (s.acquire (.advMain i j two)) = s.started (.advMain i j two) a e2)
    (hy : perform (.advMain i j two) stage s = .next y) (howner : y.lockOwner = none) :
    (y.result = .ok (.slotsUsed (if two then 2 else 1)) ∧ y.slot i = slotOf s.conf a ∧
      ∀ x, s.conf.inRange x = true → x ≠ i → y.slot x = s.slot x) ∨ Failed s y :=
  perform_tells (fun y => y.result = .ok (.slotsUsed (if two then 2 else 1)) ∧ y.slot i = slotOf s.conf a ∧
      ∀ x, s.conf.inRange x = true → x ≠ i → y.slot x = s.slot x) h hstage
    (clean_advMain h ha hi fun _ _ => trivial) rfl
    (fun _ _ => ⟨rfl, slot_of_table h hi rfl rfl, fun _ hx hne => slot_of_table_ne hi rfl rfl hx hne.symm⟩) hy howner

/-- An `AdvConfig` of two entries that has ended (R285). -/
theorem TwoTenures.tells (ht : TwoTenures s i j a b t) (h : Startable s) (ha : a.wf s.conf = true)
    (hb : b.wf s.conf = true) (hi : s.conf.inRange i = true) (hj : s.conf.inRange j = true) (hne : j ≠ i)
    (howner : t.lockOwner = none) :
    (t.slot j = slotOf s.conf b ∧ (t.result = .ok (.slotsUsed 2) ∧ t.slot i = slotOf s.conf a ∨
      s.caller ∈ t.cascaded ∧ t.result = s.result ∧ t.slot i = s.slot i)) ∨ Failed s t := by
  cases ht with
  | first hgoes htable => exact absurd howner hgoes
  | failed c hc htable left => exact .inr (hc.failed rfl)
  | between p =>
    obtain ⟨hself, hother⟩ := slot_between (a := a) (b := b) h hj p []
    exact .inl ⟨hself, .inr ⟨List.mem_cons_self .., rfl, hother i hi hne.symm⟩⟩
  | second p left hleft hreached =>
    have hbetween : Startable (s.between a b j p left) := startable_halfDone h ha hb p left
    obtain ⟨hself, hother⟩ := slot_between (a := a) (b := b) h hj p left
    cases hreached with
    | goes hgoes htable => exact absurd howner hgoes
    | done q left' =>
      refine .inl ⟨Eq.trans ?_ hself, .inl ⟨rfl, slot_of_table hbetween hi rfl rfl⟩⟩
      exact slot_of_table_ne (s := s.between a b j p left) hi rfl rfl hj hne.symm
    | fails c hc htable left' => exact .inr ((hc.of_suffix hleft).failed rfl)

end

/-- Settles O48: a run that has ended has ended as its clean run does, or it has failed. -/
theorem outcomesTellTheTruth : Obligations.OutcomesTellTheTruth := by
  refine ⟨fun port index s t hready howner => ?_, fun port index index2 r es s t hstart hv hes howner ht => ?_⟩
  · have h := ((ready_iff s).1 hready).1
    refine ⟨fun ht => ?_, fun hi => ⟨fun ht => ?_, fun e he ht => ?_, fun ht => ?_, fun j hj ht => ?_,
      fun j hj => ⟨fun ht => ?_, fun add hport ht => ?_⟩⟩⟩
    · exact perform_tells (stage := id)
        (fun y => y.result = .ok .unit ∧ ∀ j, s.conf.inRange j = true → y.slot j = emptySlot s.conf) h rfl
        (clean_flushAll h trivial trivial) rfl
        (fun _ _ => ⟨rfl, fun j _ => State.slot_of_table_eq_replicate rfl j⟩) ht howner
    · exact perform_tells (fun y => y.result = .ok .unit ∧ y.slot index = emptySlot s.conf) h rfl
        (clean_flushEntry h hi trivial trivial) rfl (fun _ _ => ⟨rfl, slot_of_table h hi rfl rfl⟩)
        ((exec_of_valid (op := .flushEntry index) rfl hi).symm.trans ht) howner
    · exact perform_tells (stage := stageOf (.loadEntry port index (some e)))
        (fun y => y.result = .ok .unit ∧ y.slot index = slotOf s.conf e) h rfl
        (clean_loadEntry h he hi fun _ _ => trivial) rfl (fun _ _ => ⟨rfl, slot_of_table h hi rfl rfl⟩)
        ((exec_of_valid (op := .loadEntry index) rfl hi).symm.trans ht) howner
    · exact perform_tells (fun y => y.result = .ok (.entry (entryOf s.conf (s.slot index)) (s.validAt index))) h rfl
        (clean_readEntry h hi trivial) rfl (fun _ _ => rfl)
        ((exec_of_valid (op := .readEntry index) rfl hi).symm.trans ht) howner
    · subst hj
      exact getNext_tells h hi ((exec_of_valid (op := .getNextEntry index) rfl hi).symm.trans ht) howner
    · exact find_tells h hi hj ((exec_of_valid (op := .findEntry index) rfl hi).symm.trans ht) howner
    · exact port_tells h hi hj ((exec_port s add hi hport).symm.trans ht) howner
  · have h : Startable s := hstart.elim (fun hready => ((ready_iff s).1 hready).1) fun hbetween =>
      ((betweenTenures_iff s).1 hbetween).1
    have hi : s.conf.inRange index = true := adv_inRange hv
    have hexec := (exec_adv (port := port) hv hes).symm.trans ht
    rcases compileRule_cases s.cfg hes with ⟨a, rfl, ha⟩ | ⟨a, b, rfl, -⟩
    · rcases advMain_tells (stage := fun t => { t with e1 := a }) (e2 := s.e2) h ha hi rfl hexec howner with
        ⟨hresult, hslot, -⟩ | hfailed
      · exact .inl ⟨a, rfl, hresult, hslot⟩
      · exact .inr (.inr hfailed)
    · obtain ⟨ha, hb, hj, hne⟩ := compiled_two (c := s.cfg) hv hes
      by_cases hcaller : s.caller ∈ s.cascaded
      · have hnot : ¬ s.ready = true := fun hready => ((ready_iff s).1 hready).2 hcaller
        rw [advTenures_main hcaller] at hexec
        rcases advMain_tells (stage := fun t => { t with e1 := a, e2 := b }) (e2 := b) h ha hi rfl hexec howner with
          ⟨hresult, hslot, hother⟩ | hfailed
        · exact .inr (.inl ⟨a, b, rfl, by rw [if_neg hnot]; exact hother index2 hj hne, .inl ⟨hresult, hslot⟩⟩)
        · exact .inr (.inr hfailed)
      · have hready : s.ready = true := (ready_iff s).2 ⟨h, hcaller⟩
        obtain ⟨t', ht', -, htwo⟩ := advTenures_two h hcaller ha hb hi hj
        cases ht'.symm.trans hexec
        rcases htwo.tells h ha hb hi hj hne howner with ⟨hslot, hcase⟩ | hfailed
        · exact .inr (.inl ⟨a, b, rfl, by rw [if_pos hready]; exact hslot, hcase.imp id fun hfirst => ⟨hready, hfirst⟩⟩)
        · exact .inr (.inr hfailed)

end Sys2Proof.Machine
